-- ==== Sys2Proof/Word.lean ====
section
/-! DEFINITION. The words of the machine and their plainest arithmetic: 64-bit registers, bytes, vector registers of
16,384 bits (R11), and the place of a vector loop context on the device (R26). -/

namespace Sys2Proof

/-- A 64-bit register value (R11). -/
abbrev Word := BitVec 64

/-- The smallest addressable unit of memory (R7). -/
abbrev Byte := BitVec 8

/-- One 32-bit parcel of instruction memory (R93). -/
abbrev Parcel := BitVec 32

/-- A vector or mask register at the W-core's VLEN (R11). An N-core uses the low 2,048 bits. -/
abbrev VReg := BitVec 16384

/-- A register group of at most eight vector registers, read as one (R13). -/
abbrev Group := BitVec 131072

/-- The two streams of a vector loop context (R9). -/
inductive Stream where
  | ep
  | ap
deriving DecidableEq, Repr

/-- A core of the device: compute die 0 to 3, core 0 to 11, of which 8 to 11 are N-cores (R26). -/
structure CoreId where
  die : Fin 4
  core : Fin 12
deriving DecidableEq, Repr

/-- The place of a vector loop context: its core and resident slot (R26). -/
structure Loc where
  die : Fin 4
  core : Fin 12
  slot : Fin 4
deriving DecidableEq, Repr

/-- A task queue: queue 0 to 63 of a die (R300). -/
structure QueueId where
  die : Fin 4
  q : Fin 64
deriving DecidableEq, Repr

/-- N-cores are cores 8 to 11 of a die (R26). -/
def CoreId.ncore (c : CoreId) : Bool := decide (8 ≤ c.core.val)

/-- The number of a core among the 48 of the device. -/
def CoreId.index (c : CoreId) : Fin 48 := ⟨12 * c.die.val + c.core.val, by omega⟩

/-- The number of a task queue among the 256 of the device. -/
def QueueId.index (q : QueueId) : Fin 256 := ⟨64 * q.die.val + q.q.val, by omega⟩

def Loc.coreId (l : Loc) : CoreId := ⟨l.die, l.core⟩

end Sys2Proof
end

