-- ==== Sys2Proof/Config.lean ====
section
/-! DEFINITION. What the spec leaves open as a value. Each constant here is OPAQUE: no body, so that nothing in Lean can
evaluate it, and a statement about it holds for every value. The machine applies it to a counter that it advances
(`State.fresh`), so that two uses need not agree. -/

namespace Sys2Proof.Config

/-- Bits that nothing in the spec determines, at the uses that log 4 lists. -/
opaque freeVec : Nat → VReg

/-- Which of the values that a context has written an undefined register holds (R36). Log 4. -/
opaque freePast : Nat → Nat

/-- A byte that the spec leaves open: of a host read of a hole, or of a poisoned line that is measured. Logs 4, 33. -/
opaque freeByte : Nat → Nat → Byte

/-- The arrival order of the answers to a reducing load: that of the n-th one takes them by rising key (R192, R398). Log 34. -/
opaque freeArrival : Nat → Nat → Nat

/-- Which parcel a fetch returns, where memory has changed since one was fetched there (R120): the n-th such fetch. Log 13. -/
opaque freeParcel : Nat → Nat

/-- How far CYCLE has advanced since it was last read (R19, R148). Log 11. -/
opaque freeCycles : Nat → Word

/-- The nanoseconds since module reset that a log record's TIME holds (R442). Log 11. -/
opaque freeTime : Nat → Word

/-- Byte `i` of each of the two fused firmware verification keys: 64 bytes (R450). Log 17. -/
opaque firmwareKey : Bool → Nat → Byte

/-- Byte `i` of what the device identity derives from its fused secret: 32 bytes each of SK.seed, SK.prf and PK.seed (R450). Log 17. -/
opaque identityKey : Nat → Byte

/-- Byte `i` of the randomizer of the n-th signature (R450; FIPS 205). Log 17. -/
opaque freeRandomizer : Nat → Nat → Byte

/-- The part of a firmware image that is management firmware (R451). Log 17. -/
opaque managementPart : List Byte → List Byte

/-- The device fuses that boot measures (R448). Log 17. -/
opaque fuses : List Byte

/-- The silicon revision of DEVID (R453). Log 11. -/
opaque siliconRevision : BitVec 16

/-- How often a request that is answered in the step that sends it has been resent before (R395): the n-th one. Log 10. -/
opaque freeResends : Nat → Nat

/-- Which of an engine command's rows at and above DONE have landed after a failure (R288). Log 23. -/
opaque freeLanded : Nat → Nat → Bool

/-- How far a vector instruction has come when its progress register is read (R39, R148). Log 33. -/
opaque freeProgress : Nat → Nat

end Sys2Proof.Config
end

