-- ==== Sys2Proof/Syntax.lean ====
section
/-! DEFINITION. The steps of the machine as syntax: one constructor of `Instr` per row of spec/opcode_table.json. Rows ADD
to VPUB are the instructions, with every field of their encoding (R95 to R112, files 05 to 10); rows ATP_ASID_WRITE to
POWER_LOSS are the events of the machine and of what surrounds it, with the data the event brings. -/

namespace Sys2Proof

/-- The types of R32. -/
inductive Ty where
  | s8 | s16 | s32 | s64 | n8 | n16 | n32 | n64
  | n3 | n4 | s4 | n6 | s6 | s3
  | f64 | f32 | bf16 | f16 | e5m2 | e4m3 | e3m2 | e2m1 | mk8
  | e4m3s | e2m1s | mk8s
deriving DecidableEq, Repr

/-- Rounding modes (R50). -/
inductive Rm where
  | rne | rtz | rdn | rup | rsr
deriving DecidableEq, Repr

/-- Formats of the scalar floating instructions (R129). -/
inductive FFmt where
  | f64 | f32 | f16 | bf16
deriving DecidableEq, Repr

/-- Integer codes of the scalar conversions (R133). -/
inductive IFmt where
  | s32 | n32 | s64 | n64
deriving DecidableEq, Repr

/-- Scalar load kinds: F3 of SLD (R127). -/
inductive LdKind where
  | s8 | s16 | s32 | s64 | n8 | n16 | n32 | n64
deriving DecidableEq, Repr

/-- Scalar store kinds: F3 of SST (R127). -/
inductive StKind where
  | n8 | n16 | n32 | n64
deriving DecidableEq, Repr

/-- Scopes (R272). -/
inductive Scope where
  | context | core | die | device | fabric
deriving DecidableEq, Repr

/-- Ordering roles of a scalar atomic: SEM (R275). -/
inductive Sem where
  | none | acq | rel | both
deriving DecidableEq, Repr

/-- Index types of the indexed accesses: IXT (R187). -/
inductive IdxTy where
  | n32 | n16 | s32 | n64
deriving DecidableEq, Repr

/-- Product rules of `fnmul`: RULE (R225). -/
inductive Rule where
  | follow | dealiased | aliased
deriving DecidableEq, Repr

/-- A guard: mask register and polarity, true for `.t` (R100). -/
structure Guard where
  reg : Fin 8
  pol : Bool
deriving DecidableEq, Repr

/-- The common fields of a 64-bit instruction (R98): rounding, wait and post tokens (R105), OVT and ORD (R103), type
(none for TY = 0x1F, R101), guard. -/
structure Common where
  rm : Rm
  wait : Option (Fin 8)
  post : Option (Fin 8)
  ovt : Bool
  ord : Bool
  ty : Option Ty
  guard : Option Guard
deriving DecidableEq, Repr

/-- The second operand of an element-wise instruction: a V register, a scalar register (G for class I, H for class F) or
IMM14 (R154). -/
inductive Src where
  | v (b : Fin 32)
  | s (b : Fin 32)
  | i (imm : BitVec 14)
deriving DecidableEq, Repr

/-- The second operand of a compare or of `fnscl`: a V register or a scalar register (R164, R225). -/
inductive Src2 where
  | v (b : Fin 32)
  | s (b : Fin 32)
deriving DecidableEq, Repr

/-- What `vstrip` and `vstripx` write into VTYPE when SETV = 1 (R141). -/
structure SetV where
  lg : Fin 4
  wc : BitVec 4
deriving DecidableEq, Repr

/-- A packet of the fabric: its header beat (R388) and its data. `mbz` holds the header bits that the layout marks zero;
`home` is the home endpoint of the frame addressed, for which the layout gives no bits (log 35). -/
structure Packet where
  kind : BitVec 8
  home : BitVec 13
  dst : BitVec 13
  grp : Bool
  rly : Bool
  pv : Bool
  src : BitVec 13
  orig : BitVec 13
  len : BitVec 14
  seq : BitVec 32
  rprev : BitVec 32
  addr : BitVec 50
  op : BitVec 6
  ty : BitVec 5
  route : BitVec 16
  oseq : BitVec 32
  mbz : BitVec 19
  data : List Byte
  poison : Bool
deriving DecidableEq, Repr

/-- How a scrub read finds its line (R445, R446). -/
inductive LineState where
  | clean | correctable | uncorrectable
deriving DecidableEq, Repr

/-- What befalls the CXL link: it goes down, it has trained, or it reports an error that it does not correct (R410, R455). -/
inductive LinkEvent where
  | down | trained | error
deriving DecidableEq, Repr

/-- One constructor per row of spec/opcode_table.json, in the table's order but for the first thirty, which stand last. -/
inductive Instr where
  -- IMD (R125)
  | mul (d a b : Fin 32)
  | mulh (d a b : Fin 32)
  | mulhn (d a b : Fin 32)
  | mulhsn (d a b : Fin 32)
  | div (d a b : Fin 32)
  | divn (d a b : Fin 32)
  | rem (d a b : Fin 32)
  | remn (d a b : Fin 32)
  -- SLD, SST (R127)
  | sld (k : LdKind) (d a : Fin 32) (imm : BitVec 12)
  | sst (k : StKind) (d a : Fin 32) (imm : BitVec 12)
  -- FRR (R129)
  | fadd (f : FFmt) (d a b : Fin 32)
  | fsub (f : FFmt) (d a b : Fin 32)
  | fmul (f : FFmt) (d a b : Fin 32)
  | fdiv (f : FFmt) (d a b : Fin 32)
  | fsqrt (f : FFmt) (d a : Fin 32)
  | fmin (f : FFmt) (d a b : Fin 32)
  | fmax (f : FFmt) (d a b : Fin 32)
  | fsgnj (f : FFmt) (d a b : Fin 32)
  | fsgnjn (f : FFmt) (d a b : Fin 32)
  | fsgnjx (f : FFmt) (d a b : Fin 32)
  | feq (f : FFmt) (d a b : Fin 32)
  | flt (f : FFmt) (d a b : Fin 32)
  | fle (f : FFmt) (d a b : Fin 32)
  | fclass (f : FFmt) (d a : Fin 32)
  -- FMA4 (R131)
  | fmadd (f : FFmt) (d a b c : Fin 32)
  | fmsub (f : FFmt) (d a b c : Fin 32)
  | fnmadd (f : FFmt) (d a b c : Fin 32)
  | fnmsub (f : FFmt) (d a b c : Fin 32)
  -- FLS (R132)
  | fldF64 (d a : Fin 32) (imm : BitVec 12)
  | fldF32 (d a : Fin 32) (imm : BitVec 12)
  | fldF16 (d a : Fin 32) (imm : BitVec 12)
  | fstF64 (d a : Fin 32) (imm : BitVec 12)
  | fstF32 (d a : Fin 32) (imm : BitVec 12)
  | fstF16 (d a : Fin 32) (imm : BitVec 12)
  -- FCV (R133)
  | fmvgh (d a : Fin 32)
  | fmvhg (d a : Fin 32)
  | fcvtFloatFloat (g f : FFmt) (d a : Fin 32)
  | fcvtFloatInt (i : IFmt) (f : FFmt) (d a : Fin 32)
  | fcvtIntFloat (f : FFmt) (i : IFmt) (d a : Fin 32)
  | fcvtz (i : IFmt) (f : FFmt) (d a : Fin 32)
  -- BCC (R135)
  | beq (a b : Fin 32) (off : BitVec 12)
  | bne (a b : Fin 32) (off : BitVec 12)
  | blt (a b : Fin 32) (off : BitVec 12)
  | bge (a b : Fin 32) (off : BitVec 12)
  | bltn (a b : Fin 32) (off : BitVec 12)
  | bgen (a b : Fin 32) (off : BitVec 12)
  -- JMP, CALL, JR (R136)
  | j (off : BitVec 25)
  | call (off : BitVec 25)
  | jr (a : Fin 32) (imm : BitVec 12)
  | callr (a : Fin 32) (imm : BitVec 12)
  | ret
  | exit
  -- BANY (R138), BQ (R140)
  | bany (m : Fin 8) (off : BitVec 12)
  | ball (m : Fin 8) (off : BitVec 12)
  | bnone (m : Fin 8) (off : BitVec 12)
  | bnall (m : Fin 8) (off : BitVec 12)
  | bq (off : BitVec 12)
  | bqn (off : BitVec 12)
  -- STRIP (R141)
  | vstrip (d a : Fin 32) (sv : Option SetV)
  | vstripx (d a b : Fin 32) (sv : Option SetV)
  | vrel
  -- MODE (R145)
  | mode (t : Bool)
  | apfork (off : BitVec 12)
  | apjoin
  -- CREG (R147)
  | cread (d : Fin 32) (creg : BitVec 12)
  | cwrite (creg : BitVec 12) (a : Fin 32)
  | cswap (d : Fin 32) (creg : BitVec 12) (a : Fin 32)
  -- FENCE (R273)
  | fenceFull (scope : Scope)
  | fenceAcq (scope : Scope)
  | fenceRel (scope : Scope)
  | fenceIfetch (scope : Scope)
  -- TRAP (R295)
  | trap (n : BitVec 12)
  | tret
  | adjourn
  -- PGMV (R296, R297)
  | pgmove (d a b : Fin 32)
  | pgstat (d a : Fin 32)
  -- CVY (R112)
  | cvy (cnt : BitVec 3) (slots : BitVec 18)
  -- HINT (R110)
  | nop
  | hint32 (bits : BitVec 25)
  | hint64 (bits : BitVec 56)
  -- ARVV, ARVS, ARVI (R155)
  | vadd (c : Common) (d a : Fin 32) (b : Src)
  | vsub (c : Common) (d a : Fin 32) (b : Src)
  | vrsub (c : Common) (d a : Fin 32) (b : Src)
  | vmul (c : Common) (d a : Fin 32) (b : Src)
  | vmulh (c : Common) (d a : Fin 32) (b : Src)
  | vdiv (c : Common) (d a : Fin 32) (b : Src)
  | vrem (c : Common) (d a : Fin 32) (b : Src)
  | vmin (c : Common) (d a : Fin 32) (b : Src)
  | vmax (c : Common) (d a : Fin 32) (b : Src)
  | vand (c : Common) (d a : Fin 32) (b : Src)
  | vor (c : Common) (d a : Fin 32) (b : Src)
  | vxor (c : Common) (d a : Fin 32) (b : Src)
  | vsll (c : Common) (d a : Fin 32) (b : Src)
  | vsrl (c : Common) (d a : Fin 32) (b : Src)
  | vsra (c : Common) (d a : Fin 32) (b : Src)
  | vsadd (c : Common) (d a : Fin 32) (b : Src)
  | vssub (c : Common) (d a : Fin 32) (b : Src)
  | vsqrt (c : Common) (d a : Fin 32)
  | vabs (c : Common) (d a : Fin 32)
  | vneg (c : Common) (d a : Fin 32)
  | vsgnj (c : Common) (d a : Fin 32) (b : Src)
  | vsgnjn (c : Common) (d a : Fin 32) (b : Src)
  | vsel (c : Common) (d a : Fin 32) (b : Src)
  | vmv (c : Common) (d : Fin 32) (b : Src)
  -- VFMA (R160, R161)
  | vfmadd (c : Common) (d a b e : Fin 32)
  | vfmsub (c : Common) (d a b e : Fin 32)
  | vfnmadd (c : Common) (d a b e : Fin 32)
  | vfnmsub (c : Common) (d a b e : Fin 32)
  | vwfmadd (c : Common) (src : Ty) (d a b e : Fin 32)
  | vwfmsub (c : Common) (src : Ty) (d a b e : Fin 32)
  | vwfnmadd (c : Common) (src : Ty) (d a b e : Fin 32)
  | vwfnmsub (c : Common) (src : Ty) (d a b e : Fin 32)
  -- VCVT (R162)
  | vcvt (c : Common) (src : Ty) (d a : Fin 32)
  | vcvtx (c : Common) (src : Ty) (d a : Fin 32)
  -- VCMP (R164)
  | vcmpeq (c : Common) (d : Fin 8) (a : Fin 32) (b : Src2)
  | vcmpne (c : Common) (d : Fin 8) (a : Fin 32) (b : Src2)
  | vcmplt (c : Common) (d : Fin 8) (a : Fin 32) (b : Src2)
  | vcmple (c : Common) (d : Fin 8) (a : Fin 32) (b : Src2)
  | vcmpgt (c : Common) (d : Fin 8) (a : Fin 32) (b : Src2)
  | vcmpge (c : Common) (d : Fin 8) (a : Fin 32) (b : Src2)
  -- MASK (R165)
  | mand (c : Common) (d a b : Fin 8)
  | mor (c : Common) (d a b : Fin 8)
  | mxor (c : Common) (d a b : Fin 8)
  | mandn (c : Common) (d a b : Fin 8)
  | msbf (c : Common) (d a : Fin 8)
  | msif (c : Common) (d a : Fin 8)
  | msof (c : Common) (d a : Fin 8)
  | mpcnt (c : Common) (d : Fin 32) (a : Fin 8)
  | mfirst (c : Common) (d : Fin 32) (a : Fin 8)
  -- PERM (R167)
  | vslideup (c : Common) (d a b : Fin 32)
  | vslidedown (c : Common) (d a b : Fin 32)
  | vrgather (c : Common) (d a b : Fin 32)
  | vcompress (c : Common) (d a : Fin 32) (m : Fin 8)
  | vid (c : Common) (d : Fin 32)
  | viota (c : Common) (d : Fin 32) (a : Fin 8)
  | vgetg (c : Common) (d a : Fin 32)
  | vgeth (c : Common) (d a : Fin 32)
  | vputg (c : Common) (d a : Fin 32)
  | vputh (c : Common) (d a : Fin 32)
  -- VRED (R170)
  | vredsum (c : Common) (w : Option Ty) (d a b : Fin 32)
  | vredosum (c : Common) (w : Option Ty) (d a b : Fin 32)
  | vredmin (c : Common) (d a b : Fin 32)
  | vredmax (c : Common) (d a b : Fin 32)
  | vredand (c : Common) (d a b : Fin 32)
  | vredor (c : Common) (d a b : Fin 32)
  | vredxor (c : Common) (d a b : Fin 32)
  -- CONF (R172)
  | vconf (c : Common) (d : Fin 8) (a : Fin 32)
  | vconfr (c : Common) (d a : Fin 32)
  | vtopk (c : Common) (d a b : Fin 32)
  -- XFRM (R175)
  | vunpk (c : Common) (d a b : Fin 32)
  | vlut (c : Common) (ix : Ty) (lb : BitVec 4) (d a b : Fin 32)
  | vexpm (c : Common) (d a : Fin 32)
  -- VMEM (R183)
  | vld (c : Common) (d a : Fin 32) (disp : BitVec 14)
  | vst (c : Common) (d a : Fin 32) (disp : BitVec 14)
  | vlds (c : Common) (d a b : Fin 32)
  | vsts (c : Common) (d a b : Fin 32)
  | mld (c : Common) (d : Fin 8) (a : Fin 32) (disp : BitVec 14)
  | mst (c : Common) (d : Fin 8) (a : Fin 32) (disp : BitVec 14)
  -- SUBB (R186)
  | vldb (c : Common) (d a : Fin 32) (o : Fin 8)
  | vstb (c : Common) (d a : Fin 32) (o : Fin 8)
  -- GATH (R187)
  | vldx (c : Common) (d a b : Fin 32) (sc : Fin 4) (ix : IdxTy)
  | vstx (c : Common) (d a b : Fin 32) (sc : Fin 4) (ix : IdxTy)
  -- STRM (R194)
  | sbind (c : Common) (d : Fin 32) (s : Fin 8)
  | sfree (c : Common) (d : Fin 32)
  | sdld (c : Common) (d : Fin 8) (a : Fin 32)
  | sdst (c : Common) (d : Fin 8) (a : Fin 32)
  -- FAB (R190)
  | vstm (c : Common) (d a b : Fin 32)
  | vldr (c : Common) (d a b : Fin 32)
  | vldrmin (c : Common) (d a b : Fin 32)
  | vldrmax (c : Common) (d a b : Fin 32)
  -- SPMEM (R206)
  | psld (c : Common) (d : Fin 8) (a n : Fin 32) (disp : BitVec 14)
  | psst (c : Common) (d : Fin 8) (a n : Fin 32) (disp : BitVec 14)
  -- SPAR (R207)
  | psadd (c : Common) (d a b : Fin 8) (e : Fin 32)
  | psmul (c : Common) (d a b : Fin 8) (e : Fin 32)
  | psdense (c : Common) (d : Fin 32) (a : Fin 8) (b : Fin 32)
  | pssparse (c : Common) (d : Fin 8) (a b e : Fin 32)
  -- FMEM (R222)
  | fnld (c : Common) (d : Fin 16) (a b : Fin 32)
  | fnst (c : Common) (d : Fin 16) (a : Fin 32)
  -- FARI (R225)
  | fnadd (c : Common) (d a b : Fin 16)
  | fnsub (c : Common) (d a b : Fin 16)
  | fnmul (c : Common) (rule : Rule) (d a b : Fin 16)
  | fnscl (c : Common) (d a : Fin 16) (b : Src2)
  -- FCAL (R230)
  | fndiff (c : Common) (axis : Fin 3) (d a : Fin 16)
  | fnint (c : Common) (axis : Fin 3) (d a : Fin 16)
  | fnproj (c : Common) (d a : Fin 16) (b : Fin 32)
  | fntrace (c : Common) (face : Fin 6) (d a : Fin 16)
  -- FEVL (R236)
  | fneval (c : Common) (d : Fin 32) (a : Fin 16) (b e : Fin 32)
  | fnquad (c : Common) (d : Fin 32) (a : Fin 16)
  | fndeg (c : Common) (d : Fin 32) (a : Fin 16)
  | fnfree (c : Common) (d : Fin 16)
  -- TMEM (R249)
  | tshape (c : Common) (ty : Ty) (d : Fin 32)
  | tshapex (c : Common) (ty : Ty) (d a : Fin 32)
  | tld (c : Common) (d : Fin 16) (a b : Fin 32)
  | tst (c : Common) (d : Fin 16) (a b : Fin 32)
  | tlda (c : Common) (dbl : Bool) (d : Fin 4) (a b : Fin 32)
  | tsta (c : Common) (dbl : Bool) (d : Fin 4) (a b : Fin 32)
  -- TMAT (R254)
  | tmma (c : Common) (z : Bool) (d : Fin 4) (a b : Fin 16)
  | tmmas (c : Common) (z : Bool) (d : Fin 4) (a b : Fin 16)
  | tgmm (c : Common) (z : Bool) (gc : Fin 8) (d : Fin 4) (a b : Fin 16) (e : Fin 32)
  | tspmm (c : Common) (z : Bool) (den : Bool) (d : Fin 4) (a b e : Fin 16)
  | tcvt (c : Common) (d : Fin 16) (a : Fin 4)
  -- THR (R265)
  | tbload (c : Common) (bt : Bool) (a : Fin 16)
  | tbeval (c : Common) (d a : Fin 16)
  | tleaf (c : Common) (z : Bool) (col : BitVec 8) (d : Fin 4) (a b : Fin 16)
  -- SAMO (R275)
  | amoswap (c : Common) (sem : Sem) (scope : Scope) (d a b : Fin 32)
  | amocas (c : Common) (sem : Sem) (scope : Scope) (d a b e : Fin 32)
  | amoadd (c : Common) (sem : Sem) (scope : Scope) (d a b : Fin 32)
  | amoand (c : Common) (sem : Sem) (scope : Scope) (d a b : Fin 32)
  | amoor (c : Common) (sem : Sem) (scope : Scope) (d a b : Fin 32)
  | amoxor (c : Common) (sem : Sem) (scope : Scope) (d a b : Fin 32)
  | amomin (c : Common) (sem : Sem) (scope : Scope) (d a b : Fin 32)
  | amomax (c : Common) (sem : Sem) (scope : Scope) (d a b : Fin 32)
  | amofadd (c : Common) (sem : Sem) (scope : Scope) (d a b : Fin 32)
  | amofmin (c : Common) (sem : Sem) (scope : Scope) (d a b : Fin 32)
  | amofmax (c : Common) (sem : Sem) (scope : Scope) (d a b : Fin 32)
  -- VAMO (R277): `r` is the destination when RET = 1
  | vamoswap (c : Common) (sc : Fin 4) (ix : IdxTy) (scope : Scope) (r : Option (Fin 32)) (a b e : Fin 32)
  | vamoadd (c : Common) (sc : Fin 4) (ix : IdxTy) (scope : Scope) (r : Option (Fin 32)) (a b e : Fin 32)
  | vamoand (c : Common) (sc : Fin 4) (ix : IdxTy) (scope : Scope) (r : Option (Fin 32)) (a b e : Fin 32)
  | vamoor (c : Common) (sc : Fin 4) (ix : IdxTy) (scope : Scope) (r : Option (Fin 32)) (a b e : Fin 32)
  | vamoxor (c : Common) (sc : Fin 4) (ix : IdxTy) (scope : Scope) (r : Option (Fin 32)) (a b e : Fin 32)
  | vamomin (c : Common) (sc : Fin 4) (ix : IdxTy) (scope : Scope) (r : Option (Fin 32)) (a b e : Fin 32)
  | vamomax (c : Common) (sc : Fin 4) (ix : IdxTy) (scope : Scope) (r : Option (Fin 32)) (a b e : Fin 32)
  | vamofadd (c : Common) (sc : Fin 4) (ix : IdxTy) (scope : Scope) (r : Option (Fin 32)) (a b e : Fin 32)
  | vamofmin (c : Common) (sc : Fin 4) (ix : IdxTy) (scope : Scope) (r : Option (Fin 32)) (a b e : Fin 32)
  | vamofmax (c : Common) (sc : Fin 4) (ix : IdxTy) (scope : Scope) (r : Option (Fin 32)) (a b e : Fin 32)
  -- QUE (R280)
  | qput (c : Common) (q a : Fin 32)
  | qget (c : Common) (d q : Fin 32)
  | qld (c : Common) (tc : Ty) (q a b e : Fin 32)
  | qgetv (c : Common) (tc : Ty) (d q e : Fin 32)
  | qcmd (c : Common) (q a : Fin 32)
  | qres (c : Common) (q b : Fin 32)
  | qcnt (c : Common) (d q : Fin 32)
  | ksync (c : Common)
  | kcnt (c : Common) (d : Fin 32) (k : Fin 8)
  -- TASK (R292)
  | tspawn (c : Common) (d a b : Fin 32)
  | vpub (c : Common) (fin : Bool) (a b : Fin 32)
  -- Events: contexts and the scheduler
  | atpAsidWrite (l : Loc) (asid : Bool) (val : Word)
  | tokenGrant (l : Loc) (st : Stream)
  | queueWaitEnd (l : Loc) (st : Stream)
  | flagFall (l : Loc) (st : Stream)
  | migrationRequest (l : Loc)
  | resume (k : Nat) (l : Loc)
  | schedulerAdjourn (l : Loc)
  | contextMove (l : Loc)
  | vectorTenureGrant (c : CoreId)
  | tileStateExchange (l : Loc)
  | grantDecision (c : CoreId)
  | launch (q : QueueId) (off : Nat) (data : List Byte)
  | admission (q : QueueId)
  | vlcCreate (task : Nat) (l : Loc)
  | taskComplete (task : Nat)
  | qctlWrite (q : QueueId) (val : Word)
  | qcmaskWrite (q : QueueId) (val : Word)
  | registerWrite (bar : Nat) (off : Nat) (val : Word)
  -- Events: engines
  | copy (l : Loc)
  | gather (l : Loc)
  | engineTokenPost (l : Loc) (q : Fin 32)
  | engineCompletion (l : Loc) (q : Fin 32)
  | allgather (l : Loc)
  | redscatter (l : Loc)
  | collectiveComplete (l : Loc)
  | status (l : Loc)
  | clear (l : Loc)
  | move (l : Loc)
  | retire (l : Loc)
  | ceThreshold (l : Loc)
  | stubmin (l : Loc)
  | hotFrameMigration (l : Loc)
  | streamPrefetch (l : Loc) (v : Fin 32)
  -- Events: castling and memory health
  | transferEvent (frame : Nat)
  | stubReclaim (die : Fin 4) (frame : Nat)
  | stubFree (die : Fin 4) (frame : Nat)
  | owninvRetry (die : Fin 4) (frame : Nat)
  | hotFrameWindow
  | eccCorrectedRead (line : Nat)
  | scrubRead (line : Nat) (found : LineState)
  | lmclr (c : CoreId)
  -- Events: packets received, with the port they arrive at
  | read (port : Fin 16) (p : Packet)
  | write (port : Fin 16) (p : Packet)
  | atomic (port : Fin 16) (p : Packet)
  | rdstride (port : Fin 16) (p : Packet)
  | mcwrite (port : Fin 16) (p : Packet)
  | redread (port : Fin 16) (p : Packet)
  | resp (port : Fin 16) (p : Packet)
  | migrate (port : Fin 16) (p : Packet)
  | owninv (port : Fin 16) (p : Packet)
  | coll (port : Fin 16) (p : Packet)
  -- Events: links
  | linkReplay (port : Fin 16)
  | portTrain (port : Fin 16)
  | e2eResend (dst : BitVec 13) (seq : BitVec 32)
  | hostMemRead (off : Nat) (n : Nat)
  | hostMemWrite (off : Nat) (data : List Byte) (poison : Bool)
  | hostSnoop (line : Nat) (own : Bool) (data : Option (List Byte))
  | cxlLinkRetrain (e : LinkEvent)
  | hdmDecoderCommit (base size : Nat)
  | fendpWrite (val : Word)
  -- Events: the module
  | powerGood
  | mrst
  | fwWrite (off : Nat) (data : List Byte)
  | fwCommit
  | sidebandWrite (bar : Nat) (off : Nat) (data : List Byte)
  | sidebandRead (bar : Nat) (off : Nat)
  | debugToken (token : List Byte)
  | tlbInvalidate (val : Word)
  | tlbInvalidateDone
  | attestReport
  | measExtend
  | vpoolWrite (die : Fin 4) (val : Word)
  | clockStep (power : BitVec 16) (hot : Byte)
  | thermalTrip (hot : Byte)
  | storeEntryMove (k : Nat)
  | peerEndpointReset (endpoint : BitVec 13)
  | powerLoss
  -- IRR (R122)
  | add (d a b : Fin 32)
  | sub (d a b : Fin 32)
  | and (d a b : Fin 32)
  | or (d a b : Fin 32)
  | xor (d a b : Fin 32)
  | sll (d a b : Fin 32)
  | srl (d a b : Fin 32)
  | sra (d a b : Fin 32)
  | slt (d a b : Fin 32)
  | sltn (d a b : Fin 32)
  | min (d a b : Fin 32)
  | minn (d a b : Fin 32)
  | max (d a b : Fin 32)
  | maxn (d a b : Fin 32)
  | clz (d a : Fin 32)
  | ctz (d a : Fin 32)
  | pcnt (d a : Fin 32)
  | addw (d a b : Fin 32)
  | subw (d a b : Fin 32)
  -- IIM (R123)
  | addi (d a : Fin 32) (imm : BitVec 12)
  | andi (d a : Fin 32) (imm : BitVec 12)
  | ori (d a : Fin 32) (imm : BitVec 12)
  | xori (d a : Fin 32) (imm : BitVec 12)
  | slti (d a : Fin 32) (imm : BitVec 12)
  | sltni (d a : Fin 32) (imm : BitVec 12)
  | slli (d a : Fin 32) (sh : BitVec 6)
  | srli (d a : Fin 32) (sh : BitVec 6)
  | srai (d a : Fin 32) (sh : BitVec 6)
  -- LUP, PCU (R124)
  | lui (d : Fin 32) (imm : BitVec 20)
  | pcui (d : Fin 32) (imm : BitVec 20)
deriving DecidableEq, Repr

end Sys2Proof
end

