-- ==== Sys2Proof/Decode.lean ====
section
/-! DEFINITION. Parcels to instructions and back: the formats of R95 to R99, the cells of R106 to R108, the function
fields of files 05 to 10, every reserved encoding refused by name (R97, R109), and the encoder of the same tables. -/

namespace Sys2Proof

/-- Why an encoding is not an instruction. Each raises the illegal-instruction trap (R109, R118 step 2). -/
inductive Reject where
  | unassignedCell
  | undefinedFunction
  | fieldNotZero
  | registerOutsideFile
  | reservedRounding
  | tokenWithoutEnable
  | guardWithoutEnable
  | guardNotAllowed
  | reservedType
  | typeNotAllowed
  | reservedValue
  | truncated
deriving DecidableEq, Repr

/-- An encoding read: the instruction, or why there is none. -/
abbrev Decoded := Except Reject Instr

/-! ## Codes of types, formats and kinds -/

/-- The type codes of R32. -/
def tyCode : Ty → BitVec 5
  | .s8 => 0x00 | .s16 => 0x01 | .s32 => 0x02 | .s64 => 0x03 | .n8 => 0x04 | .n16 => 0x05 | .n32 => 0x06 | .n64 => 0x07
  | .n3 => 0x08 | .n4 => 0x09 | .s4 => 0x0A | .n6 => 0x0B | .s6 => 0x0C | .s3 => 0x0D | .f64 => 0x10 | .f32 => 0x11
  | .bf16 => 0x12 | .f16 => 0x13 | .e5m2 => 0x14 | .e4m3 => 0x15 | .e3m2 => 0x16 | .e2m1 => 0x17 | .mk8 => 0x18
  | .e4m3s => 0x19 | .e2m1s => 0x1A | .mk8s => 0x1B

/-- The type of a code, none for a reserved one (R32). -/
def tyOfNat : Nat → Option Ty
  | 0x00 => some .s8 | 0x01 => some .s16 | 0x02 => some .s32 | 0x03 => some .s64 | 0x04 => some .n8 | 0x05 => some .n16
  | 0x06 => some .n32 | 0x07 => some .n64 | 0x08 => some .n3 | 0x09 => some .n4 | 0x0A => some .s4 | 0x0B => some .n6
  | 0x0C => some .s6 | 0x0D => some .s3 | 0x10 => some .f64 | 0x11 => some .f32 | 0x12 => some .bf16 | 0x13 => some .f16
  | 0x14 => some .e5m2 | 0x15 => some .e4m3 | 0x16 => some .e3m2 | 0x17 => some .e2m1 | 0x18 => some .mk8
  | 0x19 => some .e4m3s | 0x1A => some .e2m1s | 0x1B => some .mk8s
  | _ => none

def tyOfCode (c : BitVec 5) : Option Ty := tyOfNat c.toNat

/-- Format codes of R129: 0 f64, 1 f32, 2 f16, 3 bf16. -/
def ffmtCode : FFmt → BitVec 2
  | .f64 => 0 | .f32 => 1 | .f16 => 2 | .bf16 => 3
def ffmtOf (c : BitVec 2) : FFmt :=
  match c.toNat with | 0 => .f64 | 1 => .f32 | 2 => .f16 | _ => .bf16

/-- Integer codes of R133: 0 s32, 1 n32, 2 s64, 3 n64. -/
def ifmtCode : IFmt → BitVec 2
  | .s32 => 0 | .n32 => 1 | .s64 => 2 | .n64 => 3
def ifmtOf (c : BitVec 2) : IFmt :=
  match c.toNat with | 0 => .s32 | 1 => .n32 | 2 => .s64 | _ => .n64

/-- F3 of SLD (R127). -/
def ldCode : LdKind → BitVec 3
  | .s8 => 0 | .s16 => 1 | .s32 => 2 | .s64 => 3 | .n8 => 4 | .n16 => 5 | .n32 => 6 | .n64 => 7
def ldOf (c : BitVec 3) : LdKind :=
  match c.toNat with
  | 0 => .s8 | 1 => .s16 | 2 => .s32 | 3 => .s64 | 4 => .n8 | 5 => .n16 | 6 => .n32 | _ => .n64

/-- F3 of SST (R127). -/
def stCode : StKind → BitVec 3
  | .n8 => 0 | .n16 => 1 | .n32 => 2 | .n64 => 3

/-- Scope codes of R272. -/
def scopeCode : Scope → BitVec 3
  | .context => 0 | .core => 1 | .die => 2 | .device => 3 | .fabric => 4
def scopeOf (c : BitVec 3) : Option Scope :=
  match c.toNat with
  | 0 => some .context | 1 => some .core | 2 => some .die | 3 => some .device | 4 => some .fabric | _ => none

/-- SEM of R275. -/
def semCode : Sem → BitVec 2
  | .none => 0 | .acq => 1 | .rel => 2 | .both => 3
def semOf (c : BitVec 2) : Sem :=
  match c.toNat with | 0 => .none | 1 => .acq | 2 => .rel | _ => .both

/-- IXT of R187 and R277. -/
def ixCode : IdxTy → BitVec 2
  | .n32 => 0 | .n16 => 1 | .s32 => 2 | .n64 => 3
def ixOf (c : BitVec 2) : IdxTy :=
  match c.toNat with | 0 => .n32 | 1 => .n16 | 2 => .s32 | _ => .n64

/-- Rounding codes of R50. -/
def rmCode : Rm → BitVec 3
  | .rne => 0 | .rtz => 1 | .rdn => 2 | .rup => 3 | .rsr => 4
def rmOf (c : BitVec 3) : Option Rm :=
  match c.toNat with
  | 0 => some .rne | 1 => some .rtz | 2 => some .rdn | 3 => some .rup | 4 => some .rsr | _ => none

/-- RULE of R225. -/
def ruleCode : Rule → BitVec 2
  | .follow => 0 | .dealiased => 1 | .aliased => 2

/-! ## Classes of types -/

def Ty.isInt : Ty → Bool
  | .s8 | .s16 | .s32 | .s64 | .n8 | .n16 | .n32 | .n64 => true
  | _ => false

/-- Class F of R150. -/
def Ty.isFloat : Ty → Bool
  | .f64 | .f32 | .bf16 | .f16 => true
  | _ => false

/-- Scaled types (R55). -/
def Ty.isScaled : Ty → Bool
  | .e4m3s | .e2m1s | .mk8s => true
  | _ => false

/-- Sub-byte types, e3m2 among them (R45). -/
def Ty.isSubByte : Ty → Bool
  | .n3 | .n4 | .s4 | .n6 | .s6 | .s3 | .e3m2 | .e2m1 => true
  | _ => false

/-- Narrow unscaled floating types (R45). -/
def Ty.isNarrowFloat : Ty → Bool
  | .e5m2 | .e4m3 | .e3m2 | .e2m1 | .mk8 => true
  | _ => false

/-- Every integer type, the sub-byte ones too (R43). -/
def Ty.isAnyInt : Ty → Bool
  | .s8 | .s16 | .s32 | .s64 | .n8 | .n16 | .n32 | .n64 | .n3 | .n4 | .s4 | .n6 | .s6 | .s3 => true
  | _ => false

def Ty.isSigned : Ty → Bool
  | .s8 | .s16 | .s32 | .s64 | .s4 | .s6 | .s3 => true
  | _ => false

/-- Matrix types (R244). -/
def Ty.isMatrix : Ty → Bool
  | .e2m1 | .e2m1s | .e5m2 | .e4m3 | .mk8 | .e4m3s | .mk8s | .bf16 | .f16 | .f32 | .f64 => true
  | _ => false

/-- `sew()` of R41: 8 for a scaled 8-bit type and 4 for e2m1s. -/
def Ty.sew : Ty → Nat
  | .s8 | .n8 | .e5m2 | .e4m3 | .mk8 | .e4m3s | .mk8s => 8
  | .s16 | .n16 | .bf16 | .f16 => 16
  | .s32 | .n32 | .f32 => 32
  | .s64 | .n64 | .f64 => 64
  | .n3 | .s3 => 3
  | .n4 | .s4 | .e2m1 | .e2m1s => 4
  | .n6 | .s6 | .e3m2 => 6

/-- The widening pairs of R161: Td, then Ts. -/
def widePair (td ts : Ty) : Bool :=
  match td, ts with
  | .f32, .bf16 | .f32, .f16 | .f32, .e5m2 | .f32, .e4m3 | .f32, .e3m2 | .f32, .e2m1 | .f32, .mk8 | .f32, .e4m3s
  | .f32, .e2m1s | .f32, .mk8s | .f64, .f32 | .s32, .s8 | .s32, .s16 | .n32, .n8 | .n32, .n16 | .s64, .s32
  | .n64, .n32 => true
  | _, _ => false

/-! ## Registers in 5-bit fields -/

/-- The field of a register number. -/
def rf (x : Fin 32) : BitVec 5 := BitVec.ofFin x
def rf8 (x : Fin 8) : BitVec 5 := BitVec.ofNat 5 x.val
def rf16 (x : Fin 16) : BitVec 5 := BitVec.ofNat 5 x.val
def rf4 (x : Fin 4) : BitVec 5 := BitVec.ofNat 5 x.val
/-- The register number in a field. -/
def fr (x : BitVec 5) : Fin 32 := x.toFin

/-- Continues with a register of a file of `n`, where the field names one (R97). -/
def inFile (n : Nat) (x : BitVec 5) (k : Fin n → Decoded) : Decoded :=
  if h : x.toNat < n then k ⟨x.toNat, h⟩ else .error .registerOutsideFile

/-- Continues where `c` holds. -/
def need (c : Bool) (r : Reject) (k : Decoded) : Decoded := if c then k else .error r

/-- Continues with the value of a field that is not reserved. -/
def have? {α : Type} (x : Option α) (r : Reject) (k : α → Decoded) : Decoded :=
  match x with | some v => k v | none => .error r

/-! ## 32-bit formats (R95) -/

/-- A 32-bit parcel, bit 0 apart, in the five fields whose places every format shares: bits [31:22], [21:17], [16:12],
[11:7] and OP. -/
structure Fields32 where
  hi : BitVec 10
  b : BitVec 5
  a : BitVec 5
  d : BitVec 5
  op : BitVec 6
deriving DecidableEq, Repr

def Fields32.ofParcel (w : Parcel) : Fields32 :=
  ⟨w.extractLsb' 22 10, w.extractLsb' 17 5, w.extractLsb' 12 5, w.extractLsb' 7 5, w.extractLsb' 1 6⟩

def Fields32.parcel (f : Fields32) : Parcel := f.hi ++ f.b ++ f.a ++ f.d ++ f.op ++ (0#1)

/-- IMM12, and OFF12 of the Branch format. -/
def Fields32.imm (f : Fields32) : BitVec 12 := f.hi ++ f.b.extractLsb' 3 2
/-- F3 and CND. -/
def Fields32.f3 (f : Fields32) : BitVec 3 := f.b.extractLsb' 0 3
/-- IMM20. -/
def Fields32.imm20 (f : Fields32) : BitVec 20 := f.hi ++ f.b ++ f.a
/-- OFF25. -/
def Fields32.off25 (f : Fields32) : BitVec 25 := f.hi ++ f.b ++ f.a ++ f.d

def regF (op : BitVec 6) (fn : BitVec 10) (d a b : BitVec 5) : Fields32 := ⟨fn, b, a, d, op⟩
def immF (op : BitVec 6) (f3 : BitVec 3) (d a : BitVec 5) (imm : BitVec 12) : Fields32 :=
  ⟨imm.extractLsb' 2 10, imm.extractLsb' 0 2 ++ f3, a, d, op⟩
def upperF (op : BitVec 6) (d : BitVec 5) (imm : BitVec 20) : Fields32 :=
  ⟨imm.extractLsb' 10 10, imm.extractLsb' 5 5, imm.extractLsb' 0 5, d, op⟩
def jumpF (op : BitVec 6) (off : BitVec 25) : Fields32 :=
  ⟨off.extractLsb' 15 10, off.extractLsb' 10 5, off.extractLsb' 5 5, off.extractLsb' 0 5, op⟩

/-- IRR (R122). -/
noncomputable def decIrr (f : Fields32) : Decoded :=
  let d := fr f.d
  let a := fr f.a
  let b := fr f.b
  match f.hi.toNat with
  | 0x000 => .ok (.add d a b) | 0x001 => .ok (.sub d a b) | 0x002 => .ok (.and d a b) | 0x003 => .ok (.or d a b)
  | 0x004 => .ok (.xor d a b) | 0x005 => .ok (.sll d a b) | 0x006 => .ok (.srl d a b) | 0x007 => .ok (.sra d a b)
  | 0x008 => .ok (.slt d a b) | 0x009 => .ok (.sltn d a b) | 0x00A => .ok (.min d a b) | 0x00B => .ok (.minn d a b)
  | 0x00C => .ok (.max d a b) | 0x00D => .ok (.maxn d a b)
  | 0x010 => need (f.b == 0) .fieldNotZero (.ok (.clz d a))
  | 0x011 => need (f.b == 0) .fieldNotZero (.ok (.ctz d a))
  | 0x012 => need (f.b == 0) .fieldNotZero (.ok (.pcnt d a))
  | 0x018 => .ok (.addw d a b) | 0x019 => .ok (.subw d a b)
  | _ => .error .undefinedFunction

/-- IIM (R123). -/
noncomputable def decIim (f : Fields32) : Decoded :=
  let d := fr f.d
  let a := fr f.a
  match f.f3.toNat with
  | 0 => .ok (.addi d a f.imm) | 1 => .ok (.andi d a f.imm) | 2 => .ok (.ori d a f.imm) | 3 => .ok (.xori d a f.imm)
  | 4 => .ok (.slti d a f.imm) | 5 => .ok (.sltni d a f.imm)
  | 6 =>
    let sh := f.imm.extractLsb' 0 6
    match (f.imm.extractLsb' 6 6).toNat with
    | 0 => .ok (.slli d a sh) | 1 => .ok (.srli d a sh) | 2 => .ok (.srai d a sh)
    | _ => .error .undefinedFunction
  | _ => .error .undefinedFunction

/-- IMD (R125). -/
def decImd (f : Fields32) : Decoded :=
  let d := fr f.d
  let a := fr f.a
  let b := fr f.b
  match f.hi.toNat with
  | 0 => .ok (.mul d a b) | 1 => .ok (.mulh d a b) | 2 => .ok (.mulhn d a b) | 3 => .ok (.mulhsn d a b)
  | 4 => .ok (.div d a b) | 5 => .ok (.divn d a b) | 6 => .ok (.rem d a b) | 7 => .ok (.remn d a b)
  | _ => .error .undefinedFunction

/-- SST (R127). -/
def decSst (f : Fields32) : Decoded :=
  match f.f3.toNat with
  | 0 => .ok (.sst .n8 (fr f.d) (fr f.a) f.imm) | 1 => .ok (.sst .n16 (fr f.d) (fr f.a) f.imm)
  | 2 => .ok (.sst .n32 (fr f.d) (fr f.a) f.imm) | 3 => .ok (.sst .n64 (fr f.d) (fr f.a) f.imm)
  | _ => .error .undefinedFunction

/-- FRR (R129): FN[9:7] the format, FN[6:0] the operation. -/
def decFrr (f : Fields32) : Decoded :=
  let d := fr f.d
  let a := fr f.a
  let b := fr f.b
  let t := ffmtOf (f.hi.extractLsb' 7 2)
  need (f.hi.extractLsb' 9 1 == 0) .undefinedFunction <|
  match (f.hi.extractLsb' 0 7).toNat with
  | 0x00 => .ok (.fadd t d a b) | 0x01 => .ok (.fsub t d a b) | 0x02 => .ok (.fmul t d a b) | 0x03 => .ok (.fdiv t d a b)
  | 0x04 => need (f.b == 0) .fieldNotZero (.ok (.fsqrt t d a))
  | 0x05 => .ok (.fmin t d a b) | 0x06 => .ok (.fmax t d a b) | 0x07 => .ok (.fsgnj t d a b)
  | 0x08 => .ok (.fsgnjn t d a b) | 0x09 => .ok (.fsgnjx t d a b) | 0x10 => .ok (.feq t d a b)
  | 0x11 => .ok (.flt t d a b) | 0x12 => .ok (.fle t d a b)
  | 0x13 => need (f.b == 0) .fieldNotZero (.ok (.fclass t d a))
  | _ => .error .undefinedFunction

/-- FMA4 (R131): F5[4:3] the format, F5[2:0] the operation, C in FN[4:0]. -/
def decFma4 (f : Fields32) : Decoded :=
  let t := ffmtOf (f.hi.extractLsb' 8 2)
  let d := fr f.d
  let a := fr f.a
  let b := fr f.b
  let c := fr (f.hi.extractLsb' 0 5)
  match (f.hi.extractLsb' 5 3).toNat with
  | 0 => .ok (.fmadd t d a b c) | 1 => .ok (.fmsub t d a b c) | 2 => .ok (.fnmadd t d a b c)
  | 3 => .ok (.fnmsub t d a b c)
  | _ => .error .undefinedFunction

/-- FLS (R132). -/
def decFls (f : Fields32) : Decoded :=
  let d := fr f.d
  let a := fr f.a
  match f.f3.toNat with
  | 0 => .ok (.fldF64 d a f.imm) | 1 => .ok (.fldF32 d a f.imm) | 2 => .ok (.fldF16 d a f.imm)
  | 4 => .ok (.fstF64 d a f.imm) | 5 => .ok (.fstF32 d a f.imm) | 6 => .ok (.fstF16 d a f.imm)
  | _ => .error .undefinedFunction

/-- FCV (R133): FN = 0x040 + 4g + f, 0x080 + 4i + f, 0x0C0 + 4f + i, 0x100 + 4i + f. -/
def decFcv (f : Fields32) : Decoded :=
  let d := fr f.d
  let a := fr f.a
  let x := f.hi.extractLsb' 2 2
  let y := f.hi.extractLsb' 0 2
  need (f.b == 0) .fieldNotZero <|
  match (f.hi.extractLsb' 4 6).toNat with
  | 0x00 => if x == 0 && y == 0 then .ok (.fmvgh d a) else if x == 0 && y == 1 then .ok (.fmvhg d a)
      else .error .undefinedFunction
  | 0x04 => need (x != y) .undefinedFunction (.ok (.fcvtFloatFloat (ffmtOf x) (ffmtOf y) d a))
  | 0x08 => .ok (.fcvtFloatInt (ifmtOf x) (ffmtOf y) d a)
  | 0x0C => .ok (.fcvtIntFloat (ffmtOf x) (ifmtOf y) d a)
  | 0x10 => .ok (.fcvtz (ifmtOf x) (ffmtOf y) d a)
  | _ => .error .undefinedFunction

/-- BCC (R135): A at [16:12], B at [11:7]. -/
def decBcc (f : Fields32) : Decoded :=
  let a := fr f.a
  let b := fr f.d
  match f.f3.toNat with
  | 0 => .ok (.beq a b f.imm) | 1 => .ok (.bne a b f.imm) | 2 => .ok (.blt a b f.imm) | 3 => .ok (.bge a b f.imm)
  | 4 => .ok (.bltn a b f.imm) | 5 => .ok (.bgen a b f.imm)
  | _ => .error .undefinedFunction

/-- JR (R136). -/
def decJr (f : Fields32) : Decoded :=
  match f.f3.toNat with
  | 0 => need (f.d == 0) .fieldNotZero (.ok (.jr (fr f.a) f.imm))
  | 1 => need (f.d == 0) .fieldNotZero (.ok (.callr (fr f.a) f.imm))
  | 2 => need (f.d == 0 && f.a == 0 && f.imm == 0) .fieldNotZero (.ok .ret)
  | 3 => need (f.d == 0 && f.a == 0 && f.imm == 0) .fieldNotZero (.ok .exit)
  | _ => .error .undefinedFunction

/-- BANY (R138). -/
def decBany (f : Fields32) : Decoded :=
  need (f.d == 0) .fieldNotZero <| inFile 8 f.a fun m =>
  match f.f3.toNat with
  | 0 => .ok (.bany m f.imm) | 1 => .ok (.ball m f.imm) | 2 => .ok (.bnone m f.imm) | 3 => .ok (.bnall m f.imm)
  | _ => .error .undefinedFunction

/-- BQ (R140). -/
def decBq (f : Fields32) : Decoded :=
  need (f.d == 0 && f.a == 0) .fieldNotZero <|
  match f.f3.toNat with
  | 0 => .ok (.bq f.imm) | 1 => .ok (.bqn f.imm)
  | _ => .error .undefinedFunction

/-- SETV, LG and WC of R141, none when SETV = 0 (LG and WC must then be 0). A reserved WC is no reserved encoding: it sets
VILL (R142). -/
def decSetV (imm : BitVec 12) (k : Option SetV → Decoded) : Decoded :=
  if imm.extractLsb' 11 1 == 1 then k (some ⟨(imm.extractLsb' 4 2).toFin, imm.extractLsb' 0 4⟩)
  else need (imm.extractLsb' 0 6 == 0) .fieldNotZero (k none)

/-- STRIP (R141, R143, R144). -/
def decStrip (f : Fields32) : Decoded :=
  let mid := f.imm.extractLsb' 6 5
  match f.f3.toNat with
  | 0 => need (mid == 0) .fieldNotZero (decSetV f.imm fun sv => .ok (.vstrip (fr f.d) (fr f.a) sv))
  | 1 => decSetV f.imm fun sv => .ok (.vstripx (fr f.d) (fr f.a) (fr mid) sv)
  | 2 => need (f.d == 0 && f.a == 0 && f.imm == 0) .fieldNotZero (.ok .vrel)
  | _ => .error .undefinedFunction

/-- MODE (R145). -/
def decMode (f : Fields32) : Decoded :=
  need (f.d == 0 && f.a == 0) .fieldNotZero <|
  match f.f3.toNat with
  | 0 => need (f.imm.extractLsb' 1 11 == 0) .fieldNotZero (.ok (.mode (f.imm.extractLsb' 0 1 == 1)))
  | 1 => .ok (.apfork f.imm)
  | 2 => need (f.imm == 0) .fieldNotZero (.ok .apjoin)
  | _ => .error .undefinedFunction

/-- CREG (R147). -/
def decCreg (f : Fields32) : Decoded :=
  match f.f3.toNat with
  | 0 => need (f.a == 0) .fieldNotZero (.ok (.cread (fr f.d) f.imm))
  | 1 => need (f.d == 0) .fieldNotZero (.ok (.cwrite f.imm (fr f.a)))
  | 2 => .ok (.cswap (fr f.d) f.imm (fr f.a))
  | _ => .error .undefinedFunction

/-- FENCE (R273). -/
def decFence (f : Fields32) : Decoded :=
  need (f.f3 == 0) .undefinedFunction <|
  need (f.d == 0 && f.a == 0 && f.imm.extractLsb' 6 6 == 0) .fieldNotZero <|
  have? (scopeOf (f.imm.extractLsb' 0 3)) .reservedValue fun sc =>
  match (f.imm.extractLsb' 3 3).toNat with
  | 0 => .ok (.fenceFull sc) | 1 => .ok (.fenceAcq sc) | 2 => .ok (.fenceRel sc) | 3 => .ok (.fenceIfetch sc)
  | _ => .error .undefinedFunction

/-- TRAP (R295). -/
def decTrap (f : Fields32) : Decoded :=
  need (f.d == 0 && f.a == 0) .fieldNotZero <|
  match f.f3.toNat with
  | 0 => .ok (.trap f.imm)
  | 1 => need (f.imm == 0) .fieldNotZero (.ok .tret)
  | 2 => need (f.imm == 0) .fieldNotZero (.ok .adjourn)
  | _ => .error .undefinedFunction

/-- PGMV (R296, R297). -/
def decPgmv (f : Fields32) : Decoded :=
  match f.hi.toNat with
  | 0 => .ok (.pgmove (fr f.d) (fr f.a) (fr f.b))
  | 1 => need (f.b == 0) .fieldNotZero (.ok (.pgstat (fr f.d) (fr f.a)))
  | _ => .error .undefinedFunction

/-- Whether every slot above SL(CNT + 1) is zero (R114). -/
def slotsClear (cnt : BitVec 3) (slots : BitVec 18) : Bool := slots >>> (3 * (cnt.toNat + 2)) == 0

/-- CVY (R112, R114): CNT at [9:7], SL0 to SL5 at [27:10], [31:28] zero. -/
def decCvy (f : Fields32) : Decoded :=
  let all : BitVec 25 := f.off25
  let cnt : BitVec 3 := all.extractLsb' 0 3
  let slots : BitVec 18 := all.extractLsb' 3 18
  need (all.extractLsb' 21 4 == 0) .fieldNotZero <|
  need (decide (cnt.toNat < 5)) .reservedValue <|
  need (slotsClear cnt slots) .fieldNotZero (.ok (.cvy cnt slots))

/-- The 32-bit map of R106 and R107. -/
noncomputable def decFields32 (f : Fields32) : Decoded :=
  match f.op.toNat with
  | 0x01 => decIrr f
  | 0x02 => decIim f
  | 0x03 => .ok (.lui (fr f.d) f.imm20)
  | 0x04 => decImd f
  | 0x05 => .ok (.sld (ldOf f.f3) (fr f.d) (fr f.a) f.imm)
  | 0x06 => decSst f
  | 0x07 => decFrr f
  | 0x08 => decFma4 f
  | 0x09 => decFls f
  | 0x0A => decFcv f
  | 0x0B => .ok (.pcui (fr f.d) f.imm20)
  | 0x10 => decBcc f
  | 0x11 => .ok (.j f.off25)
  | 0x12 => .ok (.call f.off25)
  | 0x13 => decJr f
  | 0x14 => decBany f
  | 0x15 => decBq f
  | 0x18 => decStrip f
  | 0x19 => decMode f
  | 0x1A => decCreg f
  | 0x1C => decFence f
  | 0x1D => decTrap f
  | 0x1E => decPgmv f
  | 0x1F => decCvy f
  | 0x3E => if f.off25 == 0 then .ok .nop else .ok (.hint32 f.off25)
  | _ => .error .unassignedCell

/-! ## 64-bit formats (R98, R99) -/

/-- A 64-bit instruction in the fields of R98 and form UR of R99. Form UI is FN[11:4] and FN[3:0] ++ C ++ B. -/
structure Fields64 where
  top : BitVec 1
  rm : BitVec 3
  we : BitVec 1
  wk : BitVec 3
  pe : BitVec 1
  pk : BitVec 3
  ovt : BitVec 1
  ord : BitVec 1
  ty : BitVec 5
  gpol : BitVec 1
  gen : BitVec 1
  gsel : BitVec 3
  op : BitVec 7
  fn : BitVec 12
  c : BitVec 5
  b : BitVec 5
  a : BitVec 5
  d : BitVec 5
deriving DecidableEq, Repr

def Fields64.ofParcels (lo hi : Parcel) : Fields64 :=
  ⟨lo.extractLsb' 31 1, lo.extractLsb' 28 3, lo.extractLsb' 27 1, lo.extractLsb' 24 3, lo.extractLsb' 23 1,
   lo.extractLsb' 20 3, lo.extractLsb' 19 1, lo.extractLsb' 18 1, lo.extractLsb' 13 5, lo.extractLsb' 12 1,
   lo.extractLsb' 11 1, lo.extractLsb' 8 3, lo.extractLsb' 1 7,
   hi.extractLsb' 20 12, hi.extractLsb' 15 5, hi.extractLsb' 10 5, hi.extractLsb' 5 5, hi.extractLsb' 0 5⟩

def Fields64.lo (f : Fields64) : Parcel :=
  f.top ++ f.rm ++ f.we ++ f.wk ++ f.pe ++ f.pk ++ f.ovt ++ f.ord ++ f.ty ++ f.gpol ++ f.gen ++ f.gsel ++ f.op ++ (1#1)
def Fields64.hi (f : Fields64) : Parcel := f.fn ++ f.c ++ f.b ++ f.a ++ f.d

/-- FN8 of form UI. -/
def Fields64.fn8 (f : Fields64) : BitVec 8 := f.fn.extractLsb' 4 8
/-- IMM14 of form UI. -/
def Fields64.imm14 (f : Fields64) : BitVec 14 := f.fn.extractLsb' 0 4 ++ f.c ++ f.b

/-- A token enable and its number (R105). -/
def tokenOf (e : BitVec 1) (k : BitVec 3) (go : Option (Fin 8) → Decoded) : Decoded :=
  if e == 1 then go (some k.toFin) else need (k == 0) .tokenWithoutEnable (go none)

/-- The guard fields (R100). -/
def guardOf (f : Fields64) (go : Option Guard → Decoded) : Decoded :=
  if f.gen == 1 then go (some ⟨f.gsel.toFin, f.gpol == 1⟩)
  else need (f.gsel == 0 && f.gpol == 0) .guardWithoutEnable (go none)

/-- The TY field (R101). -/
def tyOf (c : BitVec 5) (go : Option Ty → Decoded) : Decoded :=
  if c == 0x1F then go none else have? (tyOfCode c) .reservedType fun t => go (some t)

/-- The common fields (R98, R100, R101, R104, R105). -/
def commonOf (f : Fields64) (go : Common → Decoded) : Decoded :=
  need (f.top == 0) .fieldNotZero <|
  have? (rmOf f.rm) .reservedRounding fun rm =>
  tokenOf f.we f.wk fun wait => tokenOf f.pe f.pk fun post =>
  tyOf f.ty fun ty => guardOf f fun g =>
  go ⟨rm, wait, post, f.ovt == 1, f.ord == 1, ty, g⟩

/-- The second operand of ARVV, ARVS and ARVI, by major opcode (R154). -/
inductive ArvForm where
  | vv | vs | vi
deriving DecidableEq, Repr

/-- ARVV, ARVS and ARVI (R154, R155). `vmv` of ARVV reads V[A]; with B ≠ 0 it traps, as the forms marked unary do, though R159 asks a zero
field only of the scalar forms (DESIGN CHOICE, log 46). -/
def decArv (m : ArvForm) (f : Fields64) (c : Common) : Decoded :=
  let d := fr f.d
  let a := fr f.a
  let b : Src := match m with | .vv => .v (fr f.b) | .vs => .s (fr f.b) | .vi => .i f.imm14
  let code : Nat := match m with
    | .vi => (f.fn8.extractLsb' 0 6).toNat
    | _ => (f.fn.extractLsb' 0 6).toNat
  let clear : Bool := match m with
    | .vi => f.fn8.extractLsb' 6 2 == 0
    | _ => f.fn.extractLsb' 6 6 == 0 && f.c == 0
  let unary (k : Decoded) : Decoded :=
    need (m == .vv) .undefinedFunction (need (f.b == 0) .fieldNotZero k)
  let noImm (k : Decoded) : Decoded := need (m != .vi) .undefinedFunction k
  need clear .fieldNotZero <|
  match code with
  | 0x00 => .ok (.vadd c d a b)
  | 0x01 => .ok (.vsub c d a b)
  | 0x02 => need (m != .vv) .undefinedFunction (.ok (.vrsub c d a b))
  | 0x03 => .ok (.vmul c d a b)
  | 0x04 => .ok (.vmulh c d a b)
  | 0x05 => .ok (.vdiv c d a b)
  | 0x06 => .ok (.vrem c d a b)
  | 0x07 => .ok (.vmin c d a b)
  | 0x08 => .ok (.vmax c d a b)
  | 0x09 => .ok (.vand c d a b)
  | 0x0A => .ok (.vor c d a b)
  | 0x0B => .ok (.vxor c d a b)
  | 0x0C => .ok (.vsll c d a b)
  | 0x0D => .ok (.vsrl c d a b)
  | 0x0E => .ok (.vsra c d a b)
  | 0x0F => .ok (.vsadd c d a b)
  | 0x10 => .ok (.vssub c d a b)
  | 0x11 => unary (.ok (.vsqrt c d a))
  | 0x12 => unary (.ok (.vabs c d a))
  | 0x13 => unary (.ok (.vneg c d a))
  | 0x14 => noImm (.ok (.vsgnj c d a b))
  | 0x15 => noImm (.ok (.vsgnjn c d a b))
  | 0x16 => noImm (.ok (.vsel c d a b))
  | 0x17 =>
    match m with
    | .vv => need (f.b == 0) .fieldNotZero (.ok (.vmv c d (.v a)))
    | _ => need (f.a == 0) .fieldNotZero (.ok (.vmv c d b))
  | _ => .error .undefinedFunction

/-- VFMA (R160, R161). -/
def decVfma (f : Fields64) (c : Common) : Decoded :=
  let d := fr f.d
  let a := fr f.a
  let b := fr f.b
  let e := fr f.c
  let src := f.fn.extractLsb' 4 5
  need (f.fn.extractLsb' 9 3 == 0) .fieldNotZero <|
  if f.fn.extractLsb' 3 1 == 1 then
    have? (tyOfCode src) .reservedType fun ts =>
    match (f.fn.extractLsb' 0 3).toNat with
    | 0 => .ok (.vwfmadd c ts d a b e) | 1 => .ok (.vwfmsub c ts d a b e) | 2 => .ok (.vwfnmadd c ts d a b e)
    | 3 => .ok (.vwfnmsub c ts d a b e)
    | _ => .error .undefinedFunction
  else
    need (src == 0) .fieldNotZero <|
    match (f.fn.extractLsb' 0 3).toNat with
    | 0 => .ok (.vfmadd c d a b e) | 1 => .ok (.vfmsub c d a b e) | 2 => .ok (.vfnmadd c d a b e)
    | 3 => .ok (.vfnmsub c d a b e)
    | _ => .error .undefinedFunction

/-- VCVT (R162). -/
def decVcvt (f : Fields64) (c : Common) : Decoded :=
  need (f.fn.extractLsb' 6 6 == 0 && f.b == 0 && f.c == 0) .fieldNotZero <|
  have? (tyOfCode (f.fn.extractLsb' 0 5)) .reservedType fun ts =>
  if f.fn.extractLsb' 5 1 == 1 then .ok (.vcvtx c ts (fr f.d) (fr f.a)) else .ok (.vcvt c ts (fr f.d) (fr f.a))

/-- VCMP (R164). -/
def decVcmp (f : Fields64) (c : Common) : Decoded :=
  let b : Src2 := if f.fn.extractLsb' 3 1 == 1 then .s (fr f.b) else .v (fr f.b)
  need (f.fn.extractLsb' 4 8 == 0 && f.c == 0) .fieldNotZero <| inFile 8 f.d fun d =>
  match (f.fn.extractLsb' 0 3).toNat with
  | 0 => .ok (.vcmpeq c d (fr f.a) b) | 1 => .ok (.vcmpne c d (fr f.a) b) | 2 => .ok (.vcmplt c d (fr f.a) b)
  | 3 => .ok (.vcmple c d (fr f.a) b) | 4 => .ok (.vcmpgt c d (fr f.a) b) | 5 => .ok (.vcmpge c d (fr f.a) b)
  | _ => .error .undefinedFunction

/-- MASK (R165). -/
def decMask (f : Fields64) (c : Common) : Decoded :=
  need (f.fn.extractLsb' 4 8 == 0 && f.c == 0) .fieldNotZero <| inFile 8 f.a fun a =>
  let two (k : Fin 8 → Fin 8 → Decoded) : Decoded := inFile 8 f.d fun d => inFile 8 f.b fun b => k d b
  let one (k : Fin 8 → Decoded) : Decoded := need (f.b == 0) .fieldNotZero (inFile 8 f.d k)
  let g (k : Decoded) : Decoded := need (f.b == 0) .fieldNotZero k
  match (f.fn.extractLsb' 0 4).toNat with
  | 0 => two fun d b => .ok (.mand c d a b)
  | 1 => two fun d b => .ok (.mor c d a b)
  | 2 => two fun d b => .ok (.mxor c d a b)
  | 3 => two fun d b => .ok (.mandn c d a b)
  | 4 => one fun d => .ok (.msbf c d a)
  | 5 => one fun d => .ok (.msif c d a)
  | 6 => one fun d => .ok (.msof c d a)
  | 7 => g (.ok (.mpcnt c (fr f.d) a))
  | 8 => g (.ok (.mfirst c (fr f.d) a))
  | _ => .error .undefinedFunction

/-- PERM (R167). -/
def decPerm (f : Fields64) (c : Common) : Decoded :=
  let d := fr f.d
  let a := fr f.a
  need (f.fn.extractLsb' 4 8 == 0) .fieldNotZero <|
  match (f.fn.extractLsb' 0 4).toNat with
  | 0 => need (f.c == 0) .fieldNotZero (.ok (.vslideup c d a (fr f.b)))
  | 1 => need (f.c == 0) .fieldNotZero (.ok (.vslidedown c d a (fr f.b)))
  | 2 => need (f.c == 0) .fieldNotZero (.ok (.vrgather c d a (fr f.b)))
  | 3 => need (f.b == 0) .fieldNotZero (inFile 8 f.c fun m => .ok (.vcompress c d a m))
  | 4 => need (f.a == 0 && f.b == 0 && f.c == 0) .fieldNotZero (.ok (.vid c d))
  | 5 => need (f.b == 0 && f.c == 0) .fieldNotZero (inFile 8 f.a fun m => .ok (.viota c d m))
  | 6 => need (f.b == 0 && f.c == 0) .fieldNotZero (.ok (.vgetg c d a))
  | 7 => need (f.b == 0 && f.c == 0) .fieldNotZero (.ok (.vgeth c d a))
  | 8 => need (f.b == 0 && f.c == 0) .fieldNotZero (.ok (.vputg c d a))
  | 9 => need (f.b == 0 && f.c == 0) .fieldNotZero (.ok (.vputh c d a))
  | _ => .error .undefinedFunction

/-- VRED (R170). -/
def decVred (f : Fields64) (c : Common) : Decoded :=
  let d := fr f.d
  let a := fr f.a
  let b := fr f.b
  let src := f.fn.extractLsb' 5 5
  let op := (f.fn.extractLsb' 0 4).toNat
  need (f.fn.extractLsb' 10 2 == 0 && f.c == 0) .fieldNotZero <|
  if f.fn.extractLsb' 4 1 == 1 then
    have? (tyOfCode src) .reservedType fun ts =>
    match op with
    | 0 => .ok (.vredsum c (some ts) d a b) | 1 => .ok (.vredosum c (some ts) d a b)
    | _ => .error .undefinedFunction
  else
    need (src == 0) .fieldNotZero <|
    match op with
    | 0 => .ok (.vredsum c none d a b) | 1 => .ok (.vredosum c none d a b) | 2 => .ok (.vredmin c d a b)
    | 3 => .ok (.vredmax c d a b) | 4 => .ok (.vredand c d a b) | 5 => .ok (.vredor c d a b)
    | 6 => .ok (.vredxor c d a b)
    | _ => .error .undefinedFunction

/-- CONF (R172). -/
def decConf (f : Fields64) (c : Common) : Decoded :=
  need (f.fn.extractLsb' 2 10 == 0 && f.c == 0) .fieldNotZero <|
  match (f.fn.extractLsb' 0 2).toNat with
  | 0 => need (f.b == 0) .fieldNotZero (inFile 8 f.d fun d => .ok (.vconf c d (fr f.a)))
  | 1 => need (f.b == 0) .fieldNotZero (.ok (.vconfr c (fr f.d) (fr f.a)))
  | 2 => .ok (.vtopk c (fr f.d) (fr f.a) (fr f.b))
  | _ => .error .undefinedFunction

/-- XFRM (R175). -/
def decXfrm (f : Fields64) (c : Common) : Decoded :=
  need (f.c == 0) .fieldNotZero <|
  match (f.fn.extractLsb' 0 2).toNat with
  | 0 => need (f.fn.extractLsb' 2 10 == 0) .fieldNotZero (.ok (.vunpk c (fr f.d) (fr f.a) (fr f.b)))
  | 1 =>
    need (f.fn.extractLsb' 11 1 == 0) .fieldNotZero <|
    have? (tyOfCode (f.fn.extractLsb' 2 5)) .reservedType fun ix =>
    .ok (.vlut c ix (f.fn.extractLsb' 7 4) (fr f.d) (fr f.a) (fr f.b))
  | 2 => need (f.fn.extractLsb' 2 10 == 0 && f.b == 0) .fieldNotZero (.ok (.vexpm c (fr f.d) (fr f.a)))
  | _ => .error .undefinedFunction

/-- VMEM (R183). -/
def decVmem (f : Fields64) (c : Common) : Decoded :=
  let d := fr f.d
  let a := fr f.a
  need (f.fn8.extractLsb' 3 5 == 0) .fieldNotZero <|
  match (f.fn8.extractLsb' 0 3).toNat with
  | 0 => .ok (.vld c d a f.imm14)
  | 1 => .ok (.vst c d a f.imm14)
  | 2 => need (f.imm14.extractLsb' 5 9 == 0) .fieldNotZero (.ok (.vlds c d a (fr f.b)))
  | 3 => need (f.imm14.extractLsb' 5 9 == 0) .fieldNotZero (.ok (.vsts c d a (fr f.b)))
  | 4 => inFile 8 f.d fun m => .ok (.mld c m a f.imm14)
  | 5 => inFile 8 f.d fun m => .ok (.mst c m a f.imm14)
  | _ => .error .undefinedFunction

/-- SUBB (R186). -/
def decSubb (f : Fields64) (c : Common) : Decoded :=
  need (f.fn.extractLsb' 4 8 == 0 && f.b == 0 && f.c == 0) .fieldNotZero <|
  let o : Fin 8 := (f.fn.extractLsb' 0 3).toFin
  if f.fn.extractLsb' 3 1 == 1 then .ok (.vstb c (fr f.d) (fr f.a) o) else .ok (.vldb c (fr f.d) (fr f.a) o)

/-- GATH (R187). -/
def decGath (f : Fields64) (c : Common) : Decoded :=
  need (f.fn.extractLsb' 1 7 == 0 && f.c == 0) .fieldNotZero <|
  let sc : Fin 4 := (f.fn.extractLsb' 10 2).toFin
  let ix := ixOf (f.fn.extractLsb' 8 2)
  if f.fn.extractLsb' 0 1 == 1 then .ok (.vstx c (fr f.d) (fr f.a) (fr f.b) sc ix)
  else .ok (.vldx c (fr f.d) (fr f.a) (fr f.b) sc ix)

/-- STRM (R194). -/
def decStrm (f : Fields64) (c : Common) : Decoded :=
  need (f.fn.extractLsb' 2 10 == 0 && f.c == 0 && f.b == 0) .fieldNotZero <|
  match (f.fn.extractLsb' 0 2).toNat with
  | 0 => inFile 8 f.a fun s => .ok (.sbind c (fr f.d) s)
  | 1 => need (f.a == 0) .fieldNotZero (.ok (.sfree c (fr f.d)))
  | 2 => inFile 8 f.d fun s => .ok (.sdld c s (fr f.a))
  | _ => inFile 8 f.d fun s => .ok (.sdst c s (fr f.a))

/-- FAB (R190). -/
def decFab (f : Fields64) (c : Common) : Decoded :=
  let d := fr f.d
  let a := fr f.a
  let b := fr f.b
  need (f.fn.extractLsb' 8 4 == 0 && f.fn.extractLsb' 1 5 == 0 && f.c == 0) .fieldNotZero <|
  let rop := (f.fn.extractLsb' 6 2).toNat
  if f.fn.extractLsb' 0 1 == 1 then need (rop == 0) .fieldNotZero (.ok (.vstm c d a b))
  else match rop with
  | 0 => .ok (.vldr c d a b) | 1 => .ok (.vldrmin c d a b) | 2 => .ok (.vldrmax c d a b)
  | _ => .error .undefinedFunction

/-- SPMEM (R206): FN8[7:5] the operation, FN8[4:0] the count register. -/
def decSpmem (f : Fields64) (c : Common) : Decoded :=
  inFile 8 f.d fun d =>
  let n := fr (f.fn8.extractLsb' 0 5)
  match (f.fn8.extractLsb' 5 3).toNat with
  | 0 => .ok (.psld c d (fr f.a) n f.imm14)
  | 1 => .ok (.psst c d (fr f.a) n f.imm14)
  | _ => .error .undefinedFunction

/-- SPAR (R207). -/
def decSpar (f : Fields64) (c : Common) : Decoded :=
  need (f.fn.extractLsb' 2 10 == 0) .fieldNotZero <|
  match (f.fn.extractLsb' 0 2).toNat with
  | 0 => inFile 8 f.d fun d => inFile 8 f.a fun a => inFile 8 f.b fun b => .ok (.psadd c d a b (fr f.c))
  | 1 => inFile 8 f.d fun d => inFile 8 f.a fun a => inFile 8 f.b fun b => .ok (.psmul c d a b (fr f.c))
  | 2 => need (f.c == 0) .fieldNotZero (inFile 8 f.a fun a => .ok (.psdense c (fr f.d) a (fr f.b)))
  | _ => inFile 8 f.d fun d => .ok (.pssparse c d (fr f.a) (fr f.b) (fr f.c))

/-- FMEM (R222). -/
def decFmem (f : Fields64) (c : Common) : Decoded :=
  need (f.fn8.extractLsb' 1 7 == 0 && f.imm14.extractLsb' 5 9 == 0) .fieldNotZero <| inFile 16 f.d fun d =>
  if f.fn8.extractLsb' 0 1 == 0 then .ok (.fnld c d (fr f.a) (fr f.b))
  else need (f.b == 0) .fieldNotZero (.ok (.fnst c d (fr f.a)))

/-- FARI (R225). -/
def decFari (f : Fields64) (c : Common) : Decoded :=
  need (f.fn.extractLsb' 4 8 == 0 && f.c == 0) .fieldNotZero <|
  inFile 16 f.d fun d => inFile 16 f.a fun a =>
  let sel := (f.fn.extractLsb' 2 2).toNat
  match (f.fn.extractLsb' 0 2).toNat with
  | 0 => need (sel == 0) .fieldNotZero (inFile 16 f.b fun b => .ok (.fnadd c d a b))
  | 1 => need (sel == 0) .fieldNotZero (inFile 16 f.b fun b => .ok (.fnsub c d a b))
  | 2 => inFile 16 f.b fun b =>
    match sel with
    | 0 => .ok (.fnmul c .follow d a b) | 1 => .ok (.fnmul c .dealiased d a b) | 2 => .ok (.fnmul c .aliased d a b)
    | _ => .error .undefinedFunction
  | _ =>
    match sel with
    | 0 => .ok (.fnscl c d a (.s (fr f.b))) | 1 => .ok (.fnscl c d a (.v (fr f.b)))
    | _ => .error .fieldNotZero

/-- FCAL (R230). -/
def decFcal (f : Fields64) (c : Common) : Decoded :=
  let face := f.fn.extractLsb' 4 3
  let axis := f.fn.extractLsb' 2 2
  need (f.fn.extractLsb' 7 5 == 0 && f.c == 0) .fieldNotZero <|
  inFile 16 f.d fun d => inFile 16 f.a fun a =>
  let ax (k : Fin 3 → Decoded) : Decoded :=
    need (face == 0 && f.b == 0) .fieldNotZero <|
      if h : axis.toNat < 3 then k ⟨axis.toNat, h⟩ else .error .undefinedFunction
  match (f.fn.extractLsb' 0 2).toNat with
  | 0 => ax fun x => .ok (.fndiff c x d a)
  | 1 => ax fun x => .ok (.fnint c x d a)
  | 2 => need (face == 0 && axis == 0) .fieldNotZero (.ok (.fnproj c d a (fr f.b)))
  | _ => need (axis == 0 && f.b == 0) .fieldNotZero <|
      if h : face.toNat < 6 then .ok (.fntrace c ⟨face.toNat, h⟩ d a) else .error .undefinedFunction

/-- FEVL (R236). -/
def decFevl (f : Fields64) (c : Common) : Decoded :=
  need (f.fn.extractLsb' 2 10 == 0) .fieldNotZero <|
  match (f.fn.extractLsb' 0 2).toNat with
  | 0 => inFile 16 f.a fun a => .ok (.fneval c (fr f.d) a (fr f.b) (fr f.c))
  | 1 => need (f.b == 0 && f.c == 0) .fieldNotZero (inFile 16 f.a fun a => .ok (.fnquad c (fr f.d) a))
  | 2 => need (f.b == 0 && f.c == 0) .fieldNotZero (inFile 16 f.a fun a => .ok (.fndeg c (fr f.d) a))
  | _ => need (f.a == 0 && f.b == 0 && f.c == 0) .fieldNotZero (inFile 16 f.d fun d => .ok (.fnfree c d))

/-- TMEM (R249). -/
def decTmem (f : Fields64) (c : Common) : Decoded :=
  let x := f.fn8.extractLsb' 3 1
  need (f.fn8.extractLsb' 4 4 == 0 && f.imm14.extractLsb' 5 9 == 0) .fieldNotZero <|
  match (f.fn8.extractLsb' 0 3).toNat with
  | 0 => need (x == 0 && f.a == 0) .fieldNotZero <| have? (tyOfCode f.b) .reservedType fun t => .ok (.tshape c t (fr f.d))
  | 1 => need (x == 0) .fieldNotZero <| have? (tyOfCode f.b) .reservedType fun t => .ok (.tshapex c t (fr f.d) (fr f.a))
  | 2 => need (x == 0) .fieldNotZero <| inFile 16 f.d fun d => .ok (.tld c d (fr f.a) (fr f.b))
  | 3 => need (x == 0) .fieldNotZero <| inFile 16 f.d fun d => .ok (.tst c d (fr f.a) (fr f.b))
  | 4 => inFile 4 f.d fun d => .ok (.tlda c (x == 1) d (fr f.a) (fr f.b))
  | 5 => inFile 4 f.d fun d => .ok (.tsta c (x == 1) d (fr f.a) (fr f.b))
  | _ => .error .undefinedFunction

/-- TMAT (R254). -/
def decTmat (f : Fields64) (c : Common) : Decoded :=
  let z := f.fn.extractLsb' 4 1
  let den := f.fn.extractLsb' 5 1
  let gc := f.fn.extractLsb' 6 3
  need (f.fn.extractLsb' 9 3 == 0) .fieldNotZero <|
  let ops (k : Fin 4 → Fin 16 → Fin 16 → Decoded) : Decoded :=
    inFile 4 f.d fun d => inFile 16 f.a fun a => inFile 16 f.b fun b => k d a b
  match (f.fn.extractLsb' 0 4).toNat with
  | 0 => need (gc == 0 && den == 0 && f.c == 0) .fieldNotZero <| ops fun d a b => .ok (.tmma c (z == 1) d a b)
  | 1 => need (gc == 0 && den == 0 && f.c == 0) .fieldNotZero <| ops fun d a b => .ok (.tmmas c (z == 1) d a b)
  | 2 => need (den == 0) .fieldNotZero <| ops fun d a b => .ok (.tgmm c (z == 1) gc.toFin d a b (fr f.c))
  | 3 => need (gc == 0) .fieldNotZero <| ops fun d a b => inFile 16 f.c fun e => .ok (.tspmm c (z == 1) (den == 1) d a b e)
  | 4 => need (gc == 0 && den == 0 && z == 0 && f.b == 0 && f.c == 0) .fieldNotZero <|
      inFile 16 f.d fun d => inFile 4 f.a fun a => .ok (.tcvt c d a)
  | _ => .error .undefinedFunction

/-- THR (R265). -/
def decThr (f : Fields64) (c : Common) : Decoded :=
  let col := f.fn.extractLsb' 4 8
  let z := f.fn.extractLsb' 3 1
  let bt := f.fn.extractLsb' 2 1
  need (f.c == 0) .fieldNotZero <|
  match (f.fn.extractLsb' 0 2).toNat with
  | 0 => need (col == 0 && z == 0 && f.d == 0 && f.b == 0) .fieldNotZero <|
      inFile 16 f.a fun a => .ok (.tbload c (bt == 1) a)
  | 1 => need (col == 0 && z == 0 && bt == 0 && f.b == 0) .fieldNotZero <|
      inFile 16 f.d fun d => inFile 16 f.a fun a => .ok (.tbeval c d a)
  | 2 => need (bt == 0) .fieldNotZero <|
      inFile 4 f.d fun d => inFile 16 f.a fun a => inFile 16 f.b fun b => .ok (.tleaf c (z == 1) col d a b)
  | _ => .error .undefinedFunction

/-- SAMO (R275). -/
def decSamo (f : Fields64) (c : Common) : Decoded :=
  let d := fr f.d
  let a := fr f.a
  let b := fr f.b
  let sem := semOf (f.fn8.extractLsb' 4 2)
  let op := (f.fn8.extractLsb' 0 4).toNat
  need (f.fn8.extractLsb' 6 2 == 0 && f.imm14.extractLsb' 10 1 == 0 && (op == 1 || f.c == 0)) .fieldNotZero <|
  have? (scopeOf (f.imm14.extractLsb' 11 3)) .reservedValue fun sc =>
  match op with
  | 0 => .ok (.amoswap c sem sc d a b)
  | 1 => .ok (.amocas c sem sc d a b (fr f.c))
  | 2 => .ok (.amoadd c sem sc d a b)
  | 3 => .ok (.amoand c sem sc d a b)
  | 4 => .ok (.amoor c sem sc d a b)
  | 5 => .ok (.amoxor c sem sc d a b)
  | 6 => .ok (.amomin c sem sc d a b)
  | 7 => .ok (.amomax c sem sc d a b)
  | 8 => .ok (.amofadd c sem sc d a b)
  | 9 => .ok (.amofmin c sem sc d a b)
  | 10 => .ok (.amofmax c sem sc d a b)
  | _ => .error .undefinedFunction

/-- VAMO (R277). -/
def decVamo (f : Fields64) (c : Common) : Decoded :=
  let a := fr f.a
  let b := fr f.b
  let e := fr f.c
  let sc : Fin 4 := (f.fn.extractLsb' 10 2).toFin
  let ix := ixOf (f.fn.extractLsb' 8 2)
  have? (scopeOf (f.fn.extractLsb' 5 3)) .reservedValue fun scope =>
  let ret := f.fn.extractLsb' 4 1
  need (ret == 1 || f.d == 0) .fieldNotZero <|
  let r : Option (Fin 32) := if ret == 1 then some (fr f.d) else none
  match (f.fn.extractLsb' 0 4).toNat with
  | 0 => .ok (.vamoswap c sc ix scope r a b e)
  | 2 => .ok (.vamoadd c sc ix scope r a b e)
  | 3 => .ok (.vamoand c sc ix scope r a b e)
  | 4 => .ok (.vamoor c sc ix scope r a b e)
  | 5 => .ok (.vamoxor c sc ix scope r a b e)
  | 6 => .ok (.vamomin c sc ix scope r a b e)
  | 7 => .ok (.vamomax c sc ix scope r a b e)
  | 8 => .ok (.vamofadd c sc ix scope r a b e)
  | 9 => .ok (.vamofmin c sc ix scope r a b e)
  | 10 => .ok (.vamofmax c sc ix scope r a b e)
  | _ => .error .undefinedFunction

/-- QUE (R280). -/
def decQue (f : Fields64) (c : Common) : Decoded :=
  let d := fr f.d
  let a := fr f.a
  let b := fr f.b
  let e := fr f.c
  let tc := f.fn.extractLsb' 4 5
  need (f.fn.extractLsb' 9 3 == 0) .fieldNotZero <|
  let z (x : Bool) (k : Decoded) : Decoded := need (x && tc == 0) .fieldNotZero k
  match (f.fn.extractLsb' 0 4).toNat with
  | 0 => z (f.b == 0 && f.c == 0) (.ok (.qput c d a))
  | 1 => z (f.b == 0 && f.c == 0) (.ok (.qget c d a))
  | 2 => have? (tyOfCode tc) .reservedType fun t => .ok (.qld c t d a b e)
  | 3 => need (f.b == 0) .fieldNotZero <| have? (tyOfCode tc) .reservedType fun t => .ok (.qgetv c t d a e)
  | 4 => z (f.b == 0 && f.c == 0) (.ok (.qcmd c d a))
  | 5 => z (f.d == 0 && f.c == 0) (.ok (.qres c a b))
  | 6 => z (f.b == 0 && f.c == 0) (.ok (.qcnt c d a))
  | 7 => z (f.d == 0 && f.a == 0 && f.b == 0 && f.c == 0) (.ok (.ksync c))
  | 8 => z (f.b == 0 && f.c == 0) (inFile 8 f.a fun k => .ok (.kcnt c d k))
  | _ => .error .undefinedFunction

/-- TASK (R292). -/
def decTask (f : Fields64) (c : Common) : Decoded :=
  let fin := f.fn.extractLsb' 2 1
  need (f.fn.extractLsb' 3 9 == 0 && f.c == 0) .fieldNotZero <|
  match (f.fn.extractLsb' 0 2).toNat with
  | 0 => need (fin == 0) .fieldNotZero (.ok (.tspawn c (fr f.d) (fr f.a) (fr f.b)))
  | 1 => need (f.d == 0) .fieldNotZero (.ok (.vpub c (fin == 1) (fr f.a) (fr f.b)))
  | _ => .error .undefinedFunction

/-- The 64-bit map of R108, the hint space apart. -/
def decCell64 (f : Fields64) (c : Common) : Decoded :=
  match f.op.toNat with
  | 0x01 => decArv .vv f c
  | 0x02 => decArv .vs f c
  | 0x03 => decArv .vi f c
  | 0x04 => decVfma f c
  | 0x05 => decVcvt f c
  | 0x06 => decVcmp f c
  | 0x07 => decMask f c
  | 0x08 => decPerm f c
  | 0x09 => decVred f c
  | 0x0A => decConf f c
  | 0x0B => decXfrm f c
  | 0x10 => decVmem f c
  | 0x11 => decGath f c
  | 0x12 => decSubb f c
  | 0x13 => decStrm f c
  | 0x14 => decFab f c
  | 0x15 => decSpmem f c
  | 0x16 => decSpar f c
  | 0x18 => decFmem f c
  | 0x19 => decFari f c
  | 0x1A => decFcal f c
  | 0x1B => decFevl f c
  | 0x20 => decTmem f c
  | 0x21 => decTmat f c
  | 0x22 => decThr f c
  | 0x28 => decSamo f c
  | 0x29 => decQue f c
  | 0x2A => decTask f c
  | 0x2B => decVamo f c
  | _ => .error .unassignedCell

/-! ## What a cell allows -/

/-- The cells of R107 and R108, and the events. -/
inductive Cell where
  | irr | iim | lup | imd | sld | sst | frr | fma4 | fls | fcv | pcu | bcc | jmp | call | jr | bany | bq | strip | mode
  | creg | fence | trap | pgmv | cvy | hint
  | arv | vfma | vcvt | vcmp | mask | perm | vred | conf | xfrm | vmem | gath | subb | strm | fab | spmem | spar
  | fmem | fari | fcal | fevl | tmem | tmat | thr | samo | que | task | vamo
  | event
deriving DecidableEq, Repr

def Instr.cell : Instr → Cell
  | .add .. | .sub .. | .and .. | .or .. | .xor .. | .sll .. | .srl .. | .sra .. | .slt .. | .sltn .. | .min .. | .minn ..
  | .max .. | .maxn .. | .clz .. | .ctz .. | .pcnt .. | .addw .. | .subw .. => .irr
  | .addi .. | .andi .. | .ori .. | .xori .. | .slti .. | .sltni .. | .slli .. | .srli .. | .srai .. => .iim
  | .lui .. => .lup
  | .pcui .. => .pcu
  | .mul .. | .mulh .. | .mulhn .. | .mulhsn .. | .div .. | .divn .. | .rem .. | .remn .. => .imd
  | .sld .. => .sld
  | .sst .. => .sst
  | .fadd .. | .fsub .. | .fmul .. | .fdiv .. | .fsqrt .. | .fmin .. | .fmax .. | .fsgnj .. | .fsgnjn .. | .fsgnjx ..
  | .feq .. | .flt .. | .fle .. | .fclass .. => .frr
  | .fmadd .. | .fmsub .. | .fnmadd .. | .fnmsub .. => .fma4
  | .fldF64 .. | .fldF32 .. | .fldF16 .. | .fstF64 .. | .fstF32 .. | .fstF16 .. => .fls
  | .fmvgh .. | .fmvhg .. | .fcvtFloatFloat .. | .fcvtFloatInt .. | .fcvtIntFloat .. | .fcvtz .. => .fcv
  | .beq .. | .bne .. | .blt .. | .bge .. | .bltn .. | .bgen .. => .bcc
  | .j .. => .jmp
  | .call .. => .call
  | .jr .. | .callr .. | .ret | .exit => .jr
  | .bany .. | .ball .. | .bnone .. | .bnall .. => .bany
  | .bq .. | .bqn .. => .bq
  | .vstrip .. | .vstripx .. | .vrel => .strip
  | .mode .. | .apfork .. | .apjoin => .mode
  | .cread .. | .cwrite .. | .cswap .. => .creg
  | .fenceFull .. | .fenceAcq .. | .fenceRel .. | .fenceIfetch .. => .fence
  | .trap .. | .tret | .adjourn => .trap
  | .pgmove .. | .pgstat .. => .pgmv
  | .cvy .. => .cvy
  | .nop | .hint32 .. | .hint64 .. => .hint
  | .vadd .. | .vsub .. | .vrsub .. | .vmul .. | .vmulh .. | .vdiv .. | .vrem .. | .vmin .. | .vmax .. | .vand .. | .vor ..
  | .vxor .. | .vsll .. | .vsrl .. | .vsra .. | .vsadd .. | .vssub .. | .vsqrt .. | .vabs .. | .vneg .. | .vsgnj ..
  | .vsgnjn .. | .vsel .. | .vmv .. => .arv
  | .vfmadd .. | .vfmsub .. | .vfnmadd .. | .vfnmsub .. | .vwfmadd .. | .vwfmsub .. | .vwfnmadd .. | .vwfnmsub .. => .vfma
  | .vcvt .. | .vcvtx .. => .vcvt
  | .vcmpeq .. | .vcmpne .. | .vcmplt .. | .vcmple .. | .vcmpgt .. | .vcmpge .. => .vcmp
  | .mand .. | .mor .. | .mxor .. | .mandn .. | .msbf .. | .msif .. | .msof .. | .mpcnt .. | .mfirst .. => .mask
  | .vslideup .. | .vslidedown .. | .vrgather .. | .vcompress .. | .vid .. | .viota .. | .vgetg .. | .vgeth .. | .vputg ..
  | .vputh .. => .perm
  | .vredsum .. | .vredosum .. | .vredmin .. | .vredmax .. | .vredand .. | .vredor .. | .vredxor .. => .vred
  | .vconf .. | .vconfr .. | .vtopk .. => .conf
  | .vunpk .. | .vlut .. | .vexpm .. => .xfrm
  | .vld .. | .vst .. | .vlds .. | .vsts .. | .mld .. | .mst .. => .vmem
  | .vldb .. | .vstb .. => .subb
  | .vldx .. | .vstx .. => .gath
  | .sbind .. | .sfree .. | .sdld .. | .sdst .. => .strm
  | .vstm .. | .vldr .. | .vldrmin .. | .vldrmax .. => .fab
  | .psld .. | .psst .. => .spmem
  | .psadd .. | .psmul .. | .psdense .. | .pssparse .. => .spar
  | .fnld .. | .fnst .. => .fmem
  | .fnadd .. | .fnsub .. | .fnmul .. | .fnscl .. => .fari
  | .fndiff .. | .fnint .. | .fnproj .. | .fntrace .. => .fcal
  | .fneval .. | .fnquad .. | .fndeg .. | .fnfree .. => .fevl
  | .tshape .. | .tshapex .. | .tld .. | .tst .. | .tlda .. | .tsta .. => .tmem
  | .tmma .. | .tmmas .. | .tgmm .. | .tspmm .. | .tcvt .. => .tmat
  | .tbload .. | .tbeval .. | .tleaf .. => .thr
  | .amoswap .. | .amocas .. | .amoadd .. | .amoand .. | .amoor .. | .amoxor .. | .amomin .. | .amomax .. | .amofadd ..
  | .amofmin .. | .amofmax .. => .samo
  | .vamoswap .. | .vamoadd .. | .vamoand .. | .vamoor .. | .vamoxor .. | .vamomin .. | .vamomax .. | .vamofadd ..
  | .vamofmin .. | .vamofmax .. => .vamo
  | .qput .. | .qget .. | .qld .. | .qgetv .. | .qcmd .. | .qres .. | .qcnt .. | .ksync .. | .kcnt .. => .que
  | .tspawn .. | .vpub .. => .task
  | .atpAsidWrite .. | .tokenGrant .. | .queueWaitEnd .. | .flagFall .. | .migrationRequest .. | .resume ..
  | .schedulerAdjourn .. | .contextMove .. | .vectorTenureGrant .. | .tileStateExchange .. | .grantDecision .. | .launch ..
  | .admission .. | .vlcCreate .. | .taskComplete .. | .qctlWrite .. | .qcmaskWrite .. | .registerWrite .. | .copy ..
  | .gather .. | .engineTokenPost .. | .engineCompletion .. | .allgather .. | .redscatter .. | .collectiveComplete ..
  | .status .. | .clear .. | .move .. | .retire .. | .ceThreshold .. | .stubmin .. | .hotFrameMigration ..
  | .streamPrefetch .. | .transferEvent .. | .stubReclaim .. | .stubFree .. | .owninvRetry .. | .hotFrameWindow
  | .eccCorrectedRead .. | .scrubRead .. | .lmclr .. | .read .. | .write .. | .atomic .. | .rdstride .. | .mcwrite ..
  | .redread .. | .resp .. | .migrate .. | .owninv .. | .coll .. | .linkReplay .. | .portTrain .. | .e2eResend ..
  | .hostMemRead .. | .hostMemWrite .. | .hostSnoop .. | .cxlLinkRetrain .. | .hdmDecoderCommit .. | .fendpWrite ..
  | .powerGood | .mrst | .fwWrite .. | .fwCommit | .sidebandWrite .. | .sidebandRead .. | .debugToken ..
  | .tlbInvalidate .. | .tlbInvalidateDone | .attestReport | .measExtend | .vpoolWrite .. | .clockStep .. | .thermalTrip ..
  | .storeEntryMove .. | .peerEndpointReset .. | .powerLoss => .event

/-- The common fields of a 64-bit instruction (R98). -/
def Instr.common : Instr → Option Common
  | .vadd c .. | .vsub c .. | .vrsub c .. | .vmul c .. | .vmulh c .. | .vdiv c .. | .vrem c .. | .vmin c .. | .vmax c ..
  | .vand c .. | .vor c .. | .vxor c .. | .vsll c .. | .vsrl c .. | .vsra c .. | .vsadd c .. | .vssub c .. | .vsqrt c ..
  | .vabs c .. | .vneg c .. | .vsgnj c .. | .vsgnjn c .. | .vsel c .. | .vmv c .. | .vfmadd c .. | .vfmsub c ..
  | .vfnmadd c .. | .vfnmsub c .. | .vwfmadd c .. | .vwfmsub c .. | .vwfnmadd c .. | .vwfnmsub c .. | .vcvt c ..
  | .vcvtx c .. | .vcmpeq c .. | .vcmpne c .. | .vcmplt c .. | .vcmple c .. | .vcmpgt c .. | .vcmpge c .. | .mand c ..
  | .mor c .. | .mxor c .. | .mandn c .. | .msbf c .. | .msif c .. | .msof c .. | .mpcnt c .. | .mfirst c ..
  | .vslideup c .. | .vslidedown c .. | .vrgather c .. | .vcompress c .. | .vid c .. | .viota c .. | .vgetg c ..
  | .vgeth c .. | .vputg c .. | .vputh c .. | .vredsum c .. | .vredosum c .. | .vredmin c .. | .vredmax c ..
  | .vredand c .. | .vredor c .. | .vredxor c .. | .vconf c .. | .vconfr c .. | .vtopk c .. | .vunpk c .. | .vlut c ..
  | .vexpm c .. | .vld c .. | .vst c .. | .vlds c .. | .vsts c .. | .mld c .. | .mst c .. | .vldb c .. | .vstb c ..
  | .vldx c .. | .vstx c .. | .sbind c .. | .sfree c .. | .sdld c .. | .sdst c .. | .vstm c .. | .vldr c ..
  | .vldrmin c .. | .vldrmax c .. | .psld c .. | .psst c .. | .psadd c .. | .psmul c .. | .psdense c .. | .pssparse c ..
  | .fnld c .. | .fnst c .. | .fnadd c .. | .fnsub c .. | .fnmul c .. | .fnscl c .. | .fndiff c .. | .fnint c ..
  | .fnproj c .. | .fntrace c .. | .fneval c .. | .fnquad c .. | .fndeg c .. | .fnfree c .. | .tshape c .. | .tshapex c ..
  | .tld c .. | .tst c .. | .tlda c .. | .tsta c .. | .tmma c .. | .tmmas c .. | .tgmm c .. | .tspmm c .. | .tcvt c ..
  | .tbload c .. | .tbeval c .. | .tleaf c .. | .amoswap c .. | .amocas c .. | .amoadd c .. | .amoand c .. | .amoor c ..
  | .amoxor c .. | .amomin c .. | .amomax c .. | .amofadd c .. | .amofmin c .. | .amofmax c .. | .vamoswap c ..
  | .vamoadd c .. | .vamoand c .. | .vamoor c .. | .vamoxor c .. | .vamomin c .. | .vamomax c .. | .vamofadd c ..
  | .vamofmin c .. | .vamofmax c .. | .qput c .. | .qget c .. | .qld c .. | .qgetv c .. | .qcmd c .. | .qres c ..
  | .qcnt c .. | .ksync c | .kcnt c .. | .tspawn c .. | .vpub c .. => some c
  | _ => none

/-- The Guard column of R108. -/
def Cell.guardAllowed : Cell → Bool
  | .strm | .spmem | .spar | .tmem | .tmat | .thr | .samo | .que | .task => false
  | _ => true

/-- The TY column of R108. -/
def Cell.tyAllowed : Cell → Option Ty → Bool
  | .vcvt, t | .samo, t => t.isSome
  | .mask, t | .strm, t | .fari, t | .fevl, t | .tmem, t | .tmat, t | .thr, t | .que, t | .task, t => t.isNone
  | .fmem, t | .fcal, t => t == none || t == some .f32 || t == some .f64
  | _, _ => true

/-- Types of the integer and exchange atomics (R275). -/
def amoIntTy (t : Option Ty) : Bool := t == some .s32 || t == some .n32 || t == some .s64 || t == some .n64
def amoFloatTy (t : Option Ty) : Bool := t == some .f32 || t == some .f64

/-- Where X = 1 is defined (R162). -/
def cvtxOk (td ts : Ty) : Bool :=
  ((td == .e5m2 || td == .e4m3 || td == .e4m3s) && !ts.isAnyInt) ||
  (td.isAnyInt && ts.isAnyInt && (td.sew < ts.sew || (td.sew == ts.sew && td.isSigned != ts.isSigned)))

/-- What an instruction's own description asks of its fields, beyond their widths. -/
def Instr.ownChecks : Instr → List (Bool × Reject)
  | .hint32 bits => [(bits != 0, .reservedValue)]
  | .cvy cnt slots => [(decide (cnt.toNat < 5), .reservedValue), (slotsClear cnt slots, .fieldNotZero)]
  | .fcvtFloatFloat g f .. => [(g != f, .undefinedFunction)]
  | .vrsub _ _ _ b => [(match b with | .v _ => false | _ => true, .undefinedFunction)]
  | .vsgnj _ _ _ b | .vsgnjn _ _ _ b => [(match b with | .i _ => false | _ => true, .undefinedFunction)]
  | .vsel c _ _ b => [(match b with | .i _ => false | _ => true, .undefinedFunction), (c.guard.isSome, .guardNotAllowed)]
  | .vwfmadd c ts .. | .vwfmsub c ts .. | .vwfnmadd c ts .. | .vwfnmsub c ts .. =>
    [(match c.ty with | some td => widePair td ts | none => true, .typeNotAllowed)]
  | .vcvt c ts .. => [(c.ty != some ts, .typeNotAllowed)]
  | .vcvtx c ts .. => [(match c.ty with | some td => td != ts && cvtxOk td ts | none => false, .typeNotAllowed)]
  | .vcompress c .. => [(c.guard.isNone, .guardNotAllowed)]
  | .vredsum c w .. | .vredosum c w .. =>
    [(c.rm != .rsr, .reservedRounding),
     (match c.ty, w with | some td, some ts => widePair td ts | _, _ => true, .typeNotAllowed)]
  | .vredmin c .. | .vredmax c .. | .vredand c .. | .vredor c .. | .vredxor c .. => [(c.rm != .rsr, .reservedRounding)]
  | .vlut _ ix lb .. =>
    [(ix == .n3 || ix == .n4 || ix == .n6 || ix == .n8 || ix == .n16, .reservedType),
     (decide (lb.toNat ≤ 14), .reservedValue)]
  | .mld c .. | .mst c .. => [(c.guard.isNone, .guardNotAllowed), (c.ty.isNone, .typeNotAllowed)]
  | .vldr c .. | .vldrmin c .. | .vldrmax c .. => [(c.rm == .rne, .reservedRounding)]
  | .fnld c .. => [(c.ty.isSome, .typeNotAllowed)]
  | .fndeg c .. | .fnfree c .. => [(c.guard.isNone, .guardNotAllowed)]
  | .tshape _ t _ | .tshapex _ t _ _ => [(t.isMatrix, .reservedType)]
  | .tgmm _ _ gc _ _ b e => [(decide (e.val < 24), .registerOutsideFile), (decide (b.val + gc.val ≤ 15), .registerOutsideFile)]
  | .tbload _ _ a => [(decide (a.val < 14), .registerOutsideFile)]
  | .amoswap c .. | .amocas c .. => [(amoIntTy c.ty || amoFloatTy c.ty, .typeNotAllowed)]
  | .amoadd c .. | .amoand c .. | .amoor c .. | .amoxor c .. | .amomin c .. | .amomax c .. =>
    [(amoIntTy c.ty, .typeNotAllowed)]
  | .amofadd c .. => [(amoFloatTy c.ty, .typeNotAllowed), (c.rm != .rsr, .reservedRounding)]
  | .amofmin c .. | .amofmax c .. => [(amoFloatTy c.ty, .typeNotAllowed)]
  | .vamofadd c .. => [(c.rm != .rsr, .reservedRounding)]
  | _ => []

/-- Every check on an instruction's fields: the Guard and TY columns of its cell, then its own. -/
def Instr.checks (i : Instr) : List (Bool × Reject) :=
  (match i.common with
   | some c => [(i.cell.guardAllowed || c.guard.isNone, .guardNotAllowed), (i.cell.tyAllowed c.ty, .typeNotAllowed)]
   | none => []) ++ i.ownChecks

/-- The first check that fails. -/
def firstReject : List (Bool × Reject) → Option Reject
  | [] => none
  | (ok, r) :: rest => if ok then firstReject rest else some r

/-- Keeps an instruction whose fields pass every check. -/
def checked (r : Decoded) : Decoded :=
  match r with
  | .ok i => match firstReject i.checks with | none => .ok i | some e => .error e
  | .error e => .error e

/-- A 32-bit parcel (bit 0 = 0). -/
noncomputable def decode32 (w : Parcel) : Decoded := checked (decFields32 (.ofParcel w))

/-- A 64-bit instruction (bit 0 of the first parcel = 1). The hint space is read before any field is checked (R110). -/
def decode64 (lo hi : Parcel) : Decoded :=
  let f := Fields64.ofParcels lo hi
  if f.op == 0x7E then .ok (.hint64 (hi ++ lo.extractLsb' 8 24))
  else checked (commonOf f (decCell64 f))

/-- Whether a parcel begins a 64-bit instruction (R93). -/
def isLong (w : Parcel) : Bool := w.getLsbD 0

/-- The instruction at the head of a list of parcels, with the parcels after it (R93, R94). -/
noncomputable def decode (ws : List Parcel) : Except Reject (Instr × List Parcel) :=
  match ws with
  | [] => .error .truncated
  | w :: rest =>
    if isLong w then
      match rest with
      | [] => .error .truncated
      | v :: rest' => match decode64 w v with | .ok i => .ok (i, rest') | .error e => .error e
    else match decode32 w with | .ok i => .ok (i, rest) | .error e => .error e

/-! ## The encoder -/

def enc32 (f : Fields32) : List Parcel := [f.parcel]

/-- The fields of R98 for a 64-bit instruction. -/
def fields64 (k : Common) (op : BitVec 7) (fn : BitVec 12) (c b a d : BitVec 5) : Fields64 where
  top := 0
  rm := rmCode k.rm
  we := if k.wait.isSome then 1 else 0
  wk := match k.wait with | some n => BitVec.ofFin n | none => 0
  pe := if k.post.isSome then 1 else 0
  pk := match k.post with | some n => BitVec.ofFin n | none => 0
  ovt := if k.ovt then 1 else 0
  ord := if k.ord then 1 else 0
  ty := match k.ty with | some t => tyCode t | none => 0x1F
  gpol := match k.guard with | some g => (if g.pol then 1 else 0) | none => 0
  gen := if k.guard.isSome then 1 else 0
  gsel := match k.guard with | some g => BitVec.ofFin g.reg | none => 0
  op := op
  fn := fn
  c := c
  b := b
  a := a
  d := d

def encUR (k : Common) (op : BitVec 7) (fn : BitVec 12) (c b a d : BitVec 5) : List Parcel :=
  [(fields64 k op fn c b a d).lo, (fields64 k op fn c b a d).hi]

def encUI (k : Common) (op : BitVec 7) (fn8 : BitVec 8) (imm : BitVec 14) (a d : BitVec 5) : List Parcel :=
  encUR k op (fn8 ++ imm.extractLsb' 10 4) (imm.extractLsb' 5 5) (imm.extractLsb' 0 5) a d

/-- ARVV, ARVS or ARVI by the second operand (R154). -/
def encArv (k : Common) (code : BitVec 6) (d a : Fin 32) (b : Src) : List Parcel :=
  match b with
  | .v b => encUR k 0x01 ((0#6) ++ code) 0 (rf b) (rf a) (rf d)
  | .s b => encUR k 0x02 ((0#6) ++ code) 0 (rf b) (rf a) (rf d)
  | .i imm => encUI k 0x03 ((0#2) ++ code) imm (rf a) (rf d)

def encFma (k : Common) (op : BitVec 3) (d a b e : Fin 32) : List Parcel :=
  encUR k 0x04 ((0#9) ++ op) (rf e) (rf b) (rf a) (rf d)
def encWfma (k : Common) (ts : Ty) (op : BitVec 3) (d a b e : Fin 32) : List Parcel :=
  encUR k 0x04 ((0#3) ++ tyCode ts ++ (1#1) ++ op) (rf e) (rf b) (rf a) (rf d)
def encCmp (k : Common) (p : BitVec 3) (d : Fin 8) (a : Fin 32) (b : Src2) : List Parcel :=
  match b with
  | .v b => encUR k 0x06 ((0#8) ++ (0#1) ++ p) 0 (rf b) (rf a) (rf8 d)
  | .s b => encUR k 0x06 ((0#8) ++ (1#1) ++ p) 0 (rf b) (rf a) (rf8 d)
def encRed (k : Common) (w : Option Ty) (op : BitVec 4) (d a b : Fin 32) : List Parcel :=
  match w with
  | some ts => encUR k 0x09 ((0#2) ++ tyCode ts ++ (1#1) ++ op) 0 (rf b) (rf a) (rf d)
  | none => encUR k 0x09 ((0#8) ++ op) 0 (rf b) (rf a) (rf d)
def encAmo (k : Common) (op : BitVec 4) (sem : Sem) (sc : Scope) (d a b c : BitVec 5) : List Parcel :=
  encUI k 0x28 ((0#2) ++ semCode sem ++ op) (scopeCode sc ++ (0#1) ++ c ++ b) a d
def encVamo (k : Common) (op : BitVec 4) (sc : Fin 4) (ix : IdxTy) (scope : Scope) (r : Option (Fin 32)) (a b e : Fin 32) :
    List Parcel :=
  encUR k 0x2B (BitVec.ofFin (w := 2) sc ++ ixCode ix ++ scopeCode scope ++ (if r.isSome then (1#1) else (0#1)) ++ op)
    (rf e) (rf b) (rf a) (match r with | some d => rf d | none => 0)
def encFrr (t : FFmt) (op : BitVec 7) (d a b : BitVec 5) : List Parcel :=
  enc32 (regF 0x07 ((0#1) ++ ffmtCode t ++ op) d a b)
def encFma4 (t : FFmt) (op : BitVec 3) (d a b c : Fin 32) : List Parcel :=
  enc32 (regF 0x08 (ffmtCode t ++ op ++ rf c) (rf d) (rf a) (rf b))
def encSetV : Option SetV → BitVec 5 → BitVec 12
  | some v, mid => (1#1) ++ mid ++ BitVec.ofFin (w := 2) v.lg ++ v.wc
  | none, mid => (0#1) ++ mid ++ (0#6)

/-- The parcels of an instruction, first parcel first; none for an event. -/
def encode : Instr → List Parcel
  | .add d a b => enc32 (regF 0x01 0x000 (rf d) (rf a) (rf b))
  | .sub d a b => enc32 (regF 0x01 0x001 (rf d) (rf a) (rf b))
  | .and d a b => enc32 (regF 0x01 0x002 (rf d) (rf a) (rf b))
  | .or d a b => enc32 (regF 0x01 0x003 (rf d) (rf a) (rf b))
  | .xor d a b => enc32 (regF 0x01 0x004 (rf d) (rf a) (rf b))
  | .sll d a b => enc32 (regF 0x01 0x005 (rf d) (rf a) (rf b))
  | .srl d a b => enc32 (regF 0x01 0x006 (rf d) (rf a) (rf b))
  | .sra d a b => enc32 (regF 0x01 0x007 (rf d) (rf a) (rf b))
  | .slt d a b => enc32 (regF 0x01 0x008 (rf d) (rf a) (rf b))
  | .sltn d a b => enc32 (regF 0x01 0x009 (rf d) (rf a) (rf b))
  | .min d a b => enc32 (regF 0x01 0x00A (rf d) (rf a) (rf b))
  | .minn d a b => enc32 (regF 0x01 0x00B (rf d) (rf a) (rf b))
  | .max d a b => enc32 (regF 0x01 0x00C (rf d) (rf a) (rf b))
  | .maxn d a b => enc32 (regF 0x01 0x00D (rf d) (rf a) (rf b))
  | .clz d a => enc32 (regF 0x01 0x010 (rf d) (rf a) 0)
  | .ctz d a => enc32 (regF 0x01 0x011 (rf d) (rf a) 0)
  | .pcnt d a => enc32 (regF 0x01 0x012 (rf d) (rf a) 0)
  | .addw d a b => enc32 (regF 0x01 0x018 (rf d) (rf a) (rf b))
  | .subw d a b => enc32 (regF 0x01 0x019 (rf d) (rf a) (rf b))
  | .addi d a imm => enc32 (immF 0x02 0 (rf d) (rf a) imm)
  | .andi d a imm => enc32 (immF 0x02 1 (rf d) (rf a) imm)
  | .ori d a imm => enc32 (immF 0x02 2 (rf d) (rf a) imm)
  | .xori d a imm => enc32 (immF 0x02 3 (rf d) (rf a) imm)
  | .slti d a imm => enc32 (immF 0x02 4 (rf d) (rf a) imm)
  | .sltni d a imm => enc32 (immF 0x02 5 (rf d) (rf a) imm)
  | .slli d a sh => enc32 (immF 0x02 6 (rf d) (rf a) ((0#6) ++ sh))
  | .srli d a sh => enc32 (immF 0x02 6 (rf d) (rf a) ((1#6) ++ sh))
  | .srai d a sh => enc32 (immF 0x02 6 (rf d) (rf a) ((2#6) ++ sh))
  | .lui d imm => enc32 (upperF 0x03 (rf d) imm)
  | .pcui d imm => enc32 (upperF 0x0B (rf d) imm)
  | .mul d a b => enc32 (regF 0x04 0 (rf d) (rf a) (rf b))
  | .mulh d a b => enc32 (regF 0x04 1 (rf d) (rf a) (rf b))
  | .mulhn d a b => enc32 (regF 0x04 2 (rf d) (rf a) (rf b))
  | .mulhsn d a b => enc32 (regF 0x04 3 (rf d) (rf a) (rf b))
  | .div d a b => enc32 (regF 0x04 4 (rf d) (rf a) (rf b))
  | .divn d a b => enc32 (regF 0x04 5 (rf d) (rf a) (rf b))
  | .rem d a b => enc32 (regF 0x04 6 (rf d) (rf a) (rf b))
  | .remn d a b => enc32 (regF 0x04 7 (rf d) (rf a) (rf b))
  | .sld k d a imm => enc32 (immF 0x05 (ldCode k) (rf d) (rf a) imm)
  | .sst k d a imm => enc32 (immF 0x06 (stCode k) (rf d) (rf a) imm)
  | .fadd t d a b => encFrr t 0x00 (rf d) (rf a) (rf b)
  | .fsub t d a b => encFrr t 0x01 (rf d) (rf a) (rf b)
  | .fmul t d a b => encFrr t 0x02 (rf d) (rf a) (rf b)
  | .fdiv t d a b => encFrr t 0x03 (rf d) (rf a) (rf b)
  | .fsqrt t d a => encFrr t 0x04 (rf d) (rf a) 0
  | .fmin t d a b => encFrr t 0x05 (rf d) (rf a) (rf b)
  | .fmax t d a b => encFrr t 0x06 (rf d) (rf a) (rf b)
  | .fsgnj t d a b => encFrr t 0x07 (rf d) (rf a) (rf b)
  | .fsgnjn t d a b => encFrr t 0x08 (rf d) (rf a) (rf b)
  | .fsgnjx t d a b => encFrr t 0x09 (rf d) (rf a) (rf b)
  | .feq t d a b => encFrr t 0x10 (rf d) (rf a) (rf b)
  | .flt t d a b => encFrr t 0x11 (rf d) (rf a) (rf b)
  | .fle t d a b => encFrr t 0x12 (rf d) (rf a) (rf b)
  | .fclass t d a => encFrr t 0x13 (rf d) (rf a) 0
  | .fmadd t d a b c => encFma4 t 0 d a b c
  | .fmsub t d a b c => encFma4 t 1 d a b c
  | .fnmadd t d a b c => encFma4 t 2 d a b c
  | .fnmsub t d a b c => encFma4 t 3 d a b c
  | .fldF64 d a imm => enc32 (immF 0x09 0 (rf d) (rf a) imm)
  | .fldF32 d a imm => enc32 (immF 0x09 1 (rf d) (rf a) imm)
  | .fldF16 d a imm => enc32 (immF 0x09 2 (rf d) (rf a) imm)
  | .fstF64 d a imm => enc32 (immF 0x09 4 (rf d) (rf a) imm)
  | .fstF32 d a imm => enc32 (immF 0x09 5 (rf d) (rf a) imm)
  | .fstF16 d a imm => enc32 (immF 0x09 6 (rf d) (rf a) imm)
  | .fmvgh d a => enc32 (regF 0x0A 0 (rf d) (rf a) 0)
  | .fmvhg d a => enc32 (regF 0x0A 1 (rf d) (rf a) 0)
  | .fcvtFloatFloat g f d a => enc32 (regF 0x0A ((0x04#6) ++ ffmtCode g ++ ffmtCode f) (rf d) (rf a) 0)
  | .fcvtFloatInt i f d a => enc32 (regF 0x0A ((0x08#6) ++ ifmtCode i ++ ffmtCode f) (rf d) (rf a) 0)
  | .fcvtIntFloat f i d a => enc32 (regF 0x0A ((0x0C#6) ++ ffmtCode f ++ ifmtCode i) (rf d) (rf a) 0)
  | .fcvtz i f d a => enc32 (regF 0x0A ((0x10#6) ++ ifmtCode i ++ ffmtCode f) (rf d) (rf a) 0)
  | .beq a b off => enc32 (immF 0x10 0 (rf b) (rf a) off)
  | .bne a b off => enc32 (immF 0x10 1 (rf b) (rf a) off)
  | .blt a b off => enc32 (immF 0x10 2 (rf b) (rf a) off)
  | .bge a b off => enc32 (immF 0x10 3 (rf b) (rf a) off)
  | .bltn a b off => enc32 (immF 0x10 4 (rf b) (rf a) off)
  | .bgen a b off => enc32 (immF 0x10 5 (rf b) (rf a) off)
  | .j off => enc32 (jumpF 0x11 off)
  | .call off => enc32 (jumpF 0x12 off)
  | .jr a imm => enc32 (immF 0x13 0 0 (rf a) imm)
  | .callr a imm => enc32 (immF 0x13 1 0 (rf a) imm)
  | .ret => enc32 (immF 0x13 2 0 0 0)
  | .exit => enc32 (immF 0x13 3 0 0 0)
  | .bany m off => enc32 (immF 0x14 0 0 (rf8 m) off)
  | .ball m off => enc32 (immF 0x14 1 0 (rf8 m) off)
  | .bnone m off => enc32 (immF 0x14 2 0 (rf8 m) off)
  | .bnall m off => enc32 (immF 0x14 3 0 (rf8 m) off)
  | .bq off => enc32 (immF 0x15 0 0 0 off)
  | .bqn off => enc32 (immF 0x15 1 0 0 off)
  | .vstrip d a sv => enc32 (immF 0x18 0 (rf d) (rf a) (encSetV sv 0))
  | .vstripx d a b sv => enc32 (immF 0x18 1 (rf d) (rf a) (encSetV sv (rf b)))
  | .vrel => enc32 (immF 0x18 2 0 0 0)
  | .mode t => enc32 (immF 0x19 0 0 0 (if t then 1 else 0))
  | .apfork off => enc32 (immF 0x19 1 0 0 off)
  | .apjoin => enc32 (immF 0x19 2 0 0 0)
  | .cread d n => enc32 (immF 0x1A 0 (rf d) 0 n)
  | .cwrite n a => enc32 (immF 0x1A 1 0 (rf a) n)
  | .cswap d n a => enc32 (immF 0x1A 2 (rf d) (rf a) n)
  | .fenceFull sc => enc32 (immF 0x1C 0 0 0 ((0#9) ++ scopeCode sc))
  | .fenceAcq sc => enc32 (immF 0x1C 0 0 0 ((1#9) ++ scopeCode sc))
  | .fenceRel sc => enc32 (immF 0x1C 0 0 0 ((2#9) ++ scopeCode sc))
  | .fenceIfetch sc => enc32 (immF 0x1C 0 0 0 ((3#9) ++ scopeCode sc))
  | .trap n => enc32 (immF 0x1D 0 0 0 n)
  | .tret => enc32 (immF 0x1D 1 0 0 0)
  | .adjourn => enc32 (immF 0x1D 2 0 0 0)
  | .pgmove d a b => enc32 (regF 0x1E 0 (rf d) (rf a) (rf b))
  | .pgstat d a => enc32 (regF 0x1E 1 (rf d) (rf a) 0)
  | .cvy cnt slots => enc32 (jumpF 0x1F ((0#4) ++ slots ++ cnt))
  | .nop => enc32 (jumpF 0x3E 0)
  | .hint32 bits => enc32 (jumpF 0x3E bits)
  | .hint64 bits => [bits.extractLsb' 0 24 ++ (0x7E#7) ++ (1#1), bits.extractLsb' 24 32]
  | .vadd k d a b => encArv k 0x00 d a b
  | .vsub k d a b => encArv k 0x01 d a b
  | .vrsub k d a b => encArv k 0x02 d a b
  | .vmul k d a b => encArv k 0x03 d a b
  | .vmulh k d a b => encArv k 0x04 d a b
  | .vdiv k d a b => encArv k 0x05 d a b
  | .vrem k d a b => encArv k 0x06 d a b
  | .vmin k d a b => encArv k 0x07 d a b
  | .vmax k d a b => encArv k 0x08 d a b
  | .vand k d a b => encArv k 0x09 d a b
  | .vor k d a b => encArv k 0x0A d a b
  | .vxor k d a b => encArv k 0x0B d a b
  | .vsll k d a b => encArv k 0x0C d a b
  | .vsrl k d a b => encArv k 0x0D d a b
  | .vsra k d a b => encArv k 0x0E d a b
  | .vsadd k d a b => encArv k 0x0F d a b
  | .vssub k d a b => encArv k 0x10 d a b
  | .vsqrt k d a => encArv k 0x11 d a (.v 0)
  | .vabs k d a => encArv k 0x12 d a (.v 0)
  | .vneg k d a => encArv k 0x13 d a (.v 0)
  | .vsgnj k d a b => encArv k 0x14 d a b
  | .vsgnjn k d a b => encArv k 0x15 d a b
  | .vsel k d a b => encArv k 0x16 d a b
  | .vmv k d b => match b with
    | .v a => encArv k 0x17 d a (.v 0)
    | _ => encArv k 0x17 d 0 b
  | .vfmadd k d a b e => encFma k 0 d a b e
  | .vfmsub k d a b e => encFma k 1 d a b e
  | .vfnmadd k d a b e => encFma k 2 d a b e
  | .vfnmsub k d a b e => encFma k 3 d a b e
  | .vwfmadd k ts d a b e => encWfma k ts 0 d a b e
  | .vwfmsub k ts d a b e => encWfma k ts 1 d a b e
  | .vwfnmadd k ts d a b e => encWfma k ts 2 d a b e
  | .vwfnmsub k ts d a b e => encWfma k ts 3 d a b e
  | .vcvt k ts d a => encUR k 0x05 ((0#7) ++ tyCode ts) 0 0 (rf a) (rf d)
  | .vcvtx k ts d a => encUR k 0x05 ((1#7) ++ tyCode ts) 0 0 (rf a) (rf d)
  | .vcmpeq k d a b => encCmp k 0 d a b
  | .vcmpne k d a b => encCmp k 1 d a b
  | .vcmplt k d a b => encCmp k 2 d a b
  | .vcmple k d a b => encCmp k 3 d a b
  | .vcmpgt k d a b => encCmp k 4 d a b
  | .vcmpge k d a b => encCmp k 5 d a b
  | .mand k d a b => encUR k 0x07 0 0 (rf8 b) (rf8 a) (rf8 d)
  | .mor k d a b => encUR k 0x07 1 0 (rf8 b) (rf8 a) (rf8 d)
  | .mxor k d a b => encUR k 0x07 2 0 (rf8 b) (rf8 a) (rf8 d)
  | .mandn k d a b => encUR k 0x07 3 0 (rf8 b) (rf8 a) (rf8 d)
  | .msbf k d a => encUR k 0x07 4 0 0 (rf8 a) (rf8 d)
  | .msif k d a => encUR k 0x07 5 0 0 (rf8 a) (rf8 d)
  | .msof k d a => encUR k 0x07 6 0 0 (rf8 a) (rf8 d)
  | .mpcnt k d a => encUR k 0x07 7 0 0 (rf8 a) (rf d)
  | .mfirst k d a => encUR k 0x07 8 0 0 (rf8 a) (rf d)
  | .vslideup k d a b => encUR k 0x08 0 0 (rf b) (rf a) (rf d)
  | .vslidedown k d a b => encUR k 0x08 1 0 (rf b) (rf a) (rf d)
  | .vrgather k d a b => encUR k 0x08 2 0 (rf b) (rf a) (rf d)
  | .vcompress k d a m => encUR k 0x08 3 (rf8 m) 0 (rf a) (rf d)
  | .vid k d => encUR k 0x08 4 0 0 0 (rf d)
  | .viota k d a => encUR k 0x08 5 0 0 (rf8 a) (rf d)
  | .vgetg k d a => encUR k 0x08 6 0 0 (rf a) (rf d)
  | .vgeth k d a => encUR k 0x08 7 0 0 (rf a) (rf d)
  | .vputg k d a => encUR k 0x08 8 0 0 (rf a) (rf d)
  | .vputh k d a => encUR k 0x08 9 0 0 (rf a) (rf d)
  | .vredsum k w d a b => encRed k w 0 d a b
  | .vredosum k w d a b => encRed k w 1 d a b
  | .vredmin k d a b => encRed k none 2 d a b
  | .vredmax k d a b => encRed k none 3 d a b
  | .vredand k d a b => encRed k none 4 d a b
  | .vredor k d a b => encRed k none 5 d a b
  | .vredxor k d a b => encRed k none 6 d a b
  | .vconf k d a => encUR k 0x0A 0 0 0 (rf a) (rf8 d)
  | .vconfr k d a => encUR k 0x0A 1 0 0 (rf a) (rf d)
  | .vtopk k d a b => encUR k 0x0A 2 0 (rf b) (rf a) (rf d)
  | .vunpk k d a b => encUR k 0x0B 0 0 (rf b) (rf a) (rf d)
  | .vlut k ix lb d a b => encUR k 0x0B ((0#1) ++ lb ++ tyCode ix ++ (1#2)) 0 (rf b) (rf a) (rf d)
  | .vexpm k d a => encUR k 0x0B 2 0 0 (rf a) (rf d)
  | .vld k d a disp => encUI k 0x10 0 disp (rf a) (rf d)
  | .vst k d a disp => encUI k 0x10 1 disp (rf a) (rf d)
  | .vlds k d a b => encUI k 0x10 2 ((0#9) ++ rf b) (rf a) (rf d)
  | .vsts k d a b => encUI k 0x10 3 ((0#9) ++ rf b) (rf a) (rf d)
  | .mld k d a disp => encUI k 0x10 4 disp (rf a) (rf8 d)
  | .mst k d a disp => encUI k 0x10 5 disp (rf a) (rf8 d)
  | .vldb k d a o => encUR k 0x12 ((0#8) ++ (0#1) ++ BitVec.ofFin (w := 3) o) 0 0 (rf a) (rf d)
  | .vstb k d a o => encUR k 0x12 ((0#8) ++ (1#1) ++ BitVec.ofFin (w := 3) o) 0 0 (rf a) (rf d)
  | .vldx k d a b sc ix => encUR k 0x11 (BitVec.ofFin (w := 2) sc ++ ixCode ix ++ (0#8)) 0 (rf b) (rf a) (rf d)
  | .vstx k d a b sc ix => encUR k 0x11 (BitVec.ofFin (w := 2) sc ++ ixCode ix ++ (1#8)) 0 (rf b) (rf a) (rf d)
  | .sbind k d s => encUR k 0x13 0 0 0 (rf8 s) (rf d)
  | .sfree k d => encUR k 0x13 1 0 0 0 (rf d)
  | .sdld k d a => encUR k 0x13 2 0 0 (rf a) (rf8 d)
  | .sdst k d a => encUR k 0x13 3 0 0 (rf a) (rf8 d)
  | .vstm k d a b => encUR k 0x14 0x001 0 (rf b) (rf a) (rf d)
  | .vldr k d a b => encUR k 0x14 0x000 0 (rf b) (rf a) (rf d)
  | .vldrmin k d a b => encUR k 0x14 0x040 0 (rf b) (rf a) (rf d)
  | .vldrmax k d a b => encUR k 0x14 0x080 0 (rf b) (rf a) (rf d)
  | .psld k d a n disp => encUI k 0x15 ((0#3) ++ rf n) disp (rf a) (rf8 d)
  | .psst k d a n disp => encUI k 0x15 ((1#3) ++ rf n) disp (rf a) (rf8 d)
  | .psadd k d a b e => encUR k 0x16 0 (rf e) (rf8 b) (rf8 a) (rf8 d)
  | .psmul k d a b e => encUR k 0x16 1 (rf e) (rf8 b) (rf8 a) (rf8 d)
  | .psdense k d a b => encUR k 0x16 2 0 (rf b) (rf8 a) (rf d)
  | .pssparse k d a b e => encUR k 0x16 3 (rf e) (rf b) (rf a) (rf8 d)
  | .fnld k d a b => encUI k 0x18 0 ((0#9) ++ rf b) (rf a) (rf16 d)
  | .fnst k d a => encUI k 0x18 1 0 (rf a) (rf16 d)
  | .fnadd k d a b => encUR k 0x19 0 0 (rf16 b) (rf16 a) (rf16 d)
  | .fnsub k d a b => encUR k 0x19 1 0 (rf16 b) (rf16 a) (rf16 d)
  | .fnmul k r d a b => encUR k 0x19 ((0#8) ++ ruleCode r ++ (2#2)) 0 (rf16 b) (rf16 a) (rf16 d)
  | .fnscl k d a b => match b with
    | .s b => encUR k 0x19 0x003 0 (rf b) (rf16 a) (rf16 d)
    | .v b => encUR k 0x19 0x007 0 (rf b) (rf16 a) (rf16 d)
  | .fndiff k x d a => encUR k 0x1A ((0#8) ++ BitVec.ofNat 2 x.val ++ (0#2)) 0 0 (rf16 a) (rf16 d)
  | .fnint k x d a => encUR k 0x1A ((0#8) ++ BitVec.ofNat 2 x.val ++ (1#2)) 0 0 (rf16 a) (rf16 d)
  | .fnproj k d a b => encUR k 0x1A 2 0 (rf b) (rf16 a) (rf16 d)
  | .fntrace k x d a => encUR k 0x1A ((0#5) ++ BitVec.ofNat 3 x.val ++ (3#4)) 0 0 (rf16 a) (rf16 d)
  | .fneval k d a b e => encUR k 0x1B 0 (rf e) (rf b) (rf16 a) (rf d)
  | .fnquad k d a => encUR k 0x1B 1 0 0 (rf16 a) (rf d)
  | .fndeg k d a => encUR k 0x1B 2 0 0 (rf16 a) (rf d)
  | .fnfree k d => encUR k 0x1B 3 0 0 0 (rf16 d)
  | .tshape k t d => encUI k 0x20 0 ((0#9) ++ tyCode t) 0 (rf d)
  | .tshapex k t d a => encUI k 0x20 1 ((0#9) ++ tyCode t) (rf a) (rf d)
  | .tld k d a b => encUI k 0x20 2 ((0#9) ++ rf b) (rf a) (rf16 d)
  | .tst k d a b => encUI k 0x20 3 ((0#9) ++ rf b) (rf a) (rf16 d)
  | .tlda k x d a b => encUI k 0x20 (if x then 12 else 4) ((0#9) ++ rf b) (rf a) (rf4 d)
  | .tsta k x d a b => encUI k 0x20 (if x then 13 else 5) ((0#9) ++ rf b) (rf a) (rf4 d)
  | .tmma k z d a b => encUR k 0x21 (if z then 0x010 else 0x000) 0 (rf16 b) (rf16 a) (rf4 d)
  | .tmmas k z d a b => encUR k 0x21 (if z then 0x011 else 0x001) 0 (rf16 b) (rf16 a) (rf4 d)
  | .tgmm k z gc d a b e =>
    encUR k 0x21 ((0#3) ++ BitVec.ofFin (w := 3) gc ++ (0#1) ++ (if z then (0x12#5) else (0x02#5))) (rf e) (rf16 b) (rf16 a)
      (rf4 d)
  | .tspmm k z den d a b e =>
    encUR k 0x21 ((0#6) ++ (if den then (1#1) else (0#1)) ++ (if z then (0x13#5) else (0x03#5))) (rf16 e) (rf16 b) (rf16 a)
      (rf4 d)
  | .tcvt k d a => encUR k 0x21 4 0 0 (rf4 a) (rf16 d)
  | .tbload k bt a => encUR k 0x22 (if bt then 4 else 0) 0 0 (rf16 a) 0
  | .tbeval k d a => encUR k 0x22 1 0 0 (rf16 a) (rf16 d)
  | .tleaf k z col d a b => encUR k 0x22 (col ++ (if z then (0xA#4) else (0x2#4))) 0 (rf16 b) (rf16 a) (rf4 d)
  | .amoswap k sem sc d a b => encAmo k 0 sem sc (rf d) (rf a) (rf b) 0
  | .amocas k sem sc d a b e => encAmo k 1 sem sc (rf d) (rf a) (rf b) (rf e)
  | .amoadd k sem sc d a b => encAmo k 2 sem sc (rf d) (rf a) (rf b) 0
  | .amoand k sem sc d a b => encAmo k 3 sem sc (rf d) (rf a) (rf b) 0
  | .amoor k sem sc d a b => encAmo k 4 sem sc (rf d) (rf a) (rf b) 0
  | .amoxor k sem sc d a b => encAmo k 5 sem sc (rf d) (rf a) (rf b) 0
  | .amomin k sem sc d a b => encAmo k 6 sem sc (rf d) (rf a) (rf b) 0
  | .amomax k sem sc d a b => encAmo k 7 sem sc (rf d) (rf a) (rf b) 0
  | .amofadd k sem sc d a b => encAmo k 8 sem sc (rf d) (rf a) (rf b) 0
  | .amofmin k sem sc d a b => encAmo k 9 sem sc (rf d) (rf a) (rf b) 0
  | .amofmax k sem sc d a b => encAmo k 10 sem sc (rf d) (rf a) (rf b) 0
  | .vamoswap k sc ix scope r a b e => encVamo k 0 sc ix scope r a b e
  | .vamoadd k sc ix scope r a b e => encVamo k 2 sc ix scope r a b e
  | .vamoand k sc ix scope r a b e => encVamo k 3 sc ix scope r a b e
  | .vamoor k sc ix scope r a b e => encVamo k 4 sc ix scope r a b e
  | .vamoxor k sc ix scope r a b e => encVamo k 5 sc ix scope r a b e
  | .vamomin k sc ix scope r a b e => encVamo k 6 sc ix scope r a b e
  | .vamomax k sc ix scope r a b e => encVamo k 7 sc ix scope r a b e
  | .vamofadd k sc ix scope r a b e => encVamo k 8 sc ix scope r a b e
  | .vamofmin k sc ix scope r a b e => encVamo k 9 sc ix scope r a b e
  | .vamofmax k sc ix scope r a b e => encVamo k 10 sc ix scope r a b e
  | .qput k q a => encUR k 0x29 0 0 0 (rf a) (rf q)
  | .qget k d q => encUR k 0x29 1 0 0 (rf q) (rf d)
  | .qld k t q a b e => encUR k 0x29 ((0#3) ++ tyCode t ++ (2#4)) (rf e) (rf b) (rf a) (rf q)
  | .qgetv k t d q e => encUR k 0x29 ((0#3) ++ tyCode t ++ (3#4)) (rf e) 0 (rf q) (rf d)
  | .qcmd k q a => encUR k 0x29 4 0 0 (rf a) (rf q)
  | .qres k q b => encUR k 0x29 5 0 (rf b) (rf q) 0
  | .qcnt k d q => encUR k 0x29 6 0 0 (rf q) (rf d)
  | .ksync k => encUR k 0x29 7 0 0 0 0
  | .kcnt k d a => encUR k 0x29 8 0 0 (rf8 a) (rf d)
  | .tspawn k d a b => encUR k 0x2A 0 0 (rf b) (rf a) (rf d)
  | .vpub k fin a b => encUR k 0x2A (if fin then 5 else 1) 0 (rf b) (rf a) 0
  | _ => []

/-- The encoding that EVAL holds (R119): the first parcel in [31:0], the second in [63:32]. -/
def encodingWord : List Parcel → Word
  | [] => 0
  | [w] => w.setWidth 64
  | w :: v :: _ => v ++ w

/-- Bytes of an instruction (R94). -/
def Instr.size (i : Instr) : Nat := 4 * (encode i).length

/-- The decoder on an instruction's bits numbered as the opcode table numbers them: bits [31:0] the first parcel, the next
32 the second, bits above `nbits` zero. -/
noncomputable def decodeTableWord (nbits w : Nat) : Option Instr :=
  let w := w % 2 ^ nbits
  match decode [BitVec.ofNat 32 w, BitVec.ofNat 32 (w / 2 ^ 32)] with
  | .ok (i, _) => some i
  | .error _ => none

end Sys2Proof
end

