-- ==== Sys2Proof/Machine/Flags.lean ====
section
/-! DEFINITION. Numbers: the formats of R43 to R49, exact values, the single rounding of R51 with every flag of R65,
saturation and conversion (R53, R54), scaled blocks (R55 to R57), comparisons (R130) and the stochastic generator (R52). Raw
elements are naturals below 2 to their width. -/

namespace Sys2Proof.Machine

/-! ## Flags -/

/-- Flag classes by bit (R27). -/
abbrev Fl := BitVec 8
def flNV : Fl := 0x01
def flDZ : Fl := 0x02
def flOF : Fl := 0x04
def flUF : Fl := 0x08
def flNX : Fl := 0x10
def flSAT : Fl := 0x20
def flPSN : Fl := 0x40
def flSCM : Fl := 0x80
def flIf (c : Bool) (f : Fl) : Fl := if c then f else 0

/-! ## Exact values -/

/-- A value read exactly: a NaN (signalling or quiet), an infinity, or (-1)^neg × m × 2^e. -/
inductive FVal where
  | nan (signalling : Bool)
  | inf (neg : Bool)
  | num (neg : Bool) (m : Nat) (e : Int)
deriving DecidableEq, Repr

def FVal.zero : FVal := .num false 0 0

/-- A value before its rounding: `sticky` says that the exact magnitude lies strictly between m and m + 1. -/
structure Exact where
  val : FVal
  sticky : Bool
deriving DecidableEq, Repr

def FVal.exact (v : FVal) : Exact := ⟨v, false⟩

def FVal.isNan : FVal → Bool
  | .nan _ => true
  | _ => false
def FVal.isSnan : FVal → Bool
  | .nan s => s
  | _ => false
def FVal.isInf : FVal → Bool
  | .inf _ => true
  | _ => false
def FVal.isZero : FVal → Bool
  | .num _ m _ => m == 0
  | _ => false
def FVal.sign : FVal → Bool
  | .nan _ => false
  | .inf n => n
  | .num n _ _ => n
def FVal.neg : FVal → FVal
  | .nan s => .nan s
  | .inf n => .inf (!n)
  | .num n m e => .num (!n) m e
/-- A value that never signals again: what an operation passes on. -/
def FVal.quiet : FVal → FVal
  | .nan _ => .nan false
  | v => v

def FVal.ofInt (x : Int) : FVal := .num (decide (x < 0)) x.natAbs 0

/-! ## Formats (R45) -/

/-- Exponent bits, fraction bits and bias of a floating type; mk8 and the integers have none. -/
def fmtOf : Ty → Nat × Nat × Nat
  | .f64 => (11, 52, 1023)
  | .f32 => (8, 23, 127)
  | .bf16 => (8, 7, 127)
  | .f16 => (5, 10, 15)
  | .e5m2 => (5, 2, 15)
  | .e4m3 | .e4m3s => (4, 3, 7)
  | .e3m2 => (3, 2, 3)
  | .e2m1 | .e2m1s => (2, 1, 1)
  | _ => (0, 0, 0)

/-- Reading an mk8 byte (R48). -/
def readMk8 (b : Nat) : FVal :=
  let neg := decide (128 ≤ b)
  let r := b % 128
  if b == 0 then .zero
  else if b == 128 then .nan false
  else
    let k := 6 - Nat.log2 r
    let m := 6 - k
    if m == 0 then .num neg 1 (-12)
    else
      let d := (r >>> (m - 1)) % 2
      let x := if m ≥ 2 then (r >>> (m - 2)) % 2 else 0
      let fb := m - 2
      let f := r % 2 ^ fb
      let ex : Int := if d == 1 then (2 * k + x : Nat) else -((2 * k + x + 1 : Nat) : Int)
      .num neg (2 ^ fb + f) (ex - fb)

/-- A raw element of an unscaled type read exactly (R43, R45, R48). The element code of a scaled type reads as its element
format. -/
def readTy (t : Ty) (b : Nat) : FVal :=
  match t with
  | .mk8 | .mk8s => readMk8 (b % 256)
  | .s8 | .s16 | .s32 | .s64 | .s3 | .s4 | .s6 =>
    let w := t.sew
    let b := b % 2 ^ w
    if b < 2 ^ (w - 1) then .num false b 0 else .num true (2 ^ w - b) 0
  | .n8 | .n16 | .n32 | .n64 | .n3 | .n4 | .n6 => .num false (b % 2 ^ t.sew) 0
  | _ =>
    let (eb, fb, bias) := fmtOf t
    let f := b % 2 ^ fb
    let e := (b >>> fb) % 2 ^ eb
    let neg := (b >>> (fb + eb)) % 2 == 1
    let special := match t with
      | .f64 | .f32 | .f16 | .bf16 | .e5m2 => e == 2 ^ eb - 1
      | .e4m3 | .e4m3s => e == 2 ^ eb - 1 && f == 2 ^ fb - 1
      | _ => false
    if special then
      match t with
      | .e4m3 | .e4m3s => .nan false
      | _ => if f == 0 then .inf neg else .nan (t.isFloat && f < 2 ^ (fb - 1))
    else if e == 0 then .num neg f (1 - (bias : Int) - fb)
    else .num neg (2 ^ fb + f) ((e : Int) - bias - fb)

/-- The canonical NaN of a format (R46); zero for a format that has none (R47). -/
def canonNan : Ty → Nat
  | .f64 => 0x7FF8000000000000
  | .f32 => 0x7FC00000
  | .f16 => 0x7E00
  | .bf16 => 0x7FC0
  | .e5m2 => 0x7E
  | .e4m3 | .e4m3s => 0x7F
  | .mk8 | .mk8s => 0x80
  | _ => 0

/-- The error value of an unscaled type (R47). -/
def errorValue (t : Ty) : Nat := canonNan t

/-! ## Rounding (R51, R53, R65) -/

/-- Whether the magnitude `lo` plus `rem` / 2^`sh` of a quantum rounds up. `odd` says that `lo` is not the even candidate; `u`
is the 24-bit draw (R51, R52). -/
def roundsUp (rm : Rm) (neg odd : Bool) (rem sh : Nat) (sticky : Bool) (u : Nat) : Bool :=
  let inexact := rem != 0 || sticky
  match rm with
  | .rtz => false
  | .rdn => neg && inexact
  | .rup => !neg && inexact
  | .rne =>
    let two := 2 * rem
    let one := 2 ^ sh
    decide (two > one) || (two == one && (sticky || odd))
  | .rsr => decide (u < rem * 2 ^ 24 / 2 ^ sh)

/-- Rounds m × 2^e to a multiple of 2^q: the multiple, and whether it differs from the exact value. -/
def roundQ (rm : Rm) (neg : Bool) (m : Nat) (e : Int) (sticky : Bool) (u : Nat) (q : Int) : Nat × Bool :=
  if q ≤ e then (m * 2 ^ (e - q).toNat, sticky)
  else
    let sh := (q - e).toNat
    let lo := m >>> sh
    let rem := m % 2 ^ sh
    let up := roundsUp rm neg (lo % 2 == 1) rem sh sticky u
    (if up then lo + 1 else lo, rem != 0 || sticky)

/-- Compares n1 × 2^e1 with n2 × 2^e2: whether the first is larger. -/
def gtScaled (n1 : Nat) (e1 : Int) (n2 : Nat) (e2 : Int) : Bool :=
  let lo := min e1 e2
  decide (n1 * 2 ^ (e1 - lo).toNat > n2 * 2 ^ (e2 - lo).toNat)

/-- The largest finite magnitude of a floating type: significand and exponent (R45). -/
def maxFinite (t : Ty) : Nat × Int :=
  let (eb, fb, bias) := fmtOf t
  match t with
  | .e4m3 | .e4m3s => (14, 5)
  | .e3m2 => (7, 2)
  | .e2m1 | .e2m1s => (3, 1)
  | _ => (2 ^ (fb + 1) - 1, (2 ^ eb - 2 : Nat) - (bias : Int) - fb)

/-- The bits of n × 2^q in a format, n a significand of at most fb + 2 bits. -/
def packFloat (t : Ty) (neg : Bool) (n : Nat) (q : Int) : Nat :=
  let (eb, fb, bias) := fmtOf t
  let s := if neg then 2 ^ (fb + eb) else 0
  let (n, q) := if n ≥ 2 ^ (fb + 1) then (n / 2, q + 1) else (n, q)
  if n < 2 ^ fb then s + n else s + ((q + fb + bias).toNat * 2 ^ fb) + (n - 2 ^ fb)

/-- What an overflow writes, with OF and NX raised (R53). `sat` is the default form. -/
def overflowTo (t : Ty) (rm : Rm) (sat neg : Bool) : Nat × Fl :=
  let (mm, me) := maxFinite t
  let big := packFloat t neg mm me
  let (eb, fb, _) := fmtOf t
  let inf := (if neg then 2 ^ (fb + eb) else 0) + (2 ^ eb - 1) * 2 ^ fb
  let base := flOF ||| flNX
  match t with
  | .f64 | .f32 | .f16 | .bf16 =>
    match rm with
    | .rne | .rsr => (inf, base)
    | .rtz => (big, base)
    | .rdn => (if neg then inf else big, base)
    | .rup => (if neg then big else inf, base)
  | .e5m2 => if sat then (big, base ||| flSAT) else (inf, base)
  | .e4m3 | .e4m3s => if sat then (big, base ||| flSAT) else (canonNan t, base)
  | _ => (big, base ||| flSAT)

/-- Rounds a nonzero finite magnitude to an IEEE-style format. -/
def roundFloat (t : Ty) (rm : Rm) (sat neg : Bool) (m : Nat) (e : Int) (sticky : Bool) (u : Nat) : Nat × Fl :=
  let (_, fb, bias) := fmtOf t
  let top := (Nat.log2 m : Int) + e
  let qn : Int := top - fb
  let qmin : Int := 1 - (bias : Int) - fb
  let (n, inexact) := roundQ rm neg m e sticky u (max qn qmin)
  let q := max qn qmin
  let (mm, me) := maxFinite t
  if gtScaled n q mm me then overflowTo t rm sat neg
  else
    let (n', _) := roundQ rm neg m e sticky u qn
    let tiny := gtScaled 1 (1 - (bias : Int)) n' qn
    (packFloat t neg n q, flIf inexact flNX ||| flIf (inexact && tiny) flUF)

/-- Fraction bits and exponent parity rule of an mk8 binade (R48). -/
def mk8K (ex : Int) : Nat :=
  if ex ≥ 0 then ex.toNat / 2 else if ex ≤ -12 then 6 else (-ex - 1).toNat / 2

/-- The byte of magnitude n × 2^(ex - fb) with leading bit at ex (R48). -/
def packMk8 (neg : Bool) (n : Nat) (ex : Int) : Nat :=
  let k := mk8K ex
  let s := if neg then 128 else 0
  if k ≥ 6 then s + 1
  else
    let fb := 4 - k
    let d : Nat := if ex ≥ 0 then 1 else 0
    let x : Nat := if ex ≥ 0 then ex.toNat % 2 else (-ex - 1).toNat % 2
    let m := 6 - k
    let f := n % 2 ^ fb
    s + 2 ^ m + d * 2 ^ (m - 1) + (if m ≥ 2 then x * 2 ^ (m - 2) else 0) + (if m ≥ 3 then f else 0)

/-- Rounds a nonzero finite magnitude to mk8 (R49, R51, R65). -/
def roundMk8 (rm : Rm) (neg : Bool) (m : Nat) (e : Int) (sticky : Bool) (u : Nat) : Nat × Fl :=
  if gtScaled m e 1024 0 || (sticky && !gtScaled 1024 0 m e) then (if neg then 0x83 else 0x03, flOF ||| flNX ||| flSAT)
  else
    let top := (Nat.log2 m : Int) + e
    let tiny := decide (top < -12)
    let ex := if top < -12 then (-12 : Int) else top
    let k := mk8K ex
    let fb := if k ≤ 3 then 4 - k else 0
    let q := ex - fb
    let sh := (q - e).toNat
    let (lo, rem) := if q ≤ e then (m * 2 ^ (e - q).toNat, 0) else (m >>> sh, m % 2 ^ sh)
    let odd := if lo == 0 then false else if fb == 0 then decide (ex % 2 ≠ 0) else lo % 2 == 1
    let up := if q ≤ e then false else roundsUp rm neg odd rem sh sticky u
    let n := if up then lo + 1 else lo
    let inexact := rem != 0 || sticky
    let fl := flIf inexact flNX ||| flIf (inexact && tiny) flUF
    if n == 0 then (0, fl)
    else if tiny then (packMk8 neg 1 (-12), fl)
    else if n ≥ 2 ^ (fb + 1) then (packMk8 neg 0 (ex + 1), fl)
    else (packMk8 neg n ex, fl)

/-- Writes an exact value into a floating or mk8 type with one rounding (R46, R49, R51, R53, R65). -/
def writeFloat (t : Ty) (rm : Rm) (sat : Bool) (x : Exact) (u : Nat) : Nat × Fl :=
  match x.val with
  | .nan s =>
    match t with
    | .e3m2 | .e2m1 => (0, flNV)
    | _ => (canonNan t, flIf s flNV)
  | .inf neg =>
    match t with
    | .f64 | .f32 | .f16 | .bf16 | .e5m2 =>
      let (eb, fb, _) := fmtOf t
      ((if neg then 2 ^ (fb + eb) else 0) + (2 ^ eb - 1) * 2 ^ fb, 0)
    | .mk8 | .mk8s => (if neg then 0x83 else 0x03, flOF ||| flNX ||| flSAT)
    | _ => overflowTo t rm sat neg
  | .num neg m e =>
    if m == 0 then
      match t with
      | .mk8 | .mk8s => (0, 0)
      | _ => let (eb, fb, _) := fmtOf t; (if neg then 2 ^ (fb + eb) else 0, 0)
    else match t with
      | .mk8 | .mk8s => roundMk8 rm neg m e x.sticky u
      | _ => roundFloat t rm sat neg m e x.sticky u

/-- The smallest and largest value of an integer type (R43). -/
def intMin (t : Ty) : Int := if t.isSigned then -(2 ^ (t.sew - 1) : Nat) else 0
def intMax (t : Ty) : Int := if t.isSigned then (2 ^ (t.sew - 1) : Nat) - 1 else (2 ^ t.sew : Nat) - 1

/-- An integer in the raw bits of a type, wrapped (R44). -/
def wrapInt (t : Ty) (x : Int) : Nat := (x % (2 ^ t.sew : Nat)).toNat

/-- An integer clamped to the range of a type, with SAT where it differs (R44). -/
def satInt (t : Ty) (x : Int) : Nat × Fl :=
  let y := max (intMin t) (min (intMax t) x)
  (wrapInt t y, flIf (x != y) flSAT)

/-- A value converted to an integer type with one rounding (R54). -/
def writeInt (t : Ty) (rm : Rm) (v : FVal) (u : Nat) : Nat × Fl :=
  match v with
  | .nan _ => (0, flNV)
  | .inf neg => (wrapInt t (if neg then intMin t else intMax t), flSAT ||| flNX)
  | .num neg m e =>
    let (n, inexact) := roundQ rm neg m e false u 0
    let x : Int := if neg then -(n : Int) else n
    let y := max (intMin t) (min (intMax t) x)
    (wrapInt t y, if x != y then flSAT ||| flNX else flIf inexact flNX)

/-- A raw integer element as an integer (R43). -/
def intOf (t : Ty) (b : Nat) : Int :=
  let b := b % 2 ^ t.sew
  if t.isSigned && decide (2 ^ (t.sew - 1) ≤ b) then (b : Int) - (2 ^ t.sew : Nat) else b

/-! ## Arithmetic before rounding -/

/-- A sum of values, its flags, and the sign of an exact zero (R46). -/
def fAdd (rm : Rm) (a b : FVal) : Exact × Fl :=
  let nv := flIf (a.isSnan || b.isSnan) flNV
  match a, b with
  | .nan _, _ => (⟨.nan false, false⟩, nv)
  | _, .nan _ => (⟨.nan false, false⟩, nv)
  | .inf x, .inf y => if x == y then (⟨.inf x, false⟩, nv) else (⟨.nan false, false⟩, flNV)
  | .inf x, _ => (⟨.inf x, false⟩, nv)
  | _, .inf y => (⟨.inf y, false⟩, nv)
  | .num n1 m1 e1, .num n2 m2 e2 =>
    let lo := min e1 e2
    let x1 : Int := (m1 * 2 ^ (e1 - lo).toNat : Nat)
    let x2 : Int := (m2 * 2 ^ (e2 - lo).toNat : Nat)
    let s := (if n1 then -x1 else x1) + (if n2 then -x2 else x2)
    if s == 0 then
      let z := if n1 == n2 then n1 else rm == .rdn
      (⟨.num z 0 lo, false⟩, 0)
    else (⟨.num (decide (s < 0)) s.natAbs lo, false⟩, 0)

/-- A product (R65). -/
def fMul (a b : FVal) : Exact × Fl :=
  let nv := flIf (a.isSnan || b.isSnan) flNV
  let s := a.sign != b.sign
  match a, b with
  | .nan _, _ => (⟨.nan false, false⟩, nv)
  | _, .nan _ => (⟨.nan false, false⟩, nv)
  | .inf _, y => if y.isZero then (⟨.nan false, false⟩, flNV) else (⟨.inf s, false⟩, nv)
  | x, .inf _ => if x.isZero then (⟨.nan false, false⟩, flNV) else (⟨.inf s, false⟩, nv)
  | .num n1 m1 e1, .num n2 m2 e2 => (⟨.num (n1 != n2) (m1 * m2) (e1 + e2), false⟩, 0)

/-- A fused product and sum; zero times infinity is invalid even when c is a quiet NaN (R131, R160). -/
def fFma (rm : Rm) (negProd negC : Bool) (a b c : FVal) : Exact × Fl :=
  let (p, fp) := fMul a b
  let p := if negProd then p.val.neg else p.val
  let c' := if negC then c.neg else c
  let (r, fa) := fAdd rm p c'
  (r, fp ||| fa)

/-- A quotient (R65). -/
def fDiv (a b : FVal) : Exact × Fl :=
  let nv := flIf (a.isSnan || b.isSnan) flNV
  let s := a.sign != b.sign
  match a, b with
  | .nan _, _ => (⟨.nan false, false⟩, nv)
  | _, .nan _ => (⟨.nan false, false⟩, nv)
  | .inf _, .inf _ => (⟨.nan false, false⟩, flNV)
  | .inf _, .num .. => (⟨.inf s, false⟩, 0)
  | .num .., .inf _ => (⟨.num s 0 0, false⟩, 0)
  | .num _ m1 e1, .num _ m2 e2 =>
    if m2 == 0 then
      if m1 == 0 then (⟨.nan false, false⟩, flNV) else (⟨.inf s, false⟩, flDZ)
    else if m1 == 0 then (⟨.num s 0 0, false⟩, 0)
    else
      let k := 128 + Nat.log2 m2
      let x := m1 * 2 ^ k
      (⟨.num s (x / m2) (e1 - e2 - k), x % m2 != 0⟩, 0)

/-- The integer square root, bit by bit from bit k - 1 down. -/
def isqrtFrom (x : Nat) : Nat → Nat → Nat
  | 0, r => r
  | k + 1, r =>
    let c := r + 2 ^ k
    isqrtFrom x k (if c * c ≤ x then c else r)

/-- A square root (R158, R65). -/
def fSqrt (a : FVal) : Exact × Fl :=
  match a with
  | .nan s => (⟨.nan false, false⟩, flIf s flNV)
  | .inf neg => if neg then (⟨.nan false, false⟩, flNV) else (⟨.inf false, false⟩, 0)
  | .num neg m e =>
    if m == 0 then (⟨.num neg 0 0, false⟩, 0)
    else if neg then (⟨.nan false, false⟩, flNV)
    else
      let (m, e) := if e % 2 == 0 then (m, e) else (2 * m, e - 1)
      let x := m * 2 ^ 200
      let r := isqrtFrom x (Nat.log2 x / 2 + 1) 0
      (⟨.num false r (e / 2 - 100), r * r != x⟩, 0)

/-- The order of two values that are no NaN: less, equal, greater. -/
def fCmp (a b : FVal) : Ordering :=
  let key : FVal → FVal → Int × Int := fun a b =>
    match a, b with
    | .num n1 m1 e1, .num n2 m2 e2 =>
      let lo := min e1 e2
      let x1 : Int := (m1 * 2 ^ (e1 - lo).toNat : Nat)
      let x2 : Int := (m2 * 2 ^ (e2 - lo).toNat : Nat)
      (if n1 then -x1 else x1, if n2 then -x2 else x2)
    | .inf n1, .inf n2 => (if n1 then -1 else 1, if n2 then -1 else 1)
    | .inf n1, _ => (if n1 then -1 else 1, 0)
    | _, .inf n2 => (0, if n2 then -1 else 1)
    | _, _ => (0, 0)
  let (x, y) := key a b
  if x < y then .lt else if x == y then .eq else .gt

/-- Whether a precedes b in the order of `fmin`: −0 below +0 (R130). -/
def fBefore (a b : FVal) : Bool :=
  match fCmp a b with
  | .lt => true
  | .gt => false
  | .eq => a.sign && !b.sign

/-- Minimum and maximum of raw elements of a floating type (R130): the operand chosen, and NV for a signalling NaN. -/
def fMinMax (t : Ty) (wantMax : Bool) (x y : Nat) : Nat × Fl :=
  let a := readTy t x
  let b := readTy t y
  let nv := flIf (a.isSnan || b.isSnan) flNV
  if a.isNan && b.isNan then (canonNan t, nv)
  else if a.isNan then (y, nv)
  else if b.isNan then (x, nv)
  else if wantMax then (if fBefore a b then y else x, nv)
  else (if fBefore b a then y else x, nv)

/-- A floating comparison: its truth and its NV (R130, R164). `quietOk` is for equal and unequal. -/
def fTest (quietOk : Bool) (p : Ordering → Bool) (onNan : Bool) (a b : FVal) : Bool × Fl :=
  if a.isNan || b.isNan then (onNan, flIf (!quietOk || a.isSnan || b.isSnan) flNV)
  else (p (fCmp a b), 0)

/-- The class mask of `fclass` (R130). -/
def fClass (t : Ty) (x : Nat) : Nat :=
  let (_, fb, bias) := fmtOf t
  match readTy t x with
  | .nan s => if s then 0x100 else 0x200
  | .inf n => if n then 0x001 else 0x080
  | .num n m e =>
    if m == 0 then (if n then 0x008 else 0x010)
    else if m < 2 ^ fb && e == 1 - (bias : Int) - fb then (if n then 0x004 else 0x020)
    else (if n then 0x002 else 0x040)

/-- The sign bit of a raw element set, copied or flipped. -/
def withSign (t : Ty) (x : Nat) (s : Bool) : Nat := x % 2 ^ (t.sew - 1) + (if s then 2 ^ (t.sew - 1) else 0)
def signBit (t : Ty) (x : Nat) : Bool := (x >>> (t.sew - 1)) % 2 == 1

/-! ## Conversions (R54, R162) -/

/-- A raw element of one unscaled type converted to another: wrapping between integers, `sat` with X = 1, one rounding
otherwise. -/
def convert (td ts : Ty) (rm : Rm) (x : Bool) (b u : Nat) : Nat × Fl :=
  if td.isAnyInt then
    if ts.isAnyInt then
      if x then satInt td (intOf ts b) else (wrapInt td (intOf ts b), 0)
    else writeInt td rm (readTy ts b) u
  else
    let (r, f) := writeFloat td rm (!x) (readTy ts b).exact u
    (r, f ||| flIf (readTy ts b).isSnan flNV)

/-- A value written to an unscaled type: `writeInt` or `writeFloat` in the default form. -/
def writeVal (td : Ty) (rm : Rm) (x : Exact) (u : Nat) : Nat × Fl :=
  if td.isAnyInt then writeInt td rm x.val u else writeFloat td rm true x u

/-! ## Scaled blocks (R55 to R57) -/

/-- Elements of a block, b of R13. -/
def blockLen : Ty → Nat
  | .e2m1s => 62
  | _ => 31

/-- The element format of a scaled type. -/
def elemTy : Ty → Ty
  | .e4m3s => .e4m3
  | .mk8s => .mk8
  | .e2m1s => .e2m1
  | t => t

/-- An element code read under a scale (R56). -/
def readScaled (t : Ty) (scale code : Nat) : FVal :=
  if scale == 0xFF then .nan false
  else match readTy (elemTy t) code with
    | .num n m e => .num n m (e + scale - 127)
    | v => v

/-- A candidate of a block to be quantised: its value, the old code where it is a present value, and its draw where it is an
active element below VL. -/
structure Cand where
  val : FVal
  active : Bool
  old : Nat
  draw : Nat
deriving DecidableEq, Repr

/-- The larger of two magnitudes. -/
def maxMag (a b : Nat × Int) : Nat × Int := if gtScaled b.1 b.2 a.1 a.2 then b else a

/-- The scale code of a block (R57): 127 + e, e the least integer with a ≤ emax × 2^e, clamped to 0..254. -/
def blockScale (t : Ty) (cands : List Cand) : Nat :=
  let a := cands.foldl (fun acc c => match c.val with | .num _ m e => maxMag acc (m, e) | _ => acc) (0, 0)
  if a.1 == 0 then 127
  else
    let (em, ee) : Nat × Int := match t with
      | .mk8s => (1, 10)
      | .e2m1s => (3, 1)
      | _ => (7, 6)
    let e0 : Int := (Nat.log2 a.1 : Int) + a.2 - ((Nat.log2 em : Int) + ee)
    let e := if gtScaled a.1 a.2 em (ee + e0) then e0 + 1 else e0
    min (e + 127).toNat 254

/-- A block written under a new scale (R57): the scale, the codes, and the flags of each active candidate. Where a NaN candidate of
e2m1s makes the scale 0xFF, the spec says nothing of the codes: NaN candidates get 0, the others theirs under the scale computed
from the finite ones (DESIGN CHOICE, log 46); a block that had the scale 0xFF before keeps the codes that are not performed. A quotient
out of range under a scale clamped at 254 takes its column of R53, so that the X form of e4m3s writes 0x7F with OF and NX and no SAT
(DESIGN CHOICE, log 46). -/
def quantBlock (t : Ty) (rm : Rm) (sat : Bool) (oldScale : Nat) (cands : List Cand) : Nat × List Nat × List Fl :=
  let s := blockScale t cands
  let et := elemTy t
  let final := if t == .e2m1s && cands.any (fun c => c.val.isNan) then 0xFF else s
  let one (c : Cand) : Nat × Fl :=
    let v : FVal := match c.val with
      | .num n m e => .num n m (e - ((s : Int) - 127))
      | v => v
    if c.active then
      match v with
      | .nan sg => (canonNan et, flIf (sg || t == .e2m1s) flNV)
      | _ => writeFloat et rm sat v.exact c.draw
    else if final == oldScale then (c.old, 0)
    else match v with
      | .nan _ => (canonNan et, 0)
      | _ => ((writeFloat et .rne true v.exact 0).1, 0)
  let rs := cands.map one
  (final, rs.map Prod.fst, rs.map Prod.snd)

/-! ## The stochastic generator (R52) -/

/-- One step of the generator's state. -/
def srNext (x : Word) : Word :=
  let x := x ^^^ (x <<< 13)
  let x := x ^^^ (x >>> 7)
  x ^^^ (x <<< 17)

/-- The 24-bit draw of a state. -/
def srOut (x : Word) : Nat := ((x * 0x2545F4914F6CDD1D) >>> 40).toNat % 2 ^ 24

/-- `n` consecutive draws, and the state after them. -/
def srDraws : Nat → Word → List Nat × Word
  | 0, x => ([], x)
  | n + 1, x =>
    let y := srNext x
    let (rest, z) := srDraws n y
    (srOut y :: rest, z)

/-- The draws that an instruction reserves, and the state after them: none unless RM is 4. -/
def reserve (rm : Rm) (n : Nat) (x : Word) : List Nat × Word :=
  match rm with
  | .rsr => srDraws n x
  | _ => ([], x)

/-- Draw k of a reservation. -/
def drawAt (ds : List Nat) (k : Nat) : Nat := ds.getD k 0

/-! ## Raised flags -/

/-- The classes an instruction has raised, with the index of each (R41). -/
abbrev Raised := List (Nat × Fl)

/-- Adds a raise where it is not empty. -/
def raiseIf (r : Raised) (i : Nat) (f : Fl) : Raised := if f == 0 then r else (i, f) :: r

/-- The lowest index that raised class n. -/
def lowestRaise (r : Raised) (n : Nat) : Option Nat :=
  r.foldl (fun acc (i, f) =>
    if f.getLsbD n then (match acc with | none => some i | some j => some (min i j)) else acc) none

end Sys2Proof.Machine
end

