-- ==== Sys2Proof/Machine/State.lean ====
section
/-! DEFINITION. The state of the machine as plain data, every piece that the spec names, and the machine right after reset. -/

namespace Sys2Proof.Machine

/-! ## Bytes held sparsely -/

/-- Memory: the bytes that differ from zero, by global address, addresses strictly rising (R324, R331). A byte not listed
reads as zero (log 1). -/
abbrev Memory := List Host.Cell

/-- Addresses rise strictly from above `lo`, and no listed byte is zero. -/
def Memory.wfFrom (lo : Nat) : Memory → Bool
  | [] => true
  | (a, b) :: rest => decide (lo ≤ a) && b != 0 && Memory.wfFrom (a + 1) rest

/-- The canonical form of memory. -/
def Memory.wf (m : Memory) : Bool := Memory.wfFrom 0 m

/-- The bytes of a tile register or an accumulator, by offset; an offset not listed is zero. -/
structure ByteStore where
  cells : List Host.Cell
deriving DecidableEq, Repr

def ByteStore.zero : ByteStore := ⟨[]⟩

/-! ## Registers of a vector loop context -/

/-- A sparse register: value type, and the coordinate and value of each of its pairs (R15, R31). PLn is computed. -/
structure PReg where
  ty : Ty
  pairs : List (BitVec 32 × Word)
deriving DecidableEq, Repr

/-- A function register's descriptor, batch length and coefficients, in the order of the memory image (R16, R212, R217). -/
structure FnReg where
  d : Nat
  p : Nat
  nodal : Bool
  c : Nat
  f64 : Bool
  nb : Nat
  coef : List Word
deriving DecidableEq, Repr

/-- TCFGn with SET = 1 (R30). -/
structure TileCfg where
  ty : Ty
  rows : Nat
  cols : Nat
deriving DecidableEq, Repr

/-- A tile register: its descriptor, element store and scale store (R30, R245). -/
structure Tile where
  cfg : Option TileCfg
  elems : ByteStore
  scales : ByteStore
deriving DecidableEq, Repr

def Tile.reset : Tile := ⟨none, .zero, .zero⟩

/-- A threshold board: its type (BT: true for s16) and its 196,608 bytes, out of three tile registers (R264, R266). -/
structure Board where
  s16 : Bool
  part0 : ByteStore
  part1 : ByteStore
  part2 : ByteStore
deriving DecidableEq, Repr

/-- A stream descriptor, dword by dword (R193). -/
structure StreamDesc where
  base : Word
  stride : Word
  count : Word
  attr : Word
deriving DecidableEq, Repr

def StreamDesc.zero : StreamDesc := ⟨0, 0, 0, 0⟩

/-- A binding of a V register (R196, R199, R203): the stream register it came from, the descriptor copied, the elements
consumed, rem, the strips consumed, the element groups that waited for table data, the bytes prefetched by virtual address, and for a
table whether the strip that is read next has arrived (R383). -/
structure Binding where
  sreg : Fin 8
  desc : StreamDesc
  pos : Nat
  rem : Nat
  strips : Word
  waited : Word
  pre : List Host.Cell
  ready : Bool
deriving DecidableEq, Repr

/-- One strip of Q0 to Q7 (R33, R282). -/
structure Strip where
  count : Nat
  ty : Ty
  data : Group
deriving DecidableEq, Repr

/-- A 64-byte command or completion record, byte 0 in bits [7:0] (R284, R285). -/
abbrev Record := BitVec 512

/-- The architectural queues Q0 to Q12, Q17 and Q19 (R33). The records of Q16, Q18, Q20 and Q21 stand in `State.commands`. -/
structure Queues where
  strips : Vector (List Strip) 8
  words : Vector (List Word) 4
  bits : List Bool
  q17 : List Record
  q19 : List Record
deriving DecidableEq, Repr

def Queues.empty : Queues := ⟨.replicate 8 [], .replicate 4 [], [], [], []⟩

/-- What a stream waits for (R422): at memory, the address of the access, or stores that are on their way. -/
inductive Wait where
  | token (k : Fin 8)
  | queue (q : Nat)
  | grant
  | tenure
  | join
  | load (va : Word)
  | store (va : Word)
  | stores
  | unit
  | slot
deriving DecidableEq, Repr

/-- The operations of R275, and that of `vpub` on a chain cell with its FIN (R294). -/
inductive Amo where
  | swap | cas | add | and | or | xor | min | max | fadd | fmin | fmax
  | publish (fin : Bool)
deriving DecidableEq, Repr

/-- An atomic as its location receives it (R276): operation, type, rounding, the operand and the value compared with. -/
structure AtomReq where
  op : Amo
  ty : Ty
  rm : Rm
  b : Nat
  c : Nat
deriving DecidableEq, Repr

/-- How an atomic came out: the old value and flags; whether its data came poisoned, whether nobody answered, and whether its
bank unit failed twice. -/
structure Atom where
  old : Nat
  fl : BitVec 8
  poison : Bool
  absent : Bool
  residue : Bool
deriving DecidableEq, Repr

/-- Whether a stream exists and runs (R9, R145, R146). -/
inductive RunState where
  | absent
  | running
  | ended
deriving DecidableEq, Repr

/-- A byte that a stream has bound ahead of the load that it is for (R362, R363): its address, the level that it was read from, its value
and mark, and what the read has observed (R367, R368). -/
structure Early where
  ga : Nat
  level : Nat
  byte : Byte
  poison : Bool
  ids : List Nat
  told : List (Loc × List Nat)
deriving DecidableEq, Repr

/-- One stream: pc, G registers, return-address stack oldest entry first (R137), what it waits for, and whether the token it waits for has
been granted (R105). `seen` names the stores of others that it has observed, `near` those that come with the stores it has read, by
issuer, which an acquire takes in, and `released` those that stood in its observed set at its last release (R367, R368). `reserve` is the
generator state from which an instruction that waits has reserved its draws (R52), `answer` what the atomic that it waits for has come to,
which was performed when the frame it was held at went on (R342, R343), and `early` what it has bound ahead. -/
structure StreamState where
  pc : Word
  g : Vector Word 32
  ras : List Word
  run : RunState
  wait : Option Wait
  granted : Bool
  seen : List Nat
  near : List (Loc × List Nat)
  released : List Nat
  reserve : Option Word
  answer : Option Atom
  early : List Early
deriving DecidableEq, Repr

/-- A stream that begins at an address with its G registers and what it has observed. -/
def StreamState.start (pc : Word) (g : Vector Word 32) (seen : List Nat) : StreamState :=
  ⟨pc, g, [], .running, none, false, seen, [], [], none, none, []⟩

def StreamState.absent : StreamState := { StreamState.start 0 (.replicate 32 0) [] with run := .absent }

/-- The control registers of a VLC (R18 to R30), field by field. -/
structure Ctl where
  vl : BitVec 15
  vstart : BitVec 15
  vill : Bool
  lg : Fin 4
  wc : BitVec 4
  vlsave : BitVec 15
  fl : BitVec 10
  degcap : BitVec 4
  fquota : BitVec 12
  aliasing : Bool
  fstat : BitVec 8
  fxvalid : BitVec 8
  fxidx : Vector (BitVec 14) 8
  fxpc : Vector (BitVec 55) 8
  smissAny : Bool
  mreg : Fin 8
  tm : Bool
  sys : Bool
  apon : Bool
  tvalid : Bool
  tshape : BitVec 28
  atp : Word
  asid : BitVec 16
  csp : Word
  epc : Word
  ecause : Word
  eval : Word
  etvec : Word
  escratch : Word
deriving DecidableEq, Repr

/-- V, M, P and F (R11), and the values that the context has written to V and M, newest first: what an undefined register may hold
(R36). -/
structure VecRegs where
  v : Vector VReg 32
  m : Vector VReg 8
  p : Vector PReg 8
  f : Vector (Option FnReg) 16
  vPast : List VReg
  mPast : List VReg
deriving DecidableEq, Repr

/-- T with TCFG, ACC and the board (R11, R264), and the values that the context has written to T (elements and scales) and ACC, newest
first (R36). -/
structure TileRegs where
  t : Vector Tile 16
  acc : Vector ByteStore 4
  board : Option Board
  tPast : List (ByteStore × ByteStore)
  accPast : List ByteStore
deriving DecidableEq, Repr

/-- What a strip checkpoint holds (R433). -/
structure Checkpoint where
  pc : Word
  grantReg : Fin 32
  vl : BitVec 15
  vill : Bool
  lg : Fin 4
  wc : BitVec 4
  g : Vector Word 32
  h : Vector Word 32
  csp : Word
  ras : List Word
  fstat : BitVec 8
  fxvalid : BitVec 8
  fxidx : Vector (BitVec 14) 8
  fxpc : Vector (BitVec 55) 8
  smissAny : Bool
  mreg : Fin 8
  v : Vector VReg 32
  m : Vector VReg 8
  p : Vector PReg 8
  binds : List (Fin 32 × Binding)
deriving DecidableEq, Repr

/-- The strip of a VLC: whether it is open, its checkpoint while armed, whether it has been rewound (R364, R433 to R436), and a number
that rises from one strip to the next, by which the oldest armed one of a core is known (R435). -/
structure StripState where
  isOpen : Bool
  armed : Option Checkpoint
  rewound : Bool
  age : Nat
deriving DecidableEq, Repr

/-- Where a VLC's work comes from: the task, the queue it is charged to on its die, its remaining iterations (index values
by level) and the values read at admission (R304, R307, R308). -/
structure Work where
  task : Nat
  queue : QueueId
  entry : Word
  fold : Word
  wcore : Bool
  args : List Word
  idxRegs : List (Fin 32)
  current : List Nat
  todo : List (List Nat)
  qatp : Word
  qasid : BitVec 16
  qtvec : Word
  chain : Option Nat
deriving DecidableEq, Repr

/-- An instruction in flight that an adjournment record carries: address, encoding, index, and the VL, VTYPE and scalar operands that it
read at issue (R424). -/
structure InFlight where
  pc : Word
  encoding : Word
  index : Nat
  vl : Word
  vtype : Word
  scalars : List Word
deriving DecidableEq, Repr

/-- An instruction that its stream has issued and not completed (R357, R362): how a record shows it, the flags that it owes for the part
that it has performed, and whether a younger instruction has gone ahead of it. -/
structure Flight where
  stream : Stream
  instr : Instr
  shown : InFlight
  owed : List (Nat × BitVec 8)
  passed : Bool
deriving DecidableEq, Repr

/-- What an entry of Q0 to Q12, Q17 or Q19, or (from 32) a token of a FIFO, brings to the stream that takes it: its queue, its place from
the head, and the stores that its push or post released (R366, R370, R371). -/
structure Posted where
  line : Nat
  place : Nat
  ids : List Nat
deriving DecidableEq, Repr

/-- A V register that an instruction may not have finished writing as its progress register shows it (R39): the index shown last, the
elements of an element group, and the VL at issue. -/
structure Flying where
  reg : Fin 32
  index : Nat
  group : Nat
  vl : Nat
deriving DecidableEq, Repr

/-- A vector loop context. `owedFlags` are the flags, by element, of an instruction that has performed part of its work and waits or is
interrupted: they are recorded when it completes (R28). `owedPosts` are the tokens that a `tgmm` has still to post for the group before
VSTART (R259). `folding` says that the migration request has been delivered and its fold routine runs (R428, R429), and `vecWait` that the
instruction the EP last waited in is one of vectors, functions or tiles (R420). `inFlight` shows the instruction that the EP stands at
where that has performed part of its work, and `flights` lists, in program order, those that a stream has issued and gone past (R40,
R362). `busy` lists the V registers whose last writer may still be in flight (R39; log 33). `posted` says what the entries and tokens at
hand bring, where it is anything, and `forked` which held writes of the EP the accesses of the AP must follow (R145, R366). -/
structure Vlc where
  live : Bool
  loc : Loc
  ep : StreamState
  ap : StreamState
  h : Vector Word 32
  ctl : Ctl
  vec : VecRegs
  tile : TileRegs
  s : Vector StreamDesc 8
  binds : List (Fin 32 × Binding)
  q : Queues
  k : Vector (BitVec 6) 8
  korder : Vector (List Stream) 8
  handler : Option Stream
  clock : BitVec 48
  strip : StripState
  tenure : Bool
  migrate : Option CoreId
  folding : Bool
  vecWait : Bool
  fetched : List (Nat × Parcel)
  inFlight : List InFlight
  flights : List Flight
  busy : List Flying
  posted : List Posted
  forked : List Nat
  owedFlags : List (Nat × BitVec 8)
  owedPosts : Nat
  work : Option Work
deriving DecidableEq, Repr

/-! ## Cores, dies and queues -/

/-- A leaf held by a TLB (R332): its tags, the virtual page it maps (base and log2 of its bytes), its form and what it yields for
its first byte, a global address in the fabric form and a host physical address in the host view with the HDM range under which that
stands for global addresses (R331), the spare frames that DRAM frames of this device in it have been remapped to (R354), and its
permissions. -/
structure TlbEntry where
  asid : BitVec 16
  root : BitVec 44
  va : Nat
  lgSize : Nat
  fabric : Bool
  base : Nat
  hdm : Option (Nat × Nat)
  remap : List (Nat × Nat)
  r : Bool
  w : Bool
  x : Bool
  u : Bool
  d : Bool
deriving DecidableEq, Repr

/-- A waiting request for a strip grant (R316). -/
structure GrantReq where
  loc : Loc
  queue : QueueId
deriving DecidableEq, Repr

/-- Arbitration of a core (R316): deficits, the circular list of each priority as one list in order, and the waiting requests
in order. -/
structure Arbiter where
  deficits : List (QueueId × Nat)
  order : List QueueId
  waiting : List GrantReq
deriving DecidableEq, Repr

/-- The reliability counters of a core (R440). -/
structure CoreCounters where
  scmcnt : Word
  rewind : Word
  repeats : Word
  disarm : Word
  ssbovf : Word
  psncnt : Word
  lquar : Word
  lmis : Vector (BitVec 16) 64
deriving DecidableEq, Repr

/-- Who waits for vector tenure (R310, R311): a context of the core, or the record of one that held tenure when it was adjourned. -/
inductive Tenant where
  | vlc (l : Loc)
  | record (id : Nat)
deriving DecidableEq, Repr

/-- A core (R18, R20, R52, R310, R312, R316, R332, R430, R440). `holders` lists its contexts in the order in which they last took
vector tenure (R311). -/
structure CoreState where
  srseed : Word
  spotseed : Word
  clklim : BitVec 48
  inja : BitVec 50
  injb : BitVec 4
  cycle : Word
  arb : Arbiter
  tenureQueue : List Tenant
  holders : List Loc
  tileOwner : Option Loc
  tlb : List TlbEntry
  cnt : CoreCounters
deriving DecidableEq, Repr

/-- A die: its second-level TLB, owner cache and counters, and its visitor pool with the frames in it (R332, R338, R340, R441,
R454). -/
structure DieState where
  tlb : List TlbEntry
  owners : List (Nat × BitVec 13)
  dramce : Word
  dramue : Word
  comce : Word
  comue : Word
  bankres : Word
  retired : Word
  poolCount : BitVec 16
  poolBase : BitVec 34
  visitors : List (Nat × Nat)
deriving DecidableEq, Repr

/-- A task queue (R300, R301). -/
structure TaskQueue where
  fifo : List Record
  en : Bool
  weight : BitVec 8
  prio : BitVec 3
  done : BitVec 16
  refusedCnt : BitVec 16
  dropped : BitVec 16
  qatp : Word
  qasid : BitVec 16
  qcmask : BitVec 12
  qtvec : Word
deriving DecidableEq, Repr

/-- A task admitted (R304 to R309): launch queue, its VLCs still to be created (place and work), how many run, NOTE, its
chain count GR, and the stores that the first instruction of a spawned one acquires (R372). -/
structure Task where
  id : Nat
  queue : QueueId
  pending : List (CoreId × Work)
  running : Nat
  note : Word
  qatp : Word
  qasid : BitVec 16
  gr : BitVec 48
  counted : Bool
  seen : List Nat
deriving DecidableEq, Repr

/-! ## Stores, frames and the fabric -/

/-- One byte of a store: its global address, its value, and the bits that the store writes (R179). -/
structure MByte where
  ga : Nat
  val : Byte
  mask : Byte
deriving DecidableEq, Repr

/-- A store on its way outward (R357 to R359): level 0 to 4, the VLC and stream that issued it, its bytes, whether it stands
in the strip store buffer, whether it carries a poison mark (R288), whether an instruction of the EP with OVT = 1 issued it
(R366), whether it has left for a frame that is frozen at another endpoint and only keeps its place (R359), whether it is a
member's copy of a multicast element, which one request of its group has carried (R373, R397), its number, the address of the
instruction that issued it (0 for an engine's), and the stores that its issuer's last release covered (R368). -/
structure Entry where
  level : Nat
  loc : Loc
  stream : Stream
  bytes : List MByte
  strip : Bool
  poison : Bool
  ovt : Bool
  sent : Bool
  mcast : Bool
  id : Nat
  pc : Word
  after : List Nat
deriving DecidableEq, Repr

/-- A stub record of an endpoint for a frame that it once owned (R347). -/
structure Stub where
  endpoint : BitVec 13
  die : Fin 4
  next : BitVec 13
  reclaiming : Bool
  sharers : List (BitVec 13)
  everyone : Bool
  replies : List (BitVec 13)
deriving DecidableEq, Repr

/-- A frame that is away from its home, or has stubs: its owner and its stubs, oldest first (R346 to R348). -/
structure FrameRec where
  frame : Nat
  owner : BitVec 13
  stubs : List Stub
deriving DecidableEq, Repr

/-- Who waits for the answer of a move (R291, R296, R352): a stream's G register, a Q21 status address, another endpoint's
request, the log of an automatic move, or nobody, since the stream has trapped in its wait (R421). -/
inductive Asker where
  | pgmove (l : Loc) (st : Stream) (d : Fin 32)
  | record (ga : Nat)
  | remote (p : Packet)
  | automatic
  | nobody
deriving DecidableEq, Repr

/-- An access held at a frozen frame (R342): a store of this device, an atomic or a read of a stream that waits for it, or an access
that a packet brought. -/
inductive Held where
  | entry (e : Entry)
  | atomic (l : Loc) (st : Stream) (gas : List Nat) (req : AtomReq)
  | read (l : Loc) (st : Stream)
  | packet (p : Packet)
deriving DecidableEq, Repr

/-- A move in progress: frozen at `src`, on its way to `dst`, the writes held in arrival order (R341, R342). -/
structure MoveRec where
  frame : Nat
  src : BitVec 13
  dst : BitVec 13
  asker : Asker
  held : List Held
deriving DecidableEq, Repr

/-- A move that waits its turn (R328, R350): frame, destination, and who asked. -/
structure MoveReq where
  frame : Nat
  dst : Nat
  asker : Asker
deriving DecidableEq, Repr

/-- A completion or token that an engine owes to a context (R287, R288, R461). -/
inductive Owed where
  | token (k : Fin 8)
  | record (r : Record)
deriving DecidableEq, Repr

/-- An entry of the group table (R400): the group's number, this device's rank, whether it is a member, and the members. -/
structure GroupEntry where
  num : Nat
  rank : Nat
  member : Bool
  list : List Nat
deriving DecidableEq, Repr

/-- A command from its push into Q16, Q18, Q20 or Q21 until its completion has been delivered (R33, R286 to R291, R461):
where its context is, or the number of the record that holds the adjourned context; the record; the translation of its push;
the task; the address that its push translated; whether its work is done, and what it then still owes. A collective command has the
entry of its group as its push read it (R400), whether poison has come into its block or out of another's (R288), and how many bytes
each other member's block has brought (R402). -/
structure Command where
  queue : Fin 32
  task : Option Nat
  dst : Nat
  vlc : Loc
  saved : Option Nat
  record : Record
  atp : Word
  asid : BitVec 16
  sys : Bool
  started : Bool
  owed : List Owed
  group : Option GroupEntry
  bad : Bool
  got : List (BitVec 13 × Nat)
deriving DecidableEq, Repr

/-- A Dweolo port: PSTAT and its counters (R404, R405), and the consecutive replays of its oldest flit (R394). -/
structure Port where
  up : Bool
  train : Bool
  downev : Bool
  pdup : Word
  preplay : Word
  presend : Word
  pdrop : Word
  ppsn : Word
  replay : Nat
deriving DecidableEq, Repr

/-- A request not yet answered: the packet, the requesting die, how often it was resent, and who has answered it (R344, R395,
R397). -/
structure Unanswered where
  packet : Packet
  die : Fin 4
  resends : Nat
  answered : List (BitVec 13)
deriving DecidableEq, Repr

/-- The last request sent on a route: its number, and whether it was a relay, whose answer goes to its original requester (R379,
R392). -/
structure LastSent where
  route : BitVec 16
  seq : BitVec 32
  relay : Bool
deriving DecidableEq, Repr

/-- A sender's counter to an endpoint or group, its unanswered requests, the last request on each route, and the requests that
wait for the 4,096 unanswered ones to grow fewer, with the requesting die (R379, R392, R393, R395). -/
structure SendPair where
  dst : BitVec 13
  grp : Bool
  next : BitVec 32
  unanswered : List Unanswered
  routes : List LastSent
  queued : List (Packet × Fin 4)
deriving DecidableEq, Repr

/-- A receiver's window from a source (R380), and its response cache (R381). -/
structure RecvPair where
  src : BitVec 13
  grp : Option (BitVec 13)
  high : BitVec 32
  accepted : List (BitVec 32)
  responses : List (BitVec 32 × Packet)
deriving DecidableEq, Repr

/-- A request of ATTCTL as its GO found it (R454): OP, SLOT, ATTBUF and the nonce. -/
structure AttReq where
  op : BitVec 2
  slot : BitVec 3
  buf : BitVec 50
  nonce : BitVec 256
deriving DecidableEq, Repr

/-- The registers of the management block in BAR 0 (R453, R454): the invalidation and the attestation request in progress, whose BUSY is 1,
stand as their GO found the registers. -/
structure Mgmt where
  stage : BitVec 4
  err : Bool
  memUp : Bool
  ready : Bool
  pwrcap : BitVec 16
  power : BitVec 16
  fmhz : BitVec 13
  trip : Byte
  hot : Byte
  evstat : BitVec 7
  evmask : BitVec 7
  tinvGo : Option (BitVec 16 × Word × Word)
  tinvAsid : BitVec 16
  tinvva : Word
  tinvlen : Word
  attGo : Option AttReq
  attOp : BitVec 2
  attSlot : BitVec 3
  attbuf : BitVec 50
  attnonce : BitVec 256
  meas : Vector (BitVec 512) 8
deriving DecidableEq, Repr

/-- The log registers and the records written to the ring (R442). -/
structure LogState where
  base : Word
  head : BitVec 32
  tail : BitVec 32
  lost : Word
  lanethr : BitVec 16
deriving DecidableEq, Repr

/-- Module flash (R355, R448, R449, R452): the bad-frame list, the two firmware slots, which is tried first, the boots so far, and which
slot the image that runs came from. -/
structure Flash where
  badFrames : List Word
  slotA : List Host.Cell
  slotB : List Host.Cell
  firstB : Bool
  bootcnt : Word
  runsB : Bool
deriving DecidableEq, Repr

/-- The fabric registers and what the device keeps for its peers (R379 to R381, R392, R402, R404, R405): `waiting` holds, by port, the
requests whose predecessor has not been accepted, `blocks` the traffic of other members that waits in the collective engine. `known` lists
the endpoints that there are, and `answering` those that answer: the surroundings' part (log 10). -/
structure Fabric where
  fendp : BitVec 13
  fgtbase : Word
  limit : BitVec 4
  tmo : BitVec 32
  ports : Vector Port 16
  send : List SendPair
  recv : List RecvPair
  outbox : List Packet
  collSeq : List (BitVec 13 × BitVec 32)
  collIn : List Packet
  blocks : List Packet
  waiting : List (Fin 16 × Packet)
  known : List (BitVec 13)
  answering : List (BitVec 13)
deriving DecidableEq, Repr

/-- The host link: whether CXL is up, the HDM range, the lines of the host-line cache (owned or shared), MSI-X raised, data returned to
the host (R327, R406 to R410, R455), whether the last commit of the HDM decoder ended in an error (R448), and the host accesses that met a
hole (R407). -/
structure HostLink where
  up : Bool
  hdm : Option (Nat × Nat)
  lines : List (Nat × Bool)
  msix : List Nat
  answers : List (List Byte × Bool)
  commitError : Bool
  holes : Word
deriving DecidableEq, Repr

/-- The migration coordinator and memory health (R291, R352 to R356): `waiting` the moves that wait their turn in arrival order
(R328), `due` the retirements that wait for a move, with their CAUSE (R350), `invs` the owner-invalidates that wait for accesses sent to
the stub that they come from (R338, R349). -/
structure Coordinator where
  threshold : BitVec 32
  stubmin : BitVec 32
  auto : Bool
  ceCounts : List (Nat × Nat)
  samples : List (Nat × BitVec 13 × Nat)
  sharers : List (Nat × BitVec 13)
  waiting : List MoveReq
  due : List (Nat × Nat)
  invs : List Packet
deriving DecidableEq, Repr

/-- An adjournment record held in the save area of a die (R424 to R427; log 21): its number, the context, VLENB of the core that saved it,
and the core that a migration request bids it resume on (R429). -/
structure Saved where
  id : Nat
  vlc : Vlc
  vlenb : Nat
  target : Option CoreId
deriving DecidableEq, Repr

/-- An error that a coming instruction of a core is to meet, at an item of its result: one that a checker finds (R436), or with `store` an
uncorrectable one of a per-core store that it reads (R446): an input of the environment (log 12). -/
structure Upset where
  core : CoreId
  item : Nat
  store : Bool
deriving DecidableEq, Repr

/-- Which agent takes the next step (log 6): a stream of a context, a stream whose instruction is interrupted at a progress index (R40,
R418), a stream that issues its instruction and goes past it, an instruction so issued that is performed, as far as an index where one is
given (R362), a byte bound ahead of its load (R363, R374), a parcel fetched ahead (R120), an event of the opcode table, or a core whose
renaming takes the checkpoint of a context's open strip (R435; log 27). -/
inductive Choice where
  | run (l : Loc) (st : Stream)
  | cut (l : Loc) (st : Stream) (index : Nat)
  | issue (l : Loc) (st : Stream)
  | perform (l : Loc) (k : Nat) (index : Option Nat)
  | bind (l : Loc) (st : Stream) (member : Bool) (ga : Nat)
  | prefetch (l : Loc) (va : Word)
  | event (i : Instr)
  | renaming (l : Loc)
deriving DecidableEq, Repr

/-- The machine. `unreachable` lists the frames that a module reset has left without an owner (R449), and `trace` gives, for a byte that a
store behind a release was last performed at, that store's issuer and what the release covered (R368). `agenda`, `stream` and `cur` say
whose step is next and which context is in focus, `upsets` what the checkers are to find, `fresh` numbers the free values, `limit` is the
progress index at which the instruction of this step is interrupted, and `probe` collects the bytes that an instruction accesses while the
order of two is in question: the model's own fields (logs 4, 6, 12, 21). -/
structure State where
  agenda : List Choice
  stream : Stream
  cur : Vlc
  parked : List Vlc
  saved : List Saved
  cores : Vector CoreState 48
  dies : Vector DieState 4
  queues : Vector TaskQueue 256
  tasks : List Task
  nextTask : Nat
  mem : Memory
  poison : List Nat
  pend : List Entry
  trace : List (Nat × Loc × List Nat)
  frames : List FrameRec
  unreachable : List Nat
  moves : List MoveRec
  commands : List Command
  coord : Coordinator
  fabric : Fabric
  host : HostLink
  mgmt : Mgmt
  log : LogState
  flash : Flash
  reserved : List (Nat × Nat)
  powered : Bool
  debug : Bool
  upsets : List Upset
  fresh : Nat
  limit : Option Nat
  probe : Option (List Nat)
deriving DecidableEq, Repr

/-- Why the machine stops. -/
inductive Fault where
  /-- Raised by `step` when the module has no power and the agenda names no event that restores it (R456). Safe: nothing
  runs on an unpowered module. -/
  | moduleOff
deriving DecidableEq, Repr

/-- Why a step has no meaning. -/
inductive Refusal where
  /-- Raised by `exec` on an instruction whose meaning is not written yet; no meaning raises it. Safe: nothing is claimed. -/
  | notModelled (mnemonic : String)
deriving DecidableEq, Repr

/-! ## Reset values -/

/-- The control registers at creation by a launch (R18), on a W-core, with ATP, ASID and ETVEC as the launch unit read them. -/
def Ctl.reset (ncore : Bool) (atp : Word) (asid : BitVec 16) (etvec : Word) : Ctl where
  vl := 0
  vstart := 0
  vill := false
  lg := 0
  wc := 2
  vlsave := 0
  fl := 0
  degcap := 15
  fquota := if ncore then 256 else 2048
  aliasing := false
  fstat := 0
  fxvalid := 0
  fxidx := .replicate 8 0
  fxpc := .replicate 8 0
  smissAny := false
  mreg := 7
  tm := false
  sys := false
  apon := false
  tvalid := false
  tshape := 0
  atp := atp
  asid := asid
  csp := 0
  epc := 0
  ecause := 0
  eval := 0
  etvec := etvec
  escratch := 0

def VecRegs.reset : VecRegs := ⟨.replicate 32 0, .replicate 8 0, .replicate 8 ⟨.s8, []⟩, .replicate 16 none, [], []⟩
def TileRegs.reset : TileRegs := ⟨.replicate 16 .reset, .replicate 4 .zero, none, [], []⟩

/-- A context as R308 creates it, at `pc`: registers at their reset values. H, and G outside the arguments, are zero (log 2);
V, M and ACC are zero (log 3). -/
def Vlc.create (l : Loc) (pc : Word) (atp : Word) (asid : BitVec 16) (etvec : Word) : Vlc where
  live := true
  loc := l
  ep := .start pc (.replicate 32 0) []
  ap := .absent
  h := .replicate 32 0
  ctl := Ctl.reset l.coreId.ncore atp asid etvec
  vec := .reset
  tile := .reset
  s := .replicate 8 .zero
  binds := []
  q := .empty
  k := .replicate 8 0
  korder := .replicate 8 []
  handler := none
  clock := 0
  strip := ⟨false, none, false, 0⟩
  tenure := false
  migrate := none
  folding := false
  vecWait := false
  fetched := []
  inFlight := []
  flights := []
  busy := []
  posted := []
  forked := []
  owedFlags := []
  owedPosts := 0
  work := none

/-- A slot that holds no context. -/
def Vlc.none (l : Loc) : Vlc :=
  { Vlc.create l 0 0 0 0 with live := false, ep := .absent }

def CoreCounters.reset : CoreCounters := ⟨0, 0, 0, 0, 0, 0, 0, .replicate 64 0⟩

/-- A core at core reset (R18). -/
def CoreState.reset : CoreState where
  srseed := 1
  spotseed := 1
  clklim := 0x01000000
  inja := 0
  injb := 0
  cycle := 0
  arb := ⟨[], [], []⟩
  tenureQueue := []
  holders := []
  tileOwner := none
  tlb := []
  cnt := .reset

def DieState.reset : DieState := ⟨[], [], 0, 0, 0, 0, 0, 0, 0, 0, []⟩

def TaskQueue.reset : TaskQueue := ⟨[], false, 1, 0, 0, 0, 0, 0, 0, 0xFFF, 0⟩

def Mgmt.reset : Mgmt where
  stage := 1
  err := false
  memUp := false
  ready := false
  pwrcap := 3200
  power := 0
  fmhz := 4000
  trip := 110
  hot := 0
  evstat := 0
  evmask := 0x7F
  tinvGo := none
  tinvAsid := 0
  tinvva := 0
  tinvlen := 0
  attGo := none
  attOp := 0
  attSlot := 4
  attbuf := 0
  attnonce := 0
  meas := .replicate 8 0

def Port.reset : Port := ⟨false, false, false, 0, 0, 0, 0, 0, 0⟩

def Fabric.reset : Fabric where
  fendp := 0
  fgtbase := 0
  limit := 8
  tmo := 20
  ports := .replicate 16 .reset
  send := []
  recv := []
  outbox := []
  collSeq := []
  collIn := []
  blocks := []
  waiting := []
  known := []
  answering := []

/-- The machine right after module reset, before boot (R448 stage 1): no context, every queue disabled, memory with nothing
listed (log 5). -/
def State.reset : State where
  agenda := []
  stream := .ep
  cur := .none ⟨0, 0, 0⟩
  parked := []
  saved := []
  cores := .replicate 48 .reset
  dies := .replicate 4 .reset
  queues := .replicate 256 .reset
  tasks := []
  nextTask := 0
  mem := []
  poison := []
  pend := []
  trace := []
  frames := []
  unreachable := []
  moves := []
  commands := []
  coord := ⟨64, 100, false, [], [], [], [], [], []⟩
  fabric := .reset
  host := ⟨false, none, [], [], [], false, 0⟩
  mgmt := .reset
  log := ⟨0, 0, 0, 0, 16⟩
  flash := ⟨[], [], [], false, 0, false⟩
  reserved := []
  powered := true
  debug := false
  upsets := []
  fresh := 0
  limit := none
  probe := none

end Sys2Proof.Machine
end

