-- ==== Sys2Proof/Machine/Ops.lean ====
section
/-! DEFINITION. The named operations over registers and memory: register access, sparse bytes, the log, store buffers and
their draining, translation, loads and stores, strips, taking a trap and returning from one. -/

namespace Sys2Proof.Machine

/-! ## Registers and control state -/

def State.modVlc (s : State) (f : Vlc → Vlc) : State := { s with cur := f s.cur }
def State.modCtl (s : State) (f : Ctl → Ctl) : State := { s with cur := { s.cur with ctl := f s.cur.ctl } }
def State.modVec (s : State) (f : VecRegs → VecRegs) : State := { s with cur := { s.cur with vec := f s.cur.vec } }
def State.modTile (s : State) (f : TileRegs → TileRegs) : State := { s with cur := { s.cur with tile := f s.cur.tile } }
def State.modQ (s : State) (f : Queues → Queues) : State := { s with cur := { s.cur with q := f s.cur.q } }

/-- The record of one stream of a context. -/
def Vlc.str (v : Vlc) : Stream → StreamState
  | .ep => v.ep
  | .ap => v.ap
def Vlc.setStr (v : Vlc) (st : Stream) (x : StreamState) : Vlc :=
  match st with
  | .ep => { v with ep := x }
  | .ap => { v with ap := x }

/-- The stream whose instruction is being executed. -/
def State.str (s : State) : StreamState := s.cur.str s.stream
def State.setStr (s : State) (x : StreamState) : State := { s with cur := s.cur.setStr s.stream x }

def State.pc (s : State) : Word := s.str.pc
def State.setPc (s : State) (pc : Word) : State := s.setStr { s.str with pc := pc }

/-- `gread` of R41: G0 reads zero. -/
def State.gread (s : State) (n : Fin 32) : Word := if n = 0 then 0 else s.str.g[n]

/-- `gwrite` of R41: a write to G0 is discarded. -/
def State.gwrite (s : State) (n : Fin 32) (x : Word) : State :=
  if n = 0 then s else s.setStr { s.str with g := s.str.g.set n x }

def State.hread (s : State) (n : Fin 32) : Word := s.cur.h[n]
def State.hwrite (s : State) (n : Fin 32) (x : Word) : State := s.modVlc fun v => { v with h := v.h.set n x }

/-- The core of the context in focus. -/
def State.coreId (s : State) : CoreId := s.cur.loc.coreId
def State.ncore (s : State) : Bool := s.coreId.ncore
def State.core (s : State) : CoreState := s.cores[s.coreId.index]
def State.modCoreAt (s : State) (c : CoreId) (f : CoreState → CoreState) : State :=
  { s with cores := s.cores.set c.index (f s.cores[c.index]) }
def State.modCore (s : State) (f : CoreState → CoreState) : State := s.modCoreAt s.coreId f
def State.modCnt (s : State) (f : CoreCounters → CoreCounters) : State :=
  s.modCore fun c => { c with cnt := f c.cnt }
def State.modDie (s : State) (d : Fin 4) (f : DieState → DieState) : State :=
  { s with dies := s.dies.set d (f s.dies[d]) }

/-- VLEN of a core kind (R11). -/
def vlen (ncore : Bool) : Nat := if ncore then 2048 else 16384
/-- Bits of an element group (R14). -/
def datapath (ncore : Bool) : Nat := if ncore then 1024 else 4096

/-- A fresh number for a free value (log 4). -/
def State.bump (s : State) : State := { s with fresh := s.fresh + 1 }

/-- `commit_flags` of R41: FSTAT, and the first occurrence of each class with its index and PC[56:2] (R27, R28). -/
def commitFlags (s : State) (r : Raised) : State :=
  let pcf : BitVec 55 := (s.pc >>> 2).setWidth 55
  s.modCtl fun c =>
    (List.finRange 8).foldl (fun (c : Ctl) (n : Fin 8) =>
      match lowestRaise r n.val with
      | none => c
      | some i =>
        { c with
          fstat := c.fstat ||| ((1 : BitVec 8) <<< n.val)
          fxvalid := c.fxvalid ||| ((1 : BitVec 8) <<< n.val)
          fxidx := if c.fxvalid.getLsbD n.val then c.fxidx else c.fxidx.set n (BitVec.ofNat 14 i)
          fxpc := if c.fxvalid.getLsbD n.val then c.fxpc else c.fxpc.set n pcf }) c

/-- Flags of a scalar instruction, at index 0 (R66). -/
def commitScalar (s : State) (f : Fl) : State := commitFlags s (raiseIf [] 0 f)

/-! ## Sparse bytes -/

/-- The byte at an address. -/
def Memory.read : Memory → Nat → Byte
  | [], _ => 0
  | (a, b) :: rest, x => if x < a then 0 else if x = a then b else Memory.read rest x

/-- Sets the byte at an address, keeping the canonical form. -/
def Memory.write : Memory → Nat → Byte → Memory
  | [], x, v => if v = 0 then [] else [(x, v)]
  | (a, b) :: rest, x, v =>
    if x < a then (if v = 0 then (a, b) :: rest else (x, v) :: (a, b) :: rest)
    else if x = a then (if v = 0 then rest else (x, v) :: rest)
    else (a, b) :: Memory.write rest x v

/-- Inserts a cell in address order, whatever its byte. -/
def insertCell : List Host.Cell → Nat → Byte → List Host.Cell
  | [], x, v => [(x, v)]
  | (a, b) :: rest, x, v =>
    if x < a then (x, v) :: (a, b) :: rest
    else if x = a then (x, v) :: rest
    else (a, b) :: insertCell rest x v

/-- The byte listed at an offset. -/
def findCell : List Host.Cell → Nat → Option Byte
  | [], _ => none
  | (a, b) :: rest, x => if x < a then none else if x = a then some b else findCell rest x

def ByteStore.read (b : ByteStore) (off : Nat) : Byte := Memory.read b.cells off

def ByteStore.write (b : ByteStore) (off : Nat) (v : Byte) : ByteStore := ⟨Memory.write b.cells off v⟩

/-- A little-endian number from bytes (R7). -/
def leNat : List Byte → Nat
  | [] => 0
  | b :: rest => b.toNat + 256 * leNat rest

/-- The low `n` bytes of a number, lowest first (R7). -/
def leBytes : Nat → Nat → List Byte
  | 0, _ => []
  | n + 1, x => BitVec.ofNat 8 (x % 256) :: leBytes n (x / 256)

/-- `n` bytes of a byte store as a number. -/
def ByteStore.readN (b : ByteStore) (off n : Nat) : Nat := leNat ((List.range n).map fun i => b.read (off + i))
def ByteStore.writeN (b : ByteStore) (off : Nat) (bytes : List Byte) : ByteStore :=
  (bytes.foldl (fun (acc : ByteStore × Nat) v => (acc.1.write acc.2 v, acc.2 + 1)) (b, off)).1

/-- `w` bits of a natural from bit `pos`. -/
def bitsAt (x pos w : Nat) : Nat := (x >>> pos) % 2 ^ w

/-- A 64-byte record from its bytes. -/
def recordOf (bs : List Byte) : Record := BitVec.ofNat 512 (leNat bs)
/-- `n` bytes of a record at offset `off`. -/
def Record.field (r : Record) (off n : Nat) : Nat := (r.toNat >>> (8 * off)) % 2 ^ (8 * n)

/-! ## Global addresses (R324, R331) -/

/-- The endpoint of a global address. -/
def gaEndpoint (ga : Nat) : Nat := ga / 2 ^ 50
def gaLocal (ga : Nat) : Nat := ga % 2 ^ 50
/-- The frame of a global address, named by its home (R337). -/
def gaFrame (ga : Nat) : Nat := ga / 2 ^ 16
def gaLine (ga : Nat) : Nat := ga / 64

/-- What a local address holds (R324). -/
inductive Region where
  | dram (die : Fin 4)
  | commons (die : Fin 4)
  | host
  | hole
deriving DecidableEq, Repr

def regionOf (l : Nat) : Region :=
  if l < 0x4000000000 then
    if l % 0x1000000000 < 0xFFF000000 then .dram ⟨l / 0x1000000000 % 4, Nat.mod_lt _ (by decide)⟩ else .hole
  else if 0x10000000000 ≤ l ∧ l < 0x10040000000 then
    let o := l - 0x10000000000
    if o % 0x10000000 < 0x6000000 then .commons ⟨o / 0x10000000 % 4, Nat.mod_lt _ (by decide)⟩ else .hole
  else if 0x2000000000000 ≤ l ∧ l < 0x3000000000000 then .host
  else .hole

/-- The endpoint number of this device (R385, R405). -/
def State.here (s : State) : Nat := s.fabric.fendp.toNat

/-- Where the log ring lies (R442). -/
def LogState.ring (x : LogState) : Nat := x.base.toNat / 2 ^ 18 * 2 ^ 18 % 2 ^ 50

/-- Whether a local address lies in a device-reserved range (R324, R407, R454): the ranges set aside at bring-up (log 9), the
visitor pools, and the log ring while it is enabled. -/
def State.isReserved (s : State) (l : Nat) : Bool :=
  s.reserved.any (fun (b, n) => decide (b ≤ l ∧ l < b + n)) ||
  s.dies.toList.any (fun d => decide (d.poolBase.toNat ≤ l / 2 ^ 16 ∧ l / 2 ^ 16 < d.poolBase.toNat + d.poolCount.toNat)) ||
  (s.log.base.getLsbD 0 && decide (s.log.ring ≤ l ∧ l < s.log.ring + 2 ^ 18))

/-- Whether an access of a program or engine to a global address raises the access fault (R324): its local part is not decoded
or lies in the spare frames, whatever the endpoint, or it is of a range reserved on this device. -/
def State.gaFaults (s : State) (ga : Nat) : Bool :=
  regionOf (gaLocal ga) == .hole || (gaEndpoint ga == s.here && s.isReserved (gaLocal ga))

/-- The global address of a local one. -/
def State.gaOf (s : State) (l : Nat) : Nat := s.here * 2 ^ 50 + l

def State.frameRec (s : State) (h : Nat) : Option FrameRec := s.frames.find? (·.frame == h)

/-- The present owner of a frame (R337, R346). -/
def State.ownerOf (s : State) (h : Nat) : Nat :=
  match s.frameRec h with
  | some r => r.owner.toNat
  | none => h / 2 ^ 34

/-- An access that the coordinator samples while automatic migration is on (R352): one of `endpoint` to a frame owned here. -/
def State.sample (s : State) (h : Nat) (endpoint : BitVec 13) : State :=
  if s.coord.auto && s.ownerOf h == s.here then
    let old := (s.coord.samples.find? fun x => x.1 == h && x.2.1 == endpoint).elim 0 (·.2.2)
    let rest := s.coord.samples.filter fun x => !(x.1 == h && x.2.1 == endpoint)
    { s with coord := { s.coord with samples := (h, endpoint, old + 1) :: rest } }
  else s

/-- Whether an endpoint is this device or answers (log 10). -/
def State.answers (s : State) (o : Nat) : Bool := o == s.here || s.fabric.answering.any (·.toNat == o)

/-- The endpoint to which a die sends its accesses to a frame (R337): this one where the frame is resident at home, else the one
that the die's owner cache names, else the home. -/
def State.firstStop (s : State) (d : Fin 4) (h : Nat) : Nat :=
  if h / 2 ^ 34 == s.here && s.ownerOf h == s.here then s.here
  else match s.dies[d].owners.find? (·.1 == h) with
    | some (_, e) => e.toNat
    | none => h / 2 ^ 34

/-- Whether accesses of a die to a global address reach their owner: this device, its host while the link is up (R410), or an
endpoint that answers, through one that answers (R337, R346). -/
def State.reachable (s : State) (d : Fin 4) (ga : Nat) : Bool :=
  let o := s.ownerOf (gaFrame ga)
  !s.unreachable.contains (gaFrame ga) && s.answers o && s.answers (s.firstStop d (gaFrame ga)) &&
    (s.host.up || !(o == s.here && regionOf (gaLocal ga) == .host))

/-- The endpoint that does not answer an access of a die: the one it is sent to, or the owner behind it (R395). -/
def State.silent (s : State) (d : Fin 4) (h : Nat) : Nat :=
  if s.answers (s.firstStop d h) then s.ownerOf h else s.firstStop d h

/-! ## Events and the log (R442, R455) -/

/-- Raises management event k: EVSTAT, and MSI-X vector k unless masked (R455). -/
def State.raiseEvent (s : State) (k : Nat) : State :=
  { s with
    mgmt := { s.mgmt with evstat := s.mgmt.evstat ||| ((1 : BitVec 7) <<< k) }
    host := if s.mgmt.evmask.getLsbD k then s.host else { s.host with msix := s.host.msix ++ [k] } }

/-- Writes bytes to memory at rising addresses. -/
def writeMem (m : Memory) (ga : Nat) (bs : List Byte) : Memory :=
  (bs.foldl (fun (acc : Memory × Nat) b => (Memory.write acc.1 acc.2 b, acc.2 + 1)) (m, ga)).1

/-- Appends a log record, which fills its line and so clears its poison mark (R432), or counts its loss (R442). -/
def State.logEvent (s : State) (kind loc : Nat) (pc addr info val : Word) : State :=
  if s.log.base.getLsbD 0 && decide ((s.log.head - s.log.tail).toNat < 4096) then
    let at_ := s.gaOf (s.log.ring + 64 * (s.log.head.toNat % 4096))
    let bytes := leBytes 4 s.log.head.toNat ++ leBytes 2 kind ++ leBytes 2 loc ++ leBytes 8 (Config.freeTime s.fresh).toNat
      ++ leBytes 8 pc.toNat ++ leBytes 8 addr.toNat ++ leBytes 8 info.toNat ++ leBytes 8 val.toNat ++ leBytes 16 0
    (({ s with mem := writeMem s.mem at_ bytes, poison := s.poison.filter (· != gaLine at_),
               log := { s.log with head := s.log.head + 1 } }).bump).raiseEvent 2
  else { s with log := { s.log with lost := s.log.lost + 1 } }

/-- CORENUM[7:0] of a context (R26). -/
def locNum (l : Loc) : Nat := l.die.val * 64 + l.core.val * 4 + l.slot.val

/-- A log record of the instruction in focus. -/
def State.logHere (s : State) (kind : Nat) (addr info val : Word) : State :=
  s.logEvent kind (locNum s.cur.loc) s.pc addr info val

/-! ## Store buffers (R357 to R361) -/

/-- Where an agent's loads begin: its context and stream, and the level at which it sits (R358). -/
structure Path where
  loc : Loc
  stream : Option Stream
  level : Nat
deriving DecidableEq, Repr

/-- The path of the stream in focus. -/
def State.path (s : State) : Path := ⟨s.cur.loc, some s.stream, 0⟩

/-- Whether an entry stands in a buffer of the path. -/
def Path.sees (p : Path) (e : Entry) : Bool :=
  decide (p.level ≤ e.level) &&
  match e.level with
  | 0 => p.loc == e.loc && p.stream == some e.stream
  | 1 => p.loc == e.loc
  | 2 => p.loc.coreId == e.loc.coreId
  | 3 => p.loc.die == e.loc.die
  | _ => true

/-- A masked write into a byte. -/
def mergeByte (old : Byte) (b : MByte) : Byte := (old &&& ~~~b.mask) ||| (b.val &&& b.mask)

/-- The bits of one byte that an entry writes, over an older value. -/
def Entry.over (e : Entry) (ga : Nat) (old : Byte) : Byte :=
  e.bytes.foldl (fun v b => if b.ga == ga then mergeByte v b else v) old

def Entry.covers (e : Entry) (ga : Nat) : Bool := e.bytes.any (·.ga == ga)

/-- The die of this device that a held access comes from. -/
def Held.die? : Held → Option (Fin 4)
  | .entry e => some e.loc.die
  | .atomic l .. => some l.die
  | .read l _ => some l.die
  | .packet _ => none

/-- Whether a held access is a write of a die of this device. -/
def Held.ofDie (d : Fin 4) : Held → Bool
  | .entry e => e.loc.die == d
  | .atomic l .. => l.die == d
  | .read .. => false
  | .packet _ => false

/-- The stores of this device that are held at frozen frames. -/
def State.heldEntries (s : State) : List Entry :=
  s.moves.flatMap fun m => m.held.filterMap fun h => match h with
    | .entry e => some e
    | _ => none

/-- Of some stores, those that still stand in a buffer or are held. -/
def State.standing (s : State) (ids : List Nat) : List Nat :=
  ids.filter fun n => s.pend.any (·.id == n) || s.heldEntries.any (·.id == n)

/-- A store of the stream in focus, as it comes into a buffer. -/
def State.newEntry (s : State) (level : Nat) (bs : List MByte) : Entry :=
  ⟨level, s.cur.loc, s.stream, bs, false, false, false, false, false, s.fresh, s.pc, s.standing s.str.released⟩

/-- Whether a held access is an atomic or a read that a stream waits for. -/
def Held.waitsFor (l : Loc) (st : Stream) : Held → Bool
  | .entry _ => false
  | .atomic x y .. => x == l && y == st
  | .read x y => x == l && y == st
  | .packet _ => false

/-- The value of a byte on a path: the ownership point, then every buffered store from the outermost level inward, oldest first
in each (R360). A held write is in no buffer: no read sees it (R342). -/
def State.byteOn (s : State) (p : Path) (ga : Nat) : Byte :=
  let vis := s.pend.filter fun e => p.sees e && e.covers ga
  [4, 3, 2, 1, 0].foldl (fun v lvl => (vis.filter (·.level == lvl)).foldl (fun v e => e.over ga v) v) (s.mem.read ga)

/-- The entry that a read of a byte on a path takes it from: the youngest in the innermost buffer that holds one (R360). -/
def State.topEntry (s : State) (p : Path) (ga : Nat) : Option Entry :=
  ([4, 3, 2, 1, 0].flatMap fun lvl => s.pend.filter fun e => e.level == lvl && p.sees e && e.covers ga).getLast?

/-- Whether a byte is read poisoned on a path: from an entry that carries the mark, or from a marked line (R288, R432). -/
def State.poisonOn (s : State) (p : Path) (ga : Nat) : Bool :=
  match s.topEntry p ga with
  | some e => e.poison
  | none => s.poison.contains (gaLine ga)

/-- Writes that a hold queue of a die holds at most (R342). -/
def holdCap : Nat := 4096

/-- The local address of this device's memory that a byte lies at (R337, R340): none where another endpoint holds the frame. -/
def State.localOf (s : State) (ga : Nat) : Option Nat :=
  if s.ownerOf (gaFrame ga) != s.here then none
  else if gaEndpoint ga == s.here then some (gaLocal ga)
  else (s.dies.toList.findSome? fun d => d.visitors.find? (·.1 == gaFrame ga)).map fun v => v.2 * 2 ^ 16 + ga % 2 ^ 16

/-- The hold queue that serves a move: that of the die on which the frame lies, of the endpoint it is frozen at (R342). On which die a
visitor frame of another endpoint lies is not known here: the die of its home address is taken (DESIGN CHOICE, log 46). -/
def State.queueOf (s : State) (m : MoveRec) : Nat × Nat :=
  (m.src.toNat, ((s.localOf (m.frame * 2 ^ 16)).getD (m.frame % 2 ^ 34 * 2 ^ 16)) / 2 ^ 36 % 4)

/-- Whether the hold queue that serves a move has room for one more access (R342). -/
def State.holdRoomAt (s : State) (m : MoveRec) : Bool :=
  decide (((s.moves.filter fun x => s.queueOf x == s.queueOf m).map fun x => x.held.length).sum < holdCap)

/-- Whether all 64 bytes of a line are among the bytes of one write, every bit of them (R432). -/
def fillsLine (bs : List MByte) (line : Nat) : Bool :=
  (bs.filter fun b => gaLine b.ga == line && b.mask == 0xFF).length == 64

/-- Inserts a number into a rising list. -/
def insertNat (x : Nat) : List Nat → List Nat
  | [] => [x]
  | y :: ys => if x < y then x :: y :: ys else if x = y then y :: ys else y :: insertNat x ys

/-- The lines that some bytes lie in, rising. -/
def linesOf (bs : List MByte) : List Nat := bs.foldl (fun acc b => insertNat (gaLine b.ga) acc) []

/-- Performs bytes at their ownership point: the memory, the poison marks, and what the bytes told of a release (R361, R368, R432). -/
def State.performBytes (s : State) (bs : List MByte) (poison : Bool) : State :=
  let mem := bs.foldl (fun m b => Memory.write m b.ga (mergeByte (Memory.read m b.ga) b)) s.mem
  let lines := linesOf bs
  let marked := lines.foldl (fun ps l =>
    if poison then insertNat l ps else if fillsLine bs l then ps.filter (· != l) else ps) s.poison
  { s with mem := mem, poison := marked, trace := s.trace.filter fun t => bs.all fun b => b.ga != t.1 }

/-- The port that a request of a route leaves through: the first live one from ROUTE mod 16 (R391). -/
def State.portFor (s : State) (route : Nat) : Fin 16 :=
  ((List.range 16).map fun k => Fin.ofNat 16 (route + k)).find? (fun p => s.fabric.ports[p].up) |>.getD (Fin.ofNat 16 route)

def State.modPort (s : State) (p : Fin 16) (f : Port → Port) : State :=
  { s with fabric := { s.fabric with ports := s.fabric.ports.set p (f s.fabric.ports[p]) } }

/-- The route of a frame, and that of an address in it (R391). -/
def frameRoute (h : Nat) : Nat := h % 2 ^ 16
def gaRoute (ga : Nat) : Nat := frameRoute (gaFrame ga)

/-- A store dropped by its destination or by a switch (R397). -/
def State.countDrop (s : State) (route : Nat) : State :=
  s.modPort (s.portFor route) fun p => { p with pdrop := p.pdrop + 1 }

/-- A request that failed: after LIMIT resends, PRESEND and PDROP of a store or atomic (R395), or for want of the host link
(R410); log kind 7 of the context that issued it, with PC its instruction (0 where that is no longer known, R442). -/
def State.requestFailed (s : State) (loc : Nat) (pc : Word) (kind dst route : Nat) (store : Bool) : State :=
  let far := dst != s.here
  let s := if far then s.modPort (s.portFor route) fun p => { p with presend := p.presend + s.fabric.limit.setWidth 64 } else s
  let s := if store && far then s.countDrop route else s
  s.logEvent 7 loc pc 0 (BitVec.ofNat 64 kind) (BitVec.ofNat 64 dst)

/-- A frame with a held write, or with a request of a die that is not answered: the accesses to it are not all acknowledged
(R338). -/
def State.unacked (s : State) (h : Nat) : Bool :=
  s.moves.any (fun m => m.frame == h && !m.held.isEmpty) ||
  s.fabric.send.any fun p => p.unanswered.any fun u => u.packet.home.toNat * 2 ^ 34 + u.packet.addr.toNat / 2 ^ 16 == h

/-- An owner cache takes an entry (R338): of the 16 in its set the one written longest ago leaves, save one whose frame has
accesses that are not acknowledged; with sixteen of these the new entry is not kept (log 18). -/
def State.putOwner (s : State) (d : Fin 4) (h : Nat) (e : BitVec 13) : State :=
  s.modDie d fun x =>
    let rest := x.owners.filter (·.1 != h)
    let set := rest.filter fun o => o.1 % 1024 == h % 1024
    if set.length < 16 then { x with owners := (h, e) :: rest }
    else match (set.filter fun o => !s.unacked o.1).getLast? with
      | some v => { x with owners := (h, e) :: rest.filter (· != v) }
      | none => { x with owners := rest }

/-- The redirect of an access that was relayed: the die's owner cache comes to name the owner (R337, R338, R344, R346). -/
def State.redirect (s : State) (d : Fin 4) (h : Nat) : State :=
  match s.frameRec h with
  | none => s
  | some r => if s.firstStop d h == r.owner.toNat then s else s.putOwner d h r.owner

/-- The host-line cache takes a line, shared or owned; the least recently used of 16 in its set leaves (R327, R409; log 36). -/
def State.touchHost (s : State) (ga : Nat) (own : Bool) : State :=
  if gaEndpoint ga == s.here && regionOf (gaLocal ga) == .host then
    let x := gaLine ga
    let old := (s.host.lines.find? (·.1 == x)).elim false (·.2)
    let rest := s.host.lines.filter (·.1 != x)
    let set := rest.filter (·.1 % 8192 == x % 8192)
    let rest := match (set.drop 15).head? with
      | some v => rest.filter (·.1 != v.1)
      | none => rest
    { s with host := { s.host with lines := (x, own || old) :: rest } }
  else s

/-- The host-line cache takes every line of some bytes (R327). -/
def State.touchLines (s : State) (gas : List Nat) (own : Bool) : State :=
  ((gas.map gaLine).eraseDups).foldl (fun s x => s.touchHost (64 * x) own) s

/-- A request takes the next number of its pair (R379, R393), and names the request before it on its route while the answer to
that is not here (R392). The answer to a relay never comes here: it goes to the original requester. -/
def SendPair.number (x : SendPair) (p : Packet) : Packet × SendPair :=
  let before := (x.routes.find? (·.route == p.route)).filter fun l => l.relay || x.unanswered.any (·.packet.seq == l.seq)
  ({ p with
    seq := x.next, oseq := if p.kind == 0x30 || p.rly then p.oseq else x.next, pv := before.isSome, rprev := before.elim 0 (·.seq) },
   { x with next := x.next + 1, routes := ⟨p.route, x.next, p.rly⟩ :: x.routes.filter (·.route != p.route) })

/-- The sender's record of an endpoint or group. -/
def SendPair.of (x : SendPair) (p : Packet) : Bool := x.dst == p.dst && x.grp == p.grp
def State.sendPair (s : State) (p : Packet) : SendPair := (s.fabric.send.find? (·.of p)).getD ⟨p.dst, p.grp, 0, [], [], []⟩
def State.putPair (s : State) (p : Packet) (out : List Packet) (x : SendPair) : State :=
  { s with fabric := { s.fabric with outbox := s.fabric.outbox ++ out, send := s.fabric.send.filter (!·.of p) ++ [x] } }

/-- A request that addresses bytes of a frame (R388, R391): `kind` says what it asks for. -/
def State.framePacket (s : State) (kind dst h off : Nat) (data : List Byte) (len : Nat) : Packet where
  kind := BitVec.ofNat 8 kind
  home := BitVec.ofNat 13 (h / 2 ^ 34)
  dst := BitVec.ofNat 13 dst
  grp := false
  rly := false
  pv := false
  src := s.fabric.fendp
  orig := s.fabric.fendp
  len := BitVec.ofNat 14 len
  seq := 0
  rprev := 0
  addr := BitVec.ofNat 50 (h % 2 ^ 34 * 2 ^ 16 + off)
  op := 0
  ty := 0
  route := BitVec.ofNat 16 (frameRoute h)
  oseq := 0
  mbz := 0
  data := data
  poison := false

/-- Whether the next number of a pair lies more than 4,095 above an unanswered one (R379, R396). -/
def SendPair.full (x : SendPair) : Bool := x.unanswered.any fun u => decide ((x.next - u.packet.seq).toNat ≥ 4096)

/-- A request of this device that is answered in the same step (log 10): it takes its number and leaves, and leaves again on the port of
its route as often as it is resent before the answer, which is free (R395). The answer acknowledges its flits (R394). -/
def State.sendAnswered (s : State) (p : Packet) : State :=
  let (q, x) := (s.sendPair p).number p
  let n := Config.freeResends s.fresh % (s.fabric.limit.toNat + 1)
  (((s.putPair p (List.replicate (n + 1) q) x).bump).modPort (s.portFor q.route.toNat) fun y =>
    { y with replay := 0, presend := y.presend + BitVec.ofNat 64 n })

/-- Whether an access of a die to some addresses would leave for an endpoint to which no more numbers may be sent yet (R379, R396). -/
def State.windowFull (s : State) (d : Fin 4) (gas : List Nat) : Bool :=
  gas.any fun ga =>
    let stop := s.firstStop d (gaFrame ga)
    stop != s.here && s.fabric.send.any fun x => !x.grp && x.dst.toNat == stop && x.full

/-- The same of a request to a group. -/
def State.groupFull (s : State) (group : Nat) : Bool := s.fabric.send.any fun x => x.grp && x.dst.toNat == group && x.full

/-- The frame that a packet of the migration coordinator or an owner-invalidate names (log 35). -/
def packetFrame (p : Packet) : Nat := p.home.toNat * 2 ^ 34 + p.addr.toNat / 2 ^ 16

/-- Whether the owner-cache entry of a die for a frame is being changed: an owner-invalidate that names it waits until the accesses sent
under it are acknowledged, and those issued meanwhile wait (R338, R349). -/
def State.changing (s : State) (d : Fin 4) (h : Nat) : Bool :=
  s.coord.invs.any fun p => packetFrame p == h && s.dies[d].owners.any fun o => o.1 == h && o.2 == p.src

/-- Whether an access of a die to some addresses may not leave yet: no number for its request (R396), or no settled destination
(R338). -/
def State.mayNotLeave (s : State) (d : Fin 4) (gas : List Nat) : Bool :=
  s.windowFull d gas || gas.any fun ga => s.changing d (gaFrame ga)

/-- Whether a read by an agent of a die that reaches memory must be held: its frame is frozen, and a write of its die is held there, or
the hold queue is full (R342); or it may not leave yet. -/
def State.readHeld (s : State) (d : Fin 4) (gas : List Nat) : Bool :=
  (s.moves.any fun m => (m.held.any (Held.ofDie d) || !s.holdRoomAt m) && gas.any fun ga => gaFrame ga == m.frame) ||
    s.mayNotLeave d gas

/-- The one request that carries a multicast or reducing element to the other members of its group (R388, R393, R397, R398). -/
def State.groupRequest (s : State) (kind group ga : Nat) (data : List Byte) (len : Nat) : State :=
  s.sendAnswered { s.framePacket kind group (gaFrame ga) (ga % 2 ^ 16) data len with
    grp := true, home := BitVec.ofNat 13 group }

/-- What an access asks for in a request: KIND (R389), OP and TYPE, and the operand of an atomic. -/
structure Ask where
  kind : Nat
  op : Nat
  ty : Nat
  data : List Byte

def Ask.load : Ask := ⟨1, 0, 0, []⟩
def Ask.store : Ask := ⟨2, 0, 0, []⟩
/-- A member's part of a multicast store or of a reducing load, which its group's request has carried. -/
def Ask.copy : Ask := ⟨8, 0, 0, []⟩
def Ask.part : Ask := ⟨9, 0, 0, []⟩
/-- Whether it requests a host line owned (R327). -/
def Ask.owns (a : Ask) : Bool := a.kind == 2 || a.kind == 3 || a.kind == 8

/-- An access of this device leaves as a numbered request where its frame's first stop is another endpoint (R337, R375, R379). -/
def State.ownRequest (s : State) (d : Fin 4) (a : Ask) (h : Nat) (gas : List Nat) : State :=
  let stop := s.firstStop d h
  if stop == s.here || a.kind == 8 || a.kind == 9 then s
  else
    let mine := gas.filter (gaFrame · == h)
    let data := if a.kind == 2 then mine.map s.mem.read else a.data
    s.sendAnswered { s.framePacket a.kind stop h (mine.headD 0 % 2 ^ 16) data (if a.kind == 3 then data.length else mine.length) with
      op := BitVec.ofNat 6 a.op, ty := BitVec.ofNat 5 a.ty }

/-- What performing an access of a die of this device does besides (R327, R344, R352, R379): each frame has its request, is redirected
and is sampled, and every host line comes into the cache. -/
def State.noteAccess (s : State) (d : Fin 4) (gas : List Nat) (a : Ask) : State :=
  (((gas.map gaFrame).eraseDups).foldl (fun (s : State) h =>
    ((s.ownRequest d a h gas).redirect d h).sample h s.fabric.fendp) s).touchLines gas a.owns

/-- A store waits at the frozen frame of a move (R342): it stands in the hold queue, and where the frame is frozen at another
endpoint its entry is kept in the device buffer too (R359). -/
def State.holdEntry (s : State) (m : MoveRec) (e : Entry) : State :=
  { s with moves := s.moves.map fun x => if x.frame == m.frame then { x with held := x.held ++ [.entry e] } else x }

/-- The atomics and reads of a stream leave the hold queues: it has given up its wait. -/
def State.freeAtomics (s : State) (l : Loc) (st : Stream) : State :=
  { s with moves := s.moves.map fun x => { x with held := x.held.filter fun h => !h.waitsFor l st } }

/-- The stream in focus waits at the frozen frame of an address with an access, which takes its place in the hold queue once; an atomic
is a write there, which the reads of its die are held behind (R276, R342). With the hold queue full it waits outside. -/
def State.holdAccess (s : State) (ga : Nat) (x : Held) : State :=
  match s.moves.find? (·.frame == gaFrame ga) with
  | none => s
  | some m =>
    if m.held.any (Held.waitsFor s.cur.loc s.stream) || !s.holdRoomAt m then s
    else { s with moves := s.moves.map fun y => if y.frame == m.frame then { y with held := y.held ++ [x] } else y }

/-- Bytes that have been written behind a release of a context tell of it, as long as a store that it covers stands in a buffer (R368). -/
def State.traced (s : State) (gas : List Nat) (l : Loc) (ids : List Nat) : State :=
  match s.standing ids with
  | [] => s
  | ids => { s with trace := gas.map (fun ga => (ga, l, ids)) ++ s.trace }

/-- How a store stands in the hold queue of a move. -/
def Entry.asHeld (e : Entry) (s : State) (m : MoveRec) : Entry := { e with level := 4, sent := m.src.toNat != s.here }

/-- Whether a stream of another die has observed a store (R367): it stays in the device buffer while its frame is frozen here, so that no
agent's loads go backwards (R361). -/
def State.seenAway (s : State) (e : Entry) : Bool :=
  (s.cur :: s.parked).any fun v => v.loc.die != e.loc.die && (v.ep.seen.contains e.id || v.ap.seen.contains e.id)

/-- Whether a store may come into the hold queue of a move (R342). -/
def State.mayHold (s : State) (m : MoveRec) (e : Entry) : Bool := s.holdRoomAt m && !(m.src.toNat == s.here && s.seenAway e)

/-- A store at the end of its path: held while its frame is frozen (R342; it stays in the device buffer where it may not come into the hold
queue), dropped where nobody answers (R395), and performed otherwise. -/
def State.performEntry (s : State) (e : Entry) : State :=
  match e.bytes.head? with
  | none => s
  | some b =>
    let h := gaFrame b.ga
    match s.moves.find? (·.frame == h) with
    | some m =>
      if e.sent || !s.mayHold m e then { s with pend := s.pend ++ [{ e with level := 4 }] }
      else
        let e := e.asHeld s m
        let s := s.holdEntry m e
        if e.sent then { s with pend := s.pend ++ [e] } else s
    | none =>
      if s.mayNotLeave e.loc.die [b.ga] then { s with pend := s.pend ++ [{ e with level := 4 }] }
      else if s.reachable e.loc.die b.ga then
        ((s.performBytes e.bytes e.poison).traced (e.bytes.map (·.ga)) e.loc e.after).noteAccess e.loc.die (e.bytes.map (·.ga))
          (if e.mcast then .copy else .store)
      else s.requestFailed (locNum e.loc) e.pc 2 (s.silent e.loc.die h) (frameRoute h) true

/-- Entries in the order in which they leave their buffers: the outermost first, the oldest first in each (R359). -/
def byLevel (l : List Entry) : List Entry := [4, 3, 2, 1, 0].flatMap fun n => l.filter (·.level == n)

/-- Moves the stores that a path sees to level `n`, oldest first, save those of an open strip; level 5 is the ownership
point (R359). -/
def State.drain (s : State) (p : Path) (n : Nat) : State :=
  let goes (e : Entry) : Bool := p.sees e && !e.strip && decide (e.level < n)
  let out := byLevel (s.pend.filter goes)
  let rest := s.pend.filter fun e => !goes e
  if n ≥ 5 then out.foldl State.performEntry { s with pend := rest }
  else { s with pend := rest ++ out.map fun e => { e with level := n } }

/-- Whether a write is a store of one stream. -/
def Held.ofStream (l : Loc) (st : Stream) : Held → Bool
  | .entry e => e.loc == l && e.stream == st
  | .atomic .. => false
  | .read .. => false
  | .packet _ => false

/-- Whether a write of the stream in focus is held at a frozen frame, and so performed at no scope (R342, R377). -/
def State.ownHeld (s : State) : Bool := s.moves.any fun m => m.held.any (Held.ofStream s.cur.loc s.stream)

/-- Whether a stream of the context in focus has observed a store (R367): its own, and those of others that it has read or acquired. -/
def State.observes (s : State) (st : Stream) (e : Entry) : Bool :=
  (e.loc == s.cur.loc && e.stream == st) || (s.cur.str st).seen.contains e.id

/-- What of the observed set of a stream stands in a buffer or is held. -/
def State.observed (s : State) (st : Stream) : List Nat := ((s.pend ++ s.heldEntries).filter (s.observes st)).map (·.id)

/-- Whether a store of the observed set of a stream does not stand at a level or beyond it (R367). A held write stands at none (R377). -/
def State.outstanding (s : State) (st : Stream) (n : Nat) : Bool :=
  s.heldEntries.any (s.observes st) || s.pend.any fun e => s.observes st e && decide (e.level < n)

/-- A release of the stream in focus that covers some stores is made: its later stores tell of it (R368). -/
def State.markReleased (s : State) (ids : List Nat) : State :=
  if ids.isEmpty && s.str.released.isEmpty then s else s.setStr { s.str with released := ids }

/-- The stream in focus has observed some stores. -/
def State.observe (s : State) (ids : List Nat) : State :=
  match s.standing ids with
  | [] => s
  | ids => s.setStr { s.str with seen := ((s.standing s.str.seen) ++ ids).eraseDups }

/-- The stream in focus accesses bytes: noted while that is asked for (R362). -/
def State.touch (s : State) (gas : List Nat) : State :=
  match s.probe with
  | none => s
  | some l => { s with probe := some (gas ++ l) }

/-- What the stream in focus has bound ahead is bound again: its later loads follow what it has acquired (R367). -/
def State.forget (s : State) : State := if s.str.early.isEmpty then s else s.setStr { s.str with early := [] }

/-- The stream in focus writes bytes: a load that follows takes its value from that write or a later one (R362). -/
def State.writes (s : State) (gas : List Nat) : State :=
  let s := s.touch gas
  if s.str.early.isEmpty then s else s.setStr { s.str with early := s.str.early.filter fun x => !gas.contains x.ga }

/-- Whether an issuer lies within a scope of a context (R368). -/
def inScope (sc : Scope) (me x : Loc) : Bool :=
  match sc with
  | .context => me == x
  | .core => me.coreId == x.coreId
  | .die => me.die == x.die
  | .device | .fabric => true

/-- An acquire of the stream in focus at a scope, which names the reads from the `n`-th of those that told of a release (R367, R368). -/
def State.acquire (s : State) (sc : Scope) (n : Nat) : State :=
  let s := s.forget
  let named := (s.str.near.drop n).filter fun x => inScope sc s.cur.loc x.1
  if named.isEmpty then s
  else
    let s := s.observe (named.flatMap (·.2))
    s.setStr { s.str with near := s.str.near.take n ++ (s.str.near.drop n).filter fun x => !inScope sc s.cur.loc x.1 }

/-- The level of a scope (R358). -/
def scopeLevel : Scope → Nat
  | .context => 1
  | .core => 2
  | .die => 3
  | .device => 4
  | .fabric => 5

/-- Closes the open strip: its stores may move outward, and the checkpoint is dropped (R364, R365, R433). -/
def State.closeStrip (s : State) : State :=
  { s with
    pend := s.pend.map fun e => if e.loc == s.cur.loc then { e with strip := false } else e
    cur := { s.cur with strip := ⟨false, none, false, 0⟩ } }

/-- Disarms the open strip of the context: it keeps buffering, and can no longer be rewound (R434). -/
def State.disarm (s : State) : State :=
  match s.cur.strip.armed with
  | some _ =>
    (s.modVlc fun v => { v with strip := { v.strip with armed := none } }).modCnt fun c => { c with disarm := c.disarm + 1 }
  | none => s

/-- A release at a scope by the stream in focus as a closing event (R365): one of the EP at `core` or wider closes the strip, also
where the release itself must wait. -/
def State.closing (s : State) (sc : Scope) : State := if s.stream == .ep && sc != .context then s.closeStrip else s

/-- A release of the stream in focus at a scope (R365, R367): its path moves outward, and it is satisfied once its observed set stands at
the scope; none while it must wait. -/
def State.release (s : State) (sc : Scope) : Option State :=
  let s := s.closing sc
  let s := s.drain s.path (scopeLevel sc)
  if s.outstanding s.stream (scopeLevel sc) then none else some (s.markReleased (s.observed s.stream))

/-- A release at device scope of every earlier access of the context, by either stream (R293, R294). -/
def State.releaseVlc (s : State) : Option State :=
  let s := s.closing .device
  let s := (s.drain ⟨s.cur.loc, some .ep, 0⟩ 4).drain ⟨s.cur.loc, some .ap, 0⟩ 4
  if s.outstanding .ep 4 || s.outstanding .ap 4 || !s.cur.flights.isEmpty then none else some (s.markReleased (s.observed .ep ++ s.observed .ap))

/-- Whether two entries have a byte in common. -/
def Entry.overlaps (a b : Entry) : Bool := a.bytes.any fun x => b.covers x.ga

/-- Of some entries in order, oldest first, those that a release at `context` scope moves (R366): all but the stores of instructions
of the EP with OVT = 1, which go only ahead of a younger one that overlaps them (R359). -/
def notOvertaken : List Entry → List Entry
  | [] => []
  | e :: rest =>
    let out := notOvertaken rest
    if !e.ovt || out.any e.overlaps then e :: out else out

/-- Whether a release at `context` scope of a stream covers a store (R366): the EP leaves out those of its instructions with OVT = 1. -/
def State.covers (s : State) (st : Stream) (e : Entry) : Bool :=
  s.observes st e && !(st == .ep && e.ovt && e.loc == s.cur.loc)

/-- Whether a write that a release at `context` scope of the stream in focus covers is held at a frozen frame. -/
def State.boundHeld (s : State) : Bool := s.heldEntries.any (s.covers s.stream)

/-- The release at `context` scope of a stream of the context, by `apfork` or a push into Q0 to Q12: its stores at level 0 move to
level 1 (R283, R366, R370). -/
def State.moveToContext (s : State) (st : Stream) : State :=
  let goes (e : Entry) : Bool := e.level == 0 && (⟨s.cur.loc, some st, 0⟩ : Path).sees e && !e.strip
  let out := notOvertaken (s.pend.filter goes)
  { s with pend := s.pend.filter (fun e => !out.contains e) ++ out.map fun e => { e with level := 1 } }

/-- The release of a push into Q0 to Q12 (R283, R366): none while a write that it covers is held. -/
def State.releasePush (s : State) : Option State := if s.boundHeld then none else some (s.moveToContext s.stream)

/-- What a push or post that comes to a place of a queue or FIFO has released, for the stream that takes it (R366, R371). -/
def State.notePosted (s : State) (line place : Nat) (ids : List Nat) : State :=
  match s.standing ids with
  | [] => s
  | ids => s.modVlc fun v => { v with posted := v.posted ++ [⟨line, place, ids⟩] }

/-- A push of the stream in focus (R366): what its release covers comes to the end of the queue. -/
def State.notePush (s : State) (q place : Nat) : State :=
  s.notePosted q place (((s.pend ++ s.heldEntries).filter (s.covers s.stream)).map (·.id))

/-- What the entry or token at a place brings. -/
def Vlc.brings (v : Vlc) (line place : Nat) : List Nat :=
  (v.posted.find? fun p => p.line == line && p.place == place).elim [] (·.ids)

/-- The entry or token at the head is gone: the others come one place nearer. -/
def State.shiftPosted (s : State) (line : Nat) : State :=
  if s.cur.posted.isEmpty then s
  else s.modVlc fun v => { v with posted := (v.posted.filter fun p => !(p.line == line && p.place == 0)).map fun p =>
    if p.line == line then { p with place := p.place - 1 } else p }

/-- A pop acquires what the push of its entry released (R283, R366, R370). -/
def State.takePosted (s : State) (line : Nat) : State := (s.forget.observe (s.cur.brings line 0)).shiftPosted line

/-! ## Strips (R364, R365) -/

/-- Bytes held in the strip store buffer of the context in focus. -/
def State.stripBytes (s : State) : Nat :=
  (s.pend.filter fun e => e.strip && e.loc == s.cur.loc).foldl (fun n e => n + e.bytes.length) 0

/-- The stores of the stream in focus that stand at level 0 move to level 1, oldest first (R361). -/
def State.moveOut (s : State) : State :=
  let goes (e : Entry) : Bool := e.level == 0 && s.path.sees e
  { s with pend := s.pend.filter (fun e => !goes e) ++ (s.pend.filter goes).map fun e => { e with level := 1 } }

/-- One store of the stream in focus enters its path: an EP vector store the strip store buffer of an open strip, a store
that overlaps an entry held there likewise, any other level 0 (R359, R364). The first store that does not fit closes the
strip early (R365). Older stores of its own that stand inside the strip store buffer and overlap it move out ahead of it (R361,
R362). -/
def State.storeEntry (s : State) (vector : Bool) (bs : List MByte) : State :=
  if bs.isEmpty then s
  else
    let s := s.writes (bs.map (·.ga))
    let overlaps := s.pend.any fun e => e.strip && e.loc == s.cur.loc && bs.any fun b => e.covers b.ga
    let strip := s.cur.strip.isOpen && ((vector && s.stream == .ep) || overlaps)
    if strip && decide (s.stripBytes + bs.length > 65536) then
      let s := s.closeStrip.modCnt fun c => { c with ssbovf := c.ssbovf + 1 }
      ({ s with pend := s.pend ++ [s.newEntry 0 bs] } : State).bump
    else if strip then
      let inner := s.pend.any fun e => e.level == 0 && s.path.sees e && bs.any fun b => e.covers b.ga
      let s := if inner then s.moveOut else s
      ({ s with pend := s.pend ++ [{ s.newEntry 1 bs with strip := true }] } : State).bump
    else ({ s with pend := s.pend ++ [s.newEntry 0 bs] } : State).bump

/-! ## Physical frames, errors and injections (R353 to R356, R445 to R447) -/

/-- FRAME, SPARE and INPLACE of a bad-frame entry (R355). -/
def badFrame (e : Word) : Nat := bitsAt e.toNat 15 34
def badSpare (e : Word) : Option Nat := if e.getLsbD 59 then none else some (bitsAt e.toNat 49 10)

/-- The local frame of a spare (R324, R354). -/
def spareFrame (n : Nat) : Nat := n / 256 * 2 ^ 20 + 0xFFF00 + n % 256

/-- The spare that a local frame has been remapped to (R353). -/
def State.spareOf (s : State) (f : Nat) : Option Nat := (s.flash.badFrames.find? fun e => badFrame e == f).bind badSpare

/-- The local frame whose data a spare holds. -/
def State.spareHolds (s : State) (f : Nat) : Option Nat :=
  (s.flash.badFrames.find? fun e => (badSpare e).map spareFrame == some f).map badFrame

/-- The same after the remap of a retired frame (R353). -/
def State.physOf (s : State) (ga : Nat) : Option Nat :=
  (s.localOf ga).map fun l => match s.spareOf (l / 2 ^ 16) with
    | some n => spareFrame n * 2 ^ 16 + l % 2 ^ 16
    | none => l

/-- The frame whose data a physical frame of this device holds (R340, R353): none for one that a spare stands for. -/
def State.hosted (s : State) (p : Nat) : Option Nat :=
  if (s.spareOf p).isSome then none
  else
    let f := (s.spareHolds p).getD p
    match s.dies.toList.findSome? fun d => d.visitors.find? (·.2 == f) with
    | some v => some v.1
    | none =>
      let h := s.here * 2 ^ 34 + f
      if s.ownerOf h == s.here && regionOf (f * 2 ^ 16) != .hole then some h else none

/-- The die of a local address of DRAM, its spare frames among it, or of the Commons, and whether it is DRAM. -/
def localDie (l : Nat) : Option (Fin 4 × Bool) :=
  match regionOf l with
  | .dram d => some (d, true)
  | .commons d => some (d, false)
  | _ => if l < 0x4000000000 then some (⟨l / 0x1000000000 % 4, Nat.mod_lt _ (by decide)⟩, true) else none

/-- A host physical address as a global address of this device, under an HDM range (R331). -/
def State.hostViewIn (s : State) (hdm : Option (Nat × Nat)) (x : Nat) : Option Nat :=
  match hdm.filter fun h => decide (h.1 ≤ x ∧ x < h.1 + h.2) with
  | some (b, _) => some (s.gaOf (x - b))
  | none => if x < 2 ^ 48 then some (s.gaOf (0x2000000000000 + x)) else none

/-- The same under the range in force. -/
def State.hostView (s : State) (x : Nat) : Option Nat := s.hostViewIn s.host.hdm x

/-- Removes every TLB entry that `p` picks, on the whole device (R334). -/
def State.dropTlb (s : State) (p : TlbEntry → Bool) : State :=
  { s with
    cores := s.cores.map fun c => { c with tlb := c.tlb.filter fun e => !p e }
    dies := s.dies.map fun d => { d with tlb := d.tlb.filter fun e => !p e } }

/-- Whether a leaf names a frame (R331, R334). -/
def State.names (s : State) (e : TlbEntry) (h : Nat) : Bool :=
  let lo : Option Nat := if e.fabric then some (h * 2 ^ 16)
    else if h / 2 ^ 34 == s.here then e.hdm.map fun x => x.1 + h % 2 ^ 34 * 2 ^ 16 else none
  lo.elim false fun x => decide (e.base < x + 2 ^ 16 ∧ x < e.base + 2 ^ e.lgSize)

/-- The global addresses of the lines of a frame. -/
def frameLines (h : Nat) : List Nat := (List.range 1024).map fun k => h * 2 ^ 16 + 64 * k

/-- Counts a corrected error at a local address (R445): the counter of its die, and the frame's count. -/
def State.countCorrected (s : State) (l : Nat) : State :=
  match localDie l with
  | none => s
  | some (d, true) =>
    let f := l / 2 ^ 16
    let old := (s.coord.ceCounts.find? (·.1 == f)).elim 0 (·.2)
    { s.modDie d fun x => { x with dramce := x.dramce + 1 } with
      coord := { s.coord with ceCounts := (f, old + 1) :: s.coord.ceCounts.filter (·.1 != f) } }
  | some (d, false) => s.modDie d fun x => { x with comce := x.comce + 1 }

/-- An uncorrectable error of the line at local address `l`, which holds `ga` where it holds data: the mark, the count and log
kind 4 (R446). -/
def State.markUncorrectable (s : State) (ga : Option Nat) (l : Nat) : State :=
  match localDie l with
  | none => s
  | some (d, dram) =>
    let s := match ga with | some ga => { s with poison := insertNat (gaLine ga) s.poison } | none => s
    let s := s.modDie d fun x => if dram then { x with dramue := x.dramue + 1 } else { x with comue := x.comue + 1 }
    s.logEvent 4 (d.val * 64) 0 (BitVec.ofNat 64 l) (if dram then 0 else 1) (BitVec.ofNat 64 (l / 64 * 64))

/-- The core whose armed injection names the line that holds a byte, if any (R298, R447). -/
def State.injector (s : State) (ga : Nat) : Option (CoreId × Nat) :=
  match s.localOf ga with
  | none => none
  | some l => (List.finRange 48).findSome? fun k =>
    let c := s.cores[k]
    if c.injb.getLsbD 0 && gaLine c.inja.toNat == gaLine l && (match regionOf l with | .dram _ | .commons _ => true | _ => false) then
      some (⟨⟨k.val / 12, by omega⟩, ⟨k.val % 12, Nat.mod_lt _ (by decide)⟩⟩, l)
    else none

/-- An armed injection acts on a read of its line that reaches memory (R447); `corrected` is what a corrected error does. -/
def State.fireWith (corrected : State → Nat → State) (s : State) (ga : Nat) : State :=
  match s.injector ga with
  | some (c, l) =>
    let core := s.cores[c.index]
    let kind := (core.injb >>> 1).toNat
    let at_ := (s.physOf ga).getD l
    let s := match kind with
      | 0 => corrected s at_
      | 1 => s.markUncorrectable (some ga) at_
      | _ => { s with poison := insertNat (gaLine ga) s.poison }
    let s := s.logEvent 12 (c.die.val * 64 + c.core.val * 4) 0 (BitVec.ofNat 64 l) (core.injb.setWidth 64)
      (core.inja.setWidth 64)
    s.modCoreAt c fun x => { x with injb := x.injb &&& 0xE }
  | none => s

/-- Whether an injection is armed on any core. -/
def State.injects (s : State) : Bool := s.cores.toList.any fun c => c.injb.getLsbD 0

/-- The copy of a retired frame's data reads every line of it, which an injection may act on (R298, R353, R447). -/
def State.copyLines (s : State) (h : Nat) : State :=
  if s.injects then (frameLines h).foldl (State.fireWith State.countCorrected) s else s

/-- Retires a physical frame with a CAUSE (R353 to R356), as one step: the copy to the spare, which reads every line of data that it hosts
(R298), its entry, the counter, log kind 5, and the TLB entries that name what it holds, or that name it where it is a home frame whose
data is away. A frame that has an entry already, or a spare, is not retired again (R354), and with a full list nothing is retired (log
kind 6). The data stays at its global address. -/
def State.retire (s : State) (f cause : Nat) : State :=
  match regionOf (f * 2 ^ 16) with
  | .dram d =>
    if s.flash.badFrames.any fun e => badFrame e == f then s
    else if s.flash.badFrames.length ≥ 1024 then s.logEvent 6 (d.val * 64) 0 (BitVec.ofNat 64 (f * 2 ^ 16)) 0 (BitVec.ofNat 64 f)
    else
      let spare := ((List.range 256).map (256 * d.val + ·)).find? fun n => s.flash.badFrames.all fun e => badSpare e != some n
      let entry : Word := BitVec.ofNat 64 (2 ^ 63 + cause * 2 ^ 60 + f * 2 ^ 15 + spare.elim (2 ^ 59) (· * 2 ^ 49))
      let s := match spare, s.hosted f with
        | some _, some h => (s.copyLines h).dropTlb (s.names · h)
        | some _, none => s.dropTlb (s.names · (s.here * 2 ^ 34 + f))
        | none, _ => s
      let s := { s with flash := { s.flash with badFrames := s.flash.badFrames ++ [entry] } }
      let s := s.modDie d fun x => { x with retired := x.retired + 1 }
      s.logEvent 5 (d.val * 64) 0 (BitVec.ofNat 64 (f * 2 ^ 16)) (BitVec.ofNat 64 cause) entry
  | _ => s

/-- Whether a physical frame is under a move, which a retirement waits for (R350). -/
def State.moving (s : State) (f : Nat) : Bool :=
  match s.hosted f with
  | some h => s.moves.any (·.frame == h)
  | none => false

/-- Retires a frame, or leaves it to the end of the move that it is under (R350). -/
def State.retireDue (s : State) (f cause : Nat) : State :=
  if s.moving f then
    if s.coord.due.any (·.1 == f) then s else { s with coord := { s.coord with due := s.coord.due ++ [(f, cause)] } }
  else s.retire f cause

/-- A corrected error at a local address: it is counted, and its frame retired where the count reaches the threshold (R353, R445). -/
def State.correctedError (s : State) (l : Nat) : State :=
  let t := s.countCorrected l
  let count := (t.coord.ceCounts.find? (·.1 == l / 2 ^ 16)).elim 0 (·.2)
  if (localDie l).elim false (·.2) && decide (count ≥ s.coord.threshold.toNat) then t.retireDue (l / 2 ^ 16) 0 else t

/-- An armed injection acts on a read of its line that reaches memory (R447). -/
def State.fireInjection (s : State) (ga : Nat) : State := s.fireWith State.correctedError ga

/-- The injections that a read of bytes that reaches memory sets off. -/
def State.fireInjections (s : State) (gas : List Nat) : State :=
  if s.injects then gas.foldl (fun s ga => s.fireInjection ga) s else s

/-! ## Translation (R330 to R336) -/

inductive Acc where
  | read
  | write
  | fetch
deriving DecidableEq, Repr

/-- A fault of one byte: an access fault, or a page fault with its table-walk class and level (R336, R414). `held` marks none of
these but a translation that must wait for a held write of its die to a page-table node (R342). -/
structure Flt where
  access : Bool
  tw : Bool
  level : Nat
  va : Word
  held : Bool
deriving DecidableEq, Repr

def Flt.accessAt (va : Word) : Flt := ⟨true, false, 0, va, false⟩
def Flt.pageAt (va : Word) : Flt := ⟨false, false, 0, va, false⟩

/-- How a page-table node was read. -/
inductive NodeRead where
  | value (raw : Nat)
  | failed
  | held
deriving DecidableEq, Repr

/-- A page-table node, read as an 8-byte load at device scope (R336): it fails where its address is not decoded or reserved, where
nobody answers, and where it comes poisoned. -/
def State.readNode (s : State) (l : Loc) (x : Nat) : NodeRead × State :=
  match s.hostView x with
  | none => (.failed, s)
  | some ga =>
    let gas := (List.range 8).map (ga + ·)
    if s.gaFaults ga then (.failed, s)
    else if s.readHeld l.die gas then (.held, s)
    else
      let s := s.fireInjections gas
      if s.poison.contains (gaLine ga) then (.failed, s)
      else if !s.reachable l.die ga then
        (.failed, s.requestFailed (locNum l) 0 1 (s.silent l.die (gaFrame ga)) (gaRoute ga) false)
      else (.value (leNat (gas.map fun ga => s.byteOn ⟨l, none, 4⟩ ga)), s.noteAccess l.die gas .load)

/-- The bits of a page-table entry that a leaf's permissions come from. -/
structure Pte where
  raw : Nat
deriving DecidableEq, Repr
def Pte.bit (p : Pte) (k : Nat) : Bool := (p.raw >>> k) % 2 == 1
def Pte.ppn (p : Pte) : Nat := (p.raw >>> 10) % 2 ^ 44

/-- The spares that stand for frames of this device that a leaf names (R332, R354). -/
def State.remapsIn (s : State) (e : TlbEntry) : List (Nat × Nat) :=
  s.flash.badFrames.filterMap fun b =>
    (badSpare b).bind fun n => if s.names e (s.here * 2 ^ 34 + badFrame b) then some (badFrame b, n) else none

/-- The leaf of a page-table entry at a level, before its permissions are looked at (R330, R331). -/
def State.leafOf (s : State) (asid : BitVec 16) (root : BitVec 44) (va : Word) (level : Nat) (p : Pte) : Option TlbEntry :=
  let pbmt := (p.raw >>> 61) % 4
  let hi := (p.raw >>> 54) % 128
  let lg := 12 + 9 * level
  if p.bit 63 || !p.bit 6 || p.ppn % 2 ^ (9 * level) != 0 || (pbmt != 3 && hi != 0) then none
  else
    let base := if pbmt == 3 then hi * 2 ^ 56 + p.ppn * 4096 else p.ppn * 4096
    let e : TlbEntry := ⟨asid, root, va.toNat / 2 ^ lg * 2 ^ lg, lg, pbmt == 3, base, s.host.hdm, [], p.bit 1, p.bit 2, p.bit 3,
      p.bit 4, p.bit 7⟩
    some { e with remap := s.remapsIn e }

/-- The Sv57 walk from the node at `base`, `level` 4 to 0 (R330, R331): the leaf, and whether it may be cached, which it may not
where a node lies in a frame that is being castled (R336). A non-leaf entry has D, A and U clear, as Sv57 demands. -/
def State.walk (s : State) (l : Loc) (asid : BitVec 16) (root : BitVec 44) (va : Word) (keep : Bool) :
    Nat → Nat → Except Flt (TlbEntry × Bool) × State
  | level, base =>
    let x := base + 8 * ((va.toNat >>> (12 + 9 * level)) % 512)
    let bad : Except Flt (TlbEntry × Bool) := .error (.pageAt va)
    let keep := keep && !((s.hostView x).elim false fun ga => s.moves.any (·.frame == gaFrame ga))
    match s.readNode l x with
    | (.held, s) => (.error ⟨false, false, 0, va, true⟩, s)
    | (.failed, s) => (.error ⟨false, true, level, va, false⟩, s)
    | (.value raw, s) =>
      let p : Pte := ⟨raw⟩
      if !p.bit 0 || (!p.bit 1 && p.bit 2) then (bad, s)
      else if p.bit 1 || p.bit 3 then
        match s.leafOf asid root va level p with
        | some e => (.ok (e, keep), s)
        | none => (bad, s)
      else if (raw >>> 54) != 0 || p.bit 4 || p.bit 6 || p.bit 7 then (bad, s)
      else match level with
        | 0 => (bad, s)
        | n + 1 => State.walk s l asid root va keep n (p.ppn * 4096)

/-- Whether a leaf lets an access through (R330). -/
def TlbEntry.allows (e : TlbEntry) (acc : Acc) (sys : Bool) : Bool :=
  (sys || e.u) && match acc with
    | .read => e.r
    | .write => e.w && e.d
    | .fetch => e.x

def TlbEntry.hits (e : TlbEntry) (asid : BitVec 16) (root : BitVec 44) (va : Word) : Bool :=
  e.asid == asid && e.root == root && e.va == va.toNat / 2 ^ e.lgSize * 2 ^ e.lgSize

/-- The global address of byte `off` of a leaf (R331, R332): the host view is decided address by address, so that a leaf may reach across
an edge of the HDM range that was in force when it was read. -/
def State.leafAddr (s : State) (e : TlbEntry) (off : Nat) : Option Nat :=
  if e.fabric then some (e.base + off) else s.hostViewIn e.hdm (e.base + off)

/-- Puts an entry first in a TLB of `n` entries, which drops the least recently used (R332; log 18). -/
def touchTlb (n : Nat) (t : List TlbEntry) (e : TlbEntry) : List TlbEntry :=
  (e :: t.filter fun x => !(x == e)).take n

/-- A leaf comes into both TLBs of a core (R332). -/
def State.fillTlbs (s : State) (l : Loc) (e : TlbEntry) : State :=
  (s.modCoreAt l.coreId fun c => { c with tlb := touchTlb 128 c.tlb e }).modDie l.die fun d =>
    { d with tlb := touchTlb 8192 d.tlb e }

/-- The leaf of an address: that of a TLB, or the walk's, and whether it may be cached. -/
def State.findLeaf (s : State) (l : Loc) (atp : Word) (asid : BitVec 16) (va : Word) : Except Flt (TlbEntry × Bool) × State :=
  let root : BitVec 44 := atp.setWidth 44
  match s.cores[l.coreId.index].tlb.find? (·.hits asid root va) with
  | some e => (.ok (e, true), s)
  | none => match s.dies[l.die].tlb.find? (·.hits asid root va) with
    | some e => (.ok (e, true), s)
    | none => s.walk l asid root va true 4 (root.toNat * 4096)

/-- Translates one address under an ATP and ASID for an agent of a core, and fills the TLBs (R330 to R332): a page fault comes
before an access fault (R415). In bare mode the address is the global address (log 8). -/
def State.translate (s : State) (l : Loc) (atp : Word) (asid : BitVec 16) (sys : Bool) (acc : Acc) (va : Word) :
    Except Flt Nat × State :=
  if (atp >>> 60) == 0 then
    let ga := va.toNat % 2 ^ 63
    (if s.gaFaults ga then .error (.accessAt va) else .ok ga, s)
  else
    let canonical := (va.toNat >>> 56) == 0 || (va.toNat >>> 56) == 255
    if !canonical then (.error (.pageAt va), s)
    else match s.findLeaf l atp asid va with
      | (.error f, s) => (.error f, s)
      | (.ok (e, keep), s) =>
        let s := if keep then s.fillTlbs l e else s
        if !e.allows acc sys then (.error (.pageAt va), s)
        else match s.leafAddr e (va.toNat - e.va) with
          | none => (.error (.accessAt va), s)
          | some ga => (if s.gaFaults ga then .error (.accessAt va) else .ok ga, s)

/-- The stream in focus marked as one whose access must wait at memory (R342): the step that finds the mark ends in the wait. -/
def State.markHeld (s : State) (w : Wait) : State := s.setStr { s.str with wait := some w }

/-- How an access waits at memory (R422). -/
def Acc.wait (acc : Acc) (va : Word) : Wait :=
  match acc with
  | .write => .store va
  | .read | .fetch => .load va

/-- `xlate` of R41 for the stream in focus. -/
def State.xlate (s : State) (acc : Acc) (va : Word) : Except Flt Nat × State :=
  match s.translate s.cur.loc s.cur.ctl.atp s.cur.ctl.asid s.cur.ctl.sys acc va with
  | (.error f, s) => (.error f, if f.held then s.markHeld (acc.wait va) else s)
  | (.ok ga, s) => (.ok ga, s)

/-- A translation under given tables, with its state. -/
abbrev Xlate := State → Word → Except Flt Nat × State

/-- Translates `n` consecutive bytes, each page once; the fault is that of the lowest faulting byte. -/
def xlateBytes (x : Xlate) : Nat → Word → Option (Nat × Nat) → State → Except Flt (List Nat) × State
  | 0, _, _, s => (.ok [], s)
  | n + 1, va, known, s =>
    let page := va.toNat / 4096
    let (r, s) : Except Flt Nat × State := match known with
      | some (p, g) => if p == page then (.ok (g + va.toNat % 4096), s) else x s va
      | none => x s va
    match r with
    | .error f => (.error f, s)
    | .ok ga =>
      if s.gaFaults ga then (.error (.accessAt va), s)
      else
        let (r, s) := xlateBytes x n (va + 1) (some (page, ga - va.toNat % 4096)) s
        match r with
        | .error f => (.error f, s)
        | .ok rest => (.ok (ga :: rest), s)

/-- A row of memory or a run of elements: `n` bytes, with the fault of the lowest byte. -/
def State.xlateRow (s : State) (acc : Acc) (va : Word) (n : Nat) : Except Flt (List Nat) × State :=
  xlateBytes (fun s va => s.xlate acc va) n va none s

/-- One element of `n` bytes: a page fault of its last page comes before an access fault of its first (R415). -/
def State.xlateN (s : State) (acc : Acc) (va : Word) (n : Nat) : Except Flt (List Nat) × State :=
  match s.xlateRow acc va n with
  | (.error f, s) =>
    let last := (va + BitVec.ofNat 64 (n - 1)) &&& ~~~(0xFFF : Word)
    if !f.access || f.va.toNat / 4096 == last.toNat / 4096 then (.error f, s)
    else match s.xlate acc last with
      | (.error g, s) => (.error (if g.access then f else g), s)
      | (.ok _, s) => (.error f, s)
  | r => r

/-! ## Reads of memory (R360, R432) -/

/-- What a read of bytes brings: the bytes, whether they come marked poisoned, whether nobody answered, and whether the read has
to be held (R342), in which case it brings nothing. -/
structure ReadRes where
  bytes : List Byte
  poison : Bool
  absent : Bool
  held : Bool
deriving DecidableEq, Repr

/-- Reads bytes on a path (R360), by a load or by an atomic that takes the old value. A read that a buffer does not answer whole reaches
memory, where an injection may act before the bytes are taken; the record of a request that nobody answered is written after, and only
what has been performed is redirected or sampled (R344). -/
def State.readAs (s : State) (a : Ask) (p : Path) (gas : List Nat) : ReadRes × State :=
  let toMem := gas.filter fun ga => !(s.pend.any fun e => p.sees e && e.covers ga)
  if s.readHeld p.loc.die toMem then (⟨gas.map fun _ => 0, false, false, true⟩, s)
  else
    let s := s.fireInjections toMem
    let gone (ga : Nat) : Bool := !s.reachable p.loc.die ga
    let res : ReadRes := ⟨gas.map fun ga => s.byteOn p ga, gas.any (s.poisonOn p), toMem.any gone, false⟩
    let s := match toMem.find? gone with
      | some ga => s.requestFailed (locNum p.loc) (if p.stream.isSome then s.pc else 0) 1 (s.silent p.loc.die (gaFrame ga))
          (gaRoute ga) false
      | none => s
    (res, s.noteAccess p.loc.die (toMem.filter fun ga => !gone ga) a)

/-- A read of bytes on a path. -/
def State.readBytes (s : State) (p : Path) (gas : List Nat) : ReadRes × State := s.readAs .load p gas

/-- What a read of bytes on a path by the stream in focus observes: the stores of others that they come from, and what these tell of
releases, by issuer (R367, R368). With no store on its way there is nothing to observe. -/
def State.seenOn (s : State) (p : Path) (gas : List Nat) : List Nat × List (Loc × List Nat) :=
  if s.pend.isEmpty && s.moves.isEmpty then ([], [])
  else
    let others := (gas.filterMap (s.topEntry p)).filter fun e => !(e.loc == s.cur.loc && e.stream == s.stream)
    let told := others.map (fun e => (e.loc, e.after)) ++
      (s.trace.filter fun t => gas.contains t.1 && (s.topEntry p t.1).isNone).map (·.2)
    (others.map (·.id), told)

/-- The stream in focus has observed some stores, and what these tell of releases is at hand for an acquire. -/
def State.noteTold (s : State) (x : List Nat × List (Loc × List Nat)) : State :=
  let told := (x.2.map fun y => (y.1, s.standing y.2)).filter fun y => !y.2.isEmpty
  let s := s.observe x.1
  if told.isEmpty then s else s.setStr { s.str with near := s.str.near ++ told }

/-- The stream in focus has read bytes on a path. -/
def State.noteSeen (s : State) (p : Path) (gas : List Nat) : State := s.noteTold (s.seenOn p gas)

/-- A load of bytes on a path by the stream in focus (R360, R362): those that it has bound ahead are at hand, the others bind now. -/
def State.readOwn (s : State) (a : Ask) (p : Path) (gas : List Nat) : ReadRes × State :=
  let s := s.touch gas
  let mine := s.str.early.filter fun x => x.level == p.level && gas.contains x.ga
  if mine.isEmpty then
    let (r, s) := s.readAs a p gas
    (r, if r.held then s else s.noteSeen p gas)
  else
    let rest := gas.filter fun ga => mine.all (·.ga != ga)
    let (r, s) : ReadRes × State := if rest.isEmpty then (⟨[], false, false, false⟩, s) else s.readAs a p rest
    if r.held then (⟨gas.map fun _ => 0, false, false, true⟩, s)
    else
      let one (ga : Nat) : Byte := match mine.find? (·.ga == ga) with
        | some x => x.byte
        | none => r.bytes.getD (rest.idxOf ga) 0
      let s := (s.noteSeen p rest).noteTold (mine.flatMap (·.ids), mine.flatMap (·.told))
      (⟨gas.map one, r.poison || mine.any (·.poison), r.absent, false⟩,
        s.setStr { s.str with early := s.str.early.filter fun x => !mine.contains x })

/-- The stream in focus binds a byte ahead of a load to come (R362, R363), or a member's byte at its ownership point (R374), where that is
there and can be read. -/
def State.bindAhead (s : State) (member : Bool) (ga : Nat) : State :=
  let p : Path := ⟨s.cur.loc, some s.stream, if member then 5 else 0⟩
  if s.gaFaults ga || !s.reachable s.cur.loc.die ga || s.str.early.any fun x => x.level == p.level && x.ga == ga then s
  else
    let (r, t) := s.readAs (if member then .part else .load) p [ga]
    if r.held then s
    else
      let seen := t.seenOn p [ga]
      t.setStr { t.str with early := t.str.early ++ [⟨ga, p.level, r.bytes.headD 0, r.poison, seen.1, seen.2⟩] }

/-- A translated load of `n` bytes by the stream in focus. -/
def State.load (s : State) (va : Word) (n : Nat) : Except Flt ReadRes × State :=
  match s.xlateN .read va n with
  | (.error f, s) => (.error f, s)
  | (.ok gas, s) =>
    let (r, s) := s.readOwn .load s.path gas
    (.ok r, if r.held then s.markHeld (.load va) else s)

def mbytes (gas : List Nat) (bs : List Byte) : List MByte := List.zipWith (fun g b => ⟨g, b, 0xFF⟩) gas bs

/-- A translated store of bytes by the stream in focus: an aligned access of at most 8 bytes is one entry, any other one
entry per byte (R128, R179). -/
def State.storeAt (s : State) (vector : Bool) (va : Word) (bs : List Byte) : Except Flt State × State :=
  match s.xlateN .write va bs.length with
  | (.error f, s) => (.error f, s)
  | (.ok gas, s) =>
    let ms := mbytes gas bs
    if va.toNat % bs.length == 0 then (.ok (s.storeEntry vector ms), s)
    else (.ok (ms.foldl (fun s m => s.storeEntry vector [m]) s), s)

/-- Whether a bare store can be made, then the store itself: a fault performs nothing. -/
def State.store (s : State) (vector : Bool) (va : Word) (bs : List Byte) : Except Flt Unit × State :=
  match s.storeAt vector va bs with
  | (.ok s', _) => (.ok (), s')
  | (.error f, s') => (.error f, s')

/-! ## Traps (R413 to R417) -/

/-- Cause codes (R414). -/
def causeIllegal : Nat := 1
def causePrivilege : Nat := 2
def causeHandle : Nat := 3
def causeFetch : Nat := 4
def causeMisaligned : Nat := 5
def causePage : Nat := 6
def causeAccess : Nat := 7
def causeStoreFull : Nat := 8
def causeSoftware : Nat := 9
def causeMigration : Nat := 10
def causeFlagFall : Nat := 11

/-- A trap to be taken: cause, EVAL and INFO. -/
structure TrapReq where
  code : Nat
  val : Word
  info : BitVec 24
deriving DecidableEq, Repr

/-- INFO[1:0] of R414. -/
def accCode : Acc → Nat
  | .write => 1
  | _ => 0

/-- The trap of a data fault (R414). -/
def Flt.trap (f : Flt) (acc : Acc) : TrapReq :=
  if f.access then ⟨causeAccess, f.va, BitVec.ofNat 24 (accCode acc)⟩
  else ⟨causePage, f.va, BitVec.ofNat 24 (accCode acc + (if f.tw then 4 else 0) + 8 * f.level)⟩

/-- The trap of an instruction-fetch fault (R414). -/
def Flt.fetchTrap (f : Flt) : TrapReq :=
  ⟨causeFetch, f.va, BitVec.ofNat 24 ((if f.tw then 4 else 0) + 8 * f.level + (if f.access then 64 else 0))⟩

def streamBit : Stream → Nat
  | .ep => 0
  | .ap => 1

/-- ECAUSE as trap entry writes it (R413). -/
def ecauseOf (t : TrapReq) (psys : Bool) (st : Stream) : Word :=
  BitVec.ofNat 64 (t.info.toNat * 2 ^ 16 + (if psys then 2 ^ 15 else 0) + streamBit st * 2 ^ 14 + t.code)

/-- A request leaves; its queue leaves its list when none of its requests waits. -/
def Arbiter.leave (a : Arbiter) (l : Loc) : Arbiter :=
  let w := a.waiting.filter (·.loc != l)
  { a with waiting := w, order := a.order.filter fun q => w.any (·.queue == q) }

/-- The context in focus gives up what it waits for: a grant or tenure (R421, R423). -/
def State.leaveWaits (s : State) : State :=
  s.modCore fun c => { c with arb := c.arb.leave s.cur.loc, tenureQueue := c.tenureQueue.filter (· != .vlc s.cur.loc) }

/-- The moves that a stream waits for are nobody's any more. -/
def State.freeMoves (s : State) (l : Loc) (st : Stream) : State :=
  let free (a : Asker) : Asker := match a with
    | .pgmove x y _ => if x == l && y == st then .nobody else a
    | _ => a
  { s with
    moves := s.moves.map fun m => { m with asker := free m.asker }
    coord := { s.coord with waiting := s.coord.waiting.map fun m => { m with asker := free m.asker } } }

/-- Takes the stream in focus out of every token order and forgets its grant, its reserved draws, its held access and its move (R52,
R105, R342). -/
def State.leaveTokens (s : State) : State :=
  let s := s.modVlc fun v => { v with korder := v.korder.map fun l => l.filter (· != s.stream) }
  ((s.freeAtomics s.cur.loc s.stream).freeMoves s.cur.loc s.stream).setStr { s.str with
    granted := false, wait := none, reserve := none, answer := none }

/-- One of the values that a context has written, or none of them: what an undefined register holds, where none is zero (R36; log 4). -/
def pastOf {α : Type} (past : List α) (n : Nat) : Option α := past[Config.freePast n % (past.length + 1)]?

/-- A value of an undefined V or M register. -/
def undefinedOf (past : List VReg) (n : Nat) : VReg := (pastOf past n).getD 0

/-- A tile register that is undefined, with a new descriptor (R30, R36). -/
def TileRegs.undefined (r : TileRegs) (cfg : Option TileCfg) (n : Nat) : Tile :=
  let x := (pastOf r.tPast n).getD (.zero, .zero)
  ⟨cfg, x.1, x.2⟩

/-- What dies with `vrel`, and with a context that has no handler (R37, R144, R197): V, M and ACC become undefined. A migration request that
has not been delivered falls away with tenure (R428). -/
def State.killVector (s : State) : State :=
  let n := s.fresh
  let r := s.cur.tile
  { s with
    fresh := n + 60
    cur := { s.cur with
      vec := { s.cur.vec with
        v := Vector.ofFn fun i => undefinedOf s.cur.vec.vPast (n + i.val)
        m := Vector.ofFn fun i => undefinedOf s.cur.vec.mPast (n + 32 + i.val)
        p := .replicate 8 ⟨.s8, []⟩, f := .replicate 16 none }
      tile := { r with
        t := Vector.ofFn fun i => r.undefined none (n + 40 + i.val)
        acc := Vector.ofFn fun i => (pastOf r.accPast (n + 56 + i.val)).getD .zero
        board := none }
      binds := []
      tenure := false
      migrate := if s.cur.folding then s.cur.migrate else none
      ctl := { s.cur.ctl with vl := 0, vlsave := 0, tm := false, tvalid := false } } }

/-- Whether a record has TDST set (R285). -/
def Record.tdst (r : Record) : Bool := r.getLsbD 13

/-- Whether tile fills of the context are still to come (R287). -/
def State.fillsPending (s : State) : Bool :=
  s.commands.any fun c => c.vlc == s.cur.loc && c.saved.isNone && c.queue == 16 && c.record.tdst

/-- Ends the context in focus: it runs no more, its task has one context fewer (R308, R417), and its engine commands go on for a
context that is gone. -/
def State.endContext (s : State) (count : Bool) : State :=
  let dead := { s.cur with live := false, flights := [], ep := { s.cur.ep with run := .ended }, ap := { s.cur.ap with run := .ended } }
  let tasks := match s.cur.work with
    | none => s.tasks
    | some w => s.tasks.map fun t =>
      if t.id == w.task then { t with running := t.running - 1, counted := t.counted && count } else t
  { s with
    cur := dead
    tasks := tasks
    commands := s.commands.map fun c => if c.vlc == s.cur.loc && c.saved.isNone then { c with saved := some s.fresh } else c
    fresh := s.fresh + 1 }

/-- Trap entry at `epc` (R416): the other stream is held, the waits of the context for a grant or tenure are given up (R421; they begin
anew after `tret`), what an instruction of the EP that traps has owed in flags is dropped (R28), EPC, ECAUSE, EVAL and MODE.SYS are
written, and pc goes to ETVEC + 4 × code. With ETVEC = 0 the context ends, once its tile fills have landed (R417). A trap disarms the open
strip (R437). -/
def takeTrap (s : State) (epc : Word) (t : TrapReq) : State :=
  let s := s.disarm.leaveTokens.leaveWaits
  let cause := ecauseOf t s.cur.ctl.sys s.stream
  let s := s.modCtl fun c => { c with epc := epc, ecause := cause, eval := t.val, sys := true }
  let s := s.modVlc fun v => { v with handler := some s.stream, clock := 0, owedFlags := if s.stream == .ep then [] else v.owedFlags,
                                      inFlight := if s.stream == .ep then [] else v.inFlight, busy := [] }
  if s.cur.ctl.etvec = 0 then
    let s := s.logEvent 9 (locNum s.cur.loc) epc 0 cause t.val
    if s.fillsPending then s.modVlc fun v => { v with ep := { v.ep with run := .ended }, ap := { v.ap with run := .ended } }
    else s.killVector.endContext false
  else s.setPc (s.cur.ctl.etvec + BitVec.ofNat 64 (4 * t.code))

/-- Trap entry of a migration request: as above, but pc goes to FOLD (R428). -/
def takeMigration (s : State) (epc fold : Word) (t : TrapReq) : State :=
  let s := s.disarm.leaveTokens.leaveWaits
  let cause := ecauseOf t s.cur.ctl.sys s.stream
  let s := s.modCtl fun c => { c with epc := epc, ecause := cause, eval := t.val, sys := true }
  (s.modVlc fun v => { v with handler := some s.stream, clock := 0, owedFlags := [], busy := [], folding := true }).setPc (fold &&& ~~~(3 : Word))

/-- Trap return (R417): MODE.SYS := ECAUSE.PSYS, pc := EPC, the other stream released. -/
def trapReturn (s : State) : State :=
  let s := s.modCtl fun c => { c with sys := c.ecause.getLsbD 15 }
  let s := s.modVlc fun v => { v with handler := none, clock := 0, folding := false }
  s.setPc (s.cur.ctl.epc &&& ~~~(3 : Word))

end Sys2Proof.Machine
end

