-- ==== Sys2Proof/Machine/Operands.lean ====
section
/-! DEFINITION. Operands: elements of register groups (R13, R14), grouping (R101, R151), the effective type (R102), guards,
the vector operands of every instruction, and reads of registers bound to a stream (R196 to R203). A group's contents are a
natural, bit 0 its lowest bit. -/

namespace Sys2Proof.Machine

/-! ## Elements -/

/-- The type of a width code (R102). -/
def wcTy (wc : BitVec 4) : Ty :=
  match wc.toNat with
  | 0 => .s8 | 1 => .s16 | 3 => .s64 | 4 => .n3 | 5 => .s4 | 6 => .s6 | 8 => .e4m3s | 9 => .e2m1s
  | _ => .s32

/-- Whether a width code is assigned (R14). -/
def wcOk (wc : BitVec 4) : Bool := decide (wc.toNat ≤ 6) || wc == 8 || wc == 9

/-- The effective type (R101, R102). -/
def effTy (c : Ctl) (o : Option Ty) : Ty := o.getD (wcTy c.wc)

/-- The grouping factor of VTYPE. -/
def Ctl.g (c : Ctl) : Nat := 2 ^ c.lg.val

/-- VLMAX of a type at a grouping (R14). -/
def vlmax (ncore : Bool) (t : Ty) (g : Nat) : Nat :=
  let n := vlen ncore
  if t.isScaled then min (g * (n / 256) * blockLen t) (blockLen t * (n / blockLen t)) else min (g * n / t.sew) n

/-- `vlmax()` of R41. -/
def State.vlmax (s : State) : Nat := Machine.vlmax s.ncore (wcTy s.cur.ctl.wc) s.cur.ctl.g

/-- The grouping of an operand of type `t` under VTYPE: the smallest power of two that covers it (R101, R151). -/
def groupFor (c : Ctl) (t : Ty) : Nat :=
  ([1, 2, 4, 8, 16, 32, 64, 128].find? fun p => decide (p * (wcTy c.wc).sew ≥ c.g * t.sew)).getD 256

/-- The same bits replaced. -/
def putBits (x pos w y : Nat) : Nat := x - (bitsAt x pos w) * 2 ^ pos + (y % 2 ^ w) * 2 ^ pos

/-- The lowest bit of element i in a group (R13). -/
def elemPos (t : Ty) (i : Nat) : Nat :=
  if t.isScaled then 256 * (i / blockLen t) + 8 + (i % blockLen t) * t.sew else i * t.sew

/-- `elem` of R41: the raw element. -/
def elem (t : Ty) (x i : Nat) : Nat := bitsAt x (elemPos t i) t.sew
/-- `setelem` of R41. -/
def setElem (t : Ty) (x i y : Nat) : Nat := putBits x (elemPos t i) t.sew y
/-- The scale of the block of element i. -/
def scaleAt (t : Ty) (x i : Nat) : Nat := bitsAt x (256 * (i / blockLen t)) 8

/-- Element i read exactly, under its scale where the type is scaled (R56). -/
def elemVal (t : Ty) (x i : Nat) : FVal :=
  if t.isScaled then readScaled t (scaleAt t x i) (elem t x i) else readTy t (elem t x i)

/-! ## Register groups, masks and guards -/

/-- Register n + k. -/
def regAt (v : Fin 32) (k : Nat) : Fin 32 := v + Fin.ofNat 32 k

/-- The g registers from Vn as one (R13). -/
def State.readGroup (s : State) (v : Fin 32) (g : Nat) : Nat :=
  let n := vlen s.ncore
  (List.range g).foldl (fun acc k =>
    acc ||| ((s.cur.vec.v[regAt v k].toNat % 2 ^ n) <<< (k * n))) 0

def State.writeGroup (s : State) (v : Fin 32) (g x : Nat) : State :=
  let n := vlen s.ncore
  s.modVec fun r => { r with
    v := (List.range g).foldl (fun vs k => vs.set (regAt v k) (BitVec.ofNat 16384 (bitsAt x (k * n) n))) r.v
    vPast := ((List.range g).map fun k => BitVec.ofNat 16384 (bitsAt x (k * n) n)) ++ r.vPast }

def State.mread (s : State) (m : Fin 8) : Nat := s.cur.vec.m[m].toNat
def State.mwrite (s : State) (m : Fin 8) (x : Nat) : State :=
  s.modVec fun r => { r with
    m := r.m.set m (BitVec.ofNat 16384 (x % 2 ^ vlen s.ncore)), mPast := BitVec.ofNat 16384 (x % 2 ^ vlen s.ncore) :: r.mPast }

/-- `setmbit` of R41. -/
def setBit (x i : Nat) (b : Bool) : Nat := putBits x i 1 (if b then 1 else 0)

/-- `active` of R41. -/
def State.active (s : State) (c : Common) : Nat → Bool :=
  match c.guard with
  | none => fun _ => true
  | some g => let m := s.mread g.reg; fun i => m.testBit i == g.pol

def State.vl (s : State) : Nat := s.cur.ctl.vl.toNat
def State.vstart (s : State) : Nat := s.cur.ctl.vstart.toNat
def State.setVl (s : State) (n : Nat) : State := s.modCtl fun c => { c with vl := BitVec.ofNat 15 n }
def State.setVstart (s : State) (n : Nat) : State := s.modCtl fun c => { c with vstart := BitVec.ofNat 15 n }

/-- Whether an element or row lies before the progress index at which the instruction is interrupted, if it is (R40, R418). -/
def State.below (s : State) (i : Nat) : Bool := s.limit.elim true fun n => decide (i < n)

/-- Elements that an element-wise instruction performs: active, from VSTART to VL - 1 (R41), or up to where it is interrupted. -/
def State.performed (s : State) (c : Common) : List Nat :=
  (List.range s.vl).filter fun i => decide (s.vstart ≤ i) && s.active c i && s.below i

/-- The present elements of a cross-element instruction: active below VL, none when VSTART ≥ VL (R23, R153). -/
def State.presentAll (s : State) (c : Common) : List Nat :=
  if s.vl ≤ s.vstart then [] else (List.range s.vl).filter fun i => s.active c i

/-- The lane of bit `pos` of a group (R431). -/
def laneOf (ncore : Bool) (pos : Nat) : Nat := (pos % datapath ncore) / 64

/-! ## Vector operands -/

/-- How an operand takes its strip when its register is bound (R199). -/
inductive Role where
  | plain
  | expm
  | table (lb w : Nat)
  | packed
deriving DecidableEq, Repr

/-- A vector operand: register, type, whether it is the destination, whether it is one register whatever the grouping, and its
role. -/
structure VOp where
  reg : Fin 32
  ty : Ty
  dst : Bool
  one : Bool
  role : Role
deriving DecidableEq, Repr

def vsrc (r : Fin 32) (t : Ty) : VOp := ⟨r, t, false, false, .plain⟩
def vdst (r : Fin 32) (t : Ty) : VOp := ⟨r, t, true, false, .plain⟩

def srcOps (b : Src) (t : Ty) : List VOp :=
  match b with
  | .v r => [vsrc r t]
  | _ => []
def src2Ops (b : Src2) (t : Ty) : List VOp :=
  match b with
  | .v r => [vsrc r t]
  | _ => []

/-- The type of an index (R187). -/
def ixTy : IdxTy → Ty
  | .n32 => .n32 | .n16 => .n16 | .s32 => .s32 | .n64 => .n64

/-- The vector operands of an instruction: `t` its effective type, `vt` the type of VTYPE, `ft` f32 or f64 by the precision of
its function source. -/
def vops (i : Instr) (t vt ft : Ty) : List VOp :=
  match i with
  | .vadd _ d a b | .vsub _ d a b | .vrsub _ d a b | .vmul _ d a b | .vmulh _ d a b | .vdiv _ d a b | .vrem _ d a b
  | .vmin _ d a b | .vmax _ d a b | .vand _ d a b | .vor _ d a b | .vxor _ d a b | .vsll _ d a b | .vsrl _ d a b
  | .vsra _ d a b | .vsadd _ d a b | .vssub _ d a b | .vsgnj _ d a b | .vsgnjn _ d a b | .vsel _ d a b =>
    vdst d t :: vsrc a t :: srcOps b t
  | .vsqrt _ d a | .vabs _ d a | .vneg _ d a => [vdst d t, vsrc a t]
  | .vmv _ d b => vdst d t :: srcOps b t
  | .vfmadd _ d a b e | .vfmsub _ d a b e | .vfnmadd _ d a b e | .vfnmsub _ d a b e =>
    [vdst d t, vsrc a t, vsrc b t, vsrc e t]
  | .vwfmadd _ ts d a b e | .vwfmsub _ ts d a b e | .vwfnmadd _ ts d a b e | .vwfnmsub _ ts d a b e =>
    [vdst d t, vsrc a ts, vsrc b ts, vsrc e t]
  | .vcvt _ ts d a | .vcvtx _ ts d a => [vdst d t, vsrc a ts]
  | .vcmpeq _ _ a b | .vcmpne _ _ a b | .vcmplt _ _ a b | .vcmple _ _ a b | .vcmpgt _ _ a b | .vcmpge _ _ a b =>
    vsrc a t :: src2Ops b t
  | .vslideup _ d a _ | .vslidedown _ d a _ | .vcompress _ d a _ => [vdst d t, vsrc a t]
  | .vrgather _ d a b => [vdst d t, vsrc a t, vsrc b .n16]
  | .vid _ d | .viota _ d _ | .vputg _ d _ | .vputh _ d _ => [vdst d t]
  | .vgetg _ _ a | .vgeth _ _ a | .vconf _ _ a => [vsrc a t]
  | .vredsum _ w d a b | .vredosum _ w d a b => [vdst d t, vsrc a (w.getD t), vsrc b t]
  | .vredmin _ d a b | .vredmax _ d a b | .vredand _ d a b | .vredor _ d a b | .vredxor _ d a b =>
    [vdst d t, vsrc a t, vsrc b t]
  | .vconfr _ d a | .vtopk _ d a _ => [vdst d .n16, vsrc a t]
  | .vunpk _ d a _ => [vdst d t, ⟨a, .s32, false, true, .packed⟩]
  | .vlut _ ix lb d a b => [vdst d t, vsrc a ix, ⟨b, t, false, false, .table lb.toNat ix.sew⟩]
  | .vexpm _ d a => [vdst d t, ⟨a, t, false, false, .expm⟩]
  | .vld _ d _ _ | .vlds _ d _ _ | .vldb _ d _ _ | .vldr _ d _ _ | .vldrmin _ d _ _ | .vldrmax _ d _ _ => [vdst d t]
  | .vst _ d _ _ | .vsts _ d _ _ | .vstb _ d _ _ | .vstm _ d _ _ => [vsrc d t]
  | .vldx _ d _ b _ ix => [vdst d t, vsrc b (ixTy ix)]
  | .vstx _ d _ b _ ix => [vsrc d t, vsrc b (ixTy ix)]
  | .sbind _ d _ | .sfree _ d => [vdst d vt]
  | .psdense _ d _ _ => [vdst d t]
  | .pssparse _ _ a _ _ => [vsrc a vt]
  | .fnscl _ _ _ b => src2Ops b ft
  | .fneval _ d _ b _ => [vdst d ft, vsrc b ft]
  | .fnquad _ d _ => [vdst d ft]
  | .tgmm _ _ _ _ _ _ e => [⟨e, .n16, false, true, .plain⟩]
  | .vamoswap _ _ ix _ r _ b e | .vamoadd _ _ ix _ r _ b e | .vamoand _ _ ix _ r _ b e | .vamoor _ _ ix _ r _ b e
  | .vamoxor _ _ ix _ r _ b e | .vamomin _ _ ix _ r _ b e | .vamomax _ _ ix _ r _ b e | .vamofadd _ _ ix _ r _ b e
  | .vamofmin _ _ ix _ r _ b e | .vamofmax _ _ ix _ r _ b e =>
    (match r with | some d => [vdst d t] | none => []) ++ [vsrc b (ixTy ix), vsrc e t]
  | .qgetv _ tc d _ _ => [vdst d tc]
  | _ => []

/-- The operands read, for the overlap rule of R152: those the destination must not overlap. -/
def noOverlap (i : Instr) (t : Ty) : List VOp :=
  match i with
  | .vslideup _ _ a _ | .vslidedown _ _ a _ | .vcompress _ _ a _ | .vconfr _ _ a | .vtopk _ _ a _ | .vexpm _ _ a => [vsrc a t]
  | .vrgather _ _ a b => [vsrc a t, vsrc b .n16]
  | .vunpk _ _ a _ => [⟨a, .s32, false, true, .packed⟩]
  | .vlut _ _ _ _ _ b => [vsrc b t]
  | _ => []

/-- The registers an operand stands for. -/
def VOp.span (c : Ctl) (o : VOp) : Nat := if o.one then 1 else groupFor c o.ty

/-- Whether two ranges of registers share one. -/
def rangesMeet (a na b nb : Nat) : Bool := decide (a < b + nb) && decide (b < a + na)

/-! ## Strips of bound registers -/

/-- The contents that operands read in place of bound registers, by register (R199). -/
abbrev View := List (Fin 32 × Nat)

/-- An operand's contents: its strip where the register is bound, else the register group. -/
def View.read (w : View) (s : State) (v : Fin 32) (g : Nat) : Nat :=
  match w.find? (·.1 == v) with
  | some (_, x) => x
  | none => s.readGroup v g

/-- The contents of a source operand of type `t`. -/
def View.src (w : View) (s : State) (v : Fin 32) (t : Ty) : Nat := w.read s v (groupFor s.cur.ctl t)

/-- A run of bytes that holds one element: address, bytes, bit offset in them and width. -/
structure Piece where
  va : Word
  n : Nat
  shift : Nat
  w : Nat
deriving DecidableEq, Repr

/-- The piece of a packed field at a bit offset from a base (R58, R179). -/
def packedPiece (base : Word) (bit w : Nat) : Piece :=
  ⟨base + BitVec.ofNat 64 (bit / 8), (bit % 8 + w + 7) / 8, bit % 8, w⟩

/-- What a piece's bytes hold. -/
def Piece.value (p : Piece) (bs : List Byte) : Nat := bitsAt (leNat bs) p.shift p.w

/-- Fields of a stream descriptor (R193). -/
def StreamDesc.valid (d : StreamDesc) : Bool := d.attr.getLsbD 63
def StreamDesc.unit (d : StreamDesc) : Bool := d.attr.getLsbD 15
def StreamDesc.packw (d : StreamDesc) : Nat := bitsAt d.attr.toNat 10 5
def StreamDesc.kind (d : StreamDesc) : Nat := bitsAt d.attr.toNat 8 2
def StreamDesc.boff (d : StreamDesc) : Nat := bitsAt d.attr.toNat 5 3
def StreamDesc.tyCode (d : StreamDesc) : Nat := bitsAt d.attr.toNat 0 5
def StreamDesc.ty (d : StreamDesc) : Ty := (tyOfNat d.tyCode).getD .s32

/-- The binding of a V register. -/
def State.binding (s : State) (v : Fin 32) : Option Binding := (s.cur.binds.find? (·.1 == v)).map (·.2)

/-- Whether a bound stream is read by whole blocks: a scaled type, not packed. -/
def Binding.blocks (b : Binding) : Bool := b.desc.kind != 1 && b.desc.ty.isScaled

/-- The piece of stream element q, or of its block for a scaled type (R193, R202). -/
def Binding.piece (b : Binding) (q : Nat) : Piece :=
  let d := b.desc
  if d.kind == 1 then
    let w := d.packw + 1
    let f := 256 / w
    packedPiece d.base (256 * (q / f) + (q % f) * w) w
  else if d.ty.isScaled then ⟨d.base + BitVec.ofNat 64 (32 * (q / blockLen d.ty)), 32, 0, 256⟩
  else if d.unit then packedPiece d.base (d.boff + q * d.ty.sew) d.ty.sew
  else ⟨d.base + BitVec.ofNat 64 q * d.stride, d.ty.sew / 8, 0, d.ty.sew⟩

/-- Elements in a strip (R199): only a KIND 2 stream is read as a table. The scaled type that makes a strip come in whole blocks is the
stream's TYPE, also where the operand reads the same bits as another type (DESIGN CHOICE, log 46). -/
def stripLen (r : Role) (b : Binding) (vl : Nat) (act : Nat → Bool) : Nat :=
  let plain := if b.blocks then (vl + blockLen b.desc.ty - 1) / blockLen b.desc.ty * blockLen b.desc.ty else vl
  match r with
  | .expm => ((List.range vl).filter act).length
  | .table lb w => if b.desc.kind != 2 then plain else if lb == 0 then 2 ^ w else (vl + 2 ^ lb - 1) / 2 ^ lb * 2 ^ w
  | _ => plain

/-- How a read of a piece came out: its bytes, whether they came marked poisoned, whether nobody answered. -/
structure Got where
  bytes : List Byte
  poison : Bool
  absent : Bool
deriving DecidableEq, Repr

/-- Reads one piece on the path of the stream in focus. -/
def State.readPiece (s : State) (p : Piece) : Except Flt Got × State :=
  match s.load p.va p.n with
  | (.error f, s) => (.error f, s)
  | (.ok r, s) => (.ok ⟨r.bytes, r.poison, r.absent⟩, s)

/-- A piece out of prefetched bytes, where all of them have been prefetched (R201). -/
def Binding.prefetched (b : Binding) (p : Piece) : Option (List Byte) :=
  (List.range p.n).foldr (fun k acc =>
    match findCell b.pre (p.va + BitVec.ofNat 64 k).toNat, acc with
    | some x, some xs => some (x :: xs)
    | _, _ => none) (some [])

/-- Reads a strip element's piece: bytes prefetched first (R201), else from the level of the stream engine (R358). -/
def State.readStream (s : State) (b : Binding) (p : Piece) : Except Flt Got × State :=
  match b.prefetched p with
  | some bs => (.ok ⟨bs, false, false⟩, s)
  | none => match s.xlateN .read p.va p.n with
    | (.error f, s) => (.error f, s)
    | (.ok gas, s) =>
      let (r, s) := s.readBytes ⟨s.cur.loc, none, 2⟩ gas
      (.ok ⟨r.bytes, r.poison, r.absent⟩, if r.held then s.markHeld (.load p.va) else (s.touch gas).noteSeen ⟨s.cur.loc, none, 2⟩ gas)

/-- The strip elements that a reader performs, each with the index i of R200: `elems` are the reader's elements, in order. -/
def stripUse (r : Role) (b : Binding) (elems : List Nat) (act : Nat → Bool) (entry : Nat → Nat) : List (Nat × Nat) :=
  match r with
  | .expm => elems.map fun i => (i, ((List.range i).filter act).length)
  | .table _ _ => elems.map fun i => (i, entry i)
  | _ => elems.map fun i => (i, if b.blocks then i / blockLen b.desc.ty * blockLen b.desc.ty else i)

/-- Reads the used strip elements in order until one faults: what each brought by strip index, and the fault with its i. A fault at an
i below `lo` is discarded (R200). -/
def State.readUses (b : Binding) (lo : Nat) : List (Nat × Nat) → State → List (Nat × Nat × Got) × Option (Nat × Flt) × State
  | [], s => ([], none, s)
  | (i, k) :: rest, s =>
    if k ≥ b.rem then State.readUses b lo rest s
    else match s.readStream b (b.piece (b.pos + k)) with
      | (.error f, s) => if i < lo && !f.held then State.readUses b lo rest s else ([], some (i, f), s)
      | (.ok g, s) =>
        let (out, flt, s) := State.readUses b lo rest s
        ((i, k, g) :: out, flt, s)

/-- Places a strip (R199, R13): elements that are not used and could not be read hold undefined bits (log 4). -/
def State.placeStrip (s : State) (b : Binding) (o : VOp) (n : Nat) (used : List (Nat × Nat × Got)) : Nat × State :=
  let w := if b.desc.kind == 1 then b.desc.packw + 1 else b.desc.ty.sew
  let isBlk := b.blocks
  let pos (k : Nat) : Nat := if b.desc.kind == 1 then k * w else elemPos b.desc.ty k
  let err := errorValue (if o.one then b.desc.ty else o.ty)
  let put (acc : Nat × State) (k : Nat) : Nat × State :=
    if k ≥ b.rem then acc
    else
      let one (g : Got) : Nat :=
        let v := leNat g.bytes
        if isBlk then
          if g.poison || g.absent then putBits acc.1 (256 * (k / blockLen b.desc.ty)) 8 0xFF
          else
            let x := putBits acc.1 (256 * (k / blockLen b.desc.ty)) 8 (v % 256)
            putBits x (pos k) w (bitsAt v (pos k % 256) w)
        else putBits acc.1 (pos k) w (if g.poison || g.absent then (if b.desc.kind == 1 then 0 else err)
          else bitsAt v (b.piece (b.pos + k)).shift w)
      match used.find? (fun u => u.2.1 == k || (isBlk && u.2.1 / blockLen b.desc.ty == k / blockLen b.desc.ty)) with
      | some (_, _, g) => (one g, acc.2)
      | none =>
        match acc.2.readStream b (b.piece (b.pos + k)) with
        | (.ok g, s) => (one ⟨g.bytes, false, false⟩, s)
        | (.error _, s) => (putBits acc.1 (pos k) w (bitsAt (undefinedOf s.cur.vec.vPast s.fresh).toNat (pos k % 16384) w), s)
  (List.range n).foldl put (0, s)

end Sys2Proof.Machine
end

