-- ==== Sys2Proof/Machine/Check.lean ====
section
/-! DEFINITION. The decode-time checks of R118, steps 3 to 6: stream, core and mode; vector shape; privilege; handles. -/

namespace Sys2Proof.Machine

/-! ## Step 3: stream, core and mode -/

/-- Cells that the AP may execute (R107, R10); QUE and STRM are settled by operation. -/
def cellInAp : Cell → Bool
  | .irr | .iim | .lup | .imd | .sld | .sst | .pcu | .bcc | .jmp | .call | .jr | .creg | .fence | .trap | .pgmv | .hint
  | .samo | .que | .task | .strm | .event => true
  | _ => false

/-- Cells of T-mode (R108). -/
def cellIsTile : Cell → Bool
  | .tmem | .tmat | .thr => true
  | _ => false

/-- Instructions of V-mode (R35, R108, R141). -/
def isVMode (i : Instr) : Bool :=
  match i.cell with
  | .arv | .vfma | .vcvt | .vcmp | .mask | .perm | .vred | .conf | .xfrm | .vmem | .gath | .subb | .strm | .fab | .spmem
  | .spar | .fmem | .fari | .fcal | .fevl | .vamo => true
  | .strip => match i with | .vrel => false | _ => true
  | .que => match i with | .qgetv .. => true | _ => false
  | _ => false

/-- The queues that an operation may name in a stream (R33, R280). -/
def queueOk (st : Stream) (i : Instr) : Bool :=
  match i with
  | .qput _ q _ => match st with | .ep => decide (8 ≤ q.val ∧ q.val ≤ 11) | .ap => q.val == 12
  | .qget _ _ q => match st with | .ap => decide (8 ≤ q.val ∧ q.val ≤ 11) | .ep => q.val == 12
  | .qld _ _ q .. => st == .ap && decide (q.val < 8)
  | .qgetv _ _ _ q _ => st == .ep && decide (q.val < 8)
  | .qcmd _ q _ => q.val == 16 || q.val == 18 || q.val == 20 || q.val == 21
  | .qres _ q _ => q.val == 17 || q.val == 19
  | .qcnt _ _ q => decide (q.val ≤ 12) || decide (16 ≤ q.val ∧ q.val ≤ 21)
  | _ => true

/-- Access to a control register (R18): lowest level for reading and for writing, true for system; none where the number is
absent or the access is not stored. -/
structure CregInfo where
  readSys : Bool
  writeSys : Bool
deriving DecidableEq, Repr

/-- The control-register table of R18. An RO register has no write level: a write to it is ignored (R19). -/
def cregInfo (n : Nat) : Option CregInfo :=
  if n == 0x000 || n == 0x003 || n == 0x00A || n == 0x031 || n == 0x088 then some ⟨false, true⟩
  else if n == 0x001 || n == 0x002 || n == 0x004 || n == 0x008 || n == 0x009 || n == 0x00B || n == 0x010
    || decide (0x018 ≤ n ∧ n ≤ 0x01F) || decide (0x020 ≤ n ∧ n ≤ 0x027) || n == 0x028 || n == 0x030
    || decide (0x040 ≤ n ∧ n ≤ 0x04F) || decide (0x070 ≤ n ∧ n ≤ 0x077) || n == 0x082 || n == 0x090 || n == 0x0A0
    || n == 0x0A1 then some ⟨false, false⟩
  else if decide (0x050 ≤ n ∧ n ≤ 0x06F) then some ⟨true, false⟩
  else if n == 0x080 || n == 0x081 || n == 0x091 || n == 0x098 || n == 0x099 || decide (0x0C0 ≤ n ∧ n ≤ 0x0C4)
    then some ⟨true, true⟩
  else none

/-- The register number a CREG instruction names, and whether it reads and whether it writes (R147). -/
def cregUse (i : Instr) : Option (Nat × Bool × Bool) :=
  match i with
  | .cread _ n => some (n.toNat, true, false)
  | .cwrite n _ => some (n.toNat, false, true)
  | .cswap _ n _ => some (n.toNat, true, true)
  | _ => none

/-- Whether step 3 lets an instruction through (R10, R12, R19, R33, R35, R107, R145). The AP may read and write TCFG and TSHAPE:
R9 gives it control registers as the EP has them and no tile register (DESIGN CHOICE, log 46). -/
def modeOk (i : Instr) (s : State) : Bool :=
  let c := s.cur.ctl
  let ep := s.stream == .ep
  let streamOk := ep || (cellInAp i.cell && match i with | .sbind .. | .sfree .. => false | _ => true)
  let sdldOk := match i with | .sdld .. => !ep | _ => true
  let modeFits := !ep || (if cellIsTile i.cell then c.tm else !(isVMode i && c.tm))
  let coreFits := !s.ncore || (!cellIsTile i.cell && match i with
    | .mode t => !t
    | _ => match cregUse i with
      | some (n, _, _) => !(n == 0x031 || decide (0x040 ≤ n ∧ n ≤ 0x04F))
      | none => true)
  let cregOk := match cregUse i with
    | some (n, _, w) => (cregInfo n).isSome && !(w && !ep && (n == 0x000 || n == 0x002)) && !(w && c.tm && n == 0x000)
    | none => true
  let forkOk := match i with | .apfork _ => !c.apon | _ => true
  streamOk && sdldOk && modeFits && coreFits && cregOk && forkOk && queueOk s.stream i

/-! ## Step 4: vector shape -/

/-- Instructions that VTYPE.VILL stops (R21, R141). -/
def villStops (i : Instr) : Bool :=
  match i with
  | .vstrip _ _ sv | .vstripx _ _ _ sv => sv.isNone
  | .vrel | .sdld .. | .sdst .. => false
  | _ => isVMode i

/-- Types of the strided, indexed and multicast accesses and of sparse values (R183, R205). -/
def cellTy (t : Ty) : Bool := t.isInt || t.isFloat || t == .e5m2 || t == .e4m3 || t == .mk8 || t == .e3m2

/-- Whether the effective type is one that the instruction accepts (R150 and each description). -/
def tyAccepted (i : Instr) (t vt : Ty) : Bool :=
  let I := t.isInt
  let F := t.isFloat
  let imm (b : Src) : Bool := match b with | .i _ => I | _ => true
  match i with
  | .vadd _ _ _ b | .vsub _ _ _ b | .vrsub _ _ _ b | .vmul _ _ _ b | .vdiv _ _ _ b | .vmin _ _ _ b | .vmax _ _ _ b
  | .vsel _ _ _ b | .vmv _ _ b => (I || F) && imm b
  | .vabs .. | .vneg .. => I || F
  | .vmulh .. | .vrem .. | .vand .. | .vor .. | .vxor .. | .vsll .. | .vsrl .. | .vsra .. | .vsadd .. | .vssub .. => I
  | .vsqrt .. | .vsgnj .. | .vsgnjn .. => F
  | .vfmadd .. | .vfmsub .. | .vfnmadd .. | .vfnmsub .. => I || F
  | .vwfmadd _ ts .. | .vwfmsub _ ts .. | .vwfnmadd _ ts .. | .vwfnmsub _ ts .. => widePair t ts
  | .vcmpeq .. | .vcmpne .. | .vcmplt .. | .vcmple .. | .vcmpgt .. | .vcmpge .. => I || F
  | .vid .. | .viota .. | .vgetg .. | .vputg .. => I
  | .vgeth .. | .vputh .. => F
  | .vredsum _ w .. => match w with | some ts => widePair t ts | none => I || F
  | .vredosum _ w .. => F && match w with | some ts => widePair t ts | none => true
  | .vredmin .. | .vredmax .. => I || F
  | .vredand .. | .vredor .. | .vredxor .. => I
  | .vconf .. | .vconfr .. => t.isAnyInt
  | .vtopk .. => !(t == .s3 || t == .n3 || t == .s6 || t == .n6)
  | .vunpk .. | .vlut .. | .vexpm .. => !t.isScaled
  | .vlds .. | .vsts .. | .vldx .. | .vstx .. | .vstm .. => cellTy t
  | .vldb .. | .vstb .. => t == .s3 || t == .n3 || t == .s6 || t == .n6
  | .vldr .. | .vldrmin .. | .vldrmax .. =>
    t == .s32 || t == .n32 || t == .s64 || t == .n64 || t == .f64 || t == .f32 || t == .bf16
  | .psld .. => cellTy t
  | .psadd c .. | .psmul c .. => match c.ty with | some td => cellTy td | none => true
  | .psdense .. => !t.isSubByte && !t.isScaled
  | .pssparse c .. => !vt.isSubByte && cellTy (c.ty.getD vt)
  | .vamoswap .. => amoIntTy (some t) || amoFloatTy (some t)
  | .vamoadd .. | .vamoand .. | .vamoor .. | .vamoxor .. | .vamomin .. | .vamomax .. => amoIntTy (some t)
  | .vamofadd .. | .vamofmin .. | .vamofmax .. => amoFloatTy (some t)
  | _ => true

/-- Whether VL takes part in the operand checks (R210, R283). -/
def vlMatters (i : Instr) : Bool :=
  match i.cell with
  | .fmem | .fari | .fcal | .que | .tmat => false
  | _ => true

/-- f32 or f64 by the precision of the function source, f32 where there is none allocated. -/
def fnTy (i : Instr) (s : State) : Ty :=
  let of (f : Fin 16) : Ty := match s.cur.vec.f[f] with | some r => if r.f64 then .f64 else .f32 | none => .f32
  match i with
  | .fnscl _ _ a _ => of a
  | .fneval _ _ a .. | .fnquad _ _ a => of a
  | _ => .f32

def opsOf (i : Instr) (s : State) : List VOp :=
  vops i (effTy s.cur.ctl (i.common.bind (·.ty))) (wcTy s.cur.ctl.wc) (fnTy i s)

/-- Whether step 4 compares VL with the VLMAX of the operands: with a type override, and where an operand is of another type than
VTYPE's (R101, R118, R151). -/
def comparesVl (i : Instr) (s : State) : Bool :=
  vlMatters i && ((i.common.bind (·.ty)).isSome || (opsOf i s).any (·.ty != wcTy s.cur.ctl.wc))

/-- Whether one operand's grouping, number and VLMAX are in order (R13, R101, R151). -/
def operandOk (i : Instr) (s : State) (o : VOp) : Bool :=
  o.one ||
    (let g := groupFor s.cur.ctl o.ty
     decide (g ≤ 8) && o.reg.val % g == 0 && (!comparesVl i s || decide (s.vl ≤ vlmax s.ncore o.ty g)))

/-- Whether the grouping of a type override is in order where no vector operand is of that type: the sparse cells, which use VTYPE too
(R101, R206, R207). -/
def sparseShapeOk (i : Instr) (s : State) : Bool :=
  match i.cell, i.common.bind (·.ty) with
  | .spmem, some t | .spar, some t =>
    let g := groupFor s.cur.ctl t
    decide (g ≤ 8) && decide (s.vl ≤ vlmax s.ncore t g)
  | _, _ => true

/-- Whether step 4 lets an instruction through (R13, R21, R101, R150 to R152). -/
def shapeOk (i : Instr) (s : State) : Bool :=
  let c := s.cur.ctl
  let t := effTy c (i.common.bind (·.ty))
  let ops := opsOf i s
  !(villStops i && c.vill) &&
  (!isVMode i || tyAccepted i t (wcTy c.wc)) &&
  ops.all (operandOk i s) && sparseShapeOk i s &&
  (noOverlap i t).all fun o => ops.all fun d =>
    !d.dst || !rangesMeet d.reg.val (d.span c) o.reg.val (o.span c)

/-! ## Step 5: privilege -/

/-- Whether an instruction needs system level (R19, R38). -/
def needsSys (i : Instr) : Bool :=
  match i with
  | .tret | .pgmove .. | .pgstat .. => true
  | .qcmd _ q _ => q.val == 21
  | .qcnt _ _ q => q.val == 21
  | _ => match cregUse i with
    | some (n, r, w) => match cregInfo n with
      | some x => (r && x.readSys) || (w && x.writeSys)
      | none => false
    | none => false

/-! ## Step 6: handles -/

/-- Function registers that an instruction reads (R16). -/
def fnSources (i : Instr) : List (Fin 16) :=
  match i with
  | .fnst _ d _ => [d]
  | .fnadd _ _ a b | .fnsub _ _ a b | .fnmul _ _ _ a b => [a, b]
  | .fnscl _ _ a _ | .fndiff _ _ _ a | .fnint _ _ _ a | .fnproj _ _ a _ | .fntrace _ _ _ a => [a]
  | .fneval _ _ a .. | .fnquad _ _ a | .fndeg _ _ a => [a]
  | _ => []

def tileAt (t : Fin 16) (k : Nat) : Fin 16 := t + Fin.ofNat 16 k

/-- Tile registers that an instruction names (R17). -/
def tilesNamed (i : Instr) : List (Fin 16) :=
  match i with
  | .tld _ d .. | .tst _ d .. => [d]
  | .tmma _ _ _ a b | .tmmas _ _ _ a b => [a, b]
  | .tgmm _ _ gc _ a b _ => a :: (List.range (gc.val + 1)).map (tileAt b)
  | .tspmm _ _ _ _ a b e => [a, b, e]
  | .tcvt _ d _ => [d]
  | .tbload _ _ a => [a, tileAt a 1, tileAt a 2]
  | .tbeval _ d a => [d, a]
  | .tleaf _ _ _ _ a b => [a, b]
  | _ => []

/-- Whether a register of an operand's group other than its first is bound (R198). -/
def innerBound (s : State) (o : VOp) : Bool :=
  (List.range (o.span s.cur.ctl)).any fun k => decide (k > 0) && (s.binding (regAt o.reg k)).isSome

/-- Whether an operand may name the registers it does, some being bound (R198). Va of `vunpk` has no element type whose width a
KIND 0 stream's TYPE could differ from, so that any passes (DESIGN CHOICE, log 46). -/
def boundOk (i : Instr) (s : State) (o : VOp) : Bool :=
  !innerBound s o && match s.binding o.reg with
    | none => true
    | some b =>
      !o.dst && match b.desc.kind with
        | 1 => match i with
          | .vunpk _ _ _ gb => o.role == .packed && bitsAt (s.gread gb).toNat 0 5 == b.desc.packw
          | _ => false
        | 2 => (match o.role with | .table .. => true | _ => false) && o.ty.sew == b.desc.ty.sew
        | _ => o.role == .packed || o.ty.sew == b.desc.ty.sew

/-- Whether two value types are on the same side, integer or not (R207). -/
def sameSide (a b : Ty) : Bool := a.isAnyInt == b.isAnyInt

/-- Whether step 6 lets an instruction through (R16, R17, R196, R198, R206, R207). `sbind` and `sfree` name their Vd whether or not it is
bound. -/
def handlesOk (i : Instr) (s : State) : Bool :=
  let p (n : Fin 8) : PReg := s.cur.vec.p[n]
  let vt := wcTy s.cur.ctl.wc
  (fnSources i).all (fun f => s.cur.vec.f[f].isSome) &&
  (tilesNamed i).all (fun t => s.cur.tile.t[t].cfg.isSome) &&
  (match i with
  | .sbind _ _ a => s.cur.s[a].valid
  | .sfree _ d => (s.binding d).isSome
  | .psst c d .. => match c.ty with | some t => t == (p d).ty | none => true
  | .psadd c _ a b _ | .psmul c _ a b _ =>
    sameSide (p a).ty (p b).ty && sameSide (p a).ty (c.ty.getD (p a).ty)
  | .psdense c _ a _ => sameSide (p a).ty (c.ty.getD vt)
  | .pssparse c .. => sameSide vt (c.ty.getD vt)
  | _ => true) &&
  match i with
  | .sbind .. | .sfree .. => s.cur.binds.isEmpty || (opsOf i s).all fun o => !innerBound s o
  | _ => s.cur.binds.isEmpty || (opsOf i s).all (boundOk i s)

/-! ## The checks in order -/

/-- EVAL of a decode-time trap: the instruction's encoding (R119). -/
def evalOf (i : Instr) : Word := encodingWord (encode i)

/-- The trap of the first of steps 3 to 6 that fails (R118). Hint instructions undergo step 1 only. -/
def decodeTrap (i : Instr) (s : State) : Option TrapReq :=
  if i.cell == .hint || i.cell == .event then none
  else if !modeOk i s then some ⟨causeIllegal, evalOf i, 0⟩
  else if !shapeOk i s then some ⟨causeIllegal, evalOf i, 0⟩
  else if needsSys i && !s.cur.ctl.sys then some ⟨causePrivilege, evalOf i, 0⟩
  else if !handlesOk i s then some ⟨causeHandle, evalOf i, 0⟩
  else none

/-- Steps 3 to 5 alone, as a convoy's header checks them for a member (R114). -/
def memberTrap (i : Instr) (s : State) : Option TrapReq :=
  if i.cell == .hint then none
  else if !modeOk i s || !shapeOk i s then some ⟨causeIllegal, evalOf i, 0⟩
  else if needsSys i && !s.cur.ctl.sys then some ⟨causePrivilege, evalOf i, 0⟩
  else none

end Sys2Proof.Machine
end

