-- ==== Sys2Proof/Machine/Handles.lean ====
section
/-! DEFINITION. The contexts of a core, function-register descriptors and their allocation, and the checks of R216 and R217 that an
instruction with a bound operand undergoes before its strip is fetched. -/

namespace Sys2Proof.Machine

/-- The contexts of a core. -/
def State.onCore (s : State) (c : CoreId) : List Vlc :=
  (s.cur :: s.parked).filter fun v => v.live && v.loc.coreId == c

/-- Slots of a core (R8). -/
def slots (c : CoreId) : Nat := if c.ncore then 2 else 4

/-- Whether a slot exists and is free. -/
def State.slotFree (s : State) (l : Loc) : Bool :=
  decide (l.slot.val < slots l.coreId) && (s.onCore l.coreId).all (·.loc != l)

/-- Whether a core has a free slot. -/
def State.hasSlot (s : State) (c : CoreId) : Bool := (List.finRange 4).any fun k => s.slotFree ⟨c.die, c.core, k⟩

/-- Whether a core runs a context of a task. -/
def State.runsTask (s : State) (c : CoreId) (task : Nat) : Bool := (s.onCore c).any fun v => v.work.elim false (·.task == task)

/-- Bindings of KIND 1 or 2 of a context, and of a core (R204). -/
def Vlc.tableBinds (v : Vlc) : List (Fin 32 × Binding) := v.binds.filter fun b => b.2.desc.kind == 1 || b.2.desc.kind == 2
def State.tableBindsOn (s : State) (c : CoreId) : Nat := ((s.onCore c).map fun v => v.tableBinds.length).sum

/-- FLMAX and the function store's granules (R24). -/
def flmax (ncore : Bool) : Nat := if ncore then 64 else 512
def storeGranules (ncore : Bool) : Nat := if ncore then 256 else 2048

def FnReg.ty (f : FnReg) : Ty := if f.f64 then .f64 else .f32
def FnReg.bytes (f : FnReg) : Nat := if f.f64 then 8 else 4
/-- Coefficients of a component. -/
def FnReg.per (f : FnReg) : Nat := (f.p + 1) ^ f.d
/-- Granules (R16, R217). -/
def FnReg.granules (f : FnReg) : Nat := (f.nb * f.c * f.per * f.bytes + 1023) / 1024

/-- Granules that a context holds (R217). -/
def Vlc.heldGranules (v : Vlc) : Nat := v.vec.f.toList.foldl (fun n x => match x with | some f => n + f.granules | _ => n) 0

def State.flNum (s : State) : Nat := s.cur.ctl.fl.toNat
def State.degCap (s : State) : Nat := s.cur.ctl.degcap.toNat
def State.fnreg (s : State) (f : Fin 16) : FnReg := (s.cur.vec.f[f]).getD ⟨1, 0, false, 1, false, 0, []⟩
def State.putFn (s : State) (f : Fin 16) (x : Option FnReg) : State := s.modVec fun r => { r with f := r.f.set f x }

/-- Active batch elements (R210). -/
def State.batch (s : State) (c : Common) : List Nat := (List.range s.flNum).filter (s.active c)

/-- The allocation test of R217: the trap where it fails. -/
def State.allocTrap (s : State) (need : Nat) : Option TrapReq :=
  let held := s.cur.heldGranules
  let free := storeGranules s.ncore - (s.onCore s.coreId).foldl (fun (n : Nat) v => n + v.heldGranules) 0
  let quota := decide (held + need > s.cur.ctl.fquota.toNat)
  if quota || decide (need > free) then
    some ⟨causeStoreFull, BitVec.ofNat 64 ((if quota then 0 else 2 ^ 32) + held % 2 ^ 16 * 2 ^ 16 + need % 2 ^ 16), 0⟩
  else none

/-- Check 1 of R216 for `fnscl`: enough batch elements, and a vector of scales that can hold one for each. -/
def State.sclFits (s : State) (a : Fin 16) (b : Src2) : Bool :=
  let x := s.fnreg a
  decide (s.flNum ≤ x.nb) && match b with
    | .v _ => decide (s.flNum ≤ Machine.vlmax s.ncore x.ty (groupFor s.cur.ctl x.ty))
    | .s _ => true

/-- What `fnscl` writes: the source's descriptor under DEGCAP (R213, R215). -/
def State.sclReg (s : State) (a : Fin 16) : FnReg :=
  let x := s.fnreg a
  { x with p := min x.p s.degCap, nb := s.flNum, coef := [] }

/-- The check of R216 for `fneval`: enough batch elements, and coordinates that fit the vector. -/
def State.evalFits (s : State) (a : Fin 16) (e : Fin 32) : Bool :=
  let x := s.fnreg a
  decide (s.flNum ≤ x.nb) && decide ((s.gread e).toNat * x.d ≤ Machine.vlmax s.ncore x.ty (groupFor s.cur.ctl x.ty))

/-- Pairs that a sparse register holds (R11). -/
def sparseCap (ncore : Bool) (t : Ty) : Nat := (if ncore then 32 else 256) / (if t.sew ≤ 32 then 1 else 2)

/-! ## Tiles as the checks of R248 see them -/

def State.tile (s : State) (k : Fin 16) : Tile := s.cur.tile.t[k]
def State.cfg (s : State) (k : Fin 16) : TileCfg := ((s.tile k).cfg).getD ⟨.s8, 1, 1⟩
def State.shapeM (s : State) : Nat := (s.cur.ctl.tshape.extractLsb' 0 9).toNat
def State.shapeN (s : State) : Nat := (s.cur.ctl.tshape.extractLsb' 9 9).toNat
def State.shapeK (s : State) : Nat := (s.cur.ctl.tshape.extractLsb' 18 10).toNat

/-- Element bytes as R30 counts them, in bits; the K granule and the class of a matrix type (R244). -/
def matClass : Ty → Nat
  | .e2m1 | .e2m1s => 0
  | .bf16 | .f16 => 2
  | .f32 => 3
  | .f64 => 4
  | _ => 1
def kcOf (cls : Nat) : Nat := match cls with | 0 => 8 | 1 => 4 | 2 => 2 | _ => 1

/-- Whether two source types are matrix types of one class. -/
def sameClass (a b : Ty) : Bool := a.isMatrix && b.isMatrix && matClass a == matClass b

/-- Check 1, and check 4 for an F64-class operation (R248). -/
def State.shapeFits (s : State) (dbl : Bool) : Bool :=
  s.cur.ctl.tvalid && (!dbl || decide (s.shapeM * s.shapeN * 2 ≤ 65536))

/-- The checks of R248 on a `tgmm`, but for those on its group sizes (R258). -/
def State.groupsFit (s : State) (gc : Fin 8) (a b : Fin 16) : Bool :=
  let ka := s.cfg a
  s.shapeFits (matClass ka.ty == 4) && ((List.range (gc.val + 1)).map (tileAt b)).all (fun k =>
      sameClass ka.ty (s.cfg k).ty && (s.cfg k).cols == ka.cols && decide ((s.cfg k).rows ≤ s.shapeN)) &&
    decide (ka.rows ≤ s.shapeM) && decide (ka.cols ≤ s.shapeK)

/-! ## What comes before the strips -/

/-- The draws that an instruction which reads a strip reserves in its own count (R207, R240), for the case that the strip's fault
comes before it has taken them: they are consumed (R52). The region of a `tgmm` whose sizes cannot be read is empty (DESIGN
CHOICE, log 46). -/
def lateDraws (i : Instr) (s : State) : Nat :=
  match i with
  | .fnscl c _ a _ => if c.rm == .rsr then s.flNum * (s.sclReg a).c * (s.sclReg a).per else 0
  | .fneval c _ a _ e => if c.rm == .rsr then (s.gread e).toNat * s.flNum * (s.fnreg a).c else 0
  | .pssparse c .. => if c.rm == .rsr then sparseCap s.ncore (c.ty.getD (wcTy s.cur.ctl.wc)) else 0
  | _ => 0

/-- Whether an instruction reads no strip although an operand is bound: with FL = 0 a function instruction performs no more than its
decode-time checks (R210), and one that R216, R217, R248 or the base of its blocks stops is stopped before any access to memory (R415). -/
def skipsStrips (i : Instr) (s : State) : Bool :=
  match i with
  | .fnscl _ _ a b => s.flNum == 0 || !s.sclFits a b || (s.allocTrap (s.sclReg a).granules).isSome
  | .fneval _ _ a _ e => s.flNum == 0 || !s.evalFits a e
  | .tgmm _ _ gc _ a b _ => !s.groupsFit gc a b
  | .vst c _ a disp => (effTy s.cur.ctl c.ty).isScaled && !(s.performed c).isEmpty && (s.gread a + disp.signExtend 64).toNat % 32 != 0
  | _ => false

/-! ## Where an adjournment record may be placed (R310, R311, R314, R427) -/

/-- Whether a context's tile state is empty with no board (R312). -/
def Vlc.tileEmpty (v : Vlc) : Bool :=
  v.tile.t.toList.all (·.cfg.isNone) && !v.ctl.tvalid && v.tile.board.isNone

/-- Granules of a core's function store that no context holds (R242). -/
def State.freeGranules (s : State) (c : CoreId) : Nat :=
  storeGranules c.ncore - (s.onCore c).foldl (fun (n : Nat) v => n + v.heldGranules) 0

/-- Whether a core is eligible for the queue of some work (R301, R307). -/
def State.eligibleFor (s : State) (w : Work) (c : CoreId) : Bool :=
  s.queues[w.queue.index].qcmask.getLsbD c.core.val && (!w.wcore || !c.ncore)

/-- What a record needs of a core of its die, tenure apart (R204, R308, R314, R427): its in-flight entries fit only the same VLEN, its
tile state only a W-core, its sparse and function registers the core's capacity, its tables the core's stream-load unit. -/
def State.roomFor (s : State) (r : Saved) (c : CoreId) : Bool :=
  c.die == r.vlc.loc.die &&
  (r.vlc.inFlight.isEmpty && r.vlc.flights.isEmpty || 8 * r.vlenb == vlen c.ncore) &&
  (r.vlc.tileEmpty || !c.ncore) &&
  r.vlc.vec.p.toList.all (fun p => decide (p.pairs.length ≤ sparseCap c.ncore p.ty)) &&
  r.vlc.vec.f.toList.all (fun f => match f with | some x => decide (x.nb ≤ flmax c.ncore) | none => true) &&
  decide (r.vlc.heldGranules ≤ s.freeGranules c) &&
  (r.vlc.tableBinds.isEmpty || decide (r.vlc.tableBinds.length + s.tableBindsOn c ≤ 4)) &&
  (match r.vlc.work with
  | some w => s.eligibleFor w c && !s.runsTask c w.task
  | none => true)

/-- The core that a record waits for: its target (R429), else the core that it was adjourned on (R311). -/
def Saved.core (r : Saved) : CoreId := r.target.getD r.vlc.loc.coreId

/-! ## Vector tenure (R310, R311) -/

/-- Priority of the queue that a context is charged to (R301). -/
def State.prioOf (s : State) (v : Vlc) : Nat :=
  match v.work with
  | some w => s.queues[w.queue.index].prio.toNat
  | none => 0

/-- The context that waits for tenure on a core, where it is only tenure that it waits for. -/
def State.tenant (s : State) (c : CoreId) : Tenant → Option Vlc
  | .vlc l => (s.onCore c).find? (·.loc == l)
  | .record id => (s.saved.find? fun r => r.id == id && s.hasSlot c && s.roomFor r c).map (·.vlc)

/-- Which of those that wait asks first: higher priority, or the same and earlier in the queue (R310). -/
def State.firstAsker (s : State) (c : CoreId) (asking : List Tenant) : Option Tenant :=
  (asking.foldl (fun best x => match best, s.tenant c x with
    | none, some v => some (x, s.prioOf v)
    | some b, some v => if s.prioOf v > b.2 then some (x, s.prioOf v) else some b
    | b, none => b) (none : Option (Tenant × Nat))).map (·.1)

/-- Contexts that hold vector tenure on a core. -/
def State.tenured (s : State) (c : CoreId) : Nat := ((s.onCore c).filter (·.tenure)).length
def tenureLimit (c : CoreId) : Nat := if c.ncore then 1 else 2

/-- Those that wait for tenure on a core, with one more that may be among them already. -/
def State.askers (s : State) (c : CoreId) (x : Tenant) : List Tenant :=
  let q := s.cores[c.index].tenureQueue
  if q.contains x then q else q ++ [x]

/-- Whether tenure of a core is free for one of those that wait (R310). -/
def State.mayTake (s : State) (c : CoreId) (x : Tenant) : Bool :=
  decide (s.tenured c < tenureLimit c) && s.firstAsker c (s.askers c x) == some x

end Sys2Proof.Machine
end

