-- ==== Sys2Proof/Machine/Run.lean ====
section
/-! DEFINITION. How an instruction runs: decode-time checks, waits for tokens, tenure and the array, strips of bound
registers, its own body, the checkers of R177 and R436, and completion (flags, tokens, VSTART, pc). -/

namespace Sys2Proof.Machine

/-! ## What a body answers -/

/-- What the checkers of R177, R240 and R269 look at: the items of an instruction in its index order, the lane of each, what
R438 writes where the failure of one is not repaired, and whether the array found it (R269) rather than a spot check. -/
structure Check where
  items : List Nat
  lane : Nat → Nat
  spoil : Nat → State → State
  array : Bool

/-- How the body of an instruction ends. `done` completes with the flags it raised, the indices that consumed poison and what
is to be checked; `part` has performed part of its work, with all of these, and waits for something or is interrupted, with
VSTART where it resumes; `jump` completes and goes on at an address; `trap` traps, with what it has performed; `wait` waits,
with nothing completed; `stop` ends with the bookkeeping of completion left out. -/
inductive Eff where
  | done (s : State) (r : Raised) (psn : List Nat) (chk : Option Check)
  | part (s : State) (w : Option Wait) (r : Raised) (psn : List Nat) (chk : Option Check)
  | jump (s : State) (pc : Word)
  | trap (s : State) (t : TrapReq)
  | wait (s : State) (w : Wait)
  | stop (s : State)

/-- The state that a body ends in. -/
def Eff.state : Eff → State
  | .done s .. => s
  | .part s .. => s
  | .jump s _ => s
  | .trap s _ => s
  | .wait s _ => s
  | .stop s => s

/-- Whether an access of the body has to be held (R342): the mark that it leaves. -/
def Eff.held : Eff → Option Wait
  | .done s .. => s.str.wait
  | .part s .. => s.str.wait
  | .jump s _ => s.str.wait
  | .trap s _ => s.str.wait
  | .wait .. => none
  | .stop _ => none

/-- A body that ends in another state. -/
def Eff.map (f : State → State) : Eff → Eff
  | .done s r psn chk => .done (f s) r psn chk
  | .part s w r psn chk => .part (f s) w r psn chk
  | .jump s pc => .jump (f s) pc
  | .trap s t => .trap (f s) t
  | .wait s w => .wait (f s) w
  | .stop s => .stop (f s)

/-- The stores that have come since `s0` marked as those of an instruction with OVT = 1 (R366). -/
def State.markOvt (s s0 : State) : State :=
  let old (e : Entry) : Bool := s0.pend.any fun x => x.loc == e.loc && x.stream == e.stream && x.bytes == e.bytes
  { s with pend := s.pend.map fun e => if e.loc == s.cur.loc && e.stream == .ep && !old e then { e with ovt := true } else e }

/-- What instruction `i` begun in `s0` has stored, under its OVT, which the AP ignores (R103, R366). -/
def State.markedBy (s : State) (i : Instr) (s0 : State) : State :=
  if i.common.elim false (·.ovt) && s0.stream == .ep then s.markOvt s0 else s

/-- A body that completes with nothing raised. -/
def Eff.ok (s : State) : Eff := .done s [] [] none
/-- A body that completes with the flags of a scalar instruction (R66). -/
def Eff.flags (s : State) (f : Fl) : Eff := .done s (raiseIf [] 0 f) [] none

/-! ## Waiting -/

/-- The stream in focus waits: the mark, and one step on its progress counter (R420; log 7). -/
def State.waitFor (s : State) (w : Wait) : State :=
  let s := s.setStr { s.str with wait := some w }
  if s.cur.ctl.sys then s else s.modVlc fun v => { v with clock := v.clock + 1 }

/-- A read of the stream in focus that is held behind a write of its die takes its place in the hold queue (R342). -/
def State.queueRead (s : State) (w : Wait) : State :=
  match w with
  | .load va => match (s.xlate .read va).1 with
    | .ok ga =>
      if s.moves.any fun m => m.frame == gaFrame ga && m.held.any (Held.ofDie s.cur.loc.die) then
        s.holdAccess ga (.read s.cur.loc s.stream)
      else s
    | .error _ => s
  | _ => s

/-- A context takes vector tenure (R310, R311): it waits no more, and comes last among the holders. -/
def State.takeTenure (s : State) : State :=
  (s.modCore fun x => { x with
    tenureQueue := x.tenureQueue.filter (· != .vlc s.cur.loc)
    holders := x.holders.filter (· != s.cur.loc) ++ [s.cur.loc] }).modVlc fun v => { v with tenure := true }

/-- The context notes what kind of instruction its EP waits in (R420). -/
def State.noteKind (s : State) (i : Instr) : State :=
  if s.stream == .ep then s.modVlc fun v => { v with vecWait := isVMode i || cellIsTile i.cell } else s

/-- An instruction of the stream in focus waits. -/
def State.waitIn (s : State) (i : Instr) (w : Wait) : State := ((s.queueRead w).waitFor w).noteKind i

/-- Vector tenure for the context in focus (R310): granted, or the wait. -/
def State.needTenure (s : State) : Except State State :=
  if s.cur.tenure then .ok s
  else
    let me : Tenant := .vlc s.cur.loc
    if s.mayTake s.coreId me then .ok s.takeTenure
    else .error ((s.modCore fun x => { x with tenureQueue := s.askers s.coreId me }).waitFor .tenure)

/-- The array for the context in focus (R312): owned already, or passed on at once where both states are empty; else the wait for
the exchange. -/
def State.needArray (s : State) : Except State State :=
  let empty (l : Loc) : Bool := ((s.onCore s.coreId).find? (·.loc == l)).elim true Vlc.tileEmpty
  if s.core.tileOwner == some s.cur.loc then .ok s
  else if s.core.tileOwner.elim true empty && s.cur.tileEmpty then .ok (s.modCore fun x => { x with tileOwner := some s.cur.loc })
  else .error (s.waitFor .unit)

/-- Whether an instruction needs vector tenure (R310). -/
def needsTenure (i : Instr) : Bool :=
  match i with
  | .vrel | .sdld .. | .sdst .. => false
  | .bany .. | .ball .. | .bnone .. | .bnall .. | .tgmm .. => true
  | _ => isVMode i

/-- A token wait (R105): granted where the count exceeds the instructions ahead in the order of the FIFO. The grant acquires what the
token's post released (R371). -/
def State.needToken (s : State) (k : Fin 8) : Except State State :=
  if s.str.granted then .ok s
  else
    let order := if s.cur.korder[k].contains s.stream then s.cur.korder[k] else s.cur.korder[k] ++ [s.stream]
    let s := s.modVlc fun v => { v with korder := v.korder.set k order }
    let ahead := (order.takeWhile (· != s.stream)).length
    if decide (s.cur.k[k].toNat > ahead) then .ok (((s.setStr { s.str with granted := true }).forget).observe (s.cur.brings (32 + k.val) ahead))
    else .error (s.waitFor (.token k))

/-- A post finds room, once the instruction's own token is out (R34, R105). -/
def State.roomToPost (s : State) (c : Common) (n : Nat) : Bool :=
  match c.post with
  | none => true
  | some k =>
    let own := match c.wait with | some w => if w == k then 1 else 0 | none => 0
    decide (s.cur.k[k].toNat - own + n ≤ 63)

def andThen (x : Except State State) (f : State → Except State State) : Except State State :=
  match x with
  | .ok s => f s
  | .error e => .error e

/-- Instructions that access memory by a stream's own path, as far as the AP executes them (R103, R366). -/
def accessesMemory (i : Instr) : Bool :=
  match i with
  | .sdld .. | .sdst .. | .qld .. | .qcmd .. | .qres .. => true
  | _ => match i.cell with
    | .sld | .sst | .samo | .task => true
    | _ => false

/-- Whether a write that the EP made before the `apfork`, and that the AP's accesses must follow, is held at a frozen frame (R145, R366). -/
def State.forkHeld (s : State) : Bool := s.stream == .ap && s.heldEntries.any fun e => s.cur.forked.contains e.id

/-- A `tbload` that traps or is interrupted leaves no board (R266). -/
def State.dropBoard (s : State) (i : Instr) : State :=
  match i with
  | .tbload .. => s.modTile fun r => { r with board := none }
  | _ => s

/-- The waits before the body: for tenure, the array, the token and room for the
post, and those for held writes: of the EP before an access of the AP (R366), of the stream before an instruction that posts
(R371). The post's wait comes before the instruction performs anything (DESIGN CHOICE, log 46). An error is the state in which
the step ends. -/
def waits (i : Instr) (s : State) : Except State State :=
  let x := if needsTenure i then s.needTenure else .ok s
  let x := andThen x fun s => if cellIsTile i.cell then s.needArray else .ok s
  let x := andThen x fun s => if accessesMemory i && s.forkHeld then .error (s.waitFor .stores) else .ok s
  match i.common with
  | none => x
  | some c =>
    let x := andThen x fun s => match c.wait with | some k => s.needToken k | none => .ok s
    andThen x fun s =>
      let n := match i with | .tgmm .. => 0 | _ => 1
      if s.roomToPost c n then
        if c.post.isSome && s.ownHeld then .error (s.waitFor .stores) else .ok s
      else .error (s.waitFor (.token (c.post.getD 0)))

/-- Everything before the body: the first decode-time trap, else the waits. An error is the state in which the step ends. -/
def gate (i : Instr) (s : State) : Except State State :=
  match decodeTrap i s with
  | some t => .error (takeTrap (s.dropBoard i) s.pc t)
  | none => match waits i s with
    | .ok t => .ok t
    | .error t => .error (t.noteKind i)

/-! ## Tokens and completion -/

/-- `post` of R41. -/
def State.post (s : State) (k : Fin 8) : State :=
  s.modVlc fun v => { v with k := v.k.set k (v.k[k] + 1) }

/-- The token of a wait is removed (R105). -/
def State.unpost (s : State) (k : Fin 8) : State :=
  (s.shiftPosted (32 + k.val)).modVlc fun v => { v with k := v.k.set k (v.k[k] - 1), korder := v.korder.set k (v.korder[k].filter (· != s.stream)) }

/-- The stores that the instruction in focus has made. -/
def State.ownStores (s : State) : List Nat :=
  ((s.pend ++ s.heldEntries).filter fun e => e.loc == s.cur.loc && e.stream == s.stream && e.pc == s.pc).map (·.id)

/-- Tokens at completion: the removal first, then the post, which brings the instruction's own stores (R105, R371). `tgmm` has posted its
own (R259). -/
def State.tokens (s : State) (i : Instr) : State :=
  match i.common with
  | none => s
  | some c =>
    let s := match c.wait with | some k => s.unpost k | none => s
    match i with
    | .tgmm .. => s
    | _ => match c.post with | some k => (s.notePosted (32 + k.val) (s.cur.k[k]).toNat s.ownStores).post k | none => s

/-- Instructions that set VSTART to 0 when they complete: those of which R23, R210 and R243 speak, the vector, sparse, function and
tile ones and `qgetv` (log 24). -/
def clearsVstart (i : Instr) : Bool :=
  match i with
  | .sdld .. | .sdst .. | .vstrip .. | .vstripx .. => false
  | _ => isVMode i || cellIsTile i.cell

/-- Instructions whose completion in the EP disarms the open strip (R434). -/
def disarms (i : Instr) : Bool :=
  (match i.common with | some c => c.wait.isSome || c.post.isSome | none => false) ||
  match i with
  | .sst .. | .fstF64 .. | .fstF32 .. | .fstF16 .. | .vstm .. | .qput .. | .qget .. | .qgetv .. | .qcmd .. | .qres ..
  | .bq .. | .bqn .. | .tspawn .. | .vpub .. | .pgmove .. | .trap .. | .sbind .. | .sfree .. | .cwrite .. | .cswap .. => true
  | _ => match i.cell with
    | .samo | .vamo | .fmem | .fari | .fcal | .fevl => true
    | _ => false

/-- Whether an instruction of vectors, functions or tiles of the EP is incomplete: it waits, or stands part performed. -/
def State.vectorWaits (s : State) : Bool := s.cur.ep.wait.isSome && s.cur.vecWait || !s.cur.inFlight.isEmpty ||
  s.cur.flights.any fun f => isVMode f.instr || cellIsTile f.instr.cell

/-- Elements of an element group (R14, R143); a scaled type counts whole blocks. For the 3- and 6-bit types, whose groups differ in
size, it is the floor of DP / SEW (DESIGN CHOICE, log 46). -/
def groupElems (ncore : Bool) (t : Ty) : Nat :=
  if t.isScaled then datapath ncore / 256 * blockLen t else datapath ncore / t.sew

/-- The V registers that an instruction of the EP has written, which the machine may finish later (R39). -/
def State.flying (s : State) (i : Instr) : List Flying :=
  ((opsOf i s).filter (·.dst)).flatMap fun o => (List.range (o.span s.cur.ctl)).map fun k =>
    ⟨regAt o.reg k, 0, groupElems s.ncore o.ty, s.vl⟩

/-- The index up to which the instruction in flight that writes a V register has come (R39). -/
def State.flownIndex (s : State) (k : Nat) : Option Nat :=
  (s.cur.flights.find? fun f => ((opsOf f.instr s).filter (·.dst)).any fun o => rangesMeet o.reg.val (o.span s.cur.ctl) k 1).map
    (·.shown.index)

/-- The list of such registers after an instruction: the last writer of a register counts. -/
def State.busyWith (s : State) (i : Instr) : List Flying :=
  let new := s.flying i
  new ++ s.cur.busy.filter fun f => new.all fun x => x.reg != f.reg

/-- The progress clock at a completion (R420): it starts again, save where the AP completes an instruction while the EP has one of vectors
incomplete, which is then the older. -/
def State.restartClock (s : State) : State :=
  if s.vectorWaits && (s.stream == .ap || !s.cur.flights.isEmpty) then s else s.modVlc fun v => { v with clock := 0 }

/-- Completion at `pc` (R23, R28, R52, R105, R420, R434): an instruction that has performed part of its work before records the flags of
that part too. -/
def State.complete (s : State) (i : Instr) (r : Raised) (pc : Word) : State :=
  let parts := i.common.isSome && s.stream == .ep
  let s := (commitFlags s (if parts then s.cur.owedFlags ++ r else r)).tokens i
  let s := if parts then s.modVlc fun v => { v with owedFlags := [], inFlight := [], busy := s.busyWith i } else s
  let s := if clearsVstart i then s.setVstart 0 else s
  let s := if s.stream == .ep && disarms i then s.disarm else s
  let s := s.setStr { s.str with
    pc := pc, wait := none, granted := false, reserve := if i.common.isSome then none else s.str.reserve }
  s.restartClock

/-- The address of the next instruction. -/
def State.nextPc (s : State) (i : Instr) : Word := s.pc + BitVec.ofNat 64 i.size

/-! ## Failures found by the checkers (R430 to R444) -/

/-- Whether the stream in focus can be rewound (R436). -/
def State.rewindable (s : State) : Option Checkpoint :=
  if s.stream == .ep && s.cur.strip.isOpen && !s.cur.strip.rewound && !s.cur.ctl.tm then s.cur.strip.armed else none

/-- A binding at the position of a checkpoint (R433); a table's strip is requested anew where it is another than the one at hand. -/
def Binding.rewound (b : Binding) (saved : List (Fin 32 × Binding)) (v : Fin 32) : Binding :=
  match saved.find? (·.1 == v) with
  | none => b
  | some (_, c) =>
    let same := b.pos == c.pos || b.desc.kind != 2
    { b with pos := c.pos, rem := c.rem, ready := b.ready && same, pre := if same then b.pre else [] }

/-- A strip rewind (R436): the stores of the strip are discarded, the checkpoint restored, and the stream goes on after the
grant. -/
def State.rewind (s : State) (ck : Checkpoint) (trigger idx : Nat) : State :=
  let s := s.leaveTokens
  let s := { s with pend := s.pend.filter fun e => !(e.strip && e.loc == s.cur.loc) }
  let s := (s.modCnt fun c => { c with rewind := c.rewind + 1 }).logEvent 1 (locNum s.cur.loc) ck.pc 0
    (BitVec.ofNat 64 trigger) (BitVec.ofNat 64 idx)
  let s := s.modCtl fun c => { c with
    vl := ck.vl, vill := ck.vill, lg := ck.lg, wc := ck.wc, vstart := 0, csp := ck.csp, fstat := ck.fstat,
    fxvalid := ck.fxvalid, fxidx := ck.fxidx,
    fxpc := ck.fxpc, smissAny := ck.smissAny, mreg := ck.mreg }
  let s := s.modVec fun r => { r with v := ck.v, m := ck.m, p := ck.p }
  let s := s.modVlc fun v => { v with h := ck.h, binds := v.binds.map (fun x => (x.1, x.2.rewound ck.binds x.1)),
                                      strip := ⟨true, some ck, true, v.strip.age⟩, clock := 0, owedFlags := [], inFlight := [],
                                      flights := v.flights.filter (·.stream != .ep) }
  let s := s.setStr { s.str with early := [], g := ck.g, ras := ck.ras, pc := ck.pc + 4, wait := none, granted := false }
  s.gwrite ck.grantReg (ck.vl.setWidth 64)

/-- A failure that is not repaired: the counts and the log of R438. -/
def State.repeated (s : State) (cls idx : Nat) : State :=
  (s.modCnt fun c => { c with repeats := c.repeats + 1 }).logHere 2 0 (BitVec.ofNat 64 cls) (BitVec.ofNat 64 idx)

/-- A mismatch is counted: SCMCNT for a spot check, its lane, and the lane's threshold (R440, R444). -/
def State.countMismatch (s : State) (spot : Bool) (lane : Nat) : State :=
  let k : Fin 64 := Fin.ofNat 64 lane
  let old := s.core.cnt.lmis[k]
  let new := if old = 0xFFFF then old else old + 1
  let s := s.modCnt fun c => { c with scmcnt := if spot then c.scmcnt + 1 else c.scmcnt, lmis := c.lmis.set k new }
  if s.log.lanethr ≤ new && !s.core.cnt.lquar.getLsbD k.val then
    let s := s.modCnt fun c => { c with lquar := c.lquar ||| ((1 : Word) <<< k.val) }
    (s.logEvent 3 (locNum s.cur.loc) 0 0 (BitVec.ofNat 64 k.val) (new.setWidth 64)).raiseEvent 1
  else s

/-- The next error that the environment has in store for this core (log 12). -/
def State.upset (s : State) : Option Upset := s.upsets.find? (·.core == s.coreId)
def State.dropUpset (s : State) : State :=
  match s.upset with
  | some u => { s with upsets := s.upsets.erase u }
  | none => s

/-- The item that a check takes, and the generator after it (R430): a spot check by one draw, the array's by the error. -/
def State.pickItem (s : State) (ck : Check) : Nat × State :=
  if ck.array then
    (ck.items.getD (((s.upset).elim 0 (·.item)) % ck.items.length) 0, s)
  else
    let seed := srNext s.core.spotseed
    (ck.items.getD (srOut seed * ck.items.length / 2 ^ 24) 0, s.modCore fun c => { c with spotseed := seed })

/-- Consumed poison that is not repaired: counts and log (R438, R440). -/
def State.notePoison (s : State) (psn : List Nat) : State :=
  match psn with
  | [] => s
  | i :: rest =>
    (s.modCnt fun c => { c with psncnt := c.psncnt + BitVec.ofNat 64 psn.length }).repeated 6 (rest.foldl min i)

/-! ## Strips of bound registers in an instruction -/

/-- Instructions that R23 does not concern, so that their strips do not depend on VSTART (R210, R243). -/
def pastR23 (i : Instr) : Bool :=
  match i with
  | .fnscl .. | .tgmm .. => true
  | _ => false

/-- Cross-element instructions that read vector operands: they start at element 0 whatever VSTART holds (R153). -/
def crossElement (i : Instr) : Bool :=
  match i with
  | .vid .. | .vputg .. | .vputh .. | .vlut .. => false
  | _ => match i.cell with
    | .perm | .vred | .conf | .xfrm | .spar => true
    | _ => false

/-- The elements of one operand of a permute, of which `on` says by its first element whether a unit is performed: elements, whole
blocks of a scaled type, or an index for each block (R168, R169). -/
def permuteElems (s : State) (ty : Ty) (o : VOp) (on : Nat → Bool) : List Nat :=
  let b := if ty.isScaled then blockLen ty else 1
  if s.vl ≤ s.vstart then []
  else if o.ty.isScaled then (List.range s.vl).filter fun e => on (e / b * b)
  else (List.range ((s.vl + b - 1) / b)).filter fun k => on (k * b)

/-- The elements of an operand that an instruction performs, as its strip sees them (R199, R200): batch elements for `fnscl`, coordinates
for a `fneval` that evaluates any element, groups for `tgmm`, element 0 for `vgetg` and `vgeth`. -/
def readerElems (i : Instr) (s : State) (o : VOp) : List Nat :=
  match i.common with
  | none => []
  | some c =>
    let ty := effTy s.cur.ctl c.ty
    match i with
    | .vslideup .. | .vslidedown .. | .vrgather .. => permuteElems s ty o (s.active c)
    | .vcompress _ _ _ m => permuteElems s ty o (s.mread m).testBit
    | .vgetg .. | .vgeth .. => if s.vl ≤ s.vstart then [] else [0]
    | .vsel .. => (List.range s.vl).filter fun e => decide (s.vstart ≤ e) && s.below e
    | .fnscl .. => s.batch c
    | .fneval _ _ a _ e => if (s.batch c).isEmpty then [] else List.range ((s.gread e).toNat * (s.fnreg a).d)
    | .tgmm _ _ gc .. => List.range (gc.val + 1)
    | _ => if crossElement i then s.presentAll c else s.performed c

/-- The lowest i whose fault R200 looks at. -/
def faultsFrom (i : Instr) (s : State) : Nat := if pastR23 i then 0 else match i with | .fneval .. => 0 | _ => s.vstart

/-- The table entry that a `vlut` reads for an element: j of R176. -/
def lutIndex (lb w : Nat) (ix : Ty) (a i : Nat) : Nat := (if lb == 0 then 0 else i >>> lb) * 2 ^ w + elem ix a i

/-- The bound source operands of an instruction, each register once, packed and plain ones before tables. -/
def boundSources (i : Instr) (s : State) : List (VOp × Binding) :=
  let all := (opsOf i s).filterMap fun o => if o.dst then none else (s.binding o.reg).map fun b => (o, b)
  let uniq := all.foldl (fun (acc : List (VOp × Binding)) x => if acc.any (·.1.reg == x.1.reg) then acc else acc ++ [x]) []
  uniq.filter (fun x => !(match x.1.role with | .table .. => true | _ => false)) ++
    uniq.filter fun x => match x.1.role with | .table .. => true | _ => false

/-- What the strips of an instruction came to: the view, the strip length of each register used, the indices of consumed
poison or missing data, and the trim of VL. -/
structure Strips where
  view : View
  used : List (Fin 32 × Nat × Nat)
  psn : List Nat
  absent : List Nat
  trim : Option Nat

/-- One bound operand as its pieces came: the operand, its binding and what each of the reader's elements brought. -/
structure Fetched where
  op : VOp
  bind : Binding
  got : List (Nat × Nat × Got)

/-- How far the strips of an instruction have come: the operands fetched, each placed as well as is known, and the trim of VL. -/
structure Fetching where
  done : List Fetched
  view : View
  trim : Option Nat

/-- The entries of a strip that an element selects (R200): a table's by index, any other strip's by position. -/
def entryOf (i : Instr) (s : State) (w : View) (r : Role) (b : Binding) : Nat → Nat :=
  match r, i with
  | .table lb k, .vlut _ ix _ _ a _ => if b.desc.kind != 2 then id else lutIndex lb k ix (w.src s a ix)
  | _, _ => id

/-- The strip length of an operand for a VL (R199): an instruction that performs no element under R23 takes an empty strip. A VL that a
fault has trimmed inside a block still takes that block whole (R200; DESIGN CHOICE, log 46). -/
def stripOf (i : Instr) (s : State) (c : Common) (f : Fetched) (vl : Nat) : Nat :=
  if !pastR23 i && s.vl ≤ s.vstart then 0 else stripLen f.op.role f.bind vl (s.active c)

/-- Fetches the pieces of one more bound operand, for the elements below the trim so far; a fault trims further, or is the trap of
the first element (R200). -/
def fetchOne (i : Instr) (c : Common) (acc : Except (Flt × State) (Fetching × State)) (x : VOp × Binding) :
    Except (Flt × State) (Fetching × State) :=
  match acc with
  | .error e => .error e
  | .ok (st, s) =>
    let vl := st.trim.getD s.vl
    let elems := (readerElems i s x.1).filter fun e => decide (e < vl)
    let n := stripOf i s c ⟨x.1, x.2, []⟩ vl
    let uses := stripUse x.1.role x.2 elems (s.active c) (entryOf i s st.view x.1.role x.2)
    let lo := faultsFrom i s
    let (got, flt, s) := State.readUses x.2 lo (uses.filter fun u => decide (u.2 < n)) s
    let f : Fetched := ⟨x.1, x.2, got⟩
    match flt with
    | some (e, fault) =>
      if elems.find? (fun e => decide (lo ≤ e)) == some e then .error (fault, s)
      else .ok (⟨st.done ++ [f], (x.1.reg, (s.placeStrip x.2 x.1 n got).1) :: st.view, some e⟩, s)
    | none => .ok (⟨st.done ++ [f], (x.1.reg, (s.placeStrip x.2 x.1 n got).1) :: st.view, st.trim⟩, s)

/-- The element groups of a table's reader that wait for its strip (R203, R383): none where it has arrived; else those whose index
operand is ready before it is, which is a matter of time (log 33). -/
def lateGroups (s : State) (f : Fetched) (got : List (Nat × Nat × Got)) : Nat :=
  match f.op.role with
  | .table .. =>
    if f.bind.desc.kind != 2 || f.bind.ready then 0
    else Config.freeProgress s.fresh % (((got.map fun g => g.1 * f.op.ty.sew / datapath s.ncore).eraseDups).length + 1)
  | _ => 0

/-- The index of R66 at which a reader's element i of a strip consumes poison: the lowest batch element evaluated for a coordinate of
`fneval`; for a size of `tgmm`, to which the spec gives no output row, the row at which its group begins (DESIGN CHOICE, log 46). -/
def psnIndex (i : Instr) (s : State) (got : List (Nat × Nat × Got)) (k : Nat) : Nat :=
  match i with
  | .fneval c .. => (s.batch c).headD 0
  | .tgmm .. => ((got.filter fun g => decide (g.1 < k) && !g.2.2.poison).map fun g => leNat g.2.2.bytes).sum
  | _ => k

/-- The strip of one operand as its reader gets it, under the VL that every fault has left (R200). -/
def placeOne (i : Instr) (c : Common) (vl : Nat) (acc : Strips × State) (f : Fetched) : Strips × State :=
  let (st, s) := acc
  let got := f.got.filter fun g => decide (g.1 < vl)
  let n := stripOf i s c f vl
  let (x, t) := s.placeStrip f.bind f.op n got
  (⟨(f.op.reg, x) :: st.view, st.used ++ [(f.op.reg, n, lateGroups s f got)],
    st.psn ++ (got.filter (·.2.2.poison)).map fun g => psnIndex i s got g.1,
    st.absent ++ (got.filter (·.2.2.absent)).map fun g => psnIndex i s got g.1, st.trim⟩, t.bump)

/-- Fetches the strips of the bound operands (R199, R200): `.error` where the first element traps. -/
def fetchStrips (i : Instr) (s : State) : Except (Flt × State) (Strips × State) :=
  match i.common with
  | none => .ok (⟨[], [], [], [], none⟩, s)
  | some c =>
    match (boundSources i s).foldl (fetchOne i c) (.ok (⟨[], [], none⟩, s)) with
    | .error e => .error e
    | .ok (st, s) => .ok (st.done.foldl (placeOne i c (st.trim.getD s.vl)) (⟨[], [], [], [], st.trim⟩, s))

/-- Strips are consumed when their reader completes (R199, R203); only then is the next strip of a table requested (R383). -/
def State.consume (s : State) (used : List (Fin 32 × Nat × Nat)) : State :=
  if used.isEmpty then s
  else s.modVlc fun v => { v with binds := v.binds.map (fun x =>
    match used.find? (·.1 == x.1) with
    | some (_, n, g) => (x.1, { x.2 with
        pos := x.2.pos + n, rem := x.2.rem - n, strips := x.2.strips + 1, waited := x.2.waited + BitVec.ofNat 64 g
        pre := if x.2.desc.kind == 2 then [] else x.2.pre, ready := false })
    | none => x) }

/-- An instruction that stops before its end consumes no strip; the groups of it that have waited are counted (R199, R203). -/
def State.countWaits (s : State) (used : List (Fin 32 × Nat × Nat)) : State :=
  if used.isEmpty then s
  else s.modVlc fun v => { v with binds := v.binds.map (fun x =>
      match used.find? (·.1 == x.1) with
      | some (_, _, g) => (x.1, { x.2 with waited := x.2.waited + BitVec.ofNat 64 g })
      | none => x) }

/-! ## Where an instruction may stop (R14, R40, R153, R262, R418) -/

/-- Whether an instruction may stop with a progress index or at a row (R153, R418). -/
def interruptible (i : Instr) : Bool :=
  match i with
  | .mand .. | .mor .. | .mxor .. | .mandn .. | .vid .. | .vputg .. | .vputh .. | .vlut .. | .tld .. | .tst .. | .tlda .. | .tsta ..
  | .tbeval .. | .tleaf .. => true
  | _ => match i.cell with
    | .arv | .vfma | .vcvt | .vcmp | .vmem | .gath | .subb | .fab | .vamo | .tmat => true
    | _ => false

/-- The element group of element i of a type (R14). -/
def elemGroup (ncore : Bool) (t : Ty) (i : Nat) : Nat :=
  (if t.isScaled then 256 * (i / blockLen t) else i * t.sew) / datapath ncore

/-- The type in whose element groups an instruction's progress counts: that of its vector destination, else its effective type. The spec
names none where the operands' types differ (DESIGN CHOICE, log 46). -/
def groupTy (i : Instr) (s : State) : Ty :=
  (((opsOf i s).find? (·.dst)).map (·.ty)).getD (effTy s.cur.ctl (i.common.bind (·.ty)))

/-- The rows or samples that a T-mode instruction has (R251, R255, R261, R267, R268). -/
def rowsOf (i : Instr) (s : State) : Nat :=
  match i with
  | .tld _ d .. | .tst _ d .. | .tcvt _ d _ => (s.cfg d).rows
  | .tlda .. | .tsta .. => s.shapeM
  | .tmma _ _ _ a _ | .tmmas _ _ _ a _ | .tspmm _ _ _ _ a .. | .tgmm _ _ _ _ a .. | .tbeval _ _ a | .tleaf _ _ _ _ a _ => (s.cfg a).rows
  | _ => 0

/-- Whether an instruction of the stream in focus may stop at index `n`: past VSTART and short of its end, at an element-group boundary
(R14, R40), which for a scaled type is a block boundary (R153), and at a multiple of 96 rows for `tmma`, `tmmas` and `tspmm` (R262). A
`tgmm` goes on to the end of its group (R259). -/
def State.maybeStop (s : State) (i : Instr) (n : Nat) : Bool :=
  interruptible i && s.stream == .ep && decide (s.vstart < n) &&
  if cellIsTile i.cell then
    decide (n < rowsOf i s) && match i with
      | .tmma .. | .tmmas .. | .tspmm .. => n % 96 == 0
      | _ => true
  else decide (n < s.vl) && elemGroup s.ncore (groupTy i s) n != elemGroup s.ncore (groupTy i s) (n - 1)

/-! ## Running -/

/-- The flags of elements that received error values: PSN (R438, R395). -/
def raisePsn (r : Raised) (l : List Nat) : Raised := l.map (fun i => (i, flPSN)) ++ r

/-- The draws that an instruction reserves when it issues (R52): VL for a vector instruction with RM = 4. Function, tile, threshold
and sparse arithmetic instructions reserve their own. For `psst` the spec states no number, and the model takes VL; for `qgetv`, which
rounds nothing, none. Nor do the tile loads and stores, `tshape`, `tbload` and `tbeval`, which round nothing and stand in no list of
R263 (DESIGN CHOICE, log 46). -/
def drawsAtIssue (i : Instr) (s : State) : Nat :=
  match i.common with
  | none => 0
  | some c =>
    if c.rm != .rsr then 0
    else match i.cell with
      | .arv | .vfma | .vcvt | .vcmp | .mask | .perm | .vred | .conf | .xfrm | .vmem | .gath | .subb | .fab | .spmem | .vamo =>
        s.vl
      | .strm => match i with | .sdld .. | .sdst .. => 0 | _ => s.vl
      | _ => 0

/-- Takes `n` consecutive draws of the core's generator (R52): those that the instruction has reserved, where it has waited since. -/
def State.takeDraws (s : State) (n : Nat) : List Nat × State :=
  if n == 0 then ([], s)
  else match s.str.reserve with
    | some seed => ((srDraws n seed).1, s)
    | none =>
      let seed := s.core.srseed
      let (ds, x) := srDraws n seed
      (ds, (s.modCore fun c => { c with srseed := x }).setStr { s.str with reserve := some seed })

/-- The reservation of an instruction that must wait, taken over from as far as it has come (R52). -/
def State.keepDraws (s u : State) : State :=
  match u.str.reserve with
  | none => s
  | some seed => (s.modCore fun c => { c with srseed := u.core.srseed }).setStr { s.str with reserve := some seed }

/-- The draws of an instruction taken, its stream waiting no more. -/
def drawn (i : Instr) (s : State) : List Nat × State := (s.setStr { s.str with wait := none }).takeDraws (drawsAtIssue i s)

/-- What comes before the body: the draws (R52), then the strips of bound operands, and the trim of VL (R199, R200). An error is
the state in which the step ends. -/
def prepare (i : Instr) (s : State) : Except State (Strips × List Nat × State) :=
  let (draws, s0) := drawn i s
  let strips : Except (Flt × State) (Strips × State) :=
    if s0.cur.binds.isEmpty || skipsStrips i s0 then .ok (⟨[], [], [], [], none⟩, s0) else fetchStrips i s0
  match strips with
  | .error (f, s) => .error (match s.str.wait with
    | some w => (s0.keepDraws s).waitIn i w
    | none => takeTrap (s.takeDraws (lateDraws i s0)).2 s.pc (f.trap .read))
  | .ok (st, s1) => .ok (st, draws, match st.trim with | some n => s1.setVl n | none => s1)

/-- The end of an instruction: the strips consumed, then completion with its flags at the next instruction. -/
def finish (i : Instr) (st : Strips) (s : State) (r : Raised) : State := (s.consume st.used).complete i r (s.nextPc i)

/-- The generator after the check that an instruction undergoes, if any (R430). -/
def State.spot (s : State) (chk : Option Check) : State :=
  match chk with
  | none => s
  | some ck => if ck.items.isEmpty then s else (s.pickItem ck).2

/-- Whether an instruction that stands at VSTART has completed an element group or a row since it stood at `start` (R420). -/
def State.advanced (s : State) (i : Instr) (start : Nat) : Bool :=
  if cellIsTile i.cell then decide (start < s.vstart)
  else decide (elemGroup s.ncore (groupTy i s) start < elemGroup s.ncore (groupTy i s) s.vstart)

/-- VTYPE (R21). -/
def State.vtypeWord (s : State) : Word :=
  let c := s.cur.ctl
  BitVec.ofNat 64 ((if c.vill then 2 ^ 63 else 0) + c.lg.val * 16 + c.wc.toNat)

/-- The scalar operands of an instruction that may stop with a progress index (R424). -/
def scalarsOf (i : Instr) (s : State) : List Word :=
  let one (r : Fin 32) : Word := if (effTy s.cur.ctl (i.common.bind (·.ty))).isInt then s.gread r else s.hread r
  match i with
  | .vadd _ _ _ b | .vsub _ _ _ b | .vrsub _ _ _ b | .vmul _ _ _ b | .vmulh _ _ _ b | .vdiv _ _ _ b | .vrem _ _ _ b | .vmin _ _ _ b
  | .vmax _ _ _ b | .vand _ _ _ b | .vor _ _ _ b | .vxor _ _ _ b | .vsll _ _ _ b | .vsrl _ _ _ b | .vsra _ _ _ b | .vsadd _ _ _ b
  | .vssub _ _ _ b | .vsgnj _ _ _ b | .vsgnjn _ _ _ b | .vsel _ _ _ b | .vmv _ _ b =>
    match b with
    | .s r => [one r]
    | _ => []
  | .vcmpeq _ _ _ b | .vcmpne _ _ _ b | .vcmplt _ _ _ b | .vcmple _ _ _ b | .vcmpgt _ _ _ b | .vcmpge _ _ _ b =>
    match b with
    | .s r => [one r]
    | _ => []
  | .vputh _ _ a => [s.hread a]
  | .vputg _ _ a | .vld _ _ a _ | .vst _ _ a _ | .vldb _ _ a _ | .vstb _ _ a _ | .vldx _ _ a _ _ _ | .vstx _ _ a _ _ _ => [s.gread a]
  | .vlds _ _ a b | .vsts _ _ a b | .vstm _ _ a b | .vldr _ _ a b | .vldrmin _ _ a b | .vldrmax _ _ a b
  | .tld _ _ a b | .tst _ _ a b | .tlda _ _ _ a b | .tsta _ _ _ a b => [s.gread a, s.gread b]
  | .vamoswap _ _ _ _ _ a _ _ | .vamoadd _ _ _ _ _ a _ _ | .vamoand _ _ _ _ _ a _ _ | .vamoor _ _ _ _ _ a _ _
  | .vamoxor _ _ _ _ _ a _ _ | .vamomin _ _ _ _ _ a _ _ | .vamomax _ _ _ _ _ a _ _ | .vamofadd _ _ _ _ _ a _ _
  | .vamofmin _ _ _ _ _ a _ _ | .vamofmax _ _ _ _ _ a _ _ => [s.gread a]
  | _ => []

/-- An instruction of the EP that has performed part of its work from `start`, with VSTART where it resumes: its flags are owed (R28), and
it waits for something, or is interrupted, and then reserves draws afresh (R52). An adjournment record carries its progress index (R40,
R424). The progress clock starts again where it has completed a group (R420). -/
def State.partly (s : State) (i : Instr) (start : Nat) (w : Option Wait) (r : Raised) : State :=
  let s := s.modVlc fun v => { v with
    owedFlags := v.owedFlags ++ r
    inFlight := [⟨s.pc, evalOf i, s.vstart, BitVec.ofNat 64 s.vl, s.vtypeWord, scalarsOf i s⟩]
    busy := (s.flying i).map (fun f => { f with index := s.vstart }) ++ v.busy.filter fun f => (s.flying i).all fun x => x.reg != f.reg
    clock := if s.advanced i start then 0 else v.clock }
  match w with
  | some w => s.waitIn i w
  | none => (s.setStr { s.str with wait := none, reserve := none }).modVlc fun v => { v with clock := 0 }

/-- The index at which an instruction that has come to the end of its body has stopped: a `tgmm` sees to it itself (R259). -/
def cutAt (i : Instr) (limit : Option Nat) : Option Nat :=
  match i with
  | .tgmm .. => none
  | _ => if i.common.isSome then limit else none

/-- What an instruction that has come to the end of its body comes to: its completion, or where it is interrupted or goes on to wait for
`w` the part below that index (R40). A load whose fault has trimmed VL to that index or less has no more to do (R181). -/
def Eff.upTo (e : Eff) (i : Instr) (limit : Option Nat) (w : Option Wait) : Eff :=
  match e, cutAt i limit with
  | .done s r psn chk, some n => if !cellIsTile i.cell && decide (s.vl ≤ n) then .done s r psn chk else .part (s.setVstart n) w r psn chk
  | e, _ => e

/-- Whether a failure is one after a repair, since the strip it falls in has been rewound (R436). -/
def State.repaired (s : State) : Bool := s.stream == .ep && s.cur.strip.isOpen && s.cur.strip.rewound && !s.cur.ctl.tm

/-- The state from which an instruction begun in `s0` that came to `bad` is executed once more (R436): its context, its stores and what it
has pushed are as before, its draws are reserved afresh (R52), and what its reads and the counters have done stays. -/
def State.again (s0 bad : State) : State :=
  { bad with
    cur := s0.cur.setStr s0.stream { s0.str with reserve := none }
    pend := s0.pend, commands := s0.commands, queues := s0.queues, tasks := s0.tasks, nextTask := s0.nextTask }

/-- What the checkers make of a result (R430, R436, R438), and an uncorrectable error of a per-core store, which is consumed as poison is
(R446; log 12): it stands, and `close` ends the instruction; or the strip is rewound; or the
instruction is executed once more, from the right-hand state, where it has not been (`last`) and its strip has not been rewound. -/
def checked (s0 : State) (last : Bool) (close : State → Raised → State) (s : State) (r : Raised) :
    Option Check → State ⊕ State
  | none => .inl (close s r)
  | some ck =>
    if ck.items.isEmpty then .inl (close s r)
    else
      let (item, s) := s.pickItem ck
      match s.upset with
      | none => .inl (close s r)
      | some u =>
        let bad := if u.store then s.dropUpset.modDie s.cur.loc.die fun d => { d with comue := d.comue + 1 }
          else s.dropUpset.countMismatch (!ck.array) (ck.lane item)
        match s.rewindable with
        | some c => .inl (bad.rewind c (if u.store then 1 else 0) item)
        | none =>
          if !last && !s0.repaired then .inr (s0.again bad)
          else if u.store then .inl (close ((ck.spoil item bad).notePoison [item]) ((item, flPSN) :: r))
          else .inl (close ((ck.spoil item bad).repeated 7 item) ((item, flSCM) :: r))

/-- A result with what its strips brought (R395, R436, R438): consumed poison rewinds the strip where it can be, or has the instruction
executed once more; after that it is counted. -/
def judged (s0 : State) (st : Strips) (last : Bool) (close : State → Raised → State) (s : State) (r : Raised)
    (psn : List Nat) (chk : Option Check) : State ⊕ State :=
  let psn := psn ++ st.psn
  match (if psn.isEmpty then none else s.rewindable) with
  | some ck => .inl (s.rewind ck 1 (psn.foldl min (psn.headD 0)))
  | none =>
    if !psn.isEmpty && !last && !s0.repaired then .inr (s0.again s)
    else checked s0 last close (s.notePoison psn) (raisePsn r (st.psn ++ st.absent)) chk

/-- What a body comes to: the state in which the step ends, or the state from which the instruction is executed once more after a
mismatch (R436). The part below the index of an interruption is checked, with a draw of SPOTSEED, like an instruction of its own: R177
speaks of instructions that retire and names no such part (DESIGN CHOICE, log 46). -/
def conclude (i : Instr) (s0 : State) (st : Strips) (last : Bool) (eff : Eff) : State ⊕ State :=
  match eff.held with
  | some w => .inl ((s0.keepDraws eff.state).waitIn i w)
  | none =>
    match eff with
    | .stop s => .inl s
    | .wait s w => .inl (s.waitIn i w)
    | .trap s t => .inl (takeTrap s s.pc t)
    | .jump s pc => .inl ((s.consume st.used).complete i [] pc)
    | .done s r psn chk => judged s0 st last (finish i st) s r psn chk
    | .part s w r psn chk => judged s0 st last (fun s r => (s.countWaits st.used).partly i s0.vstart w r) s r psn chk

/-- One execution of a body from the state after the gate, as far as `limit`: what it comes to, and what an access of it has to be held
for, if one has; `last` says that it has been executed once, and `w` what it waits for at `limit`. -/
def attemptTo (i : Instr) (s0 : State) (body : View → List Nat → State → Eff) (last : Bool) (limit : Option Nat) (w : Option Wait) :
    (State ⊕ State) × Option Wait :=
  match prepare i { s0 with limit := limit } with
  | .error s => (.inl s, s.str.wait)
  | .ok (st, draws, s1) =>
    let eff := ((body st.view draws s1).map (·.markedBy i s1)).upTo i s1.limit w
    (conclude i s0 st last eff, eff.held)

/-- One execution of a body. One of which an access has to be held performs what comes before the group, row or sample of that access, and
waits there (R342, R421). -/
def attempt (i : Instr) (s0 : State) (body : View → List Nat → State → Eff) (last : Bool) : State ⊕ State :=
  match attemptTo i s0 body last s0.limit none with
  | (r, none) => r
  | (r, some w) =>
    let stops := (List.range (max s0.vl (rowsOf i s0))).filter fun n => s0.maybeStop i n && s0.below n
    let parts := stops.reverse.map fun n => attemptTo i s0 body last (some n) (some w)
    match parts.find? (·.2.isNone) with
    | some p => p.1.map (fun s => { s with limit := s0.limit }) fun s => { s with limit := s0.limit }
    | none => r

/-- An instruction from the state after the gate, with the one repair of R436. -/
def settle (i : Instr) (s : State) (body : View → List Nat → State → Eff) : State :=
  match attempt i s body false with
  | .inl s => s
  | .inr s => match attempt i s body true with
    | .inl s => s
    | .inr s => s

/-- Runs an instruction (R118, R105, R41): the gate, then the body. -/
def runInstr (i : Instr) (s : State) (body : View → List Nat → State → Eff) : Host.Outcome State Fault Refusal :=
  match gate i s with
  | .error t => .next t
  | .ok t => .next (settle i t body)

/-- Runs an instruction that names no bound register. -/
def runPlain (i : Instr) (s : State) (body : State → Eff) : Host.Outcome State Fault Refusal :=
  runInstr i s fun _ _ t => body t

/-- Runs an integer instruction of cells IRR, IIM, LUP and PCU: no decode-time check, wait or token concerns it, so that its
execution is that of a `nop` but for its body (R107, R122 to R124). -/
def runScalar (s : State) (body : State → Eff) : Host.Outcome State Fault Refusal :=
  .next (settle .nop s fun _ _ t => body t)

end Sys2Proof.Machine
end

