-- ==== Sys2Proof/Machine/Fetch.lean ====
section
/-! DEFINITION. Instruction fetch (R93, R118 step 1, R119, R120), the choice of the context and stream that runs, and where a
word is put to be fetched next. -/

namespace Sys2Proof.Machine

/-- A parcel as memory and the buffers from level 1 outward hold it now. -/
def State.parcelNow (s : State) (gas : List Nat) : ReadRes × State := s.readBytes ⟨s.cur.loc, none, 1⟩ gas

/-- A parcel drawn for an address: it comes first among what has been fetched there, and the one that memory holds stays. -/
def State.drawParcel (s : State) (va : Nat) (p new : Parcel) : State :=
  s.modVlc fun v =>
    let rest := v.fetched.filter fun x => x != (va, p) && x != (va, new)
    { v with fetched := (va, p) :: if p == new then rest else (va, new) :: rest }

/-- Fetches one parcel (R120): the one that memory holds now, or any that has been fetched there since the last `fence` of kind
`ifetch` (log 13). A fetch that has to be held marks its stream (R342). One that comes poisoned or that nobody answers is an access fault
(DESIGN CHOICE, log 33). -/
def State.fetchParcel (s : State) (va : Word) : Except Flt Parcel × State :=
  match s.xlateN .fetch va 4 with
  | (.error f, s) => (.error f, s)
  | (.ok gas, s) =>
    let (r, s) := s.parcelNow gas
    if r.held then (.error ⟨false, false, 0, va, true⟩, s.markHeld (.load va))
    else if r.poison || r.absent then (.error (.accessAt va), s)
    else
      let new : Parcel := BitVec.ofNat 32 (leNat r.bytes)
      let old := ((s.cur.fetched.filter (·.1 == va.toNat)).map (·.2)).filter (· != new)
      if old.isEmpty then (.ok new, s.drawParcel va.toNat new new)
      else
        let p := (new :: old).getD (Config.freeParcel s.fresh % (old.length + 1)) new
        (.ok p, (s.bump).drawParcel va.toNat p new)

/-- A parcel fetched ahead of its instruction (R120; log 13). -/
def State.prefetchParcel (s : State) (va : Word) : State :=
  match s.fetchParcel va with
  | (.ok _, t) => t
  | (.error _, _) => s

/-- Fetches `n` parcels from an address; the first that cannot be fetched gives the trap (R119), none where the fetch has to be
held (R342). -/
def State.fetchParcels (s : State) (va : Word) : Nat → Except (Option TrapReq) (List Parcel) × State
  | 0 => (.ok [], s)
  | n + 1 =>
    match s.fetchParcel va with
    | (.error f, s) => (.error (if f.held then none else some { f.fetchTrap with val := va }), s)
    | (.ok p, s) =>
      match State.fetchParcels s (va + 4) n with
      | (.error t, s) => (.error t, s)
      | (.ok ps, s) => (.ok (p :: ps), s)

/-- The parcels that step 1 of R118 fetches beyond the first: the second of a 64-bit instruction, every member position of a
convoy, for CNT 5 to 7 too (R114). -/
def restParcels (w : Parcel) : Nat :=
  if isLong w then 1
  else if w.extractLsb' 1 6 == 0x1F then
    2 * ((w.extractLsb' 7 3).toNat + 2)
  else 0

/-- The parcels of the instruction at pc. -/
def State.fetchAll (s : State) : Except (Option TrapReq) (List Parcel) × State :=
  match s.fetchParcels s.pc 1 with
  | (.error t, s) => (.error t, s)
  | (.ok ps, s) =>
    match s.fetchParcels (s.pc + 4) (restParcels (ps.headD 0)) with
    | (.error t, s) => (.error t, s)
    | (.ok qs, s) => (.ok (ps ++ qs), s)

/-- EVAL of an encoding that is no instruction (R119): both parcels where it begins a 64-bit one. -/
def rawWord (ps : List Parcel) : Word :=
  if isLong (ps.headD 0) then encodingWord (ps.take 2) else encodingWord (ps.take 1)

/-- Whether the stream in focus may issue: a live context, the stream running, and no handler of the other stream (R416). -/
def State.runnable (s : State) : Bool :=
  s.cur.live && s.str.run == .running && (s.cur.handler.isNone || s.cur.handler == some s.stream)

/-- Brings a context and stream into focus. -/
def State.focus (s : State) (l : Loc) (st : Stream) : Option State :=
  if s.cur.live && s.cur.loc == l then some { s with stream := st }
  else match s.parked.find? (·.loc == l) with
    | none => none
    | some v =>
      let rest := s.parked.filter (·.loc != l)
      some { s with stream := st, cur := v, parked := if s.cur.live then s.cur :: rest else rest }

/-- Renaming takes the physical registers that only the checkpoint of a context's open strip holds: where that is the oldest armed strip
of the core, it is disarmed (R435; log 27). -/
def State.renamingDisarms (s : State) (l : Loc) : State :=
  match s.focus l .ep with
  | some t =>
    if (t.onCore l.coreId).all fun v => v.strip.armed.isNone || decide (t.cur.strip.age ≤ v.strip.age) then
      { t.disarm with stream := if s.cur.loc == l then s.stream else .ep }
    else s
  | none => s

/-- Where `withFetchWord` launches a context when none can run: DRAM of die 0. -/
def State.launchPc (s : State) : Word := BitVec.ofNat 64 (s.gaOf 0x10000)

/-- A state in which an instruction can be fetched at pc from a bare address, with `bytes` there (log 5): the context in focus
where it can run so, else a context launched at `launchPc`. -/
def State.placeBytes (s : State) (bytes : List Byte) : State :=
  let fits := s.runnable && (s.cur.ctl.atp >>> 60) == 0 && s.pc.toNat % 4 == 0 && decide (s.pc.toNat < 2 ^ 63 - bytes.length) &&
    (List.range bytes.length).all fun k => !s.gaFaults (s.pc.toNat + k)
  let s := if fits then s
    else { s with stream := .ep, cur := Vlc.create ⟨0, 0, 0⟩ s.launchPc 0 0 0, reserved := [],
                  parked := s.parked.filter (·.loc != ⟨0, 0, 0⟩) }
  let at_ := s.pc.toNat
  { s with
    agenda := []
    powered := true
    mem := writeMem s.mem at_ bytes
    pend := s.pend.filter fun e => !e.bytes.any fun b => decide (at_ ≤ b.ga ∧ b.ga < at_ + bytes.length)
    cur := { s.cur with fetched := [] } }

end Sys2Proof.Machine
end

