-- ==== Sys2Proof/Machine/Scalar.lean ====
section
/-! DEFINITION. The scalar integer and floating instructions, and scalar loads and stores (R122 to R134). -/

namespace Sys2Proof.Machine

/-! ## Integer instructions (R122 to R125) -/

/-- An instruction that writes G[D] from the state it reads and raises no flag. -/
def gResult (i : Instr) (d : Fin 32) (f : State → Word) (s : State) : Host.Outcome State Fault Refusal :=
  runPlain i s fun t => .ok (t.gwrite d (f t))

/-- The same for the integer instructions of `runScalar`. -/
def gScalar (d : Fin 32) (f : State → Word) (s : State) : Host.Outcome State Fault Refusal :=
  runScalar s fun t => .ok (t.gwrite d (f t))

def b2w (b : Bool) : Word := if b then 1 else 0

/-- Shift counts use the low six bits (R122). -/
def shamt (x : Word) : Nat := x.toNat % 64

/-- The low 32 bits of a word, sign-extended (R122). -/
def sextw (x : Word) : Word := (x.setWidth 32).signExtend 64

/-- Leading zeros (R122). -/
def leadingZeros (x : Word) : Nat := if x = 0 then 64 else 63 - Nat.log2 x.toNat
/-- Trailing zeros among the low `n` bits from bit `k`. -/
def trailingFrom (x : Nat) : Nat → Nat → Nat
  | 0, _ => 0
  | n + 1, k => if x.testBit k then 0 else 1 + trailingFrom x n (k + 1)
def trailingZeros (x : Word) : Nat := trailingFrom x.toNat 64 0
def popCount (x : Word) : Nat := ((List.range 64).filter fun k => x.getLsbD k).length

/-- IMM12 as R96 reads it. -/
def sext12 (imm : BitVec 12) : Word := imm.signExtend 64
/-- IMM20 as R96 reads it: bits [31:12], sign-extended. -/
def upperImm (imm : BitVec 20) : Word := (imm ++ (0#12)).signExtend 64

def execAdd (d a b : Fin 32) (s : State) := gScalar d (fun t => t.gread a + t.gread b) s
def execSub (d a b : Fin 32) (s : State) := gScalar d (fun t => t.gread a - t.gread b) s
def execAnd (d a b : Fin 32) (s : State) := gScalar d (fun t => t.gread a &&& t.gread b) s
def execOr (d a b : Fin 32) (s : State) := gScalar d (fun t => t.gread a ||| t.gread b) s
def execXor (d a b : Fin 32) (s : State) := gScalar d (fun t => t.gread a ^^^ t.gread b) s
def execSll (d a b : Fin 32) (s : State) := gScalar d (fun t => t.gread a <<< shamt (t.gread b)) s
def execSrl (d a b : Fin 32) (s : State) := gScalar d (fun t => t.gread a >>> shamt (t.gread b)) s
def execSra (d a b : Fin 32) (s : State) :=
  gScalar d (fun t => (t.gread a).sshiftRight (shamt (t.gread b))) s
def execSlt (d a b : Fin 32) (s : State) := gScalar d (fun t => b2w ((t.gread a).slt (t.gread b))) s
def execSltn (d a b : Fin 32) (s : State) := gScalar d (fun t => b2w ((t.gread a).ult (t.gread b))) s
def execMin (d a b : Fin 32) (s : State) :=
  gScalar d (fun t => if (t.gread b).slt (t.gread a) then t.gread b else t.gread a) s
def execMinn (d a b : Fin 32) (s : State) :=
  gScalar d (fun t => if (t.gread b).ult (t.gread a) then t.gread b else t.gread a) s
def execMax (d a b : Fin 32) (s : State) :=
  gScalar d (fun t => if (t.gread a).slt (t.gread b) then t.gread b else t.gread a) s
def execMaxn (d a b : Fin 32) (s : State) :=
  gScalar d (fun t => if (t.gread a).ult (t.gread b) then t.gread b else t.gread a) s
def execClz (d a : Fin 32) (s : State) := gScalar d (fun t => BitVec.ofNat 64 (leadingZeros (t.gread a))) s
def execCtz (d a : Fin 32) (s : State) := gScalar d (fun t => BitVec.ofNat 64 (trailingZeros (t.gread a))) s
def execPcnt (d a : Fin 32) (s : State) := gScalar d (fun t => BitVec.ofNat 64 (popCount (t.gread a))) s
def execAddw (d a b : Fin 32) (s : State) := gScalar d (fun t => sextw (t.gread a + t.gread b)) s
def execSubw (d a b : Fin 32) (s : State) := gScalar d (fun t => sextw (t.gread a - t.gread b)) s

def execAddi (d a : Fin 32) (imm : BitVec 12) (s : State) :=
  gScalar d (fun t => t.gread a + sext12 imm) s
def execAndi (d a : Fin 32) (imm : BitVec 12) (s : State) :=
  gScalar d (fun t => t.gread a &&& sext12 imm) s
def execOri (d a : Fin 32) (imm : BitVec 12) (s : State) :=
  gScalar d (fun t => t.gread a ||| sext12 imm) s
def execXori (d a : Fin 32) (imm : BitVec 12) (s : State) :=
  gScalar d (fun t => t.gread a ^^^ sext12 imm) s
def execSlti (d a : Fin 32) (imm : BitVec 12) (s : State) :=
  gScalar d (fun t => b2w ((t.gread a).slt (sext12 imm))) s
def execSltni (d a : Fin 32) (imm : BitVec 12) (s : State) :=
  gScalar d (fun t => b2w ((t.gread a).ult (sext12 imm))) s
def execSlli (d a : Fin 32) (sh : BitVec 6) (s : State) := gScalar d (fun t => t.gread a <<< sh.toNat) s
def execSrli (d a : Fin 32) (sh : BitVec 6) (s : State) := gScalar d (fun t => t.gread a >>> sh.toNat) s
def execSrai (d a : Fin 32) (sh : BitVec 6) (s : State) :=
  gScalar d (fun t => (t.gread a).sshiftRight sh.toNat) s

/-- R124. -/
def execLui (d : Fin 32) (imm : BitVec 20) (s : State) := gScalar d (fun _ => upperImm imm) s
def execPcui (d : Fin 32) (imm : BitVec 20) (s : State) := gScalar d (fun t => t.pc + upperImm imm) s

/-- The high word of a product. -/
def highWord (x : Int) : Word := BitVec.ofInt 64 (x / 2 ^ 64)

def execMul (d a b : Fin 32) (s : State) := gResult (.mul d a b) d (fun t => t.gread a * t.gread b) s
def execMulh (d a b : Fin 32) (s : State) :=
  gResult (.mulh d a b) d (fun t => highWord ((t.gread a).toInt * (t.gread b).toInt)) s
def execMulhn (d a b : Fin 32) (s : State) :=
  gResult (.mulhn d a b) d (fun t => highWord ((t.gread a).toNat * (t.gread b).toNat : Nat)) s
def execMulhsn (d a b : Fin 32) (s : State) :=
  gResult (.mulhsn d a b) d (fun t => highWord ((t.gread a).toInt * (t.gread b).toNat)) s

/-- Quotient and remainder of a type's raw elements (R44, R125, R157): by zero, all ones and the dividend with DZ; the most
negative value by -1 wraps. -/
def intDiv (t : Ty) (x y : Nat) : Nat × Fl :=
  if y % 2 ^ t.sew == 0 then (2 ^ t.sew - 1, flDZ) else (wrapInt t ((intOf t x).tdiv (intOf t y)), 0)
def intRem (t : Ty) (x y : Nat) : Nat × Fl :=
  if y % 2 ^ t.sew == 0 then (x % 2 ^ t.sew, flDZ) else (wrapInt t ((intOf t x).tmod (intOf t y)), 0)

/-- A division: G[D], and DZ for a zero divisor (R125). -/
def gDivide (i : Instr) (d a b : Fin 32) (f : Nat → Nat → Nat × Fl) (s : State) : Host.Outcome State Fault Refusal :=
  runPlain i s fun t =>
    let (r, fl) := f (t.gread a).toNat (t.gread b).toNat
    .flags (t.gwrite d (BitVec.ofNat 64 r)) fl

def execDiv (d a b : Fin 32) (s : State) := gDivide (.div d a b) d a b (intDiv .s64) s
def execDivn (d a b : Fin 32) (s : State) := gDivide (.divn d a b) d a b (intDiv .n64) s
def execRem (d a b : Fin 32) (s : State) := gDivide (.rem d a b) d a b (intRem .s64) s
def execRemn (d a b : Fin 32) (s : State) := gDivide (.remn d a b) d a b (intRem .n64) s

/-! ## Scalar loads and stores (R127, R128, R132) -/

/-- A scalar load of `n` bytes: `put` writes the register, `err` is what poison or a missing answer leaves (R438, R395). -/
def scalarLoad (va : Word) (n : Nat) (put : State → Nat → State) (err : State → State) (t : State) : Eff :=
  match t.load va n with
  | (.error f, t) => .trap t (f.trap .read)
  | (.ok r, t) =>
    if r.absent then .done (err t) [(0, flPSN)] [] none
    else if r.poison then .done (err t) [(0, flPSN)] [0] none
    else .ok (put t (leNat r.bytes))

/-- A scalar store of bytes. -/
def scalarStore (va : Word) (bs : List Byte) (t : State) : Eff :=
  match t.store false va bs with
  | (.error f, t) => .trap t (f.trap .write)
  | (.ok (), t) => .ok t

/-- Bytes of a load kind, and whether it sign-extends (R127). -/
def ldBytes : LdKind → Nat
  | .s8 | .n8 => 1 | .s16 | .n16 => 2 | .s32 | .n32 => 4 | .s64 | .n64 => 8
def ldExtend (k : LdKind) (x : Nat) : Word :=
  match k with
  | .s8 => (BitVec.ofNat 8 x).signExtend 64 | .s16 => (BitVec.ofNat 16 x).signExtend 64
  | .s32 => (BitVec.ofNat 32 x).signExtend 64 | _ => BitVec.ofNat 64 x
def stBytes : StKind → Nat
  | .n8 => 1 | .n16 => 2 | .n32 => 4 | .n64 => 8

def execSld (k : LdKind) (d a : Fin 32) (imm : BitVec 12) (s : State) :=
  runPlain (.sld k d a imm) s fun t =>
    scalarLoad (t.gread a + sext12 imm) (ldBytes k) (fun t x => t.gwrite d (ldExtend k x)) (fun t => t.gwrite d 0) t
def execSst (k : StKind) (d a : Fin 32) (imm : BitVec 12) (s : State) :=
  runPlain (.sst k d a imm) s fun t =>
    scalarStore (t.gread a + sext12 imm) (leBytes (stBytes k) (t.gread d).toNat) t

/-- A floating load: bits unchanged, upper bits zero; `err` is the value of R438 for consumed poison. -/
def floatLoad (i : Instr) (d a : Fin 32) (imm : BitVec 12) (n : Nat) (err : Word) (s : State) :
    Host.Outcome State Fault Refusal :=
  runPlain i s fun t =>
    scalarLoad (t.gread a + sext12 imm) n (fun t x => t.hwrite d (BitVec.ofNat 64 x)) (fun t => t.hwrite d err) t

def execFldF64 (d a : Fin 32) (imm : BitVec 12) (s : State) := floatLoad (.fldF64 d a imm) d a imm 8 0x7FF8000000000000 s
def execFldF32 (d a : Fin 32) (imm : BitVec 12) (s : State) := floatLoad (.fldF32 d a imm) d a imm 4 0x7FC00000 s
def execFldF16 (d a : Fin 32) (imm : BitVec 12) (s : State) := floatLoad (.fldF16 d a imm) d a imm 2 0x7FFF s

def floatStore (i : Instr) (d a : Fin 32) (imm : BitVec 12) (n : Nat) (s : State) : Host.Outcome State Fault Refusal :=
  runPlain i s fun t => scalarStore (t.gread a + sext12 imm) (leBytes n (t.hread d).toNat) t

def execFstF64 (d a : Fin 32) (imm : BitVec 12) (s : State) := floatStore (.fstF64 d a imm) d a imm 8 s
def execFstF32 (d a : Fin 32) (imm : BitVec 12) (s : State) := floatStore (.fstF32 d a imm) d a imm 4 s
def execFstF16 (d a : Fin 32) (imm : BitVec 12) (s : State) := floatStore (.fstF16 d a imm) d a imm 2 s

/-! ## Scalar floating instructions (R129 to R134) -/

/-- The type of a format. -/
def ffTy : FFmt → Ty
  | .f64 => .f64 | .f32 => .f32 | .f16 => .f16 | .bf16 => .bf16
def ifTy : IFmt → Ty
  | .s32 => .s32 | .n32 => .n32 | .s64 => .s64 | .n64 => .n64

/-- The value of a format in the low bits of H[n] (R11). -/
def State.hraw (s : State) (t : Ty) (n : Fin 32) : Nat := (s.hread n).toNat % 2 ^ t.sew
def State.hval (s : State) (t : Ty) (n : Fin 32) : FVal := readTy t (s.hraw t n)

/-- H[D] := rnd(x) to nearest, ties to even, with the flags of the operation (R134). -/
def hRound (i : Instr) (f : FFmt) (d : Fin 32) (op : State → Exact × Fl) (s : State) : Host.Outcome State Fault Refusal :=
  runPlain i s fun t =>
    let (x, f1) := op t
    let (r, f2) := writeFloat (ffTy f) .rne false x 0
    .flags (t.hwrite d (BitVec.ofNat 64 r)) (f1 ||| f2)

def execFadd (f : FFmt) (d a b : Fin 32) (s : State) :=
  hRound (.fadd f d a b) f d (fun t => fAdd .rne (t.hval (ffTy f) a) (t.hval (ffTy f) b)) s
def execFsub (f : FFmt) (d a b : Fin 32) (s : State) :=
  hRound (.fsub f d a b) f d (fun t => fAdd .rne (t.hval (ffTy f) a) (t.hval (ffTy f) b).neg) s
def execFmul (f : FFmt) (d a b : Fin 32) (s : State) :=
  hRound (.fmul f d a b) f d (fun t => fMul (t.hval (ffTy f) a) (t.hval (ffTy f) b)) s
def execFdiv (f : FFmt) (d a b : Fin 32) (s : State) :=
  hRound (.fdiv f d a b) f d (fun t => fDiv (t.hval (ffTy f) a) (t.hval (ffTy f) b)) s
def execFsqrt (f : FFmt) (d a : Fin 32) (s : State) := hRound (.fsqrt f d a) f d (fun t => fSqrt (t.hval (ffTy f) a)) s

/-- H[D] := a raw value of the format, with flags. -/
def hRaw (i : Instr) (d : Fin 32) (op : State → Nat × Fl) (s : State) : Host.Outcome State Fault Refusal :=
  runPlain i s fun t => let (r, fl) := op t; .flags (t.hwrite d (BitVec.ofNat 64 r)) fl

def execFmin (f : FFmt) (d a b : Fin 32) (s : State) :=
  hRaw (.fmin f d a b) d (fun t => fMinMax (ffTy f) false (t.hraw (ffTy f) a) (t.hraw (ffTy f) b)) s
def execFmax (f : FFmt) (d a b : Fin 32) (s : State) :=
  hRaw (.fmax f d a b) d (fun t => fMinMax (ffTy f) true (t.hraw (ffTy f) a) (t.hraw (ffTy f) b)) s
def execFsgnj (f : FFmt) (d a b : Fin 32) (s : State) :=
  hRaw (.fsgnj f d a b) d (fun t => (withSign (ffTy f) (t.hraw (ffTy f) a) (signBit (ffTy f) (t.hraw (ffTy f) b)), 0)) s
def execFsgnjn (f : FFmt) (d a b : Fin 32) (s : State) :=
  hRaw (.fsgnjn f d a b) d (fun t => (withSign (ffTy f) (t.hraw (ffTy f) a) (!signBit (ffTy f) (t.hraw (ffTy f) b)), 0)) s
def execFsgnjx (f : FFmt) (d a b : Fin 32) (s : State) :=
  hRaw (.fsgnjx f d a b) d (fun t => (withSign (ffTy f) (t.hraw (ffTy f) a)
    (signBit (ffTy f) (t.hraw (ffTy f) a) != signBit (ffTy f) (t.hraw (ffTy f) b)), 0)) s

/-- G[D] := a truth, with flags. -/
def gTest (i : Instr) (d : Fin 32) (op : State → Bool × Fl) (s : State) : Host.Outcome State Fault Refusal :=
  runPlain i s fun t => let (r, fl) := op t; .flags (t.gwrite d (b2w r)) fl

def execFeq (f : FFmt) (d a b : Fin 32) (s : State) :=
  gTest (.feq f d a b) d (fun t => fTest true (· == .eq) false (t.hval (ffTy f) a) (t.hval (ffTy f) b)) s
def execFlt (f : FFmt) (d a b : Fin 32) (s : State) :=
  gTest (.flt f d a b) d (fun t => fTest false (· == .lt) false (t.hval (ffTy f) a) (t.hval (ffTy f) b)) s
def execFle (f : FFmt) (d a b : Fin 32) (s : State) :=
  gTest (.fle f d a b) d (fun t => fTest false (· != .gt) false (t.hval (ffTy f) a) (t.hval (ffTy f) b)) s
def execFclass (f : FFmt) (d a : Fin 32) (s : State) :=
  gResult (.fclass f d a) d (fun t => BitVec.ofNat 64 (fClass (ffTy f) (t.hraw (ffTy f) a))) s

/-- R131. -/
def hFma (f : FFmt) (np nc : Bool) (a b c : Fin 32) (t : State) : Exact × Fl :=
  fFma .rne np nc (t.hval (ffTy f) a) (t.hval (ffTy f) b) (t.hval (ffTy f) c)
def execFmadd (f : FFmt) (d a b c : Fin 32) (s : State) := hRound (.fmadd f d a b c) f d (hFma f false false a b c) s
def execFmsub (f : FFmt) (d a b c : Fin 32) (s : State) := hRound (.fmsub f d a b c) f d (hFma f false true a b c) s
def execFnmadd (f : FFmt) (d a b c : Fin 32) (s : State) := hRound (.fnmadd f d a b c) f d (hFma f true true a b c) s
def execFnmsub (f : FFmt) (d a b c : Fin 32) (s : State) := hRound (.fnmsub f d a b c) f d (hFma f true false a b c) s

/-- R133. -/
def execFmvgh (d a : Fin 32) (s : State) := gResult (.fmvgh d a) d (fun t => t.hread a) s
def execFmvhg (d a : Fin 32) (s : State) := hRaw (.fmvhg d a) d (fun t => ((t.gread a).toNat, 0)) s
def execFcvtFloatFloat (g f : FFmt) (d a : Fin 32) (s : State) :=
  hRaw (.fcvtFloatFloat g f d a) d (fun t => convert (ffTy g) (ffTy f) .rne false (t.hraw (ffTy f) a) 0) s

/-- An integer result in G: s32 sign-extended, n32 zero-extended. -/
def gExtend (it : IFmt) (x : Nat) : Word :=
  match it with
  | .s32 => (BitVec.ofNat 32 x).signExtend 64
  | _ => BitVec.ofNat 64 x
def floatToInt (i : Instr) (it : IFmt) (f : FFmt) (rm : Rm) (d a : Fin 32) (s : State) : Host.Outcome State Fault Refusal :=
  runPlain i s fun t =>
    let (r, fl) := writeInt (ifTy it) rm (t.hval (ffTy f) a) 0
    .flags (t.gwrite d (gExtend it r)) fl
def execFcvtFloatInt (it : IFmt) (f : FFmt) (d a : Fin 32) (s : State) :=
  floatToInt (.fcvtFloatInt it f d a) it f .rne d a s
def execFcvtz (it : IFmt) (f : FFmt) (d a : Fin 32) (s : State) := floatToInt (.fcvtz it f d a) it f .rtz d a s
def execFcvtIntFloat (f : FFmt) (it : IFmt) (d a : Fin 32) (s : State) :=
  hRaw (.fcvtIntFloat f it d a) d (fun t => convert (ffTy f) (ifTy it) .rne false ((t.gread a).toNat % 2 ^ (ifTy it).sew) 0) s

end Sys2Proof.Machine
end

