-- ==== Sys2Proof/Machine/Control.lean ====
section
/-! DEFINITION. Branches, jumps and the return-address stack (R135 to R140), strip control and its arbitration (R141 to R144,
R315 to R318), modes and the access stream (R145, R146), control registers (R18 to R30, R147), hints and convoys (R110 to
R117). -/

namespace Sys2Proof.Machine

/-! ## Branches (R135, R138, R140) -/

/-- PC + sext(OFF) × 4. -/
def State.target {w : Nat} (s : State) (off : BitVec w) : Word := s.pc + off.signExtend 64 * 4

/-- A branch. -/
def branchIf (i : Instr) (off : BitVec 12) (p : State → Bool) (s : State) : Host.Outcome State Fault Refusal :=
  runPlain i s fun t => if p t then .jump t (t.target off) else .ok t

def execBeq (a b : Fin 32) (off : BitVec 12) (s : State) :=
  branchIf (.beq a b off) off (fun t => t.gread a == t.gread b) s
def execBne (a b : Fin 32) (off : BitVec 12) (s : State) :=
  branchIf (.bne a b off) off (fun t => t.gread a != t.gread b) s
def execBlt (a b : Fin 32) (off : BitVec 12) (s : State) :=
  branchIf (.blt a b off) off (fun t => (t.gread a).slt (t.gread b)) s
def execBge (a b : Fin 32) (off : BitVec 12) (s : State) :=
  branchIf (.bge a b off) off (fun t => !(t.gread a).slt (t.gread b)) s
def execBltn (a b : Fin 32) (off : BitVec 12) (s : State) :=
  branchIf (.bltn a b off) off (fun t => (t.gread a).ult (t.gread b)) s
def execBgen (a b : Fin 32) (off : BitVec 12) (s : State) :=
  branchIf (.bgen a b off) off (fun t => !(t.gread a).ult (t.gread b)) s

/-- Bits 0 to VL - 1 of a mask register that equal `b`, as a list of indices. -/
def State.mbits (s : State) (m : Fin 8) (b : Bool) : List Nat := (List.range s.vl).filter fun i => (s.mread m).testBit i == b

def execBany (m : Fin 8) (off : BitVec 12) (s : State) := branchIf (.bany m off) off (fun t => !(t.mbits m true).isEmpty) s
def execBall (m : Fin 8) (off : BitVec 12) (s : State) := branchIf (.ball m off) off (fun t => (t.mbits m false).isEmpty) s
def execBnone (m : Fin 8) (off : BitVec 12) (s : State) := branchIf (.bnone m off) off (fun t => (t.mbits m true).isEmpty) s
def execBnall (m : Fin 8) (off : BitVec 12) (s : State) :=
  branchIf (.bnall m off) off (fun t => !(t.mbits m false).isEmpty) s

/-- A branch on a bit popped from Q12 (R140): it waits while Q12 is empty. -/
def branchPop (i : Instr) (off : BitVec 12) (want : Bool) (s : State) : Host.Outcome State Fault Refusal :=
  runPlain i s fun t =>
    match t.cur.q.bits with
    | [] => .wait t (.queue 12)
    | b :: rest =>
      let t := (t.modQ fun q => { q with bits := rest }).takePosted 12
      if b == want then .jump t (t.target off) else .ok t

def execBq (off : BitVec 12) (s : State) := branchPop (.bq off) off true s
def execBqn (off : BitVec 12) (s : State) := branchPop (.bqn off) off false s

/-! ## Jumps and the return-address stack (R136, R137) -/

/-- `push` of R137: a spill that faults performs nothing. A spill disarms the open strip (log 28). -/
def State.pushRas (s : State) (i : Instr) (a : Word) : Except Eff State :=
  if s.str.ras.length < 16 then .ok (s.setStr { s.str with ras := s.str.ras ++ [a] })
  else if s.stream == .ap then .error (.trap s ⟨causeIllegal, evalOf i, 0⟩)
  else match s.store false s.cur.ctl.csp (leBytes 8 (s.str.ras.headD 0).toNat) with
    | (.error f, t) => .error (.trap t (f.trap .write))
    | (.ok (), t) =>
      let t := (t.modCtl fun c => { c with csp := c.csp + 8 }).disarm
      .ok (t.setStr { t.str with ras := t.str.ras.drop 1 ++ [a] })

/-- push(PC + 4), then the transfer. -/
def callTo (i : Instr) (dest : State → Word) (s : State) : Host.Outcome State Fault Refusal :=
  runPlain i s fun t =>
    let there := dest t
    match t.pushRas i (t.pc + 4) with
    | .error e => e
    | .ok t => .jump t there

/-- The target of `jr` and `callr`: bits [1:0] taken as 0. -/
def State.regTarget (s : State) (a : Fin 32) (imm : BitVec 12) : Word := (s.gread a + sext12 imm) &&& ~~~(3 : Word)

def execJ (off : BitVec 25) (s : State) := runPlain (.j off) s fun t => .jump t (t.target off)
def execCall (off : BitVec 25) (s : State) := callTo (.call off) (fun t => t.target off) s
def execJr (a : Fin 32) (imm : BitVec 12) (s : State) := runPlain (.jr a imm) s fun t => .jump t (t.regTarget a imm)
def execCallr (a : Fin 32) (imm : BitVec 12) (s : State) := callTo (.callr a imm) (fun t => t.regTarget a imm) s

/-- `ret` (R137). A fill that reads poison rewinds the strip where it can be rewound, else raises the access fault; so does one
that nobody answers (log 28). -/
def retBody (t : State) : Eff :=
  match t.str.ras.getLast? with
  | some a => .jump (t.setStr { t.str with ras := t.str.ras.dropLast }) a
  | none =>
    if t.stream == .ap then .trap t ⟨causeIllegal, evalOf .ret, 0⟩
    else
      let va := t.cur.ctl.csp - 8
      match t.load va 8 with
      | (.error f, u) => .trap u (f.trap .read)
      | (.ok r, u) =>
        let fail : TrapReq := ⟨causeAccess, va, 0⟩
        if r.absent then .trap u fail
        else if r.poison then
          if u.rewindable.isSome then .done u [] [0] none else .trap (u.notePoison [0]) fail
        else .jump (u.modCtl fun c => { c with csp := va }) (BitVec.ofNat 64 (leNat r.bytes) &&& ~~~(3 : Word))
def execRet (s : State) := runPlain .ret s retBody

/-! ## The end of a stream (R146, R308) -/

/-- The end of `apjoin`: the AP is gone, its stores are visible to the EP, which has acquired its accesses, and APON is 0 (R145, R366). -/
def State.joinAp (s : State) : State :=
  if s.cur.ctl.apon then
    let own := ((s.pend ++ s.heldEntries).filter fun e => e.loc == s.cur.loc && e.stream == .ap).map (·.id)
    let s := s.forget.observe (own ++ s.cur.ap.seen)
    ((s.drain ⟨s.cur.loc, some .ap, 0⟩ 1).modCtl fun c => { c with apon := false }).modVlc fun v => { v with ap := .absent }
  else s

/-- Whether an `apjoin` must wait. -/
def State.apRuns (s : State) : Bool := s.cur.ctl.apon && s.cur.ap.run == .running

/-- G as a combination starts with it: G1 to G6 the arguments, the index registers the indices, zero elsewhere (R308). -/
def startG (args : List Word) (regs : List (Fin 32)) (idx : List Nat) : Vector Word 32 :=
  let g := (args.take 6).zipIdx.foldl (fun (g : Vector Word 32) x => g.set (regAt 1 x.2) x.1) (.replicate 32 0)
  (regs.zip idx).foldl (fun (g : Vector Word 32) x => g.set x.1 (BitVec.ofNat 64 x.2)) g

/-- A context at the start of a combination: everything at its reset value but what R308 names; the records of its engines stay
(R461; log 31). -/
def Vlc.startCombination (v : Vlc) (w : Work) (idx : List Nat) (todo : List (List Nat)) : Vlc :=
  let new := Vlc.create v.loc (w.entry &&& ~~~(3 : Word)) w.qatp w.qasid w.qtvec
  { new with
    ep := { new.ep with g := startG w.args w.idxRegs idx }
    q := { Queues.empty with q17 := v.q.q17, q19 := v.q.q19 }
    fetched := v.fetched
    vec := { new.vec with vPast := v.vec.vPast, mPast := v.vec.mPast }
    tile := { new.tile with tPast := v.tile.tPast, accPast := v.tile.accPast }
    posted := v.posted.filter fun p => p.line == 17 || p.line == 19
    work := some { w with current := idx, todo := todo } }

/-- The end of a combination in the EP: `vrel`, then the next combination, or the end of the context (R146, R308). -/
def State.endCombination (s : State) : State :=
  let s := (s.drain s.path 1).closeStrip.killVector
  match s.cur.work with
  | some w =>
    match w.todo with
    | idx :: rest => s.modVlc fun v => v.startCombination w idx rest
    | [] => s.endContext true
  | none => s.endContext true

/-- `exit` (R146). -/
def exitBody (t : State) : Eff :=
  match t.stream with
  | .ap =>
    let t := t.drain t.path 1
    .stop ((t.setStr { t.str with run := .ended, wait := none, granted := false }).modVlc fun v => { v with clock := 0 })
  | .ep =>
    if t.apRuns then .wait t .join
    else
      let t := t.joinAp
      if t.fillsPending then .wait t .unit else .stop t.endCombination
def execExit (s : State) := runPlain .exit s exitBody

/-! ## Strip arbitration (R315 to R318) -/

def Arbiter.deficit (a : Arbiter) (q : QueueId) : Nat := (a.deficits.find? (·.1 == q)).elim 0 (·.2)
def Arbiter.setDeficit (a : Arbiter) (q : QueueId) (d : Nat) : Arbiter :=
  { a with deficits := (q, d) :: a.deficits.filter (·.1 != q) }

/-- A request begins to wait: its queue joins its list at the head while its turn lasts, else at the tail. -/
def Arbiter.enter (a : Arbiter) (r : GrantReq) : Arbiter :=
  let a := if a.waiting.any (·.loc == r.loc) then a else { a with waiting := a.waiting ++ [r] }
  if a.order.contains r.queue then a
  else if a.deficit r.queue > 0 then { a with order := r.queue :: a.order } else { a with order := a.order ++ [r.queue] }

/-- The queue at the head of the list of the highest priority. -/
def Arbiter.head (a : Arbiter) (prio : QueueId → Nat) : Option QueueId :=
  a.order.foldl (fun best q => match best with
    | none => some q
    | some b => if prio q > prio b then some q else best) none

/-- A turn ends: the queue moves to the tail of its list. -/
def Arbiter.toTail (a : Arbiter) (q : QueueId) : Arbiter := { a with order := a.order.filter (· != q) ++ [q] }

/-- A chain cell (R294): HW and END. What one that is marked poisoned is read as the spec does not say (log 33). -/
def State.chainCell (s : State) (ga : Nat) : Nat × Bool :=
  let w := if s.poison.contains (gaLine ga) then (Config.freeVec s.fresh).toNat else leNat ((List.range 8).map fun k => s.mem.read (ga + k))
  (w % 2 ^ 48, w.testBit 63)

/-- The chain cell of the context in focus, where its task is chained. -/
def State.chainAt (s : State) : Option Nat := s.cur.work.bind (·.chain)

/-- A decision reads the chain cell at its bank, where an injection may act on the read (R298, R318). -/
def State.readChain (s : State) : State :=
  match s.chainAt with
  | none => s
  | some ga => s.fireInjections ((List.range 8).map (ga + ·))

/-- `chain_left()` (none where unbounded) and `chain_ended()` (R142, R318). -/
def State.chain (s : State) : Option Nat × Bool :=
  match s.cur.work, s.chainAt with
  | some w, some ga =>
    let (hw, ended) := s.chainCell ga
    (some (hw - (s.tasks.find? (·.id == w.task)).elim 0 (·.gr.toNat)), ended)
  | _, _ => (none, false)

/-- A grant of g elements is added to GR of a chained task, and acquires what the publications to its cell released (R294, R318, R372). -/
def State.addGr (s : State) (g : Nat) : State :=
  match s.cur.work with
  | none => s
  | some w => match w.chain with
    | none => s
    | some ga =>
      let s := { s with tasks := s.tasks.map fun t => if t.id == w.task then { t with gr := t.gr + BitVec.ofNat 48 g } else t }
      if g == 0 then s else s.forget.observe ((s.trace.filter (·.1 == ga)).flatMap (·.2.2))

/-- What a grant of one element costs, in bits of the datapath (R315). -/
def State.beatBits (s : State) : Nat := (wcTy s.cur.ctl.wc).sew * s.cur.ctl.g

/-- Caps of `vstripx` (R143). -/
structure Caps where
  cap : Nat
  nowait : Bool
  galign : Bool

/-- The caps in G[B]. -/
def capsOf (x : Word) : Caps := ⟨bitsAt x.toNat 0 15, x.getLsbD 16, x.getLsbD 17⟩

/-- A checkpoint of the EP as a grant opens a strip (R433). -/
def State.checkpoint (s : State) (d : Fin 32) : Checkpoint :=
  let c := s.cur.ctl
  { pc := s.pc, grantReg := d, vl := c.vl, vill := c.vill, lg := c.lg, wc := c.wc, g := s.str.g, h := s.cur.h, csp := c.csp,
    ras := s.str.ras, fstat := c.fstat, fxvalid := c.fxvalid, fxidx := c.fxidx, fxpc := c.fxpc, smissAny := c.smissAny,
    mreg := c.mreg, v := s.cur.vec.v, m := s.cur.vec.m, p := s.cur.vec.p, binds := s.cur.binds }

/-- A grant of g elements: VL, G[D] and VSTART; the previous strip closes, and g > 0 opens an armed one (R142, R365, R433). -/
def State.grant (s : State) (d : Fin 32) (g : Nat) : State :=
  let s := ((s.closeStrip.setVl g).setVstart 0).gwrite d (BitVec.ofNat 64 g)
  if g == 0 then s else (s.modVlc fun v => { v with strip := ⟨true, some (s.checkpoint d), false, s.fresh⟩ }).bump

/-- VTYPE as a write leaves it: a reserved width code sets VILL (R21). VL becomes 0. -/
def State.setVtype (s : State) (lg : Fin 4) (wc : BitVec 4) : State :=
  s.modCtl fun c => if wcOk wc then { c with vill := false, lg := lg, wc := wc, vl := 0 }
    else { c with vill := true, lg := 0, wc := 0, vl := 0 }

/-- The size of a grant (R142, R143). -/
def grantSize (ncore : Bool) (t : Ty) (n vlm : Nat) (caps : Caps) (chain quota : Option Nat) : Nat :=
  let g := min n vlm
  let g := if caps.cap == 0 then g else min g caps.cap
  let g := match chain with | some x => min g x | none => g
  let g := match quota with | some x => min g x | none => g
  let e := groupElems ncore t
  if caps.galign && decide (g < n) && decide (e ≤ g) then g - g % e else g

/-- `vstrip` and `vstripx` once SETV has been applied to `t` and n > 0; `t0` is the state before, in which a wait leaves the
machine. -/
def grantBody (t0 t : State) (d : Fin 32) (n : Nat) (caps : Caps) : Eff :=
  let ty := wcTy t.cur.ctl.wc
  let t := t.readChain
  let (left, ended) := t.chain
  let stuck := left == some 0
  if stuck && !ended then (if caps.nowait then .ok (t.grant d 0) else .wait t0 .grant)
  else if stuck then .ok (t.grant d 0)
  else match t.cur.work with
    | none => .ok (t.grant d (grantSize t.ncore ty n t.vlmax caps left none))
    | some w =>
      let q := w.queue
      let arb := t.core.arb.enter ⟨t.cur.loc, q⟩
      let oldest := (arb.waiting.find? (·.queue == q)).elim false (·.loc == t.cur.loc)
      if arb.head (fun x => t.queues[x.index].prio.toNat) == some q && (oldest || caps.nowait) then
        let start := arb.deficit q
        let dq := if start == 0 then 64 * t.queues[q.index].weight.toNat else start
        let g := grantSize t.ncore ty n t.vlmax caps left (some (dq * datapath t.ncore / t.beatBits))
        let rest := dq - (g * t.beatBits + datapath t.ncore - 1) / datapath t.ncore
        let arb := arb.setDeficit q rest
        let arb := if rest == 0 then arb.toTail q else arb
        .ok (((t.modCore fun c => { c with arb := arb.leave t.cur.loc }).addGr g).grant d g)
      else if caps.nowait then .ok ((t.modCore fun c => { c with arb := arb.leave t.cur.loc }).grant d 0)
      else .wait (t0.modCore fun c => { c with arb := arb }) .grant

/-- The migration request that the EP has to take before its next `vstrip`, as the state after the trap (R428): one of a context that
holds tenure, whose kernel has a fold routine. -/
def State.migrationTrap (s : State) : Option State :=
  match s.cur.migrate, s.cur.work with
  | some c, some w =>
    if s.cur.tenure && w.fold != 0 && s.cur.handler.isNone then
      some (takeMigration s s.pc w.fold ⟨causeMigration, BitVec.ofNat 64 (vlen c.ncore / 8), if c.ncore then 1 else 0⟩)
    else none
  | _, _ => none

/-- The whole of `vstrip` and `vstripx` (R142, R143, R428). A pending migration request is delivered first. -/
def stripBody (d : Fin 32) (sv : Option SetV) (n : State → Nat) (caps : State → Caps) (t : State) : Eff :=
  match t.migrationTrap with
  | some u => .stop u
  | none => plain
where
  plain : Eff :=
    let u := match sv with
      | some x => t.setVtype x.lg x.wc
      | none => t
    if u.cur.ctl.vill || n t == 0 then .ok (u.grant d 0) else grantBody t u d (n t) (caps t)

def execVstrip (d a : Fin 32) (sv : Option SetV) (s : State) :=
  runPlain (.vstrip d a sv) s (stripBody d sv (fun t => (t.gread a).toNat) (fun _ => ⟨0, false, false⟩))
def execVstripx (d a b : Fin 32) (sv : Option SetV) (s : State) :=
  runPlain (.vstripx d a b sv) s (stripBody d sv (fun t => (t.gread a).toNat) (fun t => capsOf (t.gread b)))

/-- `vrel` (R144): earlier instructions have completed, and tile fills are waited for (R287). -/
def execVrel (s : State) :=
  runPlain .vrel s fun t => if t.fillsPending then .wait t .unit else .ok t.closeStrip.killVector

/-! ## Mode and the access stream (R35, R145) -/

/-- The effects of R35. The bindings of V24 to V31 end with their registers (R197). On the way back to V-mode VL takes the whole of
VLSAVE, also where VLSAVE exceeds VLMAX (DESIGN CHOICE, log 46). -/
def State.setMode (s : State) (tm : Bool) : State :=
  let s := s.closeStrip
  if s.cur.ctl.tm == tm then s
  else if tm then
    let n := s.fresh
    let s := { s with fresh := n + 8 }
    let s := s.modCtl fun c => { c with tm := true, vlsave := c.vl, vl := 0 }
    let s := s.modVec fun r => { r with v := Vector.ofFn fun i => if 24 ≤ i.val then undefinedOf r.vPast (n + i.val - 24) else r.v[i] }
    s.modVlc fun v => { v with binds := v.binds.filter fun b => decide (b.1.val < 24) }
  else s.modCtl fun c => { c with tm := false, vl := c.vlsave }
def execMode (x : Bool) (s : State) := runPlain (.mode x) s fun t => .ok (t.setMode x)

/-- `apfork`: a release at context scope, and the AP with the EP's G registers (R145, R366). A write that the release covers and that is
held at a frozen frame holds the accesses of the AP, not its creation (`gate`). -/
def execApfork (off : BitVec 12) (s : State) :=
  runPlain (.apfork off) s fun t =>
    let held := (t.heldEntries.filter (t.covers .ep)).map (·.id)
    let seen := (t.pend.filter (t.covers .ep)).map (·.id)
    let t := (t.moveToContext .ep).modCtl fun c => { c with apon := true }
    .ok (t.modVlc fun v => { v with ap := .start (t.target off) t.str.g seen, forked := held })

def execApjoin (s : State) := runPlain .apjoin s fun t => if t.apRuns then .wait t .join else .ok t.joinAp

/-! ## Control registers (R18 to R31, R147, R148) -/

/-- TCFGn as a register (R30). -/
def tcfgWord : Option TileCfg → Word
  | none => 0
  | some c => BitVec.ofNat 64 (2 ^ 63 + (tyCode c.ty).toNat * 2 ^ 18 + c.cols * 2 ^ 9 + c.rows)

/-- MODE (R25). -/
def State.modeWord (s : State) : Word :=
  let c := s.cur.ctl
  BitVec.ofNat 64 (s.cur.loc.slot.val * 64 + (if s.ncore then 32 else 0) + (if c.apon then 16 else 0) +
    (if c.sys then 8 else 0) + (if c.tm then 1 else 0))

/-- A control register as it reads (R18). -/
def cregRead (s : State) (n : Nat) : Word :=
  let c := s.cur.ctl
  let core := s.core
  let fx : Fin 8 := Fin.ofNat 8 n
  if n == 0x000 then c.vl.setWidth 64
  else if n == 0x001 then c.vstart.setWidth 64
  else if n == 0x002 then s.vtypeWord
  else if n == 0x003 then c.vlsave.setWidth 64
  else if n == 0x004 then BitVec.ofNat 64 (vlen s.ncore / 8)
  else if n == 0x008 then c.fl.setWidth 64
  else if n == 0x009 then c.degcap.setWidth 64
  else if n == 0x00A then c.fquota.setWidth 64
  else if n == 0x00B then b2w c.aliasing
  else if n == 0x010 then c.fstat.setWidth 64
  else if 0x018 ≤ n ∧ n ≤ 0x01F then
    (b2w (c.fxvalid.getLsbD fx.val) <<< 63) ||| c.fxidx[fx].setWidth 64
  else if 0x020 ≤ n ∧ n ≤ 0x027 then c.fxpc[fx].setWidth 64 <<< 2
  else if n == 0x028 then (b2w c.smissAny <<< 63) ||| BitVec.ofNat 64 c.mreg.val
  else if n == 0x030 then s.modeWord
  else if n == 0x031 then (b2w c.tvalid <<< 63) ||| c.tshape.setWidth 64
  else if 0x040 ≤ n ∧ n ≤ 0x04F then tcfgWord s.cur.tile.t[Fin.ofNat 16 n].cfg
  else if 0x050 ≤ n ∧ n ≤ 0x06F then
    BitVec.ofNat 64 ((s.flownIndex (n - 0x50)).getD (((s.cur.busy.find? fun f => f.reg.val + 0x50 == n).map (·.index)).getD s.vlmax))
  else if 0x070 ≤ n ∧ n ≤ 0x077 then
    let p := s.cur.vec.p[fx]
    BitVec.ofNat 64 ((tyCode p.ty).toNat * 2 ^ 16 + p.pairs.length)
  else if n == 0x080 then c.atp
  else if n == 0x081 then c.asid.setWidth 64
  else if n == 0x082 then c.csp
  else if n == 0x088 then core.clklim.setWidth 64
  else if n == 0x090 then core.srseed
  else if n == 0x091 then core.spotseed
  else if n == 0x098 then core.inja.setWidth 64
  else if n == 0x099 then core.injb.setWidth 64
  else if n == 0x0A0 then BitVec.ofNat 64 (s.here * 256 + locNum s.cur.loc)
  else if n == 0x0A1 then core.cycle
  else if n == 0x0C0 then c.epc
  else if n == 0x0C1 then c.ecause
  else if n == 0x0C2 then c.eval
  else if n == 0x0C3 then c.etvec
  else if n == 0x0C4 then c.escratch
  else 0

/-- A V register's progress at its next read: by a free number of element groups further, or finished (R39). -/
def Flying.advance (f : Flying) (n : Nat) : Option Flying :=
  let k := f.index + f.group * Config.freeProgress n
  if k < f.vl then some { f with index := k } else none

/-- What goes on between reads: CYCLE by an amount that nothing constrains (log 11), and a progress register, which is read without a
wait for the instructions before (R148), by whole element groups until it reads VLMAX (R39; log 33). -/
def State.tick (s : State) (n : Nat) : State :=
  if n == 0x0A1 then (s.bump).modCore fun c => { c with cycle := c.cycle + Config.freeCycles s.fresh }
  else if 0x050 ≤ n ∧ n ≤ 0x06F then
    (s.bump).modVlc fun v => { v with busy := v.busy.filterMap fun f => if f.reg.val + 0x50 == n then f.advance s.fresh else some f }
  else s

/-- The descriptor that a write of TCFGn sets, or none (R30). -/
def tcfgOf (x : Nat) : Option TileCfg :=
  match tyOfNat (bitsAt x 18 5) with
  | none => none
  | some t =>
    let rows := bitsAt x 0 9
    let cols := bitsAt x 9 9
    let bits := if t.sew < 8 then t.sew else (t.sew + 7) / 8 * 8
    if 1 ≤ rows ∧ rows ≤ 256 ∧ 1 ≤ cols ∧ cols ≤ 256 ∧ rows * cols * bits ≤ 65536 * 8 then some ⟨t, rows, cols⟩ else none

/-- A tile register whose contents are undefined, with a new descriptor (R30). -/
def State.undefTile (s : State) (k : Fin 16) (cfg : Option TileCfg) : State :=
  let n := s.fresh
  s.bump.modTile fun r => { r with t := r.t.set k (r.undefined cfg n) }

/-- What ATP and QATP store (R18, R300): MODE 10 or 0, and the root. -/
def storedAtp (x : Word) : Word := (if x >>> 60 == 10 then 0xA000000000000000 else 0) ||| (x &&& 0xFFFFFFFFFFF)

def seedOf (x : Word) : Word := if x = 0 then 1 else x

/-- A write of a control register (R19 to R30, R147, R298, R333): reserved bits and read-only registers ignore it. VLSAVE, of which R18
gives no fields, keeps 15 bits of what is written (DESIGN CHOICE, log 46). -/
def cregWrite (s : State) (n : Nat) (x : Word) : State :=
  if n == 0x000 then s.setVl (min x.toNat s.vlmax)
  else if n == 0x001 then s.modCtl fun c => { c with vstart := x.setWidth 15 }
  else if n == 0x002 then s.setVtype ((x.extractLsb' 4 2).toFin) (x.extractLsb' 0 4)
  else if n == 0x003 then s.modCtl fun c => { c with vlsave := x.setWidth 15 }
  else if n == 0x008 then s.modCtl fun c => { c with fl := BitVec.ofNat 10 (min x.toNat (flmax s.ncore)) }
  else if n == 0x009 then s.modCtl fun c => { c with degcap := x.setWidth 4 }
  else if n == 0x00A then s.modCtl fun c => { c with fquota := BitVec.ofNat 12 (min x.toNat (storeGranules s.ncore)) }
  else if n == 0x00B then s.modCtl fun c => { c with aliasing := x.getLsbD 0 }
  else if n == 0x010 then s.modCtl fun c =>
    { c with fstat := c.fstat &&& ~~~(x.setWidth 8), fxvalid := c.fxvalid &&& ~~~(x.setWidth 8) }
  else if n == 0x028 then s.modCtl fun c =>
    { c with smissAny := c.smissAny && !x.getLsbD 63, mreg := (x.extractLsb' 0 3).toFin }
  else if n == 0x031 then s.modCtl fun c => { c with tvalid := true, tshape := x.setWidth 28 }
  else if 0x040 ≤ n ∧ n ≤ 0x04F then s.undefTile (Fin.ofNat 16 n) (tcfgOf x.toNat)
  else if n == 0x080 then
    let s := (s.drain ⟨s.cur.loc, some .ep, 0⟩ 1).drain ⟨s.cur.loc, some .ap, 0⟩ 1
    s.modCtl fun c => { c with atp := storedAtp x }
  else if n == 0x081 then
    let s := (s.drain ⟨s.cur.loc, some .ep, 0⟩ 1).drain ⟨s.cur.loc, some .ap, 0⟩ 1
    s.modCtl fun c => { c with asid := x.setWidth 16 }
  else if n == 0x082 then s.modCtl fun c => { c with csp := x &&& ~~~(7 : Word) }
  else if n == 0x088 then s.modCore fun c => { c with clklim := BitVec.ofNat 48 (max (bitsAt x.toNat 0 48) 4096) }
  else if n == 0x090 then s.modCore fun c => { c with srseed := seedOf x }
  else if n == 0x091 then s.modCore fun c => { c with spotseed := seedOf x }
  else if n == 0x098 then s.modCore fun c => { c with inja := x.setWidth 50 }
  else if n == 0x099 then s.modCore fun c =>
    { c with injb := if bitsAt x.toNat 1 3 < 3 then x.setWidth 4 else x.setWidth 1 |>.setWidth 4 }
  else if n == 0x0C0 then s.modCtl fun c => { c with epc := x }
  else if n == 0x0C1 then s.modCtl fun c => { c with ecause := x &&& 0xFFFFFFC03F }
  else if n == 0x0C2 then s.modCtl fun c => { c with eval := x }
  else if n == 0x0C3 then s.modCtl fun c => { c with etvec := x &&& ~~~(0xFF : Word) }
  else if n == 0x0C4 then s.modCtl fun c => { c with escratch := x }
  else s

/-- Whether a write of ATP or ASID must wait: an access of one of the context's streams has been issued and is not performed, or is held
at a frozen frame, and so performed at no scope (R333, R342). -/
def State.tablesBusy (s : State) (n : Nat) : Bool :=
  (n == 0x080 || n == 0x081) && (!s.cur.flights.isEmpty ||
    s.moves.any fun m => m.held.any fun h => h.ofStream s.cur.loc .ep || h.ofStream s.cur.loc .ap ||
      h.waitsFor s.cur.loc .ep || h.waitsFor s.cur.loc .ap)

def execCread (d : Fin 32) (n : BitVec 12) (s : State) :=
  runPlain (.cread d n) s fun t =>
    let t := t.tick n.toNat
    .ok (t.gwrite d (cregRead t n.toNat))
def execCwrite (n : BitVec 12) (a : Fin 32) (s : State) :=
  runPlain (.cwrite n a) s fun t =>
    if t.tablesBusy n.toNat then .wait t .stores else .ok (cregWrite t n.toNat (t.gread a))
/-- Both as one step: G[A] is read before G[D] is written. -/
def execCswap (d : Fin 32) (n : BitVec 12) (a : Fin 32) (s : State) :=
  runPlain (.cswap d n a) s fun t =>
    if t.tablesBusy n.toNat then .wait t .stores
    else
      let t := t.tick n.toNat
      .ok ((cregWrite t n.toNat (t.gread a)).gwrite d (cregRead t n.toNat))

/-! ## Hints and convoys (R110 to R117) -/

def execNop (s : State) := runPlain .nop s fun t => .ok t
def execHint32 (bits : BitVec 25) (s : State) := runPlain (.hint32 bits) s fun t => .ok t
def execHint64 (bits : BitVec 56) (s : State) := runPlain (.hint64 bits) s fun t => .ok t

/-- The convoy units of R113. -/
inductive CvUnit where
  | ld | st | va0 | va1 | xp | fn | red | tl
deriving DecidableEq, Repr

def cvUnitOf (c : BitVec 3) : CvUnit :=
  match c.toNat with
  | 0 => .ld | 1 => .st | 2 => .va0 | 3 => .va1 | 4 => .xp | 5 => .fn | 6 => .red | _ => .tl

/-- Whether the Unit column of R108 lets a member name a unit (R113). Where it lists LD and ST for a cell of memory accesses and does not
say which member may name which, a load may name LD and a store ST (DESIGN CHOICE, log 46). -/
def admitsUnit (i : Instr) (u : CvUnit) : Bool :=
  match i.cell with
  | .hint => true
  | .arv | .vfma | .vcvt | .vcmp | .mask => u == .va0 || u == .va1
  | .perm | .xfrm | .spar => u == .xp
  | .vred => u == .red
  | .conf => u == (match i with | .vtopk .. => .red | _ => .xp)
  | .vmem | .gath | .subb | .fab | .spmem =>
    u == (match i with | .vst .. | .vsts .. | .mst .. | .vstx .. | .vstb .. | .vstm .. | .psst .. => .st | _ => .ld)
  | .fmem | .fari | .fcal | .fevl => u == .fn
  | .tmem | .tmat | .thr => u == .tl
  | _ => false

/-- The parcel at an address, as it has been fetched. -/
def State.parcelAt (s : State) (va : Word) : Parcel := ((s.cur.fetched.find? (·.1 == va.toNat)).map (·.2)).getD 0

/-- The trap of member k at `va` in the slot of a header, if it fails one of its checks (R114). -/
def memberCheck (s : State) (va : Word) (u : CvUnit) : Option TrapReq :=
  let lo := s.parcelAt va
  let hi := s.parcelAt (va + 4)
  let bad (v : Word) : Option TrapReq := some ⟨causeIllegal, v, 0⟩
  if !isLong lo then bad (encodingWord [lo])
  else match decode64 lo hi with
    | .error _ => bad (encodingWord [lo, hi])
    | .ok i => if admitsUnit i u then memberTrap i s else bad (encodingWord [lo, hi])

/-- The header of a convoy (R112 to R117): its members are fetched and checked, and it changes nothing. -/
def execCvy (cnt : BitVec 3) (slots : BitVec 18) (s : State) :=
  runPlain (.cvy cnt slots) s fun t =>
    match t.fetchParcels (t.pc + 4) (2 * (cnt.toNat + 2)) with
    | (.error none, u) => .wait t (u.str.wait.getD (.store t.pc))
    | (.error (some e), u) => .trap u e
    | (.ok _, u) =>
      match (List.range (cnt.toNat + 2)).findSome? (fun k =>
        memberCheck u (u.pc + 4 + BitVec.ofNat 64 (8 * k)) (cvUnitOf (slots.extractLsb' (3 * k) 3))) with
      | some e => .trap u e
      | none => .ok u

end Sys2Proof.Machine
end

