-- ==== Sys2Proof/Machine/Launch.lean ====
section
/-! DEFINITION. Task queues and launches (R300 to R309): the LAUNCH register, the launch unit's checks, the dealing of a loop
table, the creation of contexts and the completion of tasks. -/

namespace Sys2Proof.Machine

def State.queueAt (s : State) (q : QueueId) : TaskQueue := s.queues[q.index]
def State.modQueue (s : State) (q : QueueId) (f : TaskQueue → TaskQueue) : State :=
  { s with queues := s.queues.set q.index (f s.queues[q.index]) }

/-- The queue of another die that carries the same number (R307). -/
def onDie (q : QueueId) (d : Fin 4) : QueueId := ⟨d, q.q⟩

/-! ## The launch unit's reads (R302, R304) -/

/-- A translation by the launch unit of a die, at system level and through the die's TLB alone (log 37). -/
def State.launchXlate (s : State) (d : Fin 4) (atp : Word) (asid : BitVec 16) (acc : Acc) (va : Word) : Except Flt Nat × State :=
  let l : Loc := ⟨d, 0, 0⟩
  let old := s.cores[l.coreId.index].tlb
  let (r, s) := (s.modCoreAt l.coreId fun c => { c with tlb := [] }).translate l atp asid true acc va
  (r, s.modCoreAt l.coreId fun c => { c with tlb := old })

/-- Whether a translation must wait for a held write to a node (R342). -/
def heldXlate : Except Flt Nat → Bool
  | .error f => f.held
  | .ok _ => false

/-- One level of a loop table (R90), its count resolved (R85). -/
structure Level where
  kind : Nat
  count : Nat
  idx : Fin 32
deriving DecidableEq, Repr

/-- A kernel descriptor as the launch unit reads it (R89). -/
structure Kernel where
  flags : Nat
  entry : Word
  fold : Word
  levels : List Level
deriving DecidableEq, Repr

/-- Argument word k of a launch record (R302). -/
def Record.arg (r : Record) (k : Nat) : Nat := r.field (8 + 8 * k) 8

/-- A level entry in order: none where it breaks a rule of R305; `rank` is the least kind rank that may still come (R85). -/
def levelsOf (r : Record) : List Nat → Nat → List Nat → Option (List (Level × Bool))
  | [], _, _ => some []
  | e :: rest, rank, seen =>
    let kind := bitsAt e 0 2
    let src := bitsAt e 2 1
    let idx := bitsAt e 3 5
    let c := e >>> 32
    let mine := 2 - kind
    if kind == 3 || decide (idx < 7) || (src == 1 && decide (c > 5)) || bitsAt e 8 24 != 0 || seen.contains idx ||
        decide (mine < rank) then none
    else
      let count := if src == 1 then r.arg c % 2 ^ 32 else c
      (levelsOf r rest mine (idx :: seen)).map fun ls => (⟨kind, count, Fin.ofNat 32 idx⟩, src == 0) :: ls

/-- Eligible cores of a die for a queue, rising (R307). -/
def State.eligible (s : State) (q : QueueId) (wcore : Bool) : List (Fin 12) :=
  (List.finRange 12).filter fun k => (s.queueAt q).qcmask.getLsbD k.val && (!wcore || decide (k.val < 8))

def countsOf (ls : List Level) (kind : Nat) : List Nat := (ls.filter (·.kind == kind)).map (·.count)
def product (l : List Nat) : Nat := l.foldl (· * ·) 1

/-- The dies that a task reaches, in order, each with its number among the units (R307). -/
def diesOf (x : Fin 4) (ls : List Level) : List (Nat × Fin 4) :=
  if (ls.any (·.kind == 2)) then (List.range (min 4 (product (countsOf ls 2)))).map fun k => (k, x + Fin.ofNat 4 k)
  else [(0, x)]

/-- The checks of R305, by the number of the first row that fails, or 0 where the launch unit must wait for a held write (R342); or the
kernel, and the chain cell's address. -/
def State.checkLaunch (s : State) (q : QueueId) (r : Record) : Except Nat (Kernel × Option Nat) × State :=
  let w0 := r.field 0 8
  let charg := bitsAt w0 3 3
  let note := r.field 56 8
  let tq := s.queueAt q
  if bitsAt w0 0 3 != 0 || charg == 7 || bitsAt note 1 2 != 0 then (.error 1, s)
  else
    let desc := BitVec.ofNat 64 (w0 / 64 * 64)
    let (gd, s) := s.launchXlate q.die tq.qatp tq.qasid .read desc
    let cva := BitVec.ofNat 64 (r.arg (charg - 1))
    let (gc, s) := if charg == 0 then (.ok 0, s) else s.launchXlate q.die tq.qatp tq.qasid .read cva
    let (gn, s) := if note % 2 == 0 then (.ok 0, s)
      else s.launchXlate q.die tq.qatp tq.qasid .write (BitVec.ofNat 64 (note / 8 * 8))
    if heldXlate gd || heldXlate gc || heldXlate gn then (.error 0, s)
    else match gd, gc, gn with
    | .ok gd, .ok gc, .ok _ =>
      let (rd, s) := s.readBytes ⟨⟨q.die, 0, 0⟩, none, 3⟩ ((List.range 64).map (gd + ·))
      let d := recordOf (if rd.absent || rd.poison then [] else rd.bytes)
      let flags := d.field 2 2
      let nlev := d.field 0x18 1
      let fold := d.field 0x10 8
      let es := (List.range 4).map fun k => d.field (0x20 + 8 * k) 8
      if rd.held then (.error 0, s)
      else if d.field 0 2 != 1 || flags ≥ 8 || nlev == 0 || nlev > 4 || d.field 0x19 7 != 0 then (.error 3, s)
      else if (flags.testBit 2) != (fold != 0) then (.error 4, s)
      else match levelsOf r (es.take nlev) 0 [] with
        | none => (.error 5, s)
        | some ls =>
          if (es.drop nlev).any (· != 0) then (.error 5, s)
          else if ls.any (fun x => x.2 && x.1.count == 0) then (.error 6, s)
          else
            let levels := ls.map (·.1)
            let wcore := flags.testBit 1
            if levels.all (·.count != 0) && (diesOf q.die levels).any fun y => (s.eligible (onDie q y.2) wcore).isEmpty then
              (.error 7, s)
            else if charg != 0 && (gc % 8 != 0 || gaEndpoint gc != s.here ||
                !(match regionOf (gaLocal gc) with | .commons _ => true | _ => false) ||
                levels.any fun l => l.kind != 0 && decide (l.count > 1)) then (.error 8, s)
            else (.ok (⟨flags, BitVec.ofNat 64 (d.field 8 8), BitVec.ofNat 64 fold, levels⟩,
              if charg == 0 then none else some gc), s)
    | _, _, _ => (.error 2, s)

/-! ## Dealing a loop table (R307, R308) -/

/-- The indices of a combined index over levels of given counts. -/
def unflat : List Nat → Nat → List Nat
  | [], _ => []
  | _ :: rest, n => (n / product rest) :: unflat rest (n % product rest)

/-- The combined indices below `c` dealt to unit k of u. -/
def dealt (c u k : Nat) : List Nat := (List.range c).filter fun i => i % u == k

/-- The contexts that a task needs, die by die and core by core, each with its combinations in order. -/
def State.deal (s : State) (q : QueueId) (task : Nat) (r : Record) (k : Kernel) (chain : Option Nat) : List (CoreId × Work) :=
  let ls := k.levels
  if ls.any (·.count == 0) then []
  else
    let dl := countsOf ls 2
    let cl := countsOf ls 1
    let tl := countsOf ls 0
    (diesOf q.die ls).flatMap fun y =>
      let qy := onDie q y.2
      let tq := s.queueAt qy
      let el := s.eligible qy (k.flags.testBit 1)
      let dis := if dl.isEmpty then [0] else dealt (product dl) 4 y.1
      let units := if cl.isEmpty then el.take 1 else el.take (product cl)
      units.zipIdx.map fun u =>
        let cis := if cl.isEmpty then [0] else dealt (product cl) el.length u.2
        let todo := dis.flatMap fun di => cis.flatMap fun ci =>
          (List.range (product tl)).map fun ti => unflat dl di ++ unflat cl ci ++ unflat tl ti
        ((⟨y.2, u.1⟩ : CoreId), (⟨task, qy, k.entry, k.fold, k.flags.testBit 1,
          (List.range 6).map fun a => BitVec.ofNat 64 (r.arg a), ls.map (·.idx), [], todo, tq.qatp, tq.qasid, tq.qtvec, chain⟩ : Work))

/-! ## Admission (R304) -/

/-- The launch unit takes the next record of a queue: refused with the number of the failed check, or enqueued as a task. With 0 it
must wait, and takes none. -/
def State.admitTask (s : State) (q : QueueId) : Option Nat × State :=
  match (s.queueAt q).fifo with
  | [] => (none, s)
  | r :: rest =>
    let s0 := s
    let s := s.modQueue q fun x => { x with fifo := rest }
    match s.checkLaunch q r with
    | (.error 0, _) => (some 0, s0)
    | (.error n, s) =>
      let s := s.modQueue q fun x => { x with refusedCnt := x.refusedCnt + 1 }
      (some n, s.logEvent 8 (q.die.val * 64) 0 (BitVec.ofNat 64 (r.field 0 8 / 64 * 64)) (BitVec.ofNat 64 q.q.val) (BitVec.ofNat 64 n))
    | (.ok (k, chain), s) =>
      let tq := s.queueAt q
      let task : Task := ⟨s.nextTask, q, s.deal q s.nextTask r k chain, 0, BitVec.ofNat 64 (r.field 56 8), tq.qatp, tq.qasid, 0, true, []⟩
      (none, { s with tasks := s.tasks ++ [task], nextTask := s.nextTask + 1 })

/-- The launch unit takes records until `n` of them are gone; the answer is that of the last, or 0 where it must wait. -/
def State.admitAll (s : State) (q : QueueId) : Nat → Option Nat × State
  | 0 => (none, s)
  | n + 1 =>
    match n, s.admitTask q with
    | 0, r => r
    | _, (some 0, s) => (some 0, s)
    | n, (_, s) => State.admitAll s q n

/-! ## Events -/

/-- An event that brings a next state. -/
abbrev Stepped := Host.Outcome State Fault Refusal

/-- A host write to LAUNCH (R303): accepted whole, or discarded and counted. -/
def State.launchWrite (s : State) (q : QueueId) (off : Nat) (data : List Byte) : State :=
  let tq := s.queueAt q
  if off == 0 && data.length == 64 && tq.en && decide (tq.fifo.length < 32) then
    s.modQueue q fun x => { x with fifo := x.fifo ++ [recordOf data] }
  else s.modQueue q fun x => { x with dropped := x.dropped + 1 }

/-- A write to LAUNCH from the host: lost while the link is down (R410). -/
def execLaunch (q : QueueId) (off : Nat) (data : List Byte) (s : State) : Stepped :=
  .next (if s.host.up && decide (off < 64) then s.launchWrite q off data else s)

def execAdmission (q : QueueId) (s : State) : Stepped :=
  .next (if (s.queueAt q).en then (s.admitTask q).2 else s)

/-- Brings a new live context in beside those that are there. -/
def State.addVlc (s : State) (v : Vlc) : State :=
  if s.cur.live then { s with parked := s.parked ++ [v] } else { s with cur := v, stream := .ep }

/-- A core's deficit for a queue starts at 0 when the queue first places a context on it (R316). -/
def State.firstPlacing (s : State) (c : CoreId) (q : QueueId) : State :=
  s.modCoreAt c fun x => if x.arb.deficits.any (·.1 == q) then x else { x with arb := x.arb.setDeficit q 0 }

/-- The core on which a context still to be created is placed: the one it was dealt to, or, where that has lost its bit of QCMASK, the
lowest-numbered eligible one with a free slot and no context of the task (R301, R314). -/
def State.placeFor (s : State) (c : CoreId) (w : Work) : Option CoreId :=
  let el := s.eligible w.queue w.wcore
  if el.contains c.core then some c
  else (el.find? fun k => s.hasSlot ⟨c.die, k⟩ && !s.runsTask ⟨c.die, k⟩ w.task).map fun k => ⟨c.die, k⟩

/-- A context whose first instruction acquires some stores (R372). -/
def Vlc.acquiring (v : Vlc) (ids : List Nat) : Vlc := { v with ep := { v.ep with seen := ids } }

/-- A context of a task is created in a free slot of its core, which runs no other context of the task (R306, R308). -/
def execVlcCreate (task : Nat) (l : Loc) (s : State) : Stepped :=
  .next <|
    match s.tasks.find? (·.id == task) with
    | none => s
    | some t =>
      match t.pending.find? fun p => s.placeFor p.1 p.2 == some l.coreId with
      | none => s
      | some (c, w) =>
        match w.todo with
        | idx :: rest =>
          if s.slotFree l && !s.runsTask l.coreId task then
            let s := { s with tasks := s.tasks.map fun (x : Task) =>
              if x.id == task then { x with pending := x.pending.erase (c, w), running := x.running + 1 } else x }
            (s.firstPlacing l.coreId w.queue).addVlc (((Vlc.none l).startCombination w idx rest).acquiring t.seen)
          else s
        | [] => s

/-- Every store that no open strip holds reaches its ownership point (R359). -/
def State.drainAll (s : State) : State :=
  (byLevel (s.pend.filter (!·.strip))).foldl State.performEntry { s with pend := s.pend.filter (·.strip) }

/-- Whether the accesses of a task are all performed, once its stores have been: no write is held at a frozen frame, and no
engine command of it is left (R309; log 38). -/
def State.settled (s : State) (task : Nat) : Bool :=
  s.moves.all (·.held.isEmpty) && s.commands.all fun c => c.task != some task

/-- A task completes (R309): DONE, and the completion counter. -/
def execTaskComplete (task : Nat) (s : State) : Stepped :=
  .next <|
    match s.tasks.find? (·.id == task) with
    | none => s
    | some t =>
      let old := s
      let s := s.drainAll
      if t.pending.isEmpty && t.running == 0 && s.settled task then
        let s := { s with tasks := s.tasks.filter (·.id != task) }
        if !t.counted then s
        else
          let s := s.modQueue t.queue fun q => { q with done := q.done + 1 }
          if !t.note.getLsbD 0 then s
          else
            let va := t.note &&& ~~~(7 : Word)
            match s.launchXlate t.queue.die t.qatp t.qasid .write va with
            | (.error f, s) => if f.held then old else s.logEvent 8 (t.queue.die.val * 64) 0 va (BitVec.ofNat 64 t.queue.q.val) 0
            | (.ok ga, s) =>
              if s.moves.any (·.frame == gaFrame ga) then old
              else if s.reachable t.queue.die ga then
                let s := s.fireInjections [ga]
                let gas := (List.range 8).map (ga + ·)
                let old := leNat (gas.map fun g => s.mem.read g)
                (s.performBytes (mbytes gas (leBytes 8 (old + 1))) false).noteAccess t.queue.die gas
                  ⟨3, 2, (tyCode .n64).toNat, leBytes 8 1⟩
              else s.requestFailed (t.queue.die.val * 64) 0 3 (s.silent t.queue.die (gaFrame ga)) (gaRoute ga) true
      else old

end Sys2Proof.Machine
end

