-- ==== Sys2Proof/Machine/Vector.lean ====
section
/-! DEFINITION. Vector arithmetic, fused multiply-add, conversions, compares and masks (R150 to R166). Spot checks are those of
R177; what a check that fails twice writes is R438. -/

namespace Sys2Proof.Machine

/-! ## Results -/

/-- The error value of R47 in element i: for a scaled type, in the scale of its block. -/
def putError (t : Ty) (x i : Nat) : Nat :=
  if t.isScaled then putBits x (256 * (i / blockLen t)) 8 0xFF else setElem t x i (errorValue t)

/-- Writes raw elements into a group. -/
def setElems (t : Ty) (x : Nat) (rs : List (Nat × Nat)) : Nat := rs.foldl (fun x r => setElem t x r.1 r.2) x

/-- A vector destination, its type, its elements or bits, and what is written there. -/
def State.putElems (s : State) (d : Fin 32) (t : Ty) (rs : List (Nat × Nat)) : State :=
  let g := groupFor s.cur.ctl t
  s.writeGroup d g (setElems t (s.readGroup d g) rs)

def State.putErrors (s : State) (d : Fin 32) (t : Ty) (is : List Nat) : State :=
  let g := groupFor s.cur.ctl t
  s.writeGroup d g (is.foldl (putError t) (s.readGroup d g))

def State.putMask (s : State) (d : Fin 8) (rs : List (Nat × Bool)) : State :=
  s.mwrite d (rs.foldl (fun x r => setBit x r.1 r.2) (s.mread d))

/-- The elements of one lane. -/
def sameLane (lane : Nat → Nat) (item : Nat) (is : List Nat) : List Nat := is.filter fun e => lane e == lane item

def elemLane (ncore : Bool) (t : Ty) (i : Nat) : Nat := laneOf ncore (elemPos t i)

/-- The check of an instruction that writes elements `is` of a vector register. -/
def vecCheck (s : State) (d : Fin 32) (t : Ty) (is : List Nat) : Check :=
  let lane := elemLane s.ncore t
  ⟨is, lane, fun item u => u.putErrors d t (sameLane lane item is), false⟩

/-- The check of one that writes mask bits `is`: those of the lane receive 0. -/
def maskCheck (lane : Nat → Nat) (d : Fin 8) (is : List Nat) : Check :=
  ⟨is, lane, fun item u => u.putMask d ((sameLane lane item is).map fun e => (e, false)), false⟩

/-- The check of a single result, which a failure writes with `spoil`. -/
def oneCheck (items : List Nat) (lane : Nat → Nat) (spoil : State → State) : Check := ⟨items, lane, fun _ u => spoil u, false⟩

/-- The flags of results by index. -/
def raises (rs : List (Nat × Fl)) : Raised := rs.foldl (fun acc r => raiseIf acc r.1 r.2) []

/-! ## Element-wise instructions -/

/-- An element-wise instruction (R41, R153): `f` gives, from the operands, element i and its flags under draw u. -/
def elementwise (i : Instr) (c : Common) (d : Fin 32) (f : View → State → Ty → Nat → Nat → Nat × Fl) (s : State) :
    Host.Outcome State Fault Refusal :=
  runInstr i s fun w ds t =>
    let ty := effTy t.cur.ctl c.ty
    let op := f w t ty
    let is := t.performed c
    let rs := is.map fun e => (e, op e (drawAt ds e))
    .done (t.putElems d ty (rs.map fun r => (r.1, r.2.1))) (raises (rs.map fun r => (r.1, r.2.2))) [] (some (vecCheck t d ty is))

/-- The second operand b (R156). -/
def srcVal (w : View) (t : State) (b : Src) (ty : Ty) : Nat → Nat :=
  match b with
  | .v r => let x := w.src t r ty; fun i => elem ty x i
  | .s r => let v := (if ty.isInt then t.gread r else t.hread r).toNat % 2 ^ ty.sew; fun _ => v
  | .i imm => let v := (imm.signExtend 64).toNat % 2 ^ ty.sew; fun _ => v

/-- An operation on one element of each operand. -/
abbrev Op2 := Ty → Rm → Nat → Nat → Nat → Nat × Fl

/-- Element-wise arithmetic on a and b (R154 to R158). -/
def arith2 (i : Instr) (c : Common) (d a : Fin 32) (b : Src) (f : Op2) (s : State) : Host.Outcome State Fault Refusal :=
  elementwise i c d (fun w t ty =>
    let xa := w.src t a ty
    let vb := srcVal w t b ty
    fun e u => f ty c.rm (elem ty xa e) (vb e) u) s

/-- An exact result with its flags, rounded into a type. -/
def rounded (t : Ty) (rm : Rm) (x : Exact × Fl) (u : Nat) : Nat × Fl :=
  let (r, f) := writeFloat t rm true x.1 u
  (r, x.2 ||| f)

def opAdd : Op2 := fun t rm a b u =>
  if t.isInt then (wrapInt t (intOf t a + intOf t b), 0) else rounded t rm (fAdd rm (readTy t a) (readTy t b)) u
def opSub : Op2 := fun t rm a b u =>
  if t.isInt then (wrapInt t (intOf t a - intOf t b), 0) else rounded t rm (fAdd rm (readTy t a) (readTy t b).neg) u
def opMul : Op2 := fun t rm a b u =>
  if t.isInt then (wrapInt t (intOf t a * intOf t b), 0) else rounded t rm (fMul (readTy t a) (readTy t b)) u
def opMulh : Op2 := fun t _ a b _ => (wrapInt t (intOf t a * intOf t b / (2 ^ t.sew : Nat)), 0)
def opDiv : Op2 := fun t rm a b u =>
  if t.isInt then intDiv t a b else rounded t rm (fDiv (readTy t a) (readTy t b)) u
def opMinMax (wantMax : Bool) : Op2 := fun t _ a b _ =>
  if t.isInt then
    let bLess := decide (intOf t b < intOf t a)
    (if bLess != wantMax then b else a, 0)
  else fMinMax t wantMax a b
/-- Shift counts use the low log2(SEW) bits of b (R157). -/
def opSll : Op2 := fun t _ a b _ => ((a <<< (b % t.sew)) % 2 ^ t.sew, 0)
def opSrl : Op2 := fun t _ a b _ => (a >>> (b % t.sew), 0)
def opSra : Op2 := fun t _ a b _ =>
  let x : Int := if signBit t a then (a : Int) - (2 ^ t.sew : Nat) else a
  (wrapInt t (x / (2 ^ (b % t.sew) : Nat)), 0)

def execVadd (c : Common) (d a : Fin 32) (b : Src) (s : State) := arith2 (.vadd c d a b) c d a b opAdd s
def execVsub (c : Common) (d a : Fin 32) (b : Src) (s : State) := arith2 (.vsub c d a b) c d a b opSub s
def execVrsub (c : Common) (d a : Fin 32) (b : Src) (s : State) :=
  arith2 (.vrsub c d a b) c d a b (fun t rm x y u => opSub t rm y x u) s
def execVmul (c : Common) (d a : Fin 32) (b : Src) (s : State) := arith2 (.vmul c d a b) c d a b opMul s
def execVmulh (c : Common) (d a : Fin 32) (b : Src) (s : State) := arith2 (.vmulh c d a b) c d a b opMulh s
def execVdiv (c : Common) (d a : Fin 32) (b : Src) (s : State) := arith2 (.vdiv c d a b) c d a b opDiv s
def execVrem (c : Common) (d a : Fin 32) (b : Src) (s : State) :=
  arith2 (.vrem c d a b) c d a b (fun t _ x y _ => intRem t x y) s
def execVmin (c : Common) (d a : Fin 32) (b : Src) (s : State) := arith2 (.vmin c d a b) c d a b (opMinMax false) s
def execVmax (c : Common) (d a : Fin 32) (b : Src) (s : State) := arith2 (.vmax c d a b) c d a b (opMinMax true) s
def execVand (c : Common) (d a : Fin 32) (b : Src) (s : State) :=
  arith2 (.vand c d a b) c d a b (fun _ _ x y _ => (x &&& y, 0)) s
def execVor (c : Common) (d a : Fin 32) (b : Src) (s : State) :=
  arith2 (.vor c d a b) c d a b (fun _ _ x y _ => (x ||| y, 0)) s
def execVxor (c : Common) (d a : Fin 32) (b : Src) (s : State) :=
  arith2 (.vxor c d a b) c d a b (fun _ _ x y _ => (x ^^^ y, 0)) s
def execVsll (c : Common) (d a : Fin 32) (b : Src) (s : State) := arith2 (.vsll c d a b) c d a b opSll s
def execVsrl (c : Common) (d a : Fin 32) (b : Src) (s : State) := arith2 (.vsrl c d a b) c d a b opSrl s
def execVsra (c : Common) (d a : Fin 32) (b : Src) (s : State) := arith2 (.vsra c d a b) c d a b opSra s
def execVsadd (c : Common) (d a : Fin 32) (b : Src) (s : State) :=
  arith2 (.vsadd c d a b) c d a b (fun t _ x y _ => satInt t (intOf t x + intOf t y)) s
def execVssub (c : Common) (d a : Fin 32) (b : Src) (s : State) :=
  arith2 (.vssub c d a b) c d a b (fun t _ x y _ => satInt t (intOf t x - intOf t y)) s

/-- Unary operations (R155, R158). -/
def arith1 (i : Instr) (c : Common) (d a : Fin 32) (f : Ty → Rm → Nat → Nat → Nat × Fl) (s : State) :
    Host.Outcome State Fault Refusal :=
  elementwise i c d (fun w t ty => let xa := w.src t a ty; fun e u => f ty c.rm (elem ty xa e) u) s

def execVsqrt (c : Common) (d a : Fin 32) (s : State) :=
  arith1 (.vsqrt c d a) c d a (fun t rm x u => rounded t rm (fSqrt (readTy t x)) u) s
def execVabs (c : Common) (d a : Fin 32) (s : State) :=
  arith1 (.vabs c d a) c d a (fun t _ x _ =>
    if t.isInt then (wrapInt t (intOf t x).natAbs, 0) else (withSign t x false, 0)) s
def execVneg (c : Common) (d a : Fin 32) (s : State) :=
  arith1 (.vneg c d a) c d a (fun t _ x _ =>
    if t.isInt then (wrapInt t (-(intOf t x)), 0) else (withSign t x (!signBit t x), 0)) s
def execVsgnj (c : Common) (d a : Fin 32) (b : Src) (s : State) :=
  arith2 (.vsgnj c d a b) c d a b (fun t _ x y _ => (withSign t x (signBit t y), 0)) s
def execVsgnjn (c : Common) (d a : Fin 32) (b : Src) (s : State) :=
  arith2 (.vsgnjn c d a b) c d a b (fun t _ x y _ => (withSign t x (!signBit t y), 0)) s

/-- `vsel` (R159): every element from VSTART to VL - 1 is written. -/
def execVsel (c : Common) (d a : Fin 32) (b : Src) (s : State) :=
  runInstr (.vsel c d a b) s fun w _ t =>
    let ty := effTy t.cur.ctl c.ty
    let xa := w.src t a ty
    let vb := srcVal w t b ty
    let act := t.active c
    let is := (List.range t.vl).filter fun e => decide (t.vstart ≤ e) && t.below e
    .done (t.putElems d ty (is.map fun e => (e, if act e then elem ty xa e else vb e))) [] [] (some (vecCheck t d ty is))

def execVmv (c : Common) (d : Fin 32) (b : Src) (s : State) :=
  elementwise (.vmv c d b) c d (fun w t ty => let vb := srcVal w t b ty; fun e _ => (vb e, 0)) s

/-! ## Fused multiply-add (R160, R161) -/

/-- ±(a × b) ± e with one rounding to `t`, a and b of type `ts`. -/
def fmaElem (t ts : Ty) (rm : Rm) (np nc : Bool) (xa xb : Nat) (e : Nat) (ce u : Nat) : Nat × Fl :=
  if t.isInt then
    let p := intOf ts (elem ts xa e) * intOf ts (elem ts xb e)
    let k := intOf t ce
    (wrapInt t ((if np then -p else p) + (if nc then -k else k)), 0)
  else rounded t rm (fFma rm np nc (elemVal ts xa e) (elemVal ts xb e) (readTy t ce)) u

def fmaForm (i : Instr) (c : Common) (w? : Option Ty) (np nc : Bool) (d a b e : Fin 32) (s : State) :
    Host.Outcome State Fault Refusal :=
  elementwise i c d (fun w t ty =>
    let ts := w?.getD ty
    let xa := w.src t a ts
    let xb := w.src t b ts
    let xe := w.src t e ty
    fun k u => fmaElem ty ts c.rm np nc xa xb k (elem ty xe k) u) s

def execVfmadd (c : Common) (d a b e : Fin 32) (s : State) := fmaForm (.vfmadd c d a b e) c none false false d a b e s
def execVfmsub (c : Common) (d a b e : Fin 32) (s : State) := fmaForm (.vfmsub c d a b e) c none false true d a b e s
def execVfnmadd (c : Common) (d a b e : Fin 32) (s : State) := fmaForm (.vfnmadd c d a b e) c none true true d a b e s
def execVfnmsub (c : Common) (d a b e : Fin 32) (s : State) := fmaForm (.vfnmsub c d a b e) c none true false d a b e s
def execVwfmadd (c : Common) (ts : Ty) (d a b e : Fin 32) (s : State) :=
  fmaForm (.vwfmadd c ts d a b e) c (some ts) false false d a b e s
def execVwfmsub (c : Common) (ts : Ty) (d a b e : Fin 32) (s : State) :=
  fmaForm (.vwfmsub c ts d a b e) c (some ts) false true d a b e s
def execVwfnmadd (c : Common) (ts : Ty) (d a b e : Fin 32) (s : State) :=
  fmaForm (.vwfnmadd c ts d a b e) c (some ts) true true d a b e s
def execVwfnmsub (c : Common) (ts : Ty) (d a b e : Fin 32) (s : State) :=
  fmaForm (.vwfnmsub c ts d a b e) c (some ts) true false d a b e s

/-! ## Conversions (R162, R163) -/

/-- Element e of a group of type `ts` converted to an unscaled type. -/
def convElem (td ts : Ty) (rm : Rm) (x : Bool) (xa e u : Nat) : Nat × Fl :=
  if ts.isScaled then
    let v := elemVal ts xa e
    if td.isAnyInt then writeInt td rm v u else writeFloat td rm (!x) v.exact u
  else convert td ts rm x (elem ts xa e) u

/-- Blocks of a scaled type that have a performed element, rewritten whole (R57): the group and the flags by element. -/
def quantGroup (td : Ty) (rm : Rm) (sat : Bool) (old : Nat) (is : List Nat) (val : Nat → FVal) (draw : Nat → Nat) :
    Nat × List (Nat × Fl) :=
  let b := blockLen td
  let blocks := (is.map (· / b)).eraseDups
  blocks.foldl (fun (acc : Nat × List (Nat × Fl)) k =>
    let idx := (List.range b).map fun t => k * b + t
    let cands := idx.map fun e =>
      if is.contains e then (⟨val e, true, 0, draw e⟩ : Cand) else ⟨elemVal td old e, false, elem td old e, 0⟩
    let (sc, codes, fls) := quantBlock td rm sat (scaleAt td old (k * b)) cands
    let x := putBits acc.1 (256 * k) 8 sc
    (setElems td x (idx.zip codes), acc.2 ++ (idx.zip fls).filter fun r => is.contains r.1)) (old, [])

def convForm (i : Instr) (c : Common) (ts : Ty) (x : Bool) (d a : Fin 32) (s : State) : Host.Outcome State Fault Refusal :=
  runInstr i s fun w ds t =>
    let td := effTy t.cur.ctl c.ty
    let xa := w.src t a ts
    let is := t.performed c
    let chk := some (vecCheck t d td is)
    if td.isScaled then
      let g := groupFor t.cur.ctl td
      let (y, fls) := quantGroup td c.rm (!x) (t.readGroup d g) is (fun e => elemVal ts xa e) (drawAt ds)
      .done (t.writeGroup d g y) (raises fls) [] chk
    else
      let rs := is.map fun e => (e, convElem td ts c.rm x xa e (drawAt ds e))
      .done (t.putElems d td (rs.map fun r => (r.1, r.2.1))) (raises (rs.map fun r => (r.1, r.2.2))) [] chk

def execVcvt (c : Common) (ts : Ty) (d a : Fin 32) (s : State) := convForm (.vcvt c ts d a) c ts false d a s
def execVcvtx (c : Common) (ts : Ty) (d a : Fin 32) (s : State) := convForm (.vcvtx c ts d a) c ts true d a s

/-! ## Compares (R164) -/

/-- The second operand of a compare (R156, R164). -/
def src2Val (w : View) (t : State) (b : Src2) (ty : Ty) : Nat → Nat :=
  match b with
  | .v r => srcVal w t (.v r) ty
  | .s r => srcVal w t (.s r) ty

/-- A compare: `p` on the order, `nan` its truth with a NaN, `quiet` whether only a signalling NaN raises NV. Its check item belongs
to the lane of the element compared, as that of `vconf` does (DESIGN CHOICE, log 46). -/
def compareForm (i : Instr) (c : Common) (d : Fin 8) (a : Fin 32) (b : Src2) (p : Ordering → Bool) (nan quiet : Bool)
    (s : State) : Host.Outcome State Fault Refusal :=
  runInstr i s fun w _ t =>
    let ty := effTy t.cur.ctl c.ty
    let xa := w.src t a ty
    let vb := src2Val w t b ty
    let is := t.performed c
    let rs := is.map fun e =>
      (e, if ty.isInt then (p (compare (intOf ty (elem ty xa e)) (intOf ty (vb e))), (0 : Fl))
          else fTest quiet p nan (readTy ty (elem ty xa e)) (readTy ty (vb e)))
    .done (t.putMask d (rs.map fun r => (r.1, r.2.1))) (raises (rs.map fun r => (r.1, r.2.2))) []
      (some (maskCheck (elemLane t.ncore ty) d is))

def execVcmpeq (c : Common) (d : Fin 8) (a : Fin 32) (b : Src2) (s : State) :=
  compareForm (.vcmpeq c d a b) c d a b (· == .eq) false true s
def execVcmpne (c : Common) (d : Fin 8) (a : Fin 32) (b : Src2) (s : State) :=
  compareForm (.vcmpne c d a b) c d a b (· != .eq) true true s
def execVcmplt (c : Common) (d : Fin 8) (a : Fin 32) (b : Src2) (s : State) :=
  compareForm (.vcmplt c d a b) c d a b (· == .lt) false false s
def execVcmple (c : Common) (d : Fin 8) (a : Fin 32) (b : Src2) (s : State) :=
  compareForm (.vcmple c d a b) c d a b (· != .gt) false false s
def execVcmpgt (c : Common) (d : Fin 8) (a : Fin 32) (b : Src2) (s : State) :=
  compareForm (.vcmpgt c d a b) c d a b (· == .gt) false false s
def execVcmpge (c : Common) (d : Fin 8) (a : Fin 32) (b : Src2) (s : State) :=
  compareForm (.vcmpge c d a b) c d a b (· != .lt) false false s

/-! ## Masks (R165, R166) -/

/-- The lane of a mask bit, to which the check item of a mask form belongs (DESIGN CHOICE, log 46). -/
def bitLane (ncore : Bool) (i : Nat) : Nat := laneOf ncore i

/-- Element-wise mask logic. -/
def maskLogic (i : Instr) (c : Common) (d a b : Fin 8) (f : Bool → Bool → Bool) (s : State) :
    Host.Outcome State Fault Refusal :=
  runInstr i s fun _ _ t =>
    let xa := t.mread a
    let xb := t.mread b
    let is := t.performed c
    .done (t.putMask d (is.map fun e => (e, f (xa.testBit e) (xb.testBit e)))) [] [] (some (maskCheck (bitLane t.ncore) d is))

def execMand (c : Common) (d a b : Fin 8) (s : State) := maskLogic (.mand c d a b) c d a b (· && ·) s
def execMor (c : Common) (d a b : Fin 8) (s : State) := maskLogic (.mor c d a b) c d a b (· || ·) s
def execMxor (c : Common) (d a b : Fin 8) (s : State) := maskLogic (.mxor c d a b) c d a b (· != ·) s
def execMandn (c : Common) (d a b : Fin 8) (s : State) := maskLogic (.mandn c d a b) c d a b (fun x y => x && !y) s

/-- f of R166: the first present bit of a mask register. -/
def firstSet (t : State) (c : Common) (a : Fin 8) : Option Nat := (t.presentAll c).find? fun e => (t.mread a).testBit e

/-- The mask forms that look for the first set bit. -/
def maskFirst (i : Instr) (c : Common) (d a : Fin 8) (f : Option Nat → Nat → Bool) (s : State) :
    Host.Outcome State Fault Refusal :=
  runInstr i s fun _ _ t =>
    let first := firstSet t c a
    let is := t.presentAll c
    .done (t.putMask d (is.map fun e => (e, f first e))) [] [] (some (maskCheck (bitLane t.ncore) d is))

def execMsbf (c : Common) (d a : Fin 8) (s : State) :=
  maskFirst (.msbf c d a) c d a (fun f e => match f with | none => true | some k => decide (e < k)) s
def execMsif (c : Common) (d a : Fin 8) (s : State) :=
  maskFirst (.msif c d a) c d a (fun f e => match f with | none => true | some k => decide (e ≤ k)) s
def execMsof (c : Common) (d a : Fin 8) (s : State) :=
  maskFirst (.msof c d a) c d a (fun f e => f == some e) s

/-- A mask form whose result is in G[D], which it writes whenever it completes. Its one check item has index 0 and lane 0, which R177 does
not give (DESIGN CHOICE, log 46). -/
def maskToG (i : Instr) (c : Common) (d : Fin 32) (f : State → Word) (s : State) : Host.Outcome State Fault Refusal :=
  runInstr i s fun _ _ t =>
    let items := if (t.presentAll c).isEmpty then [] else [0]
    .done (t.gwrite d (f t)) [] [] (some (oneCheck items (fun _ => 0) fun u => u.gwrite d 0))

def execMpcnt (c : Common) (d : Fin 32) (a : Fin 8) (s : State) :=
  maskToG (.mpcnt c d a) c d (fun t => BitVec.ofNat 64 ((t.presentAll c).filter fun e => (t.mread a).testBit e).length) s
def execMfirst (c : Common) (d : Fin 32) (a : Fin 8) (s : State) :=
  maskToG (.mfirst c d a) c d (fun t => match firstSet t c a with
    | none => BitVec.allOnes 64
    | some f => BitVec.ofNat 64 f) s

end Sys2Proof.Machine
end

