-- ==== Sys2Proof/Machine/Permute.lean ====
section
/-! DEFINITION. Permutes, reductions, conflicts, selection and transformations (R167 to R176). -/

namespace Sys2Proof.Machine

/-! ## Permutes (R167 to R169) -/

/-- The units that a permute moves: elements, or whole blocks of a scaled type (R169). Their width, how many elements each
stands for, how many lie below VL, and n. -/
structure Units where
  w : Nat
  per : Nat
  count : Nat
  n : Nat

/-- n is `vlmax()` of VTYPE (R41, R168); for a scaled type VLMAX of that type in blocks (R169; log 32). -/
def State.units (s : State) (ty : Ty) : Units :=
  if ty.isScaled then
    let b := blockLen ty
    ⟨256, b, (s.vl + b - 1) / b, Machine.vlmax s.ncore ty (groupFor s.cur.ctl ty) / b⟩
  else ⟨ty.sew, 1, s.vl, s.vlmax⟩

def Units.get (u : Units) (x i : Nat) : Nat := bitsAt x (i * u.w) u.w
def Units.set (u : Units) (x : Nat) (rs : List (Nat × Nat)) : Nat := rs.foldl (fun x r => putBits x (r.1 * u.w) u.w r.2) x

/-- The units of a cross-element instruction whose mask bit `on` is set; none when VSTART ≥ VL (R153). -/
def State.unitsOn (s : State) (u : Units) (on : Nat → Bool) : List Nat :=
  if s.vl ≤ s.vstart then [] else (List.range u.count).filter fun i => on (i * u.per)

/-- A permute: from the destination's units to what each receives. One that writes no element has no check item, and takes no draw of
SPOTSEED (DESIGN CHOICE, log 46). -/
def permForm (i : Instr) (c : Common) (d : Fin 32) (f : View → State → Ty → Units → List (Nat × Nat)) (s : State) :
    Host.Outcome State Fault Refusal :=
  runInstr i s fun w _ t =>
    let ty := effTy t.cur.ctl c.ty
    let u := t.units ty
    let rs := f w t ty u
    let g := groupFor t.cur.ctl ty
    .done (t.writeGroup d g (u.set (t.readGroup d g) rs)) [] [] (some (vecCheck t d ty (rs.map fun r => r.1 * u.per)))

def execVslideup (c : Common) (d a b : Fin 32) (s : State) :=
  permForm (.vslideup c d a b) c d (fun w t ty u =>
    let x := w.src t a ty
    let off := (t.gread b).toNat
    ((t.unitsOn u (t.active c)).filter fun i => decide (off ≤ i)).map fun i => (i, u.get x (i - off))) s
def execVslidedown (c : Common) (d a b : Fin 32) (s : State) :=
  permForm (.vslidedown c d a b) c d (fun w t ty u =>
    let x := w.src t a ty
    let off := (t.gread b).toNat
    (t.unitsOn u (t.active c)).map fun i => (i, if i + off < u.n then u.get x (i + off) else 0)) s
def execVrgather (c : Common) (d a b : Fin 32) (s : State) :=
  permForm (.vrgather c d a b) c d (fun w t ty u =>
    let x := w.src t a ty
    let ix := w.src t b .n16
    (t.unitsOn u (t.active c)).map fun i =>
      let j := elem .n16 ix i
      (i, if j < u.n then u.get x j else 0)) s
def execVcompress (c : Common) (d a : Fin 32) (m : Fin 8) (s : State) :=
  permForm (.vcompress c d a m) c d (fun w t ty u =>
    let x := w.src t a ty
    let mb := t.mread m
    ((t.unitsOn u mb.testBit).map (u.get x)).zipIdx.map fun r => (r.2, r.1)) s

def execVid (c : Common) (d : Fin 32) (s : State) :=
  elementwise (.vid c d) c d (fun _ _ ty => fun e _ => (e % 2 ^ ty.sew, 0)) s

/-- `viota`: the count of present set bits below each element. -/
def execViota (c : Common) (d : Fin 32) (a : Fin 8) (s : State) :=
  permForm (.viota c d a) c d (fun _ t ty _ =>
    let x := t.mread a
    ((t.presentAll c).foldl (fun (acc : List (Nat × Nat) × Nat) e =>
      (acc.1 ++ [(e, acc.2 % 2 ^ ty.sew)], if x.testBit e then acc.2 + 1 else acc.2)) ([], 0)).1) s

/-- Element 0 moved to a scalar register: only when VSTART < VL (R23, R168). -/
def elemToScalar (i : Instr) (c : Common) (a : Fin 32) (put : State → Ty → Nat → State) (s : State) :
    Host.Outcome State Fault Refusal :=
  runInstr i s fun w _ t =>
    if t.vl ≤ t.vstart then .ok t
    else
      let ty := effTy t.cur.ctl c.ty
      .done (put t ty (elem ty (w.src t a ty) 0)) [] []
        (some (oneCheck [0] (fun _ => 0) fun u => put u ty (errorValue ty)))

def execVgetg (c : Common) (d a : Fin 32) (s : State) :=
  elemToScalar (.vgetg c d a) c a (fun t ty x => t.gwrite d (BitVec.ofInt 64 (intOf ty x))) s
def execVgeth (c : Common) (d a : Fin 32) (s : State) :=
  elemToScalar (.vgeth c d a) c a (fun t _ x => t.hwrite d (BitVec.ofNat 64 x)) s

/-- A scalar moved to element 0, an element-wise instruction of that element alone (R153, R168; log 29). -/
def scalarToElem (i : Instr) (c : Common) (d : Fin 32) (f : State → Word) (s : State) : Host.Outcome State Fault Refusal :=
  runInstr i s fun _ _ t =>
    let ty := effTy t.cur.ctl c.ty
    let is := (t.performed c).filter (· == 0)
    .done (t.putElems d ty (is.map fun e => (e, (f t).toNat % 2 ^ ty.sew))) [] [] (some (vecCheck t d ty is))

def execVputg (c : Common) (d a : Fin 32) (s : State) := scalarToElem (.vputg c d a) c d (fun t => t.gread a) s
def execVputh (c : Common) (d a : Fin 32) (s : State) := scalarToElem (.vputh c d a) c d (fun t => t.hread a) s

/-! ## Reductions (R59, R60, R170, R171) -/

/-- A partial sum: its raw value and the lowest index it covers (R66). -/
abbrev Part := Option (Nat × Nat)

/-- One level of `tree_sum`. -/
def treeLevel (add : Nat → Nat → Nat × Fl) : List Part → List Part × Raised
  | a :: b :: rest =>
    let (ys, r) := treeLevel add rest
    match a, b with
    | none, b => (b :: ys, r)
    | some a, none => (some a :: ys, r)
    | some (x, i), some (y, j) =>
      let (z, f) := add x y
      (some (z, min i j) :: ys, raiseIf r (min i j) f)
  | [a] => ([a], [])
  | [] => ([], [])

/-- `tree_sum`: 15 levels cover every VL. -/
def treeSum (add : Nat → Nat → Nat × Fl) : Nat → List Part → Part × Raised
  | 0, xs => (xs.headD none, [])
  | n + 1, xs =>
    match xs with
    | [] => (none, [])
    | [a] => (a, [])
    | _ =>
      let (ys, r) := treeLevel add xs
      let (p, r') := treeSum add n ys
      (p, r ++ r')

/-- The additions of a tree, each by the lowest index it covers, level by level, and the seed addition last: the check items of
`vredsum` (R66, R177, R430). -/
def treeItems (is : List Nat) (vl : Nat) : List Nat :=
  match is with
  | [] => []
  | i :: _ =>
    (treeSum (fun _ _ => (0, flNX)) 15 ((List.range vl).map fun e => if is.contains e then some (0, e) else none)).2.map (·.1) ++ [i]

/-- A reduction (R170): `f` folds the present elements of Va, raw with their indices, into the seed; `items` are its check items
(R177), each of the lane of its element (log 46). -/
def reduceForm (i : Instr) (c : Common) (w? : Option Ty) (d a b : Fin 32) (items : List Nat → Nat → List Nat)
    (f : Ty → Ty → Nat → Nat → List Nat → Nat → Nat × Raised) (s : State) : Host.Outcome State Fault Refusal :=
  runInstr i s fun w _ t =>
    if t.vl ≤ t.vstart then .ok t
    else
      let td := effTy t.cur.ctl c.ty
      let ts := w?.getD td
      let xa := w.src t a ts
      let seed := elem td (w.src t b td) 0
      let is := t.presentAll c
      let (r, fl) := if is.isEmpty then (seed, []) else f td ts xa seed is t.vl
      .done (t.putElems d td [(0, r)]) fl [] (some (oneCheck (items is t.vl) (elemLane t.ncore ts) fun u => u.putErrors d td [0]))

/-- A left fold over the present elements. -/
def foldPresent (ts : Ty) (xa seed : Nat) (is : List Nat) (op : Nat → Nat → Nat × Fl) : Nat × Raised :=
  is.foldl (fun acc e => let (r, f) := op acc.1 (elem ts xa e); (r, raiseIf acc.2 e f)) (seed, [])

/-- `vredsum`: integers modulo 2^SEW; floating elements rounded to Td, then the tree, then the seed (R59, R171). A signalling NaN raises
NV at its own index, by its rounding to Td (DESIGN CHOICE, log 46). -/
def sumTree (rm : Rm) (td ts : Ty) (xa seed : Nat) (is : List Nat) (vl : Nat) : Nat × Raised :=
  if td.isInt then foldPresent ts xa seed is fun acc x => (wrapInt td (intOf td acc + intOf ts x), 0)
  else
    let add (x y : Nat) : Nat × Fl := rounded td rm (fAdd rm (readTy td x) (readTy td y)) 0
    let conv := is.map fun e =>
      let v := elemVal ts xa e
      let (r, f) := writeFloat td rm true v.exact 0
      (e, r, f ||| flIf v.isSnan flNV)
    let parts := (List.range vl).map fun e => (conv.find? (·.1 == e)).map fun r => (r.2.1, e)
    let (p, fl) := treeSum add 15 parts
    let fl := conv.foldl (fun acc r => raiseIf acc r.1 r.2.2) fl
    match p with
    | none => (seed, fl)
    | some (x, i) => let (r, f) := add seed x; (r, raiseIf fl i f)

/-- `vredosum` (R60). -/
def sumOrdered (rm : Rm) (td ts : Ty) (xa seed : Nat) (is : List Nat) : Nat × Raised :=
  is.foldl (fun acc e =>
    let (r, f) := rounded td rm (fAdd rm (readTy td acc.1) (elemVal ts xa e)) 0
    (r, raiseIf acc.2 e f)) (seed, [])

def execVredsum (c : Common) (w : Option Ty) (d a b : Fin 32) (s : State) :=
  reduceForm (.vredsum c w d a b) c w d a b treeItems (fun td ts xa seed is vl => sumTree c.rm td ts xa seed is vl) s
def execVredosum (c : Common) (w : Option Ty) (d a b : Fin 32) (s : State) :=
  reduceForm (.vredosum c w d a b) c w d a b (fun is _ => is) (fun td ts xa seed is _ => sumOrdered c.rm td ts xa seed is) s

/-- The other reductions combine the seed and every present element. -/
def reduceOp (i : Instr) (c : Common) (d a b : Fin 32) (op : Op2) (s : State) : Host.Outcome State Fault Refusal :=
  reduceForm i c none d a b (fun is _ => is) (fun td ts xa seed is _ => foldPresent ts xa seed is fun x y => op td c.rm x y 0) s

def execVredmin (c : Common) (d a b : Fin 32) (s : State) := reduceOp (.vredmin c d a b) c d a b (opMinMax false) s
def execVredmax (c : Common) (d a b : Fin 32) (s : State) := reduceOp (.vredmax c d a b) c d a b (opMinMax true) s
def execVredand (c : Common) (d a b : Fin 32) (s : State) :=
  reduceOp (.vredand c d a b) c d a b (fun _ _ x y _ => (x &&& y, 0)) s
def execVredor (c : Common) (d a b : Fin 32) (s : State) :=
  reduceOp (.vredor c d a b) c d a b (fun _ _ x y _ => (x ||| y, 0)) s
def execVredxor (c : Common) (d a b : Fin 32) (s : State) :=
  reduceOp (.vredxor c d a b) c d a b (fun _ _ x y _ => (x ^^^ y, 0)) s

/-! ## Conflicts and selection (R172 to R174) -/

/-- Each present element with how many earlier present ones hold the same bits. -/
def ranks (t : State) (c : Common) (ty : Ty) (xa : Nat) : List (Nat × Nat) :=
  let vals := (t.presentAll c).map fun e => (e, elem ty xa e)
  vals.map fun x => (x.1, (vals.filter fun y => decide (y.1 < x.1) && y.2 == x.2).length)

def execVconf (c : Common) (d : Fin 8) (a : Fin 32) (s : State) :=
  runInstr (.vconf c d a) s fun w _ t =>
    let ty := effTy t.cur.ctl c.ty
    let rs := ranks t c ty (w.src t a ty)
    .done (t.putMask d (rs.map fun r => (r.1, r.2 == 0))) [] []
      (some (maskCheck (elemLane t.ncore ty) d (rs.map fun r => r.1)))
def execVconfr (c : Common) (d a : Fin 32) (s : State) :=
  runInstr (.vconfr c d a) s fun w _ t =>
    let ty := effTy t.cur.ctl c.ty
    let rs := ranks t c ty (w.src t a ty)
    .done (t.putElems d .n16 rs) [] [] (some (vecCheck t d .n16 (rs.map fun r => r.1)))

/-- Whether a value ranks strictly above another in the order of R174. -/
def ranksAbove (x y : FVal) : Bool :=
  match x, y with
  | .nan _, _ => false
  | _, .nan _ => true
  | _, _ => fCmp x y == .gt

/-- Inserts an index with its value after every one that does not rank below it. -/
def insertRank (x : Nat × FVal) : List (Nat × FVal) → List (Nat × FVal)
  | [] => [x]
  | y :: ys => if ranksAbove x.2 y.2 then x :: y :: ys else y :: insertRank x ys

/-- `vtopk` (R174). One that writes fewer than two indices has no pair to check, and takes no draw of SPOTSEED (DESIGN CHOICE, log
46). -/
def execVtopk (c : Common) (d a b : Fin 32) (s : State) :=
  runInstr (.vtopk c d a b) s fun w _ t =>
    let ty := effTy t.cur.ctl c.ty
    let xa := w.src t a ty
    let sorted := (t.presentAll c).foldl (fun l e => insertRank (e, elemVal ty xa e) l) []
    let top := (sorted.map fun r => r.1).take (t.gread b).toNat
    let rs := top.zipIdx.map fun r => (r.2, r.1)
    let chk := vecCheck t d .n16 (rs.map fun r => r.1)
    .done (t.putElems d .n16 rs) [] [] (some { chk with items := List.range (rs.length - 1) })

/-! ## Transformations (R175, R176, R199 to R203) -/

/-- A field of `w` bits as an element: sign-extended for s-types, else zero-extended (R176). -/
def fieldElem (t : Ty) (w f : Nat) : Nat :=
  if t.isSigned && f.testBit (w - 1) then wrapInt t ((f : Int) - (2 ^ w : Nat)) else f % 2 ^ t.sew

/-- `vunpk` (R176). Only a packed stream waives the offset o (R202); a plain stream's strip is read as one register of VLEN bits. That a
plain stream of any TYPE may stand here at all is the model's choice (DESIGN CHOICE, log 46). -/
def execVunpk (c : Common) (d a b : Fin 32) (s : State) :=
  runInstr (.vunpk c d a b) s fun v _ t =>
    let ty := effTy t.cur.ctl c.ty
    let gb := (t.gread b).toNat
    let w := bitsAt gb 0 5 + 1
    let (x, o) := match v.find? (·.1 == a) with
      | some (_, x) =>
        if (t.binding a).elim false (·.desc.kind == 1) then (x, 0) else (x % 2 ^ vlen t.ncore, bitsAt gb 8 6)
      | none => (t.readGroup a 1, bitsAt gb 8 6)
    let is := t.presentAll c
    .done (t.putElems d ty (is.map fun e => (e, fieldElem ty w (bitsAt x (o + e * w) w)))) [] [] (some (vecCheck t d ty is))

def execVlut (c : Common) (ix : Ty) (lb : BitVec 4) (d a b : Fin 32) (s : State) :=
  elementwise (.vlut c ix lb d a b) c d (fun w t ty =>
    let xa := w.src t a ix
    let xb := w.src t b ty
    let n := vlmax t.ncore ty (groupFor t.cur.ctl ty)
    fun e _ =>
      let j := lutIndex lb.toNat ix.sew ix xa e
      (if j < n then elem ty xb j else 0, 0)) s

def execVexpm (c : Common) (d a : Fin 32) (s : State) :=
  runInstr (.vexpm c d a) s fun w _ t =>
    let ty := effTy t.cur.ctl c.ty
    let xa := w.src t a ty
    let is := t.presentAll c
    .done (t.putElems d ty (is.zipIdx.map fun r => (r.1, elem ty xa r.2))) [] [] (some (vecCheck t d ty is))

end Sys2Proof.Machine
end

