-- ==== Sys2Proof/Machine/Memory.lean ====
section
/-! DEFINITION. Vector memory accesses, bit-offset, indexed and fabric accesses (R179 to R192), stream descriptors and bindings
(R193 to R204), sparse memory and sparse arithmetic (R205 to R208). -/

namespace Sys2Proof.Machine

/-! ## Loads: fault-only-first (R181) -/

/-- Elements in order until one faults: what each brought, and the first fault with its element. -/
def loadElems (piece : Nat → Piece) : List Nat → State → List (Nat × Got) × Option (Nat × Flt) × State
  | [], s => ([], none, s)
  | i :: rest, s =>
    match s.readPiece (piece i) with
    | (.error f, s) => ([], some (i, f), s)
    | (.ok g, s) =>
      let (out, flt, s) := loadElems piece rest s
      ((i, g) :: out, flt, s)

def Got.bad (g : Got) : Bool := g.poison || g.absent
/-- The elements that brought nothing usable, and those of them that consumed poison. -/
def badOf (got : List (Nat × Got)) : List Nat := (got.filter fun x => x.2.bad).map (·.1)
def poisonedOf (got : List (Nat × Got)) : List Nat := (got.filter fun x => x.2.poison).map (·.1)

/-- A load of the performed elements: the first one's fault traps, a later one's trims VL (R181). -/
def loadEff (is : List Nat) (got : List (Nat × Got)) (flt : Option (Nat × Flt)) (trim : Nat → Nat)
    (put : State → List (Nat × Got) → State) (t : State) : Eff :=
  let finish (u : State) : Eff :=
    .done (put u got) ((badOf got).map fun i => (i, flPSN)) (poisonedOf got) none
  match flt with
  | none => finish t
  | some (f, e) => if is.head? == some f then .trap t (e.trap .read) else finish (t.setVl (trim f))

/-- Loaded elements in a vector register; an element without data receives the error value of R47. -/
def State.putLoaded (d : Fin 32) (ty : Ty) (piece : Nat → Piece) (t : State) (got : List (Nat × Got)) : State :=
  t.putElems d ty (got.map fun x =>
    (x.1, if x.2.bad then errorValue ty else (piece x.1).value x.2.bytes % 2 ^ ty.sew))

/-- A load with one piece of memory per element. -/
def loadForm (i : Instr) (c : Common) (d : Fin 32) (pieces : View → State → Ty → Nat → Piece) (s : State) :
    Host.Outcome State Fault Refusal :=
  runInstr i s fun w _ t =>
    let ty := effTy t.cur.ctl c.ty
    let piece := pieces w t ty
    let is := t.performed c
    let (got, flt, t) := loadElems piece is t
    loadEff is got flt id (State.putLoaded d ty piece) t

/-! ## Stores: partial commit (R182) -/

/-- Stores the low `w` bits of a value in a piece: a byte multiple at a byte boundary as one access (R179), other widths as one
masked write per byte. -/
def State.storePiece (s : State) (p : Piece) (x : Nat) : Except Flt Unit × State :=
  if p.shift == 0 && p.w == 8 * p.n then s.store true p.va (leBytes p.n x)
  else
    match s.xlateN .write p.va p.n with
    | (.error f, s) => (.error f, s)
    | (.ok gas, s) =>
      let bits := (x % 2 ^ p.w) <<< p.shift
      let mask := (2 ^ p.w - 1) <<< p.shift
      (.ok (), gas.zipIdx.foldl (fun (s : State) r =>
        s.storeEntry true [⟨r.1, BitVec.ofNat 8 (bits >>> (8 * r.2)), BitVec.ofNat 8 (mask >>> (8 * r.2))⟩]) s)

/-- Whether the elements of a store go into the strip store buffer (R364); `vector` says that it is one of those that do. -/
def State.buffers (s : State) (vector : Bool) : Bool := vector && s.stream == .ep && s.cur.strip.isOpen

/-- With ORD = 1 the element before stands at its ownership point before the next one enters, save in an open strip (R363, R364;
log 20). -/
def State.settleOrd (s : State) (c : Common) (vector : Bool) : State :=
  if c.ord && !s.buffers vector then s.drain s.path 5 else s

/-- Whether a store of the stream in focus outside the strip store buffer does not yet stand at its ownership point. -/
def State.unsettled (s : State) : Bool :=
  s.ownHeld || s.pend.any fun e => e.loc == s.cur.loc && e.stream == s.stream && !e.strip

/-- Whether the next element of a store must wait for the one before it (R363). -/
def State.mustSettle (s : State) (c : Common) (vector : Bool) : Bool := c.ord && !s.buffers vector && s.unsettled

/-- How the stores of an instruction came out: all made, or the element that faulted, or the one that has to wait for its
predecessor (R363). -/
inductive StoreEnd where
  | all
  | fault (i : Nat) (f : Flt)
  | held (i : Nat)

/-- Stores elements in order until one faults, or waits under ORD for the one before it. -/
def storeElems (c : Common) (vector : Bool) (one : State → Nat → Except Flt Unit × State) : List Nat → State → StoreEnd × State
  | [], s => (.all, s)
  | i :: rest, s =>
    let s := s.settleOrd c vector
    if s.mustSettle c vector then (.held i, s)
    else match one s i with
    | (.error f, s) => (.fault i f, s)
    | (.ok (), s) => storeElems c vector one rest s

/-- An instruction that has made all its stores and posts has them at level 1 before its token goes out (R371). -/
def State.outToPost (s : State) (c : Common) : State := if c.post.isSome then s.moveOut else s

/-- A store of the performed elements: a fault leaves VSTART at its element and traps; so does a wait at an element. -/
def storeEff (c : Common) (vector : Bool) (is : List Nat) (start : Nat → Nat) (ea : Nat → Word)
    (one : State → Nat → Except Flt Unit × State) (t : State) : Eff :=
  match storeElems c vector one is t with
  | (.all, t) => .ok (t.outToPost c)
  | (.fault f e, t) => .trap (t.setVstart (start f)) (e.trap .write)
  | (.held i, t) => .part (t.setVstart (start i)) (some (.store (ea i))) [] [] none

def storeForm (i : Instr) (c : Common) (d : Fin 32) (pieces : View → State → Ty → Nat → Piece) (s : State) :
    Host.Outcome State Fault Refusal :=
  runInstr i s fun w _ t =>
    let ty := effTy t.cur.ctl c.ty
    let piece := pieces w t ty
    let x := w.src t d ty
    storeEff c true (t.performed c) id (fun e => (piece e).va) (fun s e => s.storePiece (piece e) (elem ty x e)) t

/-! ## Unit-stride, strided and mask accesses (R183 to R185) -/

def sext14 (disp : BitVec 14) : Word := disp.signExtend 64

/-- Bytes an element takes where an address steps by elements: one for e3m2 (R183). -/
def cellBytes (t : Ty) : Nat := (t.sew + 7) / 8

/-- A whole element at an address (R183): e3m2 in the low 6 bits of its byte. -/
def cellPiece (t : Ty) (va : Word) : Piece := ⟨va, cellBytes t, 0, if t.sew < 8 then 8 else t.sew⟩

/-- Blocks of a scaled type that hold a performed element, rising (R184). -/
def blocksOf (t : Ty) (is : List Nat) : List Nat := (is.map (· / blockLen t)).eraseDups

def blockPiece (base : Word) (j : Nat) : Piece := ⟨base + BitVec.ofNat 64 (32 * j), 32, 0, 256⟩

/-- A load of whole blocks: a block without data receives the error scale of R47, and PSN at its performed elements. -/
def State.putBlocks (d : Fin 32) (ty : Ty) (t : State) (got : List (Nat × Got)) : State :=
  let g := groupFor t.cur.ctl ty
  t.writeGroup d g (got.foldl (fun x r =>
    if r.2.bad then putBits x (256 * r.1) 8 0xFF else putBits x (256 * r.1) 256 (leNat r.2.bytes)) (t.readGroup d g))

def execVld (c : Common) (d a : Fin 32) (disp : BitVec 14) (s : State) :=
  runInstr (.vld c d a disp) s fun _ _ t =>
    let ty := effTy t.cur.ctl c.ty
    let base := t.gread a + sext14 disp
    let is := t.performed c
    if ty.isScaled then
      let b := blockLen ty
      if !is.isEmpty && base.toNat % 32 != 0 then .trap t ⟨causeMisaligned, base, 0⟩
      else
        let js := blocksOf ty is
        let (got, flt, t) := loadElems (blockPiece base) js t
        let finish (u : State) : Eff :=
          let bad (l : List Nat) := is.filter fun e => l.contains (e / b)
          .done (State.putBlocks d ty u got) ((bad (badOf got)).map fun i => (i, flPSN)) (bad (poisonedOf got)) none
        match flt with
        | none => finish t
        | some (j, e) => if js.head? == some j then .trap t (e.trap .read) else finish (t.setVl (j * b))
    else
      let piece := fun e => packedPiece base (e * ty.sew) ty.sew
      let (got, flt, t) := loadElems piece is t
      loadEff is got flt id (State.putLoaded d ty piece) t

def execVst (c : Common) (d a : Fin 32) (disp : BitVec 14) (s : State) :=
  runInstr (.vst c d a disp) s fun w _ t =>
    let ty := effTy t.cur.ctl c.ty
    let base := t.gread a + sext14 disp
    let is := t.performed c
    let x := w.src t d ty
    if ty.isScaled then
      if !is.isEmpty && base.toNat % 32 != 0 then .trap t ⟨causeMisaligned, base, 0⟩
      else storeEff c true (blocksOf ty is) (· * blockLen ty) (fun j => (blockPiece base j).va)
        (fun s j => s.store true (blockPiece base j).va (leBytes 32 (bitsAt x (256 * j) 256))) t
    else storeEff c true is id (fun e => (packedPiece base (e * ty.sew) ty.sew).va) (fun s e => s.storePiece (packedPiece base (e * ty.sew) ty.sew) (elem ty x e)) t

/-- Strided elements (R183). -/
def stridePiece (a b : Fin 32) (t : State) (ty : Ty) (i : Nat) : Piece :=
  cellPiece ty (t.gread a + BitVec.ofNat 64 i * t.gread b)

def execVlds (c : Common) (d a b : Fin 32) (s : State) :=
  loadForm (.vlds c d a b) c d (fun _ t ty => stridePiece a b t ty) s
def execVsts (c : Common) (d a b : Fin 32) (s : State) :=
  storeForm (.vsts c d a b) c d (fun _ t ty => stridePiece a b t ty) s

/-- The mask bytes of an instruction (R185), each as the element of its lowest bit at or above VSTART, with its bits. -/
def State.maskBytes (s : State) : List (Nat × List Nat) :=
  let is := (List.range s.vl).filter fun i => decide (s.vstart ≤ i) && s.below i
  ((is.map (· / 8)).eraseDups).map fun k => (max (8 * k) s.vstart, is.filter fun i => i / 8 == k)

def execMld (c : Common) (d : Fin 8) (a : Fin 32) (disp : BitVec 14) (s : State) :=
  runInstr (.mld c d a disp) s fun _ _ t =>
    let base := t.gread a + sext14 disp
    let ks := t.maskBytes
    let is := ks.map (·.1)
    let bitsOf (e : Nat) : List Nat := (ks.find? (·.1 == e)).elim [] (·.2)
    let (got, flt, t) := loadElems (fun e => ⟨base + BitVec.ofNat 64 (e / 8), 1, 0, 8⟩) is t
    let put (u : State) : State := u.putMask d (got.flatMap fun r =>
      (bitsOf r.1).map fun i => (i, !r.2.bad && (leNat r.2.bytes).testBit (i % 8)))
    let finish (u : State) : Eff :=
      .done (put u) ((badOf got).flatMap fun e => (bitsOf e).map fun i => (i, flPSN)) ((poisonedOf got).flatMap bitsOf) none
    match flt with
    | none => finish t
    | some (f, e) => if is.head? == some f then .trap t (e.trap .read) else finish (t.setVl (f / 8 * 8))

def execMst (c : Common) (d : Fin 8) (a : Fin 32) (disp : BitVec 14) (s : State) :=
  runInstr (.mst c d a disp) s fun _ _ t =>
    let base := t.gread a + sext14 disp
    let m := t.mread d
    let ks := t.maskBytes
    let one (u : State) (e : Nat) : Except Flt Unit × State :=
      let n := ((ks.find? (·.1 == e)).elim [] (·.2)).length
      u.storePiece ⟨base + BitVec.ofNat 64 (e / 8), 1, e % 8, n⟩ (bitsAt m e n)
    storeEff c true (ks.map (·.1)) id (fun e => base + BitVec.ofNat 64 (e / 8)) one t

/-! ## Bit-offset and indexed accesses (R186 to R188) -/

def execVldb (c : Common) (d a : Fin 32) (o : Fin 8) (s : State) :=
  loadForm (.vldb c d a o) c d (fun _ t ty e => packedPiece (t.gread a) (o.val + e * ty.sew) ty.sew) s
def execVstb (c : Common) (d a : Fin 32) (o : Fin 8) (s : State) :=
  storeForm (.vstb c d a o) c d (fun _ t ty e => packedPiece (t.gread a) (o.val + e * ty.sew) ty.sew) s

/-- The address of an indexed element (R187). -/
def indexAddr (w : View) (t : State) (a b : Fin 32) (sc : Fin 4) (ix : IdxTy) : Nat → Word :=
  let xb := w.src t b (ixTy ix)
  fun e => t.gread a + BitVec.ofInt 64 (intOf (ixTy ix) (elem (ixTy ix) xb e) * (2 ^ sc.val : Nat))

def execVldx (c : Common) (d a b : Fin 32) (sc : Fin 4) (ix : IdxTy) (s : State) :=
  loadForm (.vldx c d a b sc ix) c d (fun w t ty => let ea := indexAddr w t a b sc ix; fun e => cellPiece ty (ea e)) s
def execVstx (c : Common) (d a b : Fin 32) (sc : Fin 4) (ix : IdxTy) (s : State) :=
  storeForm (.vstx c d a b sc ix) c d (fun w t ty => let ea := indexAddr w t a b sc ix; fun e => cellPiece ty (ea e)) s

/-! ## Fabric accesses (R190 to R192, R373, R397 to R400) -/

/-- A number in device memory at a local address, read at device scope. -/
def State.localNat (s : State) (l n : Nat) : Nat :=
  leNat ((List.range n).map fun k => s.byteOn ⟨s.cur.loc, none, 4⟩ (s.gaOf (l + k)))

/-- The local address of the entry of group g. -/
def State.groupBase (s : State) (g : Nat) : Nat := s.fabric.fgtbase.toNat / 2 ^ 17 % 2 ^ 33 * 2 ^ 17 + 16 * (g % 8192)

/-- Group g, where it is configured. -/
def State.group (s : State) (g : Nat) : Option GroupEntry :=
  let base := s.groupBase g
  let d0 := s.localNat base 8
  let n := bitsAt d0 49 14
  if s.fabric.fgtbase.getLsbD 0 && d0.testBit 63 && decide (1 ≤ n ∧ n ≤ 8192) then
    let list := s.localNat (base + 8) 8 % 2 ^ 50
    some ⟨g % 8192, bitsAt d0 36 13, d0.testBit 0, (List.range n).map fun k => s.localNat (list + 2 * k) 2 % 2 ^ 13⟩
  else none

/-- The table entry and the list of group g have been read, which an injection may act on (R298). -/
def State.readGroupTable (s : State) (g : Nat) : State :=
  if s.fabric.fgtbase.getLsbD 0 then
    let base := s.groupBase g
    let list := s.localNat (base + 8) 8 % 2 ^ 50
    let n := (s.group g).elim 0 fun e => 2 * e.list.length
    s.fireInjections (((List.range 16).map fun k => s.gaOf (base + k)) ++ (List.range n).map fun k => s.gaOf (list + k))
  else s

/-- The member's address of a global address. -/
def atMember (m : Nat) (ga : Nat) : Nat := m * 2 ^ 50 + gaLocal ga

/-- One access of a multicast element at one member (R373, R397): a store entry of level 4, behind this context's own earlier stores
to its bytes, which travels on its own from there. -/
def State.storeAtMember (s : State) (es : List MByte) : State :=
  let inStrip := s.pend.any fun e => e.strip && e.loc == s.cur.loc && es.any fun b => e.covers b.ga
  if inStrip then
    let t := s.storeEntry false es
    { t with pend := t.pend.map fun e => if e.bytes == es && e.loc == s.cur.loc then { e with mcast := true } else e }
  else
    let own := s.pend.any fun e => s.path.sees e && es.any fun b => e.covers b.ga
    let s := if own then s.drain s.path 4 else s
    ({ s with pend := s.pend ++ [{ s.newEntry 4 es with mcast := true }] } : State).bump

/-- The accesses of an element at an address: one, or one per byte where it is not aligned (R179, R180). -/
def accessesOf (va : Word) (ms : List MByte) : List (List MByte) :=
  if va.toNat % ms.length == 0 then [ms] else ms.map fun m => [m]

/-- One element of a multicast store at one member: a member that cannot perform it drops it, which counts once (R191, R397), after LIMIT
resends where nobody answers (R395). -/
def State.copyToMember (s : State) (ea : Word) (bs : List MByte) (m : Nat) : State :=
  let es : List MByte := bs.map fun b => { b with ga := atMember m b.ga }
  let route := es.head?.elim 0 fun b => gaRoute b.ga
  if es.any (fun b => s.gaFaults b.ga) then s.countDrop route
  else match es.find? (fun b => !s.reachable s.cur.loc.die b.ga) with
    | some b => s.requestFailed (locNum s.cur.loc) s.pc 8 (s.silent s.cur.loc.die (gaFrame b.ga)) route true
    | none => (accessesOf ea es).foldl State.storeAtMember s

/-- One element of a multicast store, `n` bytes of `x` (R190, R191, R373). -/
def State.multicast (u : State) (g : GroupEntry) (ea : Word) (n x : Nat) : Except Flt Unit × State :=
  match u.xlateN .write ea n with
  | (.error f, u) => (.error f, u)
  | (.ok gas, u) =>
    if u.groupFull g.num then (.error (.accessAt 0), u.markHeld (.store ea))
    else
    let u := if g.list.all (· == u.here) then u else u.groupRequest 8 g.num (gas.headD 0) (leBytes n x) n
    (.ok (), g.list.foldl (fun u m => u.copyToMember ea (mbytes gas (leBytes n x)) m) u)

/-- Whether a multicast store of the stream in focus has a copy that no member has acknowledged: on its way, or held at a frozen frame
(R191, R342, R397). -/
def State.copiesOut (s : State) : Bool :=
  let mine (e : Entry) : Bool := e.mcast && e.loc == s.cur.loc && e.stream == s.stream
  s.pend.any mine || s.moves.any fun m => m.held.any fun h => match h with
    | .entry e => mine e
    | _ => false

/-- A `vstm` that posts completes once every member has acknowledged every element (R191): until then it has performed all of its
elements and waits. -/
def Eff.acknowledged (c : Common) : Eff → Eff
  | .done s r psn chk =>
    if c.post.isSome && s.copiesOut then .part (s.setVstart s.vl) (some .stores) r psn chk else .done s r psn chk
  | e => e

/-- `vstm` (R190, R191). -/
def execVstm (c : Common) (d a b : Fin 32) (s : State) :=
  runInstr (.vstm c d a b) s fun w _ t =>
    let ty := effTy t.cur.ctl c.ty
    let is := t.performed c
    let x := w.src t d ty
    let ea (e : Nat) : Word := t.gread a + BitVec.ofNat 64 (e * cellBytes ty)
    match is.head? with
    | none => (Eff.ok t).acknowledged c
    | some p =>
      let t := t.readGroupTable (t.gread b).toNat
      match t.group (t.gread b).toNat with
      | none => .trap t ⟨causeAccess, ea p, BitVec.ofNat 24 (accCode .write)⟩
      | some g =>
        (storeEff c false is id ea (fun u e => u.multicast g (ea e) (cellBytes ty) (elem ty x e)) t).acknowledged c

/-- What a reducing load does to two values (R192): sums wrap or round to nearest, ties to even. -/
inductive Rop where
  | sum | min | max
deriving DecidableEq, Repr
def Rop.apply (r : Rop) (ty : Ty) (x y : Nat) : Nat × Fl :=
  match r with
  | .sum => opAdd ty .rne x y 0
  | .min => opMinMax false ty .rne x y 0
  | .max => opMinMax true ty .rne x y 0

/-- Sorted by a key, stable. -/
def insertKey (key : Nat → Nat) (x : Nat × Nat) : List (Nat × Nat) → List (Nat × Nat)
  | [] => [x]
  | y :: ys => if key x.1 < key y.1 then x :: y :: ys else y :: insertKey key x ys

/-- Answers combined in arrival order: value, flags. `key` orders the answers by their number. -/
def combineAnswers (r : Rop) (ty : Ty) (key : Nat → Nat) (xs : List (Nat × Nat)) : Option (Nat × Fl) :=
  match xs.foldl (fun acc x => insertKey key x acc) [] with
  | [] => none
  | x :: rest => some (rest.foldl (fun acc y => let (z, f) := r.apply ty acc.1 y.2; (z, acc.2 ||| f)) (x.2, 0))

/-- The members' values of one element, combined by the switches on the way back (R384, R397, R398): those of each leaf at its
leaf switch, the leaves at a spine, the requester's own leaf last, then the requester's own value. -/
def combineMembers (r : Rop) (ty : Ty) (here : Nat) (key : Nat → Nat) (vals : List (Nat × Nat)) : Nat × Fl :=
  let leaf (m : Nat) : Nat := m / 64
  let others := vals.filter fun v => v.1 != here
  let leaves := ((others.map fun v => leaf v.1).eraseDups).filter (· != leaf here)
  let far := leaves.filterMap fun l => (combineAnswers r ty key (others.filter fun v => leaf v.1 == l)).map fun c => (l, c)
  let fl := far.foldl (fun f x => f ||| x.2.2) (0 : Fl)
  let spine := combineAnswers r ty (fun l => key (8192 + l)) (far.map fun x => (x.1, x.2.1))
  let near := (others.filter fun v => leaf v.1 == leaf here) ++ (spine.elim [] fun c => [(8192, c.1)])
  let fl := fl ||| spine.elim 0 (·.2)
  let total := combineAnswers r ty key near
  let own := vals.filter fun v => v.1 == here
  match total, own with
  | some (x, f), (_, y) :: _ => let (z, g) := r.apply ty x y; (z, fl ||| f ||| g)
  | some (x, f), [] => (x, fl ||| f)
  | none, (_, y) :: _ => (y, fl)
  | none, [] => (errorValue ty, fl)

/-- What a reducing load of one element brought: value, flags, the count of contributions (R398), whether a member's answer came
poisoned or was missing, and whether one has to be held (R342). -/
structure Reduced where
  val : Nat
  fl : Fl
  count : Nat
  poison : Bool
  absent : Bool
  held : Bool
deriving DecidableEq, Repr

/-- One element of a reducing load on a path: each member's value, bound at its ownership point (R374), or the error value of R47. A
member that never answers is no contribution, and a count short of N is treated as poison (R395, R398). -/
def State.readMembers (s : State) (r : Rop) (ty : Ty) (path : Path) (g : GroupEntry) (gas : List Nat) : Reduced × State :=
  let full := s.groupFull g.num
  let s := if g.list.all (· == s.here) then s else s.groupRequest 9 g.num (gas.headD 0) [] gas.length
  let (vals, poison, absent, held, s) := g.list.foldl (fun (acc : List (Nat × Nat) × Bool × Bool × Bool × State) m =>
    let (vals, p, n, h, s) := acc
    let at_ := gas.map (atMember m)
    if at_.any s.gaFaults then (vals ++ [(m, errorValue ty)], p, true, h, s)
    else match at_.find? (fun ga => !s.reachable path.loc.die ga) with
    | some ga =>
      (vals, p, true, h, s.requestFailed (locNum path.loc) (if path.stream.isSome then s.pc else 0) 9
        (s.silent path.loc.die (gaFrame ga)) (gaRoute ga) false)
    | none =>
      let (res, s) := s.readOwn .part path at_
      (vals ++ [(m, if res.poison then errorValue ty else leNat res.bytes)], p || res.poison, n, h || res.held, s))
    ([], false, false, false, s)
  let missing := (g.list.filter fun m => vals.all (·.1 != m)).map fun m => (m, errorValue ty)
  let (x, f) := combineMembers r ty s.here (Config.freeArrival s.fresh) (vals ++ missing)
  let short := vals.length != g.list.length
  let s := if poison || absent || short then
      s.modPort (s.portFor (gas.head?.elim 0 gaRoute)) fun q => { q with ppsn := q.ppsn + 1 }
    else s
  (⟨x, f, vals.length, poison, absent || short, held || full⟩, s.bump)

/-- Reducing loads in element order until a translation faults. -/
def reduceElems (r : Rop) (ty : Ty) (g : GroupEntry) (ea : Nat → Word) :
    List Nat → State → List (Nat × Reduced) × Option (Nat × Flt) × State
  | [], s => ([], none, s)
  | i :: rest, s =>
    match s.xlateN .read (ea i) (ty.sew / 8) with
    | (.error f, s) => ([], some (i, f), s)
    | (.ok gas, s) =>
      let (x, s) := s.readMembers r ty ⟨s.cur.loc, some s.stream, 5⟩ g gas
      let s := if x.held then s.markHeld (.load (ea i)) else s
      let (out, flt, s) := reduceElems r ty g ea rest s
      ((i, x) :: out, flt, s)

def reduceLoad (i : Instr) (r : Rop) (c : Common) (d a b : Fin 32) (s : State) : Host.Outcome State Fault Refusal :=
  runInstr i s fun _ _ t =>
    let ty := effTy t.cur.ctl c.ty
    let is := t.performed c
    let ea (e : Nat) : Word := t.gread a + BitVec.ofNat 64 (e * (ty.sew / 8))
    match is.head? with
    | none => .ok t
    | some p =>
      let t := t.readGroupTable (t.gread b).toNat
      match t.group (t.gread b).toNat with
      | none => .trap t ⟨causeAccess, ea p, BitVec.ofNat 24 (accCode .read)⟩
      | some g =>
        let (got, flt, t) := reduceElems r ty g ea is t
        let finish (u : State) : Eff :=
          let fl := got.map fun x => (x.1, x.2.fl ||| flIf (x.2.poison || x.2.absent) flPSN)
          .done (u.putElems d ty (got.map fun x => (x.1, x.2.val))) (raises fl)
            ((got.filter fun x => x.2.poison).map (·.1)) none
        match flt with
        | none => finish t
        | some (f, e) => if f == p then .trap t (e.trap .read) else finish (t.setVl f)

def execVldr (c : Common) (d a b : Fin 32) (s : State) := reduceLoad (.vldr c d a b) .sum c d a b s
def execVldrmin (c : Common) (d a b : Fin 32) (s : State) := reduceLoad (.vldrmin c d a b) .min c d a b s
def execVldrmax (c : Common) (d a b : Fin 32) (s : State) := reduceLoad (.vldrmax c d a b) .max c d a b s

/-! ## Streams (R193 to R197, R204) -/

/-- A register group that is undefined from here on (R36; log 4). -/
def State.undefGroup (s : State) (d : Fin 32) (g : Nat) : State :=
  let n := s.fresh
  ({ s with fresh := n + g }).modVec fun r => { r with v := (List.range g).foldl (fun vs k =>
    vs.set (regAt d k) (BitVec.ofNat 16384 ((undefinedOf r.vPast (n + k)).toNat % 2 ^ vlen s.ncore))) r.v }

def execSbind (c : Common) (d : Fin 32) (a : Fin 8) (s : State) :=
  runPlain (.sbind c d a) s fun t =>
    let desc := t.cur.s[a]
    let keep := t.cur.binds.filter fun b => b.1 != d && b.2.sreg != a
    let held : Nat := ((({ t.cur with binds := keep } : Vlc) :: (t.onCore t.coreId).filter fun v => v.loc != t.cur.loc).map fun v =>
      v.tableBinds.length).sum
    if (desc.kind == 1 || desc.kind == 2) && decide (held ≥ 4) then .wait t .unit
    else
      let u := t.modVlc fun v => { v with binds := keep ++ [(d, ⟨a, desc, 0, desc.count.toNat, 0, 0, [], false⟩)] }
      .ok (u.undefGroup d u.cur.ctl.g)

def execSfree (c : Common) (d : Fin 32) (s : State) :=
  runPlain (.sfree c d) s fun t =>
    let u := t.modVlc fun v => { v with binds := v.binds.filter fun b => b.1 != d }
    .ok (u.undefGroup d u.cur.ctl.g)

/-- Whether a descriptor in memory passes the check of R195. -/
def StreamDesc.passes (d : StreamDesc) : Bool :=
  let sub := d.ty.isSubByte || d.ty.isScaled
  d.valid && d.kind != 3 &&
  (if d.kind == 1 then d.base.toNat % 32 == 0
   else (tyOfNat d.tyCode).isSome && (d.boff == 0 || d.ty == .s3 || d.ty == .n3 || d.ty == .s6 || d.ty == .n6) &&
     (if d.kind == 0 then (d.unit || !sub) && (!d.ty.isScaled || d.base.toNat % 32 == 0) else d.unit && !sub))

/-- A descriptor from its 32 bytes; reserved bits load as zero (R193, R195). -/
def descOf (x : Nat) : StreamDesc :=
  let d : StreamDesc := ⟨BitVec.ofNat 64 x, BitVec.ofNat 64 (x >>> 64), BitVec.ofNat 64 (x >>> 128),
    BitVec.ofNat 64 (x >>> 192) &&& 0x800000003FFFFFFF⟩
  if d.passes then d else .zero

def StreamDesc.image (d : StreamDesc) : List Byte :=
  leBytes 8 d.base.toNat ++ leBytes 8 d.stride.toNat ++ leBytes 8 d.count.toNat ++ leBytes 8 d.attr.toNat

def State.putDesc (s : State) (d : Fin 8) (x : StreamDesc) : State := s.modVlc fun v => { v with s := v.s.set d x }

def execSdld (c : Common) (d : Fin 8) (a : Fin 32) (s : State) :=
  runPlain (.sdld c d a) s fun t =>
    scalarLoad (t.gread a) 32 (fun u x => u.putDesc d (descOf x)) (fun u => u.putDesc d .zero) t
def execSdst (c : Common) (d : Fin 8) (a : Fin 32) (s : State) :=
  runPlain (.sdst c d a) s fun t => (scalarStore (t.gread a) t.cur.s[d].image t).map (·.outToPost c)

/-! ## Sparse memory (R205, R206) -/

/-- Bytes of a pair record (R205). -/
def recordSize (t : Ty) : Nat := if t.sew ≤ 32 then 8 else 16

/-- A pair from its record and back. -/
def pairOf (t : Ty) (bs : List Byte) : BitVec 32 × Word :=
  (BitVec.ofNat 32 (leNat (bs.take 4)), BitVec.ofNat 64 (leNat (bs.drop (recordSize t / 2)) % 2 ^ t.sew))
def recordBytes (t : Ty) (p : BitVec 32 × Word) : List Byte :=
  if t.sew ≤ 32 then leBytes 4 p.1.toNat ++ leBytes 4 p.2.toNat else leBytes 8 p.1.toNat ++ leBytes 8 p.2.toNat

def State.preg (s : State) (p : Fin 8) : PReg := s.cur.vec.p[p]
def State.putPreg (s : State) (p : Fin 8) (x : PReg) : State := s.modVec fun r => { r with p := r.p.set p x }

/-- How many of the pairs come in rising order of coordinate. -/
def risingLen : List (BitVec 32 × Word) → Nat
  | [] => 0
  | [_] => 1
  | a :: b :: rest => if a.1 < b.1 then risingLen (b :: rest) + 1 else 1

def execPsld (c : Common) (d : Fin 8) (a n : Fin 32) (disp : BitVec 14) (s : State) :=
  runPlain (.psld c d a n disp) s fun t =>
    let td := effTy t.cur.ctl c.ty
    let base := t.gread a + sext14 disp
    let rs := recordSize td
    let m := min (t.gread n).toNat (sparseCap t.ncore td)
    let (got, flt, t) := loadElems (fun j => ⟨base + BitVec.ofNat 64 (j * rs), rs, 0, 8 * rs⟩) (List.range m) t
    match flt with
    | some (0, e) => .trap t (e.trap .read)
    | _ =>
      let kept := got.takeWhile fun g => !g.2.bad
      let stop := got.find? fun g => g.2.bad
      let pairs := kept.map fun g => pairOf td g.2.bytes
      let len := risingLen pairs
      let u := (t.putPreg d ⟨td, pairs.take len⟩).gwrite n (BitVec.ofNat 64 len)
      let r : Raised := match stop with | some (q, _) => [(q, flPSN)] | none => []
      let psn := match stop with | some (q, g) => if g.poison then [q] else [] | none => []
      .done u (if len < pairs.length then (len, flNV) :: r else r) psn none

/-- The addresses of the records of a run, each translated as one element; the fault is the first one's. -/
def xlateRecords (acc : Acc) (n : Nat) : List Word → State → Except Flt (List Nat) × State
  | [], s => (.ok [], s)
  | va :: rest, s =>
    match s.xlateN acc va n with
    | (.error f, s) => (.error f, s)
    | (.ok gas, s) => match xlateRecords acc n rest s with
      | (.error f, s) => (.error f, s)
      | (.ok more, s) => (.ok (gas ++ more), s)

/-- `psst` (R206). With ORD = 1 each record stands at its ownership point before the next enters (R363); one that a frozen frame would
hold keeps the instruction waiting, with nothing stored. -/
def execPsst (c : Common) (d : Fin 8) (a n : Fin 32) (disp : BitVec 14) (s : State) :=
  runPlain (.psst c d a n disp) s fun t =>
    let p := t.preg d
    let base := t.gread a + sext14 disp
    let m := min p.pairs.length (t.gread n).toNat
    let recs := (p.pairs.take m).map (recordBytes p.ty)
    let rs := recordSize p.ty
    match xlateRecords .write rs ((List.range m).map fun j => base + BitVec.ofNat 64 (j * rs)) t with
    | (.error f, t) => .trap t (f.trap .write)
    | (.ok gas, t) =>
      let t := t.settleOrd c false
      if t.mustSettle c false || c.ord && t.moves.any fun m => gas.any fun ga => gaFrame ga == m.frame then .wait t (.store base)
      else
        let u := (recs.foldl (fun (acc : State × Word) bs =>
          ((acc.1.settleOrd c false |>.store false acc.2 bs).2, acc.2 + BitVec.ofNat 64 bs.length)) (t, base)).1
        .ok ((u.gwrite n (BitVec.ofNat 64 p.pairs.length)).outToPost c)

/-! ## Sparse arithmetic and conversion (R207, R208) -/

/-- conv of R208, for a value read exactly with the flags it brings. -/
def convSparse (td : Ty) (rm : Rm) (i : Int) (x : Exact × Fl) (u : Nat) : Nat × Fl :=
  if td.isAnyInt then (wrapInt td i, 0) else rounded td rm x u

def convOne (td ts : Ty) (rm : Rm) (v : Nat) (u : Nat) : Nat × Fl :=
  let x := readTy ts v
  convSparse td rm (intOf ts v) (x.exact, flIf x.isSnan flNV) u

/-- The value of a pair at a coordinate. -/
def PReg.at (p : PReg) (c : BitVec 32) : Option Nat := (p.pairs.find? (·.1 == c)).map (·.2.toNat)

/-- Two rising lists of coordinates as one. -/
def mergeCoords (a b : List (BitVec 32)) : List (BitVec 32) :=
  (b.foldl (fun acc x => insertNat x.toNat acc) (a.map BitVec.toNat)).map (BitVec.ofNat 32)

/-- What a sparse sum or product puts at each coordinate produced. -/
def sparseForm (i : Instr) (c : Common) (d a b : Fin 8) (e : Fin 32) (coords : PReg → PReg → List (BitVec 32))
    (f : Ty → PReg → PReg → BitVec 32 → Nat → Nat × Fl) (s : State) : Host.Outcome State Fault Refusal :=
  runPlain i s fun t =>
    let pa := t.preg a
    let pb := t.preg b
    let td := c.ty.getD pa.ty
    let cap := sparseCap t.ncore td
    let (ds, t) := t.takeDraws (if c.rm == .rsr then cap else 0)
    let cs := coords pa pb
    let rs := (cs.take cap).zipIdx.map fun x => (x.1, f td pa pb x.1 (drawAt ds x.2))
    let pairs := rs.map fun x => (x.1, BitVec.ofNat 64 x.2.1)
    let u := (t.putPreg d ⟨td, pairs⟩).gwrite e (BitVec.ofNat 64 cs.length)
    let spoil (j : Nat) (v : State) : State := v.putPreg d ⟨td, (v.preg d).pairs.zipIdx.map fun x =>
      if x.2 == j then (x.1.1, BitVec.ofNat 64 (errorValue td)) else x.1⟩
    .done u (raises (rs.zipIdx.map fun x => (x.2, x.1.2.2))) []
      (some ⟨List.range pairs.length, fun j => laneOf t.ncore (j * (8 * recordSize td)), spoil, false⟩)

def execPsadd (c : Common) (d a b : Fin 8) (e : Fin 32) (s : State) :=
  sparseForm (.psadd c d a b e) c d a b e (fun pa pb => mergeCoords (pa.pairs.map (·.1)) (pb.pairs.map (·.1)))
    (fun td pa pb k u =>
      match pa.at k, pb.at k with
      | some x, some y => convSparse td c.rm (intOf pa.ty x + intOf pb.ty y) (fAdd c.rm (readTy pa.ty x) (readTy pb.ty y)) u
      | some x, none => convOne td pa.ty c.rm x u
      | none, some y => convOne td pb.ty c.rm y u
      | none, none => (0, 0)) s

def execPsmul (c : Common) (d a b : Fin 8) (e : Fin 32) (s : State) :=
  sparseForm (.psmul c d a b e) c d a b e
    (fun pa pb => (pa.pairs.map (·.1)).filter fun k => (pb.at k).isSome)
    (fun td pa pb k u =>
      let x := (pa.at k).getD 0
      let y := (pb.at k).getD 0
      convSparse td c.rm (intOf pa.ty x * intOf pb.ty y) (fMul (readTy pa.ty x) (readTy pb.ty y)) u) s

def execPsdense (c : Common) (d : Fin 32) (a : Fin 8) (b : Fin 32) (s : State) :=
  runPlain (.psdense c d a b) s fun t =>
    let td := effTy t.cur.ctl c.ty
    let (ds, t) := t.takeDraws (if c.rm == .rsr then t.vl else 0)
    if t.vl ≤ t.vstart then .ok t
    else
      let p := t.preg a
      let base := (t.gread b).toNat
      let rs := (List.range t.vl).map fun i =>
        let v := if base + i < 2 ^ 32 then p.at (BitVec.ofNat 32 (base + i)) else none
        (i, match v with | some x => convOne td p.ty c.rm x (drawAt ds i) | none => (0, 0))
      .done (t.putElems d td (rs.map fun r => (r.1, r.2.1))) (raises (rs.map fun r => (r.1, r.2.2))) [] none

/-- What `pssparse` has built: pairs, how many elements were not zero, and the flags by pair position. -/
structure SparseAcc where
  pairs : List (BitVec 32 × Word)
  total : Nat
  fl : Raised

def execPssparse (c : Common) (d : Fin 8) (a b e : Fin 32) (s : State) :=
  runInstr (.pssparse c d a b e) s fun w _ t =>
    let ts := wcTy t.cur.ctl.wc
    let td := c.ty.getD ts
    let cap := sparseCap t.ncore td
    let (ds, t) := t.takeDraws (if c.rm == .rsr then cap else 0)
    let xa := w.src t a ts
    let base := (t.gread b).toNat
    let is := if t.vl ≤ t.vstart then [] else List.range t.vl
    let r := is.foldl (fun (acc : SparseAcc) i =>
      let v := elemVal ts xa i
      let j := acc.pairs.length
      let zero := if ts.isAnyInt then intOf ts (elem ts xa i) == 0 else v.isZero
      if zero then acc
      else if base + i > 0xFFFFFFFF then { acc with fl := raiseIf acc.fl j flSAT }
      else if j < cap then
        let (x, f) := convSparse td c.rm (intOf ts (elem ts xa i)) (v.exact, flIf v.isSnan flNV) (drawAt ds j)
        ⟨acc.pairs ++ [(BitVec.ofNat 32 (base + i), BitVec.ofNat 64 x)], acc.total + 1, raiseIf acc.fl j f⟩
      else { acc with total := acc.total + 1 }) ⟨[], 0, []⟩
    .done ((t.putPreg d ⟨td, r.pairs⟩).gwrite e (BitVec.ofNat 64 r.total)) r.fl [] none

end Sys2Proof.Machine
end

