-- ==== Sys2Proof/Machine/Sync.lean ====
section
/-! DEFINITION. Fences (R273, R274), atomics (R275 to R279, R326), queues and tokens (R280 to R284), engine pushes and pops,
tasks and chains (R292 to R294), traps and their return (R295, R416, R417). -/

namespace Sys2Proof.Machine

/-! ## Fences (R273, R274) -/

/-- A fence that releases: it waits until the stream's stores stand at its scope (R274, R367). A closing event closes the strip at once,
whether or not it must wait (R365). -/
def releaseFence (i : Instr) (sc : Scope) (after : State → State) (s : State) : Host.Outcome State Fault Refusal :=
  runPlain i s fun t => match t.release sc with
    | none => .wait (t.closing sc) .stores
    | some t => .ok (after t)

def execFenceFull (scope : Scope) (s : State) := releaseFence (.fenceFull scope) scope (·.acquire scope 0) s
def execFenceRel (scope : Scope) (s : State) := releaseFence (.fenceRel scope) scope id s
/-- The loads it orders have bound already (log 6); what they have told of releases is acquired. -/
def execFenceAcq (scope : Scope) (s : State) := runPlain (.fenceAcq scope) s fun t => .ok (t.acquire scope 0)
/-- Every parcel fetched before is fetched again (R120, R274). -/
def execFenceIfetch (scope : Scope) (s : State) :=
  releaseFence (.fenceIfetch scope) scope (fun t => t.modVlc fun v => { v with fetched := [] }) s

/-! ## One atomic at a location (R276, R326, R361, R369) -/

/-- OP of R275, and 11 and 12 for a `vpub` in a request, to which the spec gives no code (DESIGN CHOICE, log 35). -/
def amoOfCode (n : Nat) : Option Amo :=
  match n with
  | 0 => some .swap | 1 => some .cas | 2 => some .add | 3 => some .and | 4 => some .or | 5 => some .xor | 6 => some .min
  | 7 => some .max | 8 => some .fadd | 9 => some .fmin | 10 => some .fmax | 11 => some (.publish false)
  | 12 => some (.publish true) | _ => none

/-- The code of an operation. -/
def Amo.code : Amo → Nat
  | .swap => 0 | .cas => 1 | .add => 2 | .and => 3 | .or => 4 | .xor => 5 | .min => 6 | .max => 7 | .fadd => 8 | .fmin => 9
  | .fmax => 10 | .publish fin => if fin then 12 else 11

/-- The new value of a chain cell (R294): HW never falls, END stays. -/
def publish (fin : Bool) (hw old : Nat) : Nat :=
  let high := max (bitsAt old 0 48) (hw % 2 ^ 48)
  let x := putBits old 0 48 high
  if fin then putBits x 63 1 1 else x

/-- The new value of a location and the flags: `old` what it holds, `b` the operand, `c` the value compared with. -/
def Amo.apply (o : Amo) (t : Ty) (rm : Rm) (old b c : Nat) : Nat × Fl :=
  match o with
  | .swap => (b, 0)
  | .cas => (if old == c then b else old, 0)
  | .add | .fadd => opAdd t rm old b 0
  | .and => (old &&& b, 0)
  | .or => (old ||| b, 0)
  | .xor => (old ^^^ b, 0)
  | .min | .fmin => opMinMax false t rm old b 0
  | .max | .fmax => opMinMax true t rm old b 0
  | .publish fin => (Machine.publish fin b old, 0)

/-- The new value and flags of an old value. -/
def AtomReq.new (r : AtomReq) (old : Nat) : Nat × Fl := r.op.apply r.ty r.rm old r.b r.c

/-- OP of a request for an atomic (R388): the operation, and over it the rounding mode of a floating sum (log 35). -/
def AtomReq.opField (r : AtomReq) : Nat := r.op.code + if r.op == .fadd then 16 * (rmCode r.rm).toNat else 0

/-- What a request for an atomic carries (R389). -/
def AtomReq.ask (r : AtomReq) : Ask :=
  ⟨3, r.opField, (tyCode r.ty).toNat,
    leBytes (r.ty.sew / 8) r.b ++ if r.op == .cas then leBytes (r.ty.sew / 8) r.c else []⟩

/-- The die of a Commons bank of this device. -/
def State.bankOf (s : State) (ga : Nat) : Option (Fin 4) :=
  if gaEndpoint ga == s.here then match regionOf (gaLocal ga) with | .commons d => some d | _ => none else none

/-- A residue mismatch of a bank unit, where the environment has one in store (R326, R441; log 12). -/
def State.residue (s : State) (d : Fin 4) : Bool × State :=
  match s.upset.filter (!·.store) with
  | none => (false, s)
  | some _ => (true, s.dropUpset.modDie d fun x => { x with bankres := x.bankres + 1 })

/-- One atomic of the stream in focus performed at its ownership point, as one step (R276, R361). Behind a release its bytes go on telling of
it (R368). -/
def State.performAtomic (s : State) (gas : List Nat) (req : AtomReq) : Atom × State :=
  let ga := gas.headD 0
  if !s.reachable s.cur.loc.die ga then
    (⟨0, 0, false, true, false⟩,
      s.requestFailed (locNum s.cur.loc) s.pc 3 (s.silent s.cur.loc.die (gaFrame ga)) (gaRoute ga) true)
  else
    let (r, s) := s.readAs req.ask ⟨s.cur.loc, none, 5⟩ gas
    let told := s.trace.filter fun t => gas.contains t.1
    let s := s.noteSeen ⟨s.cur.loc, none, 5⟩ gas
    let old := leNat r.bytes
    let (v, f) := req.new old
    let (once, s) := match s.bankOf ga with | some d => s.residue d | none => (false, s)
    let (twice, s) := match once, s.bankOf ga with | true, some d => s.residue d | _, _ => (false, s)
    if twice then (⟨old, 0, r.poison, false, true⟩, s)
    else
      let s := s.performBytes (mbytes gas (leBytes gas.length v)) false
      (⟨old, f, r.poison, false, false⟩, ({ s with trace := told ++ s.trace } : State).traced gas s.cur.loc s.str.released)

/-- One atomic of the stream in focus, behind its own earlier stores (R362, R369): its answer; or none where it must wait, since its
frame is frozen, at which it then takes its place in the hold queue (R342), or an older store of its own has not arrived, or it may not leave
yet. No load reads an atomic on its way, so that it moves outward and is performed in the step that performs it; one that was held has
been performed with the other held accesses, and its answer is at hand. One that meets the strip store buffer closes the strip (R365). -/
def State.atomicAt (s : State) (gas : List Nat) (req : AtomReq) : Option Atom × State :=
  match s.str.answer with
  | some r => (some r, s.setStr { s.str with answer := none })
  | none =>
    let s := s.writes gas
    let ga := gas.headD 0
    let strip := s.pend.any fun e => e.strip && e.loc == s.cur.loc && gas.any e.covers
    let s := if strip then s.closeStrip else s
    let s := if s.pend.any fun e => s.path.sees e && gas.any e.covers then s.drain s.path 5 else s
    if s.moves.any (·.frame == gaFrame ga) then (none, s.holdAccess ga (.atomic s.cur.loc s.stream gas req))
    else if s.pend.any (fun e => s.path.sees e && gas.any e.covers) || s.mayNotLeave s.cur.loc.die [ga] then (none, s)
    else
      let (r, s) := s.performAtomic gas req
      (some r, s)

/-- What an atomic returns, and its flags: the error value with PSN where nobody answered or the data came poisoned, with SCM
where the bank unit failed (R395, R438). -/
def Atom.result (r : Atom) (t : Ty) : Nat × Fl :=
  if r.absent || r.poison then (errorValue t, flPSN ||| r.fl)
  else if r.residue then (errorValue t, flSCM)
  else (r.old, r.fl)

/-- The counts and the log of an atomic's failure (R438). -/
def State.noteAtom (s : State) (r : Atom) (i : Nat) : State :=
  if r.absent then s
  else if r.poison then s.notePoison [i]
  else if r.residue then s.repeated 7 i
  else s

/-! ## Scalar atomics (R275, R276) -/

/-- An old value as G receives it (R276). -/
def extendTo (t : Ty) (x : Nat) : Word := if t.isInt then BitVec.ofInt 64 (intOf t x) else BitVec.ofNat 64 x

/-- Whether an atomic has an acquire role (R275). -/
def acquires : Sem → Bool
  | .acq | .both => true
  | _ => false

/-- Whether an atomic has a release role (R275). -/
def releases : Sem → Bool
  | .rel | .both => true
  | _ => false

def samo (i : Instr) (o : Amo) (c : Common) (sem : Sem) (sc : Scope) (d a b e : Fin 32) (s : State) :
    Host.Outcome State Fault Refusal :=
  runPlain i s fun t =>
    let ty := c.ty.getD .n64
    let w := ty.sew / 8
    let va := t.gread a
    if va.toNat % w != 0 then .trap t ⟨causeMisaligned, va, 0⟩
    else match t.xlateN .write va w with
      | (.error f, t) => .trap t (f.trap .write)
      | (.ok gas, t) =>
        let n := t.str.near.length
        match if releases sem then t.release sc else some t with
        | none => .wait (t.closing sc) (.store va)
        | some (t : State) =>
          match t.atomicAt gas ⟨o, ty, c.rm, (t.gread b).toNat % 2 ^ ty.sew, (t.gread e).toNat % 2 ^ ty.sew⟩ with
          | (none, t) => .wait t (.store va)
          | (some r, t) =>
            let (x, f) := r.result ty
            let t := if acquires sem then t.acquire sc n else t
            let t := if t.stream == .ep then t.disarm else t
            .done ((t.noteAtom r 0).gwrite d (extendTo ty x)) (raiseIf [] 0 f) [] none

def execAmoswap (c : Common) (sem : Sem) (scope : Scope) (d a b : Fin 32) (s : State) :=
  samo (.amoswap c sem scope d a b) .swap c sem scope d a b 0 s
def execAmocas (c : Common) (sem : Sem) (scope : Scope) (d a b e : Fin 32) (s : State) :=
  samo (.amocas c sem scope d a b e) .cas c sem scope d a b e s
def execAmoadd (c : Common) (sem : Sem) (scope : Scope) (d a b : Fin 32) (s : State) :=
  samo (.amoadd c sem scope d a b) .add c sem scope d a b 0 s
def execAmoand (c : Common) (sem : Sem) (scope : Scope) (d a b : Fin 32) (s : State) :=
  samo (.amoand c sem scope d a b) .and c sem scope d a b 0 s
def execAmoor (c : Common) (sem : Sem) (scope : Scope) (d a b : Fin 32) (s : State) :=
  samo (.amoor c sem scope d a b) .or c sem scope d a b 0 s
def execAmoxor (c : Common) (sem : Sem) (scope : Scope) (d a b : Fin 32) (s : State) :=
  samo (.amoxor c sem scope d a b) .xor c sem scope d a b 0 s
def execAmomin (c : Common) (sem : Sem) (scope : Scope) (d a b : Fin 32) (s : State) :=
  samo (.amomin c sem scope d a b) .min c sem scope d a b 0 s
def execAmomax (c : Common) (sem : Sem) (scope : Scope) (d a b : Fin 32) (s : State) :=
  samo (.amomax c sem scope d a b) .max c sem scope d a b 0 s
def execAmofadd (c : Common) (sem : Sem) (scope : Scope) (d a b : Fin 32) (s : State) :=
  samo (.amofadd c sem scope d a b) .fadd c sem scope d a b 0 s
def execAmofmin (c : Common) (sem : Sem) (scope : Scope) (d a b : Fin 32) (s : State) :=
  samo (.amofmin c sem scope d a b) .fmin c sem scope d a b 0 s
def execAmofmax (c : Common) (sem : Sem) (scope : Scope) (d a b : Fin 32) (s : State) :=
  samo (.amofmax c sem scope d a b) .fmax c sem scope d a b 0 s

/-! ## Vector gather-atomics (R277 to R279) -/

/-- Whether a vector atomic performs an address at its scope (R272). -/
def State.inDomain (s : State) (sc : Scope) (ga : Nat) : Bool :=
  match sc with
  | .fabric => true
  | .device => gaEndpoint ga == s.here
  | _ => gaEndpoint ga == s.here && match regionOf (gaLocal ga) with
    | .dram d | .commons d => d == s.cur.loc.die
    | _ => false

/-- The performed elements with their bytes, up to the first that faults: alignment before translation (R415). -/
def atomAddrs (w : Nat) (ea : Nat → Word) : List Nat → State → List (Nat × List Nat) × Option (Nat × TrapReq) × State
  | [], s => ([], none, s)
  | i :: rest, s =>
    if (ea i).toNat % w != 0 then ([], some (i, ⟨causeMisaligned, ea i, 0⟩), s)
    else match s.xlateN .write (ea i) w with
      | (.error f, s) => ([], some (i, f.trap .write), s)
      | (.ok gas, s) =>
        let (xs, flt, s) := atomAddrs w ea rest s
        ((i, gas) :: xs, flt, s)

/-- How far a vector atomic has come: the old values, the miss bits, the flags, and the element that must wait. -/
structure VamoRun where
  olds : List (Nat × Nat)
  miss : List (Nat × Bool)
  fl : Raised
  stop : Option Nat

/-- The elements in ascending order; an element outside the scope's domain is missed (R278). -/
def vamoElems (o : Amo) (ty : Ty) (rm : Rm) (sc : Scope) (operand : Nat → Nat) :
    List (Nat × List Nat) → State → VamoRun × State
  | [], s => (⟨[], [], [], none⟩, s)
  | (i, gas) :: rest, s =>
    if !s.inDomain sc (gas.headD 0) then
      let (r, s) := vamoElems o ty rm sc operand rest s
      ({ r with miss := (i, true) :: r.miss }, s)
    else match s.atomicAt gas ⟨o, ty, rm, operand i, 0⟩ with
      | (none, s) => (⟨[], [], [], some i⟩, s)
      | (some a, s) =>
        let (x, f) := a.result ty
        let (r, s) := vamoElems o ty rm sc operand rest (s.noteAtom a i)
        ({ r with olds := (i, x) :: r.olds, miss := (i, false) :: r.miss, fl := raiseIf r.fl i f }, s)

/-- The old values into Vd, and the miss bits into M[SMISS.MREG] with ANY (R29). -/
def State.putVamo (s : State) (d : Option (Fin 32)) (ty : Ty) (r : VamoRun) : State :=
  let s := match d with | some d => s.putElems d ty r.olds | none => s
  let m := s.cur.ctl.mreg
  let s := s.mwrite m (r.miss.foldl (fun x b => setBit x b.1 b.2) (s.mread m))
  if r.miss.any (·.2) then s.modCtl fun c => { c with smissAny := true } else s

def vamo (i : Instr) (o : Amo) (c : Common) (sc : Fin 4) (ix : IdxTy) (scope : Scope) (d : Option (Fin 32)) (a b e : Fin 32)
    (s : State) : Host.Outcome State Fault Refusal :=
  runInstr i s fun w _ t =>
    let ty := effTy t.cur.ctl c.ty
    let xe := w.src t e ty
    let is := t.performed c
    let (addrs, flt, t) := atomAddrs (ty.sew / 8) (indexAddr w t a b sc ix) is t
    match flt with
    | some (f, trap) =>
      if is.head? == some f then .trap t trap
      else
        let t := if t.stream == .ep then t.disarm else t
        let (r, t) := vamoElems o ty c.rm scope (fun k => elem ty xe k) addrs t
        let t := t.putVamo d ty r
        match r.stop with
        | some k => .part (t.setVstart k) (some (.store (indexAddr w t a b sc ix k))) r.fl [] none
        | none => .trap (t.setVstart f) trap
    | none =>
      let t := if t.stream == .ep then t.disarm else t
      let (r, t) := vamoElems o ty c.rm scope (fun k => elem ty xe k) addrs t
      let t := t.putVamo d ty r
      match r.stop with
      | some k => .part (t.setVstart k) (some (.store (indexAddr w t a b sc ix k))) r.fl [] none
      | none => .done t r.fl [] none

def execVamoswap (c : Common) (sc : Fin 4) (ix : IdxTy) (scope : Scope) (r : Option (Fin 32)) (a b e : Fin 32) (s : State) :=
  vamo (.vamoswap c sc ix scope r a b e) .swap c sc ix scope r a b e s
def execVamoadd (c : Common) (sc : Fin 4) (ix : IdxTy) (scope : Scope) (r : Option (Fin 32)) (a b e : Fin 32) (s : State) :=
  vamo (.vamoadd c sc ix scope r a b e) .add c sc ix scope r a b e s
def execVamoand (c : Common) (sc : Fin 4) (ix : IdxTy) (scope : Scope) (r : Option (Fin 32)) (a b e : Fin 32) (s : State) :=
  vamo (.vamoand c sc ix scope r a b e) .and c sc ix scope r a b e s
def execVamoor (c : Common) (sc : Fin 4) (ix : IdxTy) (scope : Scope) (r : Option (Fin 32)) (a b e : Fin 32) (s : State) :=
  vamo (.vamoor c sc ix scope r a b e) .or c sc ix scope r a b e s
def execVamoxor (c : Common) (sc : Fin 4) (ix : IdxTy) (scope : Scope) (r : Option (Fin 32)) (a b e : Fin 32) (s : State) :=
  vamo (.vamoxor c sc ix scope r a b e) .xor c sc ix scope r a b e s
def execVamomin (c : Common) (sc : Fin 4) (ix : IdxTy) (scope : Scope) (r : Option (Fin 32)) (a b e : Fin 32) (s : State) :=
  vamo (.vamomin c sc ix scope r a b e) .min c sc ix scope r a b e s
def execVamomax (c : Common) (sc : Fin 4) (ix : IdxTy) (scope : Scope) (r : Option (Fin 32)) (a b e : Fin 32) (s : State) :=
  vamo (.vamomax c sc ix scope r a b e) .max c sc ix scope r a b e s
def execVamofadd (c : Common) (sc : Fin 4) (ix : IdxTy) (scope : Scope) (r : Option (Fin 32)) (a b e : Fin 32) (s : State) :=
  vamo (.vamofadd c sc ix scope r a b e) .fadd c sc ix scope r a b e s
def execVamofmin (c : Common) (sc : Fin 4) (ix : IdxTy) (scope : Scope) (r : Option (Fin 32)) (a b e : Fin 32) (s : State) :=
  vamo (.vamofmin c sc ix scope r a b e) .fmin c sc ix scope r a b e s
def execVamofmax (c : Common) (sc : Fin 4) (ix : IdxTy) (scope : Scope) (r : Option (Fin 32)) (a b e : Fin 32) (s : State) :=
  vamo (.vamofmax c sc ix scope r a b e) .fmax c sc ix scope r a b e s

/-! ## Queues between the streams (R33, R280 to R283) -/

/-- The place of a queue number among Q0 to Q7 and among Q8 to Q11. -/
def qIdx8 (q : Fin 32) : Fin 8 := Fin.ofNat 8 q.val
def qIdx4 (q : Fin 32) : Fin 4 := Fin.ofNat 4 q.val

/-- The commands of the context in focus that count against the depth of an engine queue (R33, R461). -/
def State.commandsIn (s : State) (q : Fin 32) : List Command :=
  s.commands.filter fun c => c.vlc == s.cur.loc && c.saved.isNone && c.queue == q

/-- The entries that a queue holds. -/
def State.qcount (s : State) (q : Fin 32) : Nat :=
  let x := s.cur.q
  if q.val < 8 then (x.strips[qIdx8 q]).length
  else if q.val < 12 then (x.words[qIdx4 q]).length
  else if q.val == 12 then x.bits.length
  else if q.val == 17 then x.q17.length
  else if q.val == 19 then x.q19.length
  else (s.commandsIn q).length

/-- The depth of a queue (R33). -/
def qdepth (q : Fin 32) : Nat := if q.val < 8 then 4 else if q.val < 12 then 16 else if q.val == 12 then 64 else 8

/-- `qput` (R281): a release at context scope, then the push. -/
def execQput (c : Common) (q a : Fin 32) (s : State) :=
  runPlain (.qput c q a) s fun t =>
    if t.qcount q ≥ qdepth q then .wait t (.queue q.val)
    else match t.releasePush with
    | none => .wait t .stores
    | some t =>
      let x := t.gread a
      let t := t.notePush q.val (t.qcount q)
      .ok (if q.val == 12 then t.modQ fun y => { y with bits := y.bits ++ [x.getLsbD 0] }
        else t.modQ fun y => { y with words := y.words.set (qIdx4 q) (y.words[qIdx4 q] ++ [x]) })

/-- `qget` (R281). -/
def execQget (c : Common) (d q : Fin 32) (s : State) :=
  runPlain (.qget c d q) s fun t =>
    if q.val == 12 then match t.cur.q.bits with
      | [] => .wait t (.queue q.val)
      | b :: rest => .ok (((t.modQ fun y => { y with bits := rest }).takePosted 12).gwrite d (b2w b))
    else match t.cur.q.words[qIdx4 q] with
      | [] => .wait t (.queue q.val)
      | x :: rest => .ok (((t.modQ fun y => { y with words := y.words.set (qIdx4 q) rest }).takePosted q.val).gwrite d x)

/-- `qld` (R282). -/
def execQld (c : Common) (tc : Ty) (q a b e : Fin 32) (s : State) :=
  runPlain (.qld c tc q a b e) s fun t =>
    let n := min (t.gread b).toNat (Machine.vlmax t.ncore tc t.cur.ctl.g)
    let base := t.gread a
    if t.qcount q ≥ qdepth q then .wait t (.queue q.val)
    else if t.boundHeld then .wait t .stores
    else if tc.isScaled && n != 0 && base.toNat % 32 != 0 then .trap t ⟨causeMisaligned, base, 0⟩
    else
      let k := blockLen tc
      let piece := fun j => if tc.isScaled then blockPiece base j else packedPiece base (j * tc.sew) tc.sew
      let pieces := if tc.isScaled then (n + k - 1) / k else n
      let (got, flt, t) := loadElems piece (List.range pieces) t
      let first (j : Nat) : Nat := if tc.isScaled then j * k else j
      let push (t : State) (n : Nat) : Eff :=
        let x := got.foldl (fun x g =>
          if tc.isScaled then
            (if g.2.bad then putBits x (256 * g.1) 8 0xFF else putBits x (256 * g.1) 256 (leNat g.2.bytes))
          else setElem tc x g.1 (if g.2.bad then errorValue tc else (piece g.1).value g.2.bytes)) 0
        let t := ((t.moveToContext t.stream).notePush q.val (t.qcount q)).modQ fun y =>
          { y with strips := y.strips.set (qIdx8 q) (y.strips[qIdx8 q] ++ [⟨n, tc, BitVec.ofNat 131072 x⟩]) }
        .done (t.gwrite e (BitVec.ofNat 64 n)) ((badOf got).map fun j => (first j, flPSN))
          ((poisonedOf got).flatMap fun j => List.replicate (if tc.isScaled then min k (n - j * k) else 1) (first j)) none
      match flt with
      | none => push t n
      | some (0, f) => .trap t (f.trap .read)
      | some (j, _) => push t (first j)

/-- `qgetv` (R283; log 19). -/
def execQgetv (c : Common) (tc : Ty) (d q e : Fin 32) (s : State) :=
  runPlain (.qgetv c tc d q e) s fun t =>
    match t.cur.q.strips[qIdx8 q] with
    | [] => .wait t (.queue q.val)
    | st :: rest =>
      let g := groupFor t.cur.ctl tc
      if st.ty != tc || decide (st.count > t.vlmax) then .trap t ⟨causeHandle, evalOf (.qgetv c tc d q e), 0⟩
      else
        let t := (t.modQ fun y => { y with strips := y.strips.set (qIdx8 q) rest }).takePosted q.val
        let src := st.data.toNat
        let x := (List.range st.count).foldl (fun x i =>
          let x := if tc.isScaled && i % blockLen tc == 0 then putBits x (256 * (i / blockLen tc)) 8 (scaleAt tc src i) else x
          setElem tc x i (elem tc src i)) (t.readGroup d g)
        .ok ((t.writeGroup d g x).gwrite e (BitVec.ofNat 64 st.count))

def execQcnt (c : Common) (d q : Fin 32) (s : State) :=
  runPlain (.qcnt c d q) s fun t => .ok (t.gwrite d (BitVec.ofNat 64 (t.qcount q)))
/-- Nothing but the token wait and post (R281). -/
def execKsync (c : Common) (s : State) := runPlain (.ksync c) s fun t => .ok t
def execKcnt (c : Common) (d : Fin 32) (k : Fin 8) (s : State) :=
  runPlain (.kcnt c d k) s fun t => .ok (t.gwrite d (t.cur.k[k].setWidth 64))

/-! ## Engine queues (R284, R290, R291) -/

/-- The trap of a fault of an engine's access that the pusher takes (R290, R291, R414). -/
def Flt.engineTrap (f : Flt) : TrapReq := { f.trap .read with info := (f.trap .read).info ||| 2 }

/-- A 64-byte record at an address that is a multiple of 64: the record, or how the instruction ends. A record that comes
poisoned or not at all reads as zero, with PSN (log 33). -/
def State.readRecord (s : State) (va : Word) : Except Eff (Record × Raised × List Nat × State) :=
  if va.toNat % 64 != 0 then .error (.trap s ⟨causeMisaligned, va, 0⟩)
  else match s.load va 64 with
    | (.error f, s) => .error (.trap s (f.trap .read))
    | (.ok r, s) =>
      if r.absent || r.poison then .ok (0, [(0, flPSN)], if r.poison then [0] else [], s)
      else .ok (recordOf r.bytes, [], [], s)

/-- The address that `qcmd` translates before the push, and its bytes (R290, R291; log 39). -/
def pushAddr (q : Fin 32) (r : Record) : Option (Word × Nat) :=
  if q.val == 20 then some (BitVec.ofNat 64 (r.field 8 8 / 16 * 16), 16)
  else if q.val == 21 then some (BitVec.ofNat 64 (r.field 24 8 / 8 * 8), 8)
  else none

/-- The scope at which a push into an engine queue releases (R284). -/
def pushScope (q : Fin 32) : Scope := if q.val == 16 || q.val == 20 then .core else .device

/-- `qcmd` (R284). -/
def execQcmd (c : Common) (q a : Fin 32) (s : State) :=
  runPlain (.qcmd c q a) s fun t =>
    match t.readRecord (t.gread a) with
    | .error e => e
    | .ok (r, fl, psn, t) =>
      let (x, t) : Except Flt (List Nat) × State := match pushAddr q r with
        | none => (Except.ok [], t)
        | some (va, n) => t.xlateN .write va n
      match x with
      | .error f => .trap t f.engineTrap
      | .ok gas =>
        if t.qcount q ≥ qdepth q then .wait t (.queue q.val)
        else match t.release (pushScope q) with
          | none => .wait (t.closing (pushScope q)) .stores
          | some t =>
            let coll := q.val == 18 && decide (r.field 32 2 < 8192)
            let t := if coll then t.readGroupTable (r.field 32 2) else t
            let cmd : Command := ⟨q, t.cur.work.map (·.task), gas.headD 0, t.cur.loc, none, r, t.cur.ctl.atp, t.cur.ctl.asid,
              t.cur.ctl.sys, false, [], if coll then t.group (r.field 32 2) else none, false, []⟩
            let t := if t.stream == .ep then t.disarm else t
            .done { t with commands := t.commands ++ [cmd] } fl psn none

/-- Pops a completion record. -/
def State.popRecord (s : State) (q : Fin 32) : Option (Record × State) :=
  if q.val == 17 then match s.cur.q.q17 with
    | r :: rest => some (r, (s.modQ fun y => { y with q17 := rest }).takePosted 17)
    | [] => none
  else match s.cur.q.q19 with
    | r :: rest => some (r, (s.modQ fun y => { y with q19 := rest }).takePosted 19)
    | [] => none

/-- `qres` (R284): on a fault the record stays. -/
def execQres (c : Common) (q b : Fin 32) (s : State) :=
  runPlain (.qres c q b) s fun t =>
    let va := t.gread b
    if va.toNat % 64 != 0 then .trap t ⟨causeMisaligned, va, 0⟩
    else match t.popRecord q with
      | none => .wait t (.queue q.val)
      | some (r, u) =>
        match u.store false va (leBytes 64 r.toNat) with
        | (.error f, _) => .trap t (f.trap .write)
        | (.ok (), u) => .ok (u.outToPost c)

/-! ## Tasks and chains (R292 to R294) -/

/-- The task that has been admitted last is one that the stream in focus has spawned: its first instruction acquires what the spawn
released (R372). -/
def State.spawned (s : State) : State :=
  match s.str.released with
  | [] => s
  | ids => { s with tasks := s.tasks.map fun x => if x.id + 1 == s.nextTask then { x with seen := ids } else x }

/-- `tspawn` (R293): the launch unit takes the records of the queue up to this one before the result is written (R304). -/
def execTspawn (c : Common) (d a b : Fin 32) (s : State) :=
  runPlain (.tspawn c d a b) s fun t =>
    match t.releaseVlc with
    | none => .wait (t.closing .device) .stores
    | some t =>
      match t.readRecord (t.gread a) with
      | .error e => e
      | .ok (r, fl, psn, t) =>
        let x := t.gread b
        let q : QueueId := ⟨Fin.ofNat 4 (bitsAt x.toNat 6 2), Fin.ofNat 64 (bitsAt x.toNat 0 6)⟩
        let tq := t.queueAt q
        if !tq.en then .done (t.gwrite d 2) fl psn none
        else if tq.fifo.length ≥ 32 then .wait t .slot
        else
          let t := t.modQueue q fun y => { y with fifo := y.fifo ++ [r] }
          let t0 := t
          let (bad, t) := t.admitAll q (tq.fifo.length + 1)
          if bad == some 0 then .wait { t0 with queues := t0.queues.set q.index tq } .slot
          else
          let t := if bad.isNone then t.spawned else t
          let t := if t.stream == .ep then t.disarm else t
          .done (t.gwrite d (b2w bad.isSome)) fl psn none

/-- `vpub` (R294). -/
def execVpub (c : Common) (fin : Bool) (a b : Fin 32) (s : State) :=
  runPlain (.vpub c fin a b) s fun t =>
    let va := t.gread a
    let bad : TrapReq := ⟨causeAccess, va, BitVec.ofNat 24 (accCode .write)⟩
    if va.toNat % 8 != 0 then .trap t bad
    else match t.xlateN .write va 8 with
      | (.error f, t) => .trap t (f.trap .write)
      | (.ok gas, t) =>
        if (t.bankOf (gas.headD 0)).isNone then .trap t bad
        else match t.releaseVlc with
          | none => .wait (t.closing .device) .stores
          | some t =>
            match t.atomicAt gas ⟨.publish fin, .n64, .rne, (t.gread b).toNat, 0⟩ with
            | (none, t) => .wait t (.store va)
            | (some r, t) =>
              let t := if t.stream == .ep then t.disarm else t
              .done (t.noteAtom r 0) (raiseIf [] 0 (r.result .n64).2) [] none

/-! ## Traps (R295, R416, R417) -/

/-- `trap n`: EPC is the address after it. -/
def execTrap (n : BitVec 12) (s : State) :=
  runPlain (.trap n) s fun t => .stop (takeTrap t (t.pc + 4) ⟨causeSoftware, n.setWidth 64, 0⟩)

def execTret (s : State) := runPlain .tret s fun t =>
  let t := trapReturn t
  .stop (t.setStr { t.str with wait := none, granted := false })

end Sys2Proof.Machine
end

