-- ==== Sys2Proof/Machine/Packet.lean ====
section
/-! DEFINITION. Packets of the fabric (R388 to R393): requests sent, responses and their cache, the receiver's window, and what
this endpoint does with an access that a packet asks for (R337, R339, R342 to R346). -/

namespace Sys2Proof.Machine

/-! ## On the wire (R388) -/

/-- The header beat. -/
def headerOf (p : Packet) : BitVec 256 :=
  p.mbz.extractLsb' 3 16 ++ p.oseq ++ p.route ++ p.mbz.extractLsb' 0 3 ++ p.ty ++ p.op ++ p.addr ++ p.rprev ++ p.seq ++
    p.len ++ p.orig ++ p.src ++ BitVec.ofBool p.pv ++ BitVec.ofBool p.rly ++ BitVec.ofBool p.grp ++ p.dst ++ p.kind

/-- A packet from its header beat, with what the layout gives no bits for (log 35). -/
def packetOf (x : BitVec 256) (home : BitVec 13) (data : List Byte) (poison : Bool) : Packet where
  kind := x.extractLsb' 0 8
  home := home
  dst := x.extractLsb' 8 13
  grp := x.getLsbD 21
  rly := x.getLsbD 22
  pv := x.getLsbD 23
  src := x.extractLsb' 24 13
  orig := x.extractLsb' 37 13
  len := x.extractLsb' 50 14
  seq := x.extractLsb' 64 32
  rprev := x.extractLsb' 96 32
  addr := x.extractLsb' 128 50
  op := x.extractLsb' 178 6
  ty := x.extractLsb' 184 5
  route := x.extractLsb' 192 16
  oseq := x.extractLsb' 208 32
  mbz := x.extractLsb' 240 16 ++ x.extractLsb' 189 3
  data := data
  poison := poison

/-- Flits of a packet: a header beat and its data beats, padded with zeros to whole flits. -/
def flitsOf (p : Packet) : Nat := (1 + (p.data.length + 31) / 32 + 1) / 2

/-- The bytes of a packet on the wire. -/
def wireOf (p : Packet) : List Byte :=
  leBytes 32 (headerOf p).toNat ++ p.data ++ List.replicate (64 * flitsOf p - 32 - p.data.length) 0

/-! ## Sending (R379, R391, R392) -/

/-- Requests of a pair that are unanswered at most (R379). -/
def sendCap : Nat := 4096

/-- One request leaves: it is kept until its response comes, which a relay's does not (R379). -/
def SendPair.send (x : SendPair) (p : Packet) (die : Fin 4) : Packet × SendPair :=
  let (q, y) := x.number p
  (q, if p.rly then y else { y with unanswered := y.unanswered ++ [⟨q, die, 0, []⟩] })

/-- The requests of a list leave in order, as far as the pair has room for unanswered ones; the rest waits (R379, R396). -/
def SendPair.pump (x : SendPair) : List (Packet × Fin 4) → List Packet × SendPair
  | [] => ([], { x with queued := [] })
  | (p, d) :: rest =>
    if x.unanswered.length ≥ sendCap then ([], { x with queued := (p, d) :: rest })
    else
      let (q, y) := x.send p d
      let (out, z) := y.pump rest
      (q :: out, z)

/-- Sends a request of a die, behind those that wait. A relay waits for none. -/
def State.sendRequest (s : State) (die : Fin 4) (p : Packet) : State :=
  let x := s.sendPair p
  if p.rly then
    let (q, y) := x.send p die
    s.putPair p [q] y
  else
    let (out, y) := x.pump (x.queued ++ [(p, die)])
    s.putPair p out y

/-- Whether a receiver's record belongs to the source, and group, of a packet (R393). -/
def RecvPair.of (r : RecvPair) (p : Packet) : Bool := r.src == p.src && r.grp == if p.grp then some p.dst else none

/-- The number of a request as its original requester gave it (R379, R390). -/
def numberOf (p : Packet) : BitVec 32 := if p.rly then p.oseq else p.seq

/-- Whether an endpoint that relays an access to a frame does so by a stub or home pointer (R344, R346): one that has neither names
no owner, and its relay brings no redirect (R339). -/
def State.relayKnown (s : State) (src : BitVec 13) (h : Nat) : Bool :=
  src.toNat == h / 2 ^ 34 || ((s.frameRec h).elim [] (·.stubs)).any (·.endpoint == src)

/-- The response to a request goes to ORIG under the request's number, with a redirect where the access was relayed by a stub or home
pointer (R344, R390), and into the response cache (R381). -/
def State.respondWith (s : State) (p : Packet) (status : Nat) (data : List Byte) (op : BitVec 6) : State :=
  let f := s.fabric
  let r : Packet := {
    kind := 0x10, home := p.home, dst := p.orig, grp := false, rly := false, pv := false, src := f.fendp, orig := f.fendp
    len := BitVec.ofNat 14 data.length, seq := numberOf p, rprev := 0
    addr := BitVec.ofNat 50 (status + f.fendp.toNat * 2 ^ 8 + if p.rly && s.relayKnown p.src (packetFrame p) then 2 ^ 21 else 0)
    op := op, ty := 0, route := p.route, oseq := numberOf p, mbz := 0, data := data, poison := status == 3 }
  { s with fabric := { f with
    outbox := f.outbox ++ [r]
    recv := f.recv.map fun x => if x.of p then { x with responses := (p.seq, r) :: x.responses } else x } }

/-- A response without flags. -/
def State.respond (s : State) (p : Packet) (status : Nat) (data : List Byte) : State := s.respondWith p status data 0

/-! ## Receiving (R380, R381, R392, R396) -/

/-- A pair of which nothing has been received (R380). -/
def RecvPair.fresh (p : Packet) : RecvPair := ⟨p.src, if p.grp then some p.dst else none, 0xFFFFFFFF, [], []⟩

/-- Whether number `n` is a duplicate (R380). -/
def RecvPair.duplicate (r : RecvPair) (n : BitVec 32) : Bool :=
  let δ := (n - r.high).toNat
  if 1 ≤ δ ∧ δ < 2 ^ 31 then false
  else if δ == 0 || decide (δ ≥ 2 ^ 32 - 4095) then r.accepted.contains n
  else true

/-- Number `n` is accepted: H, the record of the window (R380), and the responses that can no longer be asked for (R396). -/
def RecvPair.accept (r : RecvPair) (n : BitVec 32) : RecvPair :=
  let δ := (n - r.high).toNat
  let h := if 1 ≤ δ ∧ δ < 2 ^ 31 then n else r.high
  { r with
    high := h
    accepted := (n :: r.accepted).filter fun m => decide ((h - m).toNat < 4096)
    responses := r.responses.filter fun x => !(decide (4095 < (n - x.1).toNat ∧ (n - x.1).toNat < 2 ^ 31)) }

/-- Whether the request before a packet on its route has been accepted; one below the window counts as accepted (R392). -/
def RecvPair.inOrder (r : RecvPair) (p : Packet) : Bool := !p.pv || r.duplicate p.rprev

/-- The kinds of R389. -/
def kinds : List Nat := [0x01, 0x02, 0x03, 0x04, 0x08, 0x09, 0x10, 0x20, 0x21, 0x30]

/-- Whether a packet arrives here: its destination or a group, and as much data as its kind carries (R388). -/
def State.addressed (s : State) (p : Packet) : Bool :=
  (p.grp || p.dst == s.fabric.fendp) && decide (p.len.toNat ≤ 4096) &&
  if [0x01, 0x04, 0x09].contains p.kind.toNat then p.data.isEmpty else p.data.length == p.len.toNat

/-- What a port does with a packet that arrives while it carries traffic: discarded and counted where it is of no kind or has a
field that must be zero (R389); otherwise `f` acts on one of kind `kind`. -/
def State.arrive (s : State) (port : Fin 16) (kind : Nat) (p : Packet) (f : State → State) : State :=
  if !s.powered || !s.fabric.ports[port].up then s
  else
    if !kinds.contains p.kind.toNat || p.mbz != 0 then s.modPort port fun x => { x with pdrop := x.pdrop + 1 }
    else if p.kind.toNat == kind && s.addressed p then f s
    else s

/-- The receiver's record of the pair of a packet. -/
def State.recvPair (s : State) (p : Packet) : RecvPair := (s.fabric.recv.find? (·.of p)).getD (.fresh p)

/-- A duplicate is counted, and its response sent again where it has been sent (R381). -/
def State.duplicated (s : State) (port : Fin 16) (p : Packet) : State :=
  let s := s.modPort port fun x => { x with pdup := x.pdup + 1 }
  match (s.recvPair p).responses.find? (·.1 == p.seq) with
  | some x => { s with fabric := { s.fabric with outbox := s.fabric.outbox ++ [x.2] } }
  | none => s

/-- A request is accepted (R380). -/
def State.accepted (s : State) (p : Packet) : State :=
  { s with fabric := { s.fabric with recv := (s.recvPair p).accept p.seq :: s.fabric.recv.filter (!·.of p) } }

/-- Requests that wait at one port at most (R392). -/
def waitCap : Nat := 1024

/-- A request waits at its port for the one before it on its route; where there is no room, or it waits there already, it is discarded
(R392). -/
def State.keepWaiting (s : State) (port : Fin 16) (p : Packet) : State :=
  if (s.fabric.waiting.filter (·.1 == port)).length ≥ waitCap || s.fabric.waiting.any (·.2 == p) then s
  else { s with fabric := { s.fabric with waiting := s.fabric.waiting ++ [(port, p)] } }

/-! ## Accesses (R337, R339, R342 to R346) -/

/-- The global address that a packet names (log 35). -/
def State.packetGa (s : State) (p : Packet) : Nat :=
  (if p.grp then s.here else p.home.toNat) * 2 ^ 50 + p.addr.toNat

/-- The endpoint whose access this was comes among the sharers of a frame owned here, or of the stub here that relays it (R347). One
relayed for while the stub is reclaimed learns the new owner by its redirect, and is asked nothing (R349; log 41). -/
def State.noteSharer (s : State) (h : Nat) (e : BitVec 13) : State :=
  if s.ownerOf h == s.here then
    if s.coord.sharers.contains (h, e) then s
    else { s with coord := { s.coord with sharers := s.coord.sharers ++ [(h, e)] } }
  else
    let add (x : Stub) : Stub :=
      if x.endpoint != s.fabric.fendp || x.reclaiming || x.everyone || x.sharers.contains e then x
      else if x.sharers.length ≥ 64 then { x with everyone := true }
      else { x with sharers := x.sharers ++ [e] }
    { s with frames := s.frames.map fun r => if r.frame == h then { r with stubs := r.stubs.map add } else r }

/-- Reads bytes at their ownership point for an agent outside the device. -/
def State.pointRead (s : State) (gas : List Nat) : ReadRes × State :=
  let s := (s.fireInjections gas).touchLines gas false
  (⟨gas.map s.mem.read, gas.any fun ga => s.poison.contains (gaLine ga), false, false⟩, s)

/-- Stores bytes at their ownership point for an agent outside the device. -/
def State.pointWrite (s : State) (gas : List Nat) (bs : List Byte) (poison : Bool) : State :=
  let ms := mbytes gas bs
  ((linesOf ms).foldl (fun s x => s.performBytes (ms.filter fun b => gaLine b.ga == x) poison) s).touchLines gas true

/-- The atomic that a packet brings to its location (R275, R276; log 35). -/
def packetAtomic (p : Packet) (t : Ty) (old : Nat) : Nat × Fl :=
  let w := t.sew / 8
  let rm : Rm := match bitsAt p.op.toNat 4 2 with | 0 => .rne | 1 => .rtz | 2 => .rdn | _ => .rup
  match amoOfCode (p.op.toNat % 16) with
  | some o => (⟨o, t, rm, leNat (p.data.take w), leNat ((p.data.drop w).take w)⟩ : AtomReq).new old
  | none => (old, 0)

/-- The residue mismatches that an atomic brought by a packet to a bank meets: it is recomputed after the first, and a second keeps
the location as it is (R326, R436, R438, R441; log 12). -/
def State.bankMismatch (s : State) (ga : Nat) : Bool × State :=
  match s.bankOf ga with
  | none => (false, s)
  | some d =>
    let one (s : State) : Bool × State := match s.upsets.find? (fun u => u.core.die == d && !u.store) with
      | none => (false, s)
      | some u => (true, ({ s with upsets := s.upsets.erase u } : State).modDie d fun x => { x with bankres := x.bankres + 1 })
    match one s with
    | (false, s) => (false, s)
    | (true, s) => one s

/-- An access performed here, as the owner of its frame, and answered: an atomic with its flags, of which bits 5 to 0 can arise (R326; log
35). What STATUS answers a second residue mismatch the spec does not say (log 12). -/
def State.servePacket (s : State) (p : Packet) : State :=
  let ga := s.packetGa p
  let status (r : ReadRes) : Nat := if r.poison then 3 else 0
  match p.kind.toNat with
  | 0x02 | 0x08 => (s.pointWrite ((List.range p.len.toNat).map (ga + ·)) p.data p.poison).respond p 0 []
  | 0x03 =>
    let t := (tyOfNat p.ty.toNat).getD .n64
    let gas := (List.range (t.sew / 8)).map (ga + ·)
    let (lost, s) := s.bankMismatch ga
    let (r, s) := s.pointRead gas
    if lost then (s.bump).respond p (Config.freeVec s.fresh).toNat r.bytes
    else
      let (v, f) := packetAtomic p t (leNat r.bytes)
      (s.pointWrite gas (leBytes gas.length v) false).respondWith p (status r) r.bytes (f.setWidth 6)
  | _ =>
    let (r, s) := s.pointRead ((List.range p.len.toNat).map (ga + ·))
    s.respond p (status r) r.bytes

/-- What an access does at its owner elsewhere, once a relay has brought it there (log 10). -/
def State.performRemote (s : State) (p : Packet) : State :=
  let ga := p.home.toNat * 2 ^ 50 + p.addr.toNat
  if !s.answers (s.ownerOf (gaFrame ga)) then s
  else match p.kind.toNat with
    | 0x02 | 0x08 => s.performBytes (mbytes ((List.range p.len.toNat).map (ga + ·)) p.data) p.poison
    | 0x03 =>
      let t := (tyOfNat p.ty.toNat).getD .n64
      let gas := (List.range (t.sew / 8)).map (ga + ·)
      s.performBytes (mbytes gas (leBytes gas.length (packetAtomic p t (leNat (gas.map s.mem.read))).1)) false
    | _ => s

/-- The endpoint that an access to a frame that is not owned here is relayed to (R339, R346, R347): the owner that the home pointer names
where this is the home, the one that a stub here names, and otherwise the home. -/
def State.relayTarget (s : State) (h : Nat) : Nat :=
  if h / 2 ^ 34 == s.here then s.ownerOf h
  else match ((s.frameRec h).elim [] (·.stubs)).find? (·.endpoint == s.fabric.fendp) with
    | some x => x.next.toNat
    | none => h / 2 ^ 34

/-- A write is held at a frozen frame in its hold queue (R342). -/
def State.hold (s : State) (h : Nat) (x : Held) : State :=
  { s with moves := s.moves.map fun m => if m.frame == h then { m with held := m.held ++ [x] } else m }

/-- Kinds that read (R389). -/
def readsPacket (p : Packet) : Bool := [0x01, 0x04, 0x09].contains p.kind.toNat

/-- An access relayed (R339, R344, R346): a new packet under the original number, and at the owner its effect, for which a write waits
while the frame is frozen there. -/
def State.relayPacket (s : State) (p : Packet) : State :=
  let ga := s.packetGa p
  let h := gaFrame ga
  let stop := s.relayTarget h
  let q : Packet := { p with
    rly := true, grp := false, home := BitVec.ofNat 13 (gaEndpoint ga), dst := BitVec.ofNat 13 stop, src := s.fabric.fendp,
    oseq := numberOf p }
  let s := s.sendRequest 0 q
  if !s.answers stop then s
  else if s.moves.any (·.frame == h) && !readsPacket q then s.hold h (.packet q)
  else s.performRemote q

/-- An access that a packet brings, at an address of this device that exists and is of no hole: served or relayed. Another one
is answered DROPPED, or ABSENT where it reads (log 35). -/
def State.performPacket (s : State) (p : Packet) : State :=
  let ga := s.packetGa p
  if s.gaFaults ga || s.unreachable.contains (gaFrame ga) || !(s.host.up || regionOf (gaLocal ga) != .host) then
    s.respond p (if readsPacket p then 2 else 1) []
  else
    let s := (s.noteSharer (gaFrame ga) p.orig).sample (gaFrame ga) p.orig
    if s.ownerOf (gaFrame ga) == s.here then s.servePacket p else s.relayPacket p

/-- Whether an access that a packet brings has to be held here, at a frozen frame: a write, or a read behind a held write of the same
requester (R342). -/
def State.holdsPacket (s : State) (p : Packet) : Bool :=
  let h := gaFrame (s.packetGa p)
  s.moves.any fun m => m.frame == h && m.src == s.fabric.fendp &&
    (!readsPacket p || m.held.any fun x => match x with
      | .packet q => q.orig == p.orig
      | _ => false)

/-- Whether an access to a frame is accepted: none to a frozen one whose hold queue is full (R342). -/
def State.holdRoom (s : State) (p : Packet) : Bool :=
  s.moves.all fun m => m.frame != gaFrame (s.packetGa p) || s.holdRoomAt m

/-- An access that a packet brings: held or performed. -/
def State.accessPacket (s : State) (p : Packet) : State :=
  if s.holdsPacket p then s.hold (gaFrame (s.packetGa p)) (.packet p) else s.performPacket p

end Sys2Proof.Machine
end

