-- ==== Sys2Proof/Machine/Function.lean ====
section
/-! DEFINITION. Function registers (R210 to R242): the constants of the bases, exact formulas rounded once, allocation, and the
instructions of FMEM, FARI, FCAL and FEVL. -/

namespace Sys2Proof.Machine

/-! ## Constants of the bases (R211, R213) -/

/-- Nodes and weights are computed as integers scaled by 2^256: far closer than an f64 value needs. -/
def fixedBits : Nat := 256
def fixedOne : Int := 2 ^ fixedBits

def fixMul (a b : Int) : Int := a * b / fixedOne
def fixDiv (a b : Int) : Int := a * fixedOne / b

/-- The f64 value nearest num / den (R213). -/
def nearestF64 (num : Int) (den : Nat) : FVal :=
  if num == 0 || den == 0 then .zero
  else
    let n := num.natAbs
    let sh : Int := 80 + (Nat.log2 den : Int) - (Nat.log2 n : Int)
    let a := n * 2 ^ sh.toNat
    let b := den * 2 ^ (-sh).toNat
    readTy .f64 (roundFloat .f64 .rne false (decide (num < 0)) (a / b) (-sh) (a % b != 0) 0).1

/-- The f64 value nearest a scaled integer; what is zero but for the last digits is zero. -/
def constOf (x : Int) : FVal := if x.natAbs < 2 ^ 56 then .zero else nearestF64 x (2 ^ fixedBits)

/-- A square root of num / den, scaled. -/
def fixSqrt (num den : Nat) : Int :=
  let x := num * 2 ^ (2 * fixedBits) / den
  (isqrtFrom x (Nat.log2 x / 2 + 1) 0 : Nat)

/-- P_0(x) to P_n(x), latest first (R211). -/
def legendreRev (x : Int) : Nat → List Int
  | 0 => [fixedOne]
  | 1 => [x, fixedOne]
  | n + 2 =>
    match legendreRev x (n + 1) with
    | p1 :: p0 :: rest => ((2 * n + 3) * fixMul x p1 - (n + 1) * p0) / (n + 2) :: p1 :: p0 :: rest
    | l => l

def legendre (n : Nat) (x : Int) : List Int := (legendreRev x n).reverse
def legendreAt (n : Nat) (x : Int) : Int := (legendreRev x n).headD 0

/-- What vanishes at the inner nodes: P_n for a Gauss rule of n points; for degree n Gauss-Lobatto, P_(n-1) - x P_n, which is
(1 - x²) P'_n ÷ n. -/
def nodePoly (gauss : Bool) (n : Nat) (x : Int) : Int :=
  match legendreRev x n with
  | pn :: pm :: _ => if gauss then pn else pm - fixMul x pn
  | l => l.headD 0

/-- The root between lo and hi, where the signs differ, by bisection. -/
def bisect (f : Int → Int) (sLo : Bool) : Nat → Int → Int → Int
  | 0, lo, _ => lo
  | k + 1, lo, hi =>
    let mid := (lo + hi) / 2
    if decide (f mid < 0) == sLo then bisect f sLo k mid hi else bisect f sLo k lo mid

/-- The roots inside (0, 1), rising: one in each of 512 cells whose ends differ in sign. -/
def positiveRoots (gauss : Bool) (n : Nat) : List Int :=
  let f := nodePoly gauss n
  let step := fixedOne / 1024
  (List.range 512).filterMap fun (k : Nat) =>
    let lo : Int := (2 * (k : Int) + (if k == 0 then 1 else 0)) * step
    let hi : Int := if k == 511 then fixedOne - step / 64 else (2 * (k : Int) + 2) * step
    let sLo := decide (f lo < 0)
    if sLo == decide (f hi < 0) then none else some (bisect f sLo (fixedBits + 2) lo hi)

/-- Gauss-Legendre nodes of n points, rising (R228). -/
def gaussNodes (n : Nat) : List Int :=
  let ps := positiveRoots true n
  ps.reverse.map (- ·) ++ (if n % 2 == 1 then [0] else []) ++ ps

/-- Gauss-Lobatto-Legendre nodes of degree p, rising (R211). -/
def lobattoNodes (p : Nat) : List Int :=
  if p == 0 then [0]
  else
    let ps := if p ≤ 2 then [] else positiveRoots false p
    [-fixedOne] ++ ps.reverse.map (- ·) ++ (if p % 2 == 0 then [0] else []) ++ ps ++ [fixedOne]

def gaussWeight (n : Nat) (x : Int) : Int :=
  match legendreRev x n with
  | pn :: pm :: _ =>
    let d := n * (pm - fixMul x pn)
    fixDiv (2 * (fixedOne - fixMul x x)) (fixMul d d)
  | _ => 2 * fixedOne

def lobattoWeight (p : Nat) (x : Int) : Int :=
  if p == 0 then 2 * fixedOne
  else let v := legendreAt p x; fixDiv (2 * fixedOne) (p * (p + 1) * fixMul v v)

/-- √((2n+1)/2). -/
def phiNorm (n : Nat) : Int := fixSqrt (2 * n + 1) 2
/-- φ_0(x) to φ_p(x). -/
def phis (p : Nat) (x : Int) : List Int := (legendre p x).zipIdx.map fun r => fixMul r.1 (phiNorm r.2)
/-- The Lagrange polynomials of some nodes at x. -/
def lagrange (xs : List Int) (x : Int) : List Int :=
  xs.zipIdx.map fun r => xs.zipIdx.foldl (fun (acc : Int) q =>
    if q.2 == r.2 then acc else fixDiv (fixMul acc (x - q.1)) (r.1 - q.1)) fixedOne

/-- The axis functions of a basis at x. -/
def basisAt (nodal : Bool) (p : Nat) (x : Int) : List Int := if nodal then lagrange (lobattoNodes p) x else phis p x

/-- A matrix of constants: rows are results. -/
abbrev FMat := List (List FVal)
def constMat (m : List (List Int)) : FMat := m.map fun r => r.map constOf

/-- Values of a basis at Gauss points, or at the nodes of degree n - 1. -/
def evalMat (nodal : Bool) (p : Nat) (gauss : Bool) (n : Nat) : FMat :=
  constMat ((if gauss then gaussNodes n else lobattoNodes (n - 1)).map (basisAt nodal p))

/-- Entries of the nodal to modal conversion: row n is ∫ φ_n ℓ_j, by the Lobatto rule, exact below degree p. -/
def toModal (p : Nat) : FMat :=
  let xs := lobattoNodes p
  constMat ((List.range (p + 1)).map fun n => xs.map fun x =>
    let v := fixMul (lobattoWeight p x) ((phis p x).getD n 0)
    if n == p && p != 0 then v * p / (2 * p + 1) else v)

/-- Values of the modal basis at the nodes: the modal to nodal conversion. -/
def toNodal (p : Nat) : FMat := constMat ((lobattoNodes p).map (phis p))

/-- What is done along an axis. -/
inductive AxisOp where
  | proj | diff | int
  | trace (high : Bool)
deriving DecidableEq, Repr

/-- The coefficient of φ_m in the image of φ_n (R231, R232): the identity, the derivative, the antiderivative from -1. -/
def modalEntry (op : AxisOp) (m n : Nat) : FVal :=
  match op with
  | .diff => if m < n && (n - m) % 2 == 1 then constOf (fixSqrt ((2 * n + 1) * (2 * m + 1)) 1) else .zero
  | .int =>
    if n == 0 then (if m == 0 then .num false 1 0 else if m == 1 then constOf (fixSqrt 1 3) else .zero)
    else if m == n + 1 then constOf (fixSqrt 1 ((2 * n + 1) * (2 * n + 3)))
    else if m + 1 == n then constOf (-(fixSqrt 1 ((2 * n + 1) * (2 * n - 1))))
    else .zero
  | _ => if m == n then .num false 1 0 else .zero

def modalMat (op : AxisOp) (pin pout : Nat) : FMat :=
  (List.range (pout + 1)).map fun m => (List.range (pin + 1)).map fun n => modalEntry op m n

/-- The steps of one axis from degree and basis to degree and basis (log 16): a nodal raise is one step of interpolation weights;
other nodal operations convert to modal, act there, and convert back. -/
def axisSteps (op : AxisOp) (pin pout : Nat) (inNodal outNodal : Bool) : List FMat :=
  match op with
  | .trace high => [constMat [basisAt inNodal pin (if high then fixedOne else -fixedOne)]]
  | _ =>
    if op == .proj && pin == pout && inNodal == outNodal then []
    else if op == .proj && inNodal && outNodal && decide (pin ≤ pout) then
      [constMat ((lobattoNodes pout).map (lagrange (lobattoNodes pin)))]
    else
      (if inNodal then [toModal pin] else []) ++
      (if op == .proj && pin == pout then [] else [modalMat op pin pout]) ++
      (if outNodal then [toNodal pout] else [])

/-! ## Exact formulas (R213, R214) -/

/-- The number m × 2^e. -/
structure Dyadic where
  m : Int
  e : Int
deriving DecidableEq, Repr

def Dyadic.add (a b : Dyadic) : Dyadic :=
  if a.m == 0 then b else if b.m == 0 then a
  else
    let lo := min a.e b.e
    ⟨a.m * 2 ^ (a.e - lo).toNat + b.m * 2 ^ (b.e - lo).toNat, lo⟩
def Dyadic.mul (a b : Dyadic) : Dyadic := ⟨a.m * b.m, a.e + b.e⟩
/-- A finite value; anything else counts as zero here. -/
def Dyadic.of : FVal → Dyadic
  | .num neg m e => ⟨if neg then -(m : Int) else m, e⟩
  | _ => ⟨0, 0⟩

/-- What kinds of term a formula has, as bits: 0 signalling NaN, 1 NaN, 2 zero times infinity, 3 +∞, 4 -∞, 5 positive, 6 negative,
7 +0, 8 -0. -/
abbrev Kinds := BitVec 9

def kindOf : FVal → Kinds
  | .nan s => if s then 1 else 2
  | .inf n => if n then 0x10 else 0x08
  | .num n m _ => if m == 0 then (if n then 0x100 else 0x80) else if n then 0x40 else 0x20

/-- The kind of a product of two terms, by bit number. -/
def mulKind (a b : Nat) : Nat :=
  if a == 0 || b == 0 then 0
  else if a == 1 || b == 1 then 1
  else if a == 2 || b == 2 then 2
  else
    let neg := (a % 2 == 0) != (b % 2 == 0)
    let s (pos : Nat) : Nat := if neg then pos + 1 else pos
    if a == 3 || a == 4 || b == 3 || b == 4 then (if a ≥ 7 || b ≥ 7 then 2 else s 3)
    else if a ≥ 7 || b ≥ 7 then s 7 else s 5

def kindsMul (a b : Kinds) : Kinds :=
  (List.range 9).foldl (fun (acc : Kinds) i =>
    if a.getLsbD i then (List.range 9).foldl (fun (acc : Kinds) j =>
      if b.getLsbD j then acc ||| ((1 : Kinds) <<< mulKind i j) else acc) acc
    else acc) 0

/-- A formula's value and its kinds of term. -/
structure Term where
  x : Dyadic
  k : Kinds
deriving DecidableEq, Repr

def Term.empty : Term := ⟨⟨0, 0⟩, 0⟩
def Term.of (v : FVal) : Term := ⟨.of v, kindOf v⟩
def Term.add (a b : Term) : Term := ⟨a.x.add b.x, a.k ||| b.k⟩
def Term.mul (a b : Term) : Term := ⟨a.x.mul b.x, kindsMul a.k b.k⟩
def Term.neg (a : Term) : Term := ⟨⟨-a.x.m, a.x.e⟩, kindsMul a.k (kindOf (.num true 1 0))⟩
/-- A constant times a formula; a zero constant forms no term. -/
def Term.scale (c : FVal) (a : Term) : Term :=
  if c.isZero then .empty
  else match c with
    | .num false _ _ => ⟨(Dyadic.of c).mul a.x, a.k⟩
    | _ => ⟨(Dyadic.of c).mul a.x, kindsMul a.k (kindOf c)⟩

/-- The value before its rounding, and NV (R214); the sign of an exact zero follows R46. -/
def Term.value (rm : Rm) (t : Term) : FVal × Fl :=
  let b := t.k.getLsbD
  let both := b 3 && b 4
  let nv := flIf (b 0 || b 2 || both) flNV
  if b 0 || b 1 || b 2 || both then (.nan false, nv)
  else if b 3 then (.inf false, nv)
  else if b 4 then (.inf true, nv)
  else if t.x.m == 0 then
    let p := b 5 || b 7
    let n := b 6 || b 8
    (.num (n && (!p || rm == .rdn)) 0 0, nv)
  else (.num (decide (t.x.m < 0)) t.x.m.natAbs t.x.e, nv)

/-- A result with its one rounding (R213). -/
def Term.round (t : Ty) (rm : Rm) (x : Term) (u : Nat) : Nat × Fl :=
  let (v, f) := x.value rm
  let (r, g) := writeFloat t rm false v.exact u
  (r, f ||| g)

/-- Coefficients of one component of one batch element with the extent of each axis, axis 0 fastest. -/
structure Field where
  sz : List Nat
  co : Array Term

def prodOf (l : List Nat) : Nat := l.foldl (· * ·) 1

/-- One step along one axis. -/
def Field.apply (f : Field) (axis : Nat) (m : FMat) : Field :=
  let stp := prodOf (f.sz.take axis)
  let nin := f.sz.getD axis 1
  let outer := f.co.size / (stp * nin)
  ⟨f.sz.set axis m.length,
    ((List.range outer).flatMap fun hi => m.flatMap fun row => (List.range stp).map fun lo =>
      (row.zipIdx.foldl (fun (acc : Term) r =>
        if r.1.isZero then acc else acc.add (Term.scale r.1 (f.co.getD (lo + hi * stp * nin + r.2 * stp) .empty))) .empty)).toArray⟩

/-- The steps of every axis. -/
def Field.applyAll (f : Field) (steps : List (List FMat)) : Field :=
  steps.zipIdx.foldl (fun f s => s.1.foldl (fun f m => f.apply s.2 m) f) f

/-- Whether a modal coefficient with an index above a cap is not zero (R215); an infinity or a NaN is not. -/
def Field.beyond (f : Field) (cap : Nat) : Bool :=
  f.co.toList.zipIdx.any fun r => (r.1.x.m != 0 || r.1.k &&& 0x1F != 0) &&
    (f.sz.foldl (fun (acc : Bool × Nat) n => (acc.1 || decide (acc.2 % n > cap), acc.2 / n)) (false, r.2)).1

def Field.zip (g : Term → Term → Term) (a b : Field) : Field := ⟨a.sz, Array.zipWith g a.co b.co⟩

/-! ## Function registers -/

/-- Component k of batch element e. -/
def FnReg.field (f : FnReg) (e k : Nat) : Field :=
  ⟨.replicate f.d (f.p + 1), (((f.coef.drop ((e * f.c + k) * f.per)).take f.per).map fun w => Term.of (readTy f.ty w.toNat)).toArray⟩

/-- A bad-handle trap at execute (R216). -/
def badHandle (i : Instr) (t : State) : Eff := .trap t ⟨causeHandle, evalOf i, 0⟩

/-- What one component of a result is: its coefficients before rounding and whether the cap drops one that is not zero. -/
structure Component where
  co : List Term
  nx : Bool

/-- Writes a function register (R213, R217, R220, R240): `r` is the result's descriptor, `comp e k` its components. The draws are reserved
before the checks of R216 (`ok`), whose failure consumes them (R52). -/
def writeFn (i : Instr) (ok : Bool) (c : Common) (d : Fin 16) (r : FnReg) (comp : Nat → Nat → Component) (t : State) : Eff :=
  let fl := t.flNum
  let n := r.c * r.per
  let r := { r with nb := fl }
  let (ds, t) := t.takeDraws (if c.rm == .rsr then fl * n else 0)
  if !ok then badHandle i t
  else match t.allocTrap r.granules with
  | some x => .trap t x
  | none =>
    let old := t.cur.vec.f[d]
    let keep := match old with
      | some o => o.d == r.d && o.p == r.p && o.nodal == r.nodal && o.c == r.c && o.f64 == r.f64 && o.nb == fl
      | none => false
    let oldCo := if keep then (t.fnreg d).coef else []
    let act := t.active c
    let out := (List.range fl).map fun e =>
      if act e then
        let comps := (List.range r.c).map fun k =>
          let x := comp e k
          let rs := x.co.zipIdx.map fun y => y.1.round r.ty c.rm (drawAt ds (e * n + k * r.per + y.2))
          (rs.map fun y => BitVec.ofNat 64 y.1, rs.foldl (fun (f : Fl) y => f ||| y.2) (flIf x.nx flNX))
        (comps.flatMap (·.1), comps.foldl (fun (f : Fl) y => f ||| y.2) 0)
      else ((List.range n).map fun q => oldCo.getD (e * n + q) 0, (0 : Fl))
    let u := t.putFn d (some { r with coef := out.flatMap (·.1) })
    let items := (t.batch c).flatMap fun e => List.replicate n e
    let lanes := if t.ncore then 16 else 64
    let spoil (e : Nat) (v : State) : State :=
      let f := v.fnreg d
      v.putFn d (some { f with coef := f.coef.zipIdx.map fun y =>
        if y.2 / n == e then BitVec.ofNat 64 (errorValue r.ty) else y.1 })
    .done u (raises (out.zipIdx.map fun y => (y.2, y.1.2))) [] (some ⟨items, (· % lanes), spoil, false⟩)

/-- A linear formula (R213, R215): what the sources become at a degree and basis, capped. -/
def linearComp (pr cap : Nat) (nodal : Bool) (f : Nat → Bool → Field) : Component :=
  ⟨(f (min pr cap) nodal).co.toList, decide (pr > cap) && (f pr false).beyond cap⟩

/-! ## FMEM (R222 to R224) -/

/-- Translates the images of batch elements; the fault is the first one's. -/
def checkImages (acc : Acc) (base : Word) (sz : Nat) : List Nat → State → Option Flt × State
  | [], s => (none, s)
  | e :: rest, s =>
    match s.xlateRow acc (base + BitVec.ofNat 64 (e * sz)) sz with
    | (.error f, s) => (some f, s)
    | (.ok _, s) => checkImages acc base sz rest s

/-- The coefficients that a cap keeps of a modal register, moved bit for bit, axis 0 fastest (R215, R223). -/
def FnReg.capped (f : FnReg) (cap : Nat) : List Word :=
  (f.coef.zipIdx.filter fun x =>
    (List.range f.d).all fun ax => decide (x.2 / (f.p + 1) ^ ax % (f.p + 1) ≤ cap)).map (·.1)

/-- `fnld` (R223): allocated at the degree of the descriptor word, capped at the end (R215). -/
def execFnld (c : Common) (d : Fin 16) (a b : Fin 32) (s : State) :=
  runPlain (.fnld c d a b) s fun t =>
    let fl := t.flNum
    if fl == 0 then .ok t
    else
      let w := (t.gread b).toNat
      let p := bitsAt w 0 4
      let raw : FnReg := ⟨bitsAt w 4 2, p, w.testBit 6, bitsAt w 7 2 + 1, c.ty == some .f64, fl, []⟩
      let r : FnReg := { raw with p := min p t.degCap }
      if raw.d == 0 then badHandle (.fnld c d a b) t
      else match t.allocTrap raw.granules with
        | some x => .trap t x
        | none =>
          let base := t.gread a
          let sz := raw.c * raw.per * raw.bytes
          let es := t.batch c
          match checkImages .read base sz es t with
          | (some f, t) => .trap t (f.trap .read)
          | (none, t) =>
            let n := raw.c * raw.per
            let idx := es.flatMap fun e => (List.range n).map fun q => e * n + q
            let (got, flt, t) := loadElems (fun q => ⟨base + BitVec.ofNat 64 (q * raw.bytes), raw.bytes, 0, 8 * raw.bytes⟩) idx t
            match flt with
            | some (_, f) => .trap t (f.trap .read)
            | none =>
              let val (q : Nat) : Word := match got.find? (·.1 == q) with
                | some (_, g) => BitVec.ofNat 64 (if g.bad then errorValue raw.ty else leNat g.bytes)
                | none => 0
              let psn := (poisonedOf got).map (· / n)
              let fls := (badOf got).map fun q => (q / n, flPSN)
              let full : FnReg := { raw with coef := (List.range (fl * n)).map val }
              if p ≤ t.degCap || !raw.nodal then
                let old := t.cur.vec.f[d]
                let keep := match old with
                  | some o => o.d == r.d && o.p == r.p && o.nodal == r.nodal && o.c == r.c && o.f64 == r.f64 && o.nb == fl
                  | none => false
                let oldCo := if keep then (t.fnreg d).coef else []
                let act := t.active c
                let new := full.capped t.degCap
                let m := r.c * r.per
                let co := (List.range (fl * m)).map fun q => if act (q / m) then new.getD q 0 else oldCo.getD q 0
                let nx := es.filter fun e => decide (p > t.degCap) && (List.range r.c).any fun k => (full.field e k).beyond t.degCap
                .done (t.putFn d (some { r with coef := co })) (nx.map (fun e => (e, flNX)) ++ fls) psn none
              else
                let noDraw := { c with rm := if c.rm == .rsr then .rne else c.rm }
                match writeFn (.fnld c d a b) true noDraw d r (fun e k => linearComp p t.degCap raw.nodal fun po nod =>
                  (full.field e k).applyAll (.replicate raw.d (axisSteps .proj p po raw.nodal nod))) t with
                | .done u fl' _ _ => .done u (fls ++ fl') psn none
                | x => x

/-- Coefficients stored in order of address. With ORD = 1 one whose predecessor is held at a frozen frame marks the instruction as one that
waits, with nothing stored (R363). -/
def storeCoefs (c : Common) (base : Word) (bytes : Nat) : List (Nat × Nat) → State → Option Flt × State
  | [], s => (none, s)
  | (q, x) :: rest, s =>
    let s := s.settleOrd c false
    if s.mustSettle c false then (none, s.markHeld (.store (base + BitVec.ofNat 64 (q * bytes))))
    else match s.store false (base + BitVec.ofNat 64 (q * bytes)) (leBytes bytes x) with
    | (.error f, s) => (some f, s)
    | (.ok (), s) => storeCoefs c base bytes rest s

def execFnst (c : Common) (d : Fin 16) (a : Fin 32) (s : State) :=
  runPlain (.fnst c d a) s fun t =>
    let fl := t.flNum
    let f := t.fnreg d
    let n := f.c * f.per
    let (ds, t) := t.takeDraws (if c.rm == .rsr then fl * n else 0)
    if fl == 0 then .ok t
    else if f.nb < fl then badHandle (.fnst c d a) t
    else
      let ty := c.ty.getD f.ty
      let bytes := ty.sew / 8
      let base := t.gread a
      let es := t.batch c
      match checkImages .write base (n * bytes) es t with
      | (some e, t) => .trap t (e.trap .write)
      | (none, t) =>
        let idx := es.flatMap fun e => (List.range n).map fun q => e * n + q
        let rs := idx.map fun q =>
          let x := (f.coef.getD q 0).toNat
          (q, if ty == f.ty then (x, (0 : Fl)) else convert ty f.ty c.rm false x (drawAt ds q))
        match storeCoefs c base bytes (rs.map fun r => (r.1, r.2.1)) t with
        | (some e, t) => .trap t (e.trap .write)
        | (none, t) => .done (t.outToPost c) (raises (rs.map fun r => (r.1 / n, r.2.2))) [] none

/-! ## FARI (R225 to R229) -/

/-- A sum or difference (R226). -/
def fnAddForm (i : Instr) (c : Common) (sub : Bool) (d a b : Fin 16) (s : State) : Host.Outcome State Fault Refusal :=
  runPlain i s fun t =>
    let fl := t.flNum
    let x := t.fnreg a
    let y := t.fnreg b
    let ok := decide (fl ≤ x.nb) && decide (fl ≤ y.nb) && x.d == y.d && x.c == y.c && x.nodal == y.nodal && x.f64 == y.f64
    if fl == 0 then .ok t
    else
      let pr := max x.p y.p
      let mats (p po : Nat) (nod : Bool) := List.replicate x.d (axisSteps .proj p po x.nodal nod)
      let capped := (mats x.p (min pr t.degCap) x.nodal, mats y.p (min pr t.degCap) x.nodal)
      let full := if pr > t.degCap then (mats x.p pr false, mats y.p pr false) else capped
      let r : FnReg := { x with p := min pr t.degCap, coef := [] }
      let g (u v : Term) : Term := u.add (if sub then v.neg else v)
      writeFn i ok c d r (fun e k =>
        let sum (m : List (List FMat) × List (List FMat)) : Field :=
          Field.zip g ((x.field e k).applyAll m.1) ((y.field e k).applyAll m.2)
        ⟨(sum capped).co.toList, decide (pr > t.degCap) && (sum full).beyond t.degCap⟩) t

def execFnadd (c : Common) (d a b : Fin 16) (s : State) := fnAddForm (.fnadd c d a b) c false d a b s
def execFnsub (c : Common) (d a b : Fin 16) (s : State) := fnAddForm (.fnsub c d a b) c true d a b s

/-- The product of two functions at points, projected or interpolated (R228, R229). -/
structure ProductRule where
  evalA : FMat
  evalB : FMat
  back : List FMat

/-- The constants of the de-aliased rule at degree r with n points, to a basis. -/
def dealiasedRule (pa pb r n : Nat) (nodal outNodal : Bool) : ProductRule :=
  let zs := gaussNodes n
  let ws := zs.map fun z => constOf (gaussWeight n z)
  let ph := zs.map (phis r)
  let row (q : Nat) : List FVal := (ph.zip ws).map fun x =>
    match constOf (x.1.getD q 0), x.2 with
    | .num s1 m1 e1, .num s2 m2 e2 => .num (s1 != s2) (m1 * m2) (e1 + e2)
    | v, _ => v
  ⟨evalMat nodal pa true n, evalMat nodal pb true n,
    (List.range (r + 1)).map row :: (if outNodal then [toNodal r] else [])⟩

/-- The constants of the aliased rule: values at the nodes of degree r. -/
def aliasedRule (pa pb r : Nat) (nodal : Bool) : ProductRule :=
  ⟨evalMat nodal pa false (r + 1), evalMat nodal pb false (r + 1), if nodal then [] else [toModal r]⟩

def ProductRule.run (m : ProductRule) (d : Nat) (x y : Field) : Field :=
  let u := x.applyAll (.replicate d [m.evalA])
  let v := y.applyAll (.replicate d [m.evalB])
  (Field.zip Term.mul u v).applyAll (.replicate d m.back)

def execFnmul (c : Common) (rule : Rule) (d a b : Fin 16) (s : State) :=
  runPlain (.fnmul c rule d a b) s fun t =>
    let fl := t.flNum
    let x := t.fnreg a
    let y := t.fnreg b
    let ok := decide (fl ≤ x.nb) && decide (fl ≤ y.nb) && x.d == y.d && x.nodal == y.nodal && x.f64 == y.f64 &&
      (x.c == y.c || x.c == 1 || y.c == 1)
    if fl == 0 then .ok t
    else
      let pp := x.p + y.p
      let deg := min pp t.degCap
      let aliased := match rule with | .aliased => true | .dealiased => false | .follow => t.cur.ctl.aliasing
      let m := if aliased then aliasedRule x.p y.p deg x.nodal
        else dealiasedRule x.p y.p deg ((pp + deg + 2) / 2) x.nodal x.nodal
      let exact := if pp > t.degCap then some (dealiasedRule x.p y.p pp (pp + 1) x.nodal false) else none
      let r : FnReg := { x with p := deg, c := max x.c y.c, coef := [] }
      writeFn (.fnmul c rule d a b) ok c d r (fun e k =>
        let u := x.field e (if x.c == 1 then 0 else k)
        let v := y.field e (if y.c == 1 then 0 else k)
        ⟨(m.run x.d u v).co.toList, match exact with | some m' => (m'.run x.d u v).beyond t.degCap | none => false⟩) t

def execFnscl (c : Common) (d a : Fin 16) (b : Src2) (s : State) :=
  runInstr (.fnscl c d a b) s fun w _ t =>
    let fl := t.flNum
    let x := t.fnreg a
    if fl == 0 then .ok t
    else
      let scale : Nat → FVal := match b with
        | .v v => let y := w.src t v x.ty; fun e => readTy x.ty (elem x.ty y e)
        | .s h => let y := t.hval x.ty h; fun _ => y
      let mats (po : Nat) (nod : Bool) := List.replicate x.d (axisSteps .proj x.p po x.nodal nod)
      writeFn (.fnscl c d a b) (t.sclFits a b) c d (t.sclReg a) (fun e k =>
        linearComp x.p t.degCap x.nodal fun po nod =>
          let f := (x.field e k).applyAll (mats po nod)
          { f with co := f.co.map fun z => z.mul (.of (scale e)) }) t

/-! ## FCAL (R230 to R235) -/

/-- A linear instruction of one source: `shape` gives the rule degree, the result's dimension and basis and each axis's
operation; `ok` is check 2 or 3 of R216. The result is composed exactly from the sources' coefficients to those of the destination and
rounded once; R215 does not say whether a capped nodal result goes through its own nodal values first (DESIGN CHOICE, log 46). -/
def fnLinear (i : Instr) (c : Common) (d a : Fin 16) (ok : FnReg → Bool)
    (shape : State → FnReg → Nat × Nat × Bool × (Nat → AxisOp))
    (s : State) : Host.Outcome State Fault Refusal :=
  runPlain i s fun t =>
    let fl := t.flNum
    let x := t.fnreg a
    if fl == 0 then .ok t
    else
      let (pr, dim, nodal, op) := shape t x
      let mats (po : Nat) (nod : Bool) := (List.range x.d).map fun ax => axisSteps (op ax) x.p po x.nodal nod
      let capped := mats (min pr t.degCap) nodal
      let full := if pr > t.degCap then mats pr false else []
      let f64 := match c.ty with | some ty => ty == .f64 | none => x.f64
      let r : FnReg := { x with d := dim, p := min pr t.degCap, nodal := nodal, f64 := f64, coef := [] }
      writeFn i (decide (fl ≤ x.nb) && ok x) c d r (fun e k =>
        ⟨((x.field e k).applyAll capped).co.toList,
          decide (pr > t.degCap) && ((x.field e k).applyAll full).beyond t.degCap⟩) t

/-- The operation on one axis, and the identity on the others. -/
def onAxis (axis : Nat) (op : AxisOp) : Nat → AxisOp := fun ax => if ax == axis then op else .proj

def execFndiff (c : Common) (axis : Fin 3) (d a : Fin 16) (s : State) :=
  fnLinear (.fndiff c axis d a) c d a (fun x => decide (axis.val < x.d)) (fun _ x =>
    (if x.nodal || 2 ≤ x.d then x.p else x.p - 1, x.d, x.nodal, onAxis axis.val .diff)) s
def execFnint (c : Common) (axis : Fin 3) (d a : Fin 16) (s : State) :=
  fnLinear (.fnint c axis d a) c d a (fun x => decide (axis.val < x.d)) (fun _ x =>
    (x.p + 1, x.d, x.nodal, onAxis axis.val .int)) s
def execFnproj (c : Common) (d a : Fin 16) (b : Fin 32) (s : State) :=
  fnLinear (.fnproj c d a b) c d a (fun _ => true) (fun t x =>
    let w := (t.gread b).toNat
    (bitsAt w 0 4, x.d, w.testBit 6, fun _ => .proj)) s
def execFntrace (c : Common) (face : Fin 6) (d a : Fin 16) (s : State) :=
  fnLinear (.fntrace c face d a) c d a
    (fun x => x.d != 1 && decide (face.val < 2 * x.d)) (fun _ x =>
    (x.p, x.d - 1, x.nodal, onAxis (face.val / 2) (.trace (face.val % 2 == 1)))) s

/-! ## FEVL (R236 to R239) -/

/-- P_n(x) × √((2n+1)/2) at a dyadic point, nearest f64: q is n! × 2^(k n) P_n(x), for x = m ÷ 2^k. -/
def phiNear (n k : Nat) (q : Int) : FVal :=
  if q == 0 then .zero
  else
    let den := (List.range n).foldl (fun acc i => acc * (i + 1)) 1 * 2 ^ (k * n)
    let sh : Int := 80 + (Nat.log2 den : Int) - (Nat.log2 q.natAbs : Int)
    let a := q.natAbs * q.natAbs * (2 * n + 1) * 4 ^ sh.toNat
    let b := 2 * den * den * 4 ^ (-sh).toNat
    let m := isqrtFrom (a / b) (Nat.log2 (a / b) / 2 + 1) 0
    readTy .f64 (roundFloat .f64 .rne false (decide (q < 0)) m (-sh) (m * m * b != a) 0).1

/-- n! × 2^(k n) P_n at m ÷ 2^k, latest first. -/
def legendreScaled (m : Int) (k : Nat) : Nat → List Int
  | 0 => [1]
  | 1 => [m, 1]
  | n + 2 =>
    match legendreScaled m k (n + 1) with
    | q1 :: q0 :: rest => ((2 * n + 3) * m * q1 - (n + 1) * (n + 1) * (4 ^ k : Nat) * q0) :: q1 :: q0 :: rest
    | l => l

/-- Values of a basis at a coordinate read exactly, each the nearest f64. -/
def basisNear (nodal : Bool) (p : Nat) (x : FVal) : List FVal :=
  let z := Dyadic.of x
  let k := (-z.e).toNat
  let m := z.m * 2 ^ z.e.toNat
  if nodal then
    let xs := lobattoNodes p
    let den := 2 ^ k
    xs.zipIdx.map fun r =>
      let (n, d) := xs.zipIdx.foldl (fun (acc : Int × Int) q =>
        if q.2 == r.2 then acc else (acc.1 * (m * fixedOne - q.1 * den), acc.2 * ((r.1 - q.1) * den))) ((1 : Int), (1 : Int))
      nearestF64 (if d < 0 then -n else n) d.natAbs
  else (legendreScaled m k p).reverse.zipIdx.map fun r => phiNear r.2 k r.1

/-- Vector results of function instructions: `val i` gives element i's batch element, formula and the flags that come with it. -/
def fnVector (c : Common) (d : Fin 32) (ty : Ty) (is : List Nat) (draws : List Nat) (batchOf : Nat → Nat)
    (val : Nat → Term × Fl) (t : State) : Eff :=
  let rs := is.map fun j =>
    let (x, f) := val j
    let (r, g) := x.round ty c.rm (drawAt draws j)
    (j, r, f ||| g)
  let lanes := if t.ncore then 16 else 64
  let spoil (e : Nat) (v : State) : State := v.putErrors d ty (is.filter fun j => batchOf j == e)
  .done (t.putElems d ty (rs.map fun r => (r.1, r.2.1))) (raises (rs.map fun r => (batchOf r.1, r.2.2))) []
    (some ⟨is.map batchOf, (· % lanes), spoil, false⟩)

def execFneval (c : Common) (d : Fin 32) (a : Fin 16) (b e : Fin 32) (s : State) :=
  runInstr (.fneval c d a b e) s fun w _ t =>
    let fl := t.flNum
    let x := t.fnreg a
    let np := (t.gread e).toNat
    let (ds, t) := t.takeDraws (if c.rm == .rsr then np * fl * x.c else 0)
    if fl == 0 then .ok t
    else if !t.evalFits a e then badHandle (.fneval c d a b e) t
    else
      let xb := w.src t b x.ty
      let act := t.active c
      let batchOf (j : Nat) : Nat := j / x.c % fl
      let is := (List.range (min t.vl (np * fl * x.c))).filter fun j => decide (t.vstart ≤ j) && act (batchOf j)
      let points := ((is.map fun j => j / (fl * x.c)).eraseDups).map fun j =>
        let zs := (List.range x.d).map fun ax => readTy x.ty (elem x.ty xb (j * x.d + ax))
        let bad := zs.any fun z => z.isNan || z.isInf
        (j, bad, flIf (zs.any FVal.isSnan) flNV, if bad then [] else zs.map fun z => [[basisNear x.nodal x.p z]])
      fnVector c d x.ty is ds batchOf (fun j =>
        match points.find? (·.1 == j / (fl * x.c)) with
        | some (_, false, _, m) => (((x.field (batchOf j) (j % x.c)).applyAll m).co.getD 0 .empty, 0)
        | some (_, true, f, _) => (⟨⟨0, 0⟩, 2⟩, f)
        | none => (.empty, 0)) t

def execFnquad (c : Common) (d : Fin 32) (a : Fin 16) (s : State) :=
  runPlain (.fnquad c d a) s fun t =>
    let fl := t.flNum
    let x := t.fnreg a
    let (ds, t) := t.takeDraws (if c.rm == .rsr then fl * x.c else 0)
    if fl == 0 then .ok t
    else if x.nb < fl then badHandle (.fnquad c d a) t
    else
      let act := t.active c
      let is := (List.range (min t.vl (fl * x.c))).filter fun j => decide (t.vstart ≤ j) && act (j / x.c)
      let weights : FMat := [(lobattoNodes x.p).map fun z => constOf (lobattoWeight x.p z)]
      let mass : FVal := if x.d % 2 == 0 then .num false 1 (x.d / 2 : Nat)
        else match constOf (fixSqrt 2 1) with
          | .num n m e => .num n m (e + (x.d / 2 : Nat))
          | v => v
      fnVector c d x.ty is ds (· / x.c) (fun j =>
        let f := x.field (j / x.c) (j % x.c)
        (if x.nodal then (f.applyAll (.replicate x.d [weights])).co.getD 0 .empty else (f.co.getD 0 .empty).scale mass, 0)) t

/-- The descriptor word of R221. -/
def FnReg.word (f : FnReg) : Word :=
  BitVec.ofNat 64 (f.p + f.d * 2 ^ 4 + (if f.nodal then 2 ^ 6 else 0) + (f.c - 1) * 2 ^ 7 + (if f.f64 then 2 ^ 9 else 0)
    + f.granules * 2 ^ 16 + f.nb * 2 ^ 32)

def execFndeg (c : Common) (d : Fin 32) (a : Fin 16) (s : State) :=
  runPlain (.fndeg c d a) s fun t => .ok (t.gwrite d (t.fnreg a).word)
def execFnfree (c : Common) (d : Fin 16) (s : State) :=
  runPlain (.fnfree c d) s fun t => .ok (t.putFn d none)

end Sys2Proof.Machine
end

