-- ==== Sys2Proof/Machine/Preempt.lean ====
section
/-! DEFINITION. Adjournment and resumption (R423 to R429, R461), the progress clock (R420 to R422), and what the scheduler does
to contexts on its own (R310 to R316). -/

namespace Sys2Proof.Machine

/-! ## Acting on one context -/

/-- Runs a change with a context and stream in focus, and puts the focus back. Without that context nothing changes. -/
def State.within (s : State) (l : Loc) (st : Stream) (f : State → State) : State :=
  match s.focus l st with
  | none => s
  | some t =>
    let u := f t
    if s.cur.live && s.cur.loc == l then { u with stream := s.stream }
    else match u.focus s.cur.loc s.stream with
      | some v => v
      | none => u

/-! ## Adjournment (R423 to R425) -/

/-- A stream that stops at an instruction boundary, its wait abandoned (R418) and its draws reserved afresh when it goes on (R52). -/
def StreamState.stopped (x : StreamState) : StreamState :=
  { x with wait := none, granted := false, reserve := none, answer := none, early := [] }

/-- The 64-bit instruction at pc, where the stream in focus stands at one. -/
def State.longAt (s : State) : Option Instr :=
  match s.fetchParcels s.pc 2 with
  | (.ok [lo, hi], _) =>
    if isLong lo then match decode64 lo hi with
      | .ok i => some i
      | .error _ => none
    else none
  | _ => none

/-- The board of a context that leaves its core while its EP waits at a `tbload` is gone (R266, R418). -/
def State.dropWaitingBoard (s : State) : State :=
  if s.cur.ep.wait.isSome then (({ s with stream := .ep } : State).longAt).elim s s.dropBoard else s

/-- Whether the context in focus may be adjourned: no tile fill is to come (R287), and no scalar instruction that completes first is in
flight or under way (R418), a move that it waits for or an atomic that is held or just performed. -/
def State.mayAdjourn (s : State) : Bool :=
  let mine (a : Asker) : Bool := match a with
    | .pgmove l _ _ => l == s.cur.loc
    | _ => false
  let atomic (h : Held) : Bool := match h with
    | .atomic l .. => l == s.cur.loc
    | _ => false
  !s.fillsPending && s.cur.flights.all (fun f => interruptible f.instr) && s.cur.ep.answer.isNone && s.cur.ap.answer.isNone &&
    s.moves.all (fun m => !mine m.asker && !m.held.any atomic) && s.coord.waiting.all fun m => !mine m.asker

/-- Adjourns the context in focus (R423, R424): the strip closes (R365), a board that is being loaded is gone (R266), what the context
waits for is given up, its stores reach the die's level so that it finds them wherever it resumes (log 40), and its state becomes a
record, with the instruction of the EP that has performed part of its work (R40, R424). A record that held tenure waits for it. Its engine
commands go on (R461). -/
def State.adjournCur (s : State) (target : Option CoreId) : State :=
  let l := s.cur.loc
  let s := (((s.freeAtomics l .ep).freeAtomics l .ap).dropWaitingBoard.closeStrip.leaveWaits.drain ⟨l, some .ep, 0⟩ 3).drain ⟨l, some .ap, 0⟩ 3
  let v := { s.cur with
    ep := s.cur.ep.stopped, ap := s.cur.ap.stopped, korder := .replicate 8 [], clock := 0, busy := []
    binds := s.cur.binds.map fun b => (b.1, { b.2 with pre := [], ready := false }) }
  let r : Saved := ⟨s.fresh, v, vlen s.ncore / 8, target⟩
  let s := (s.modCore fun c => { c with
    tileOwner := if c.tileOwner == some l then none else c.tileOwner
    holders := c.holders.filter (· != l) }).bump
  let s := if v.tenure then s.modCoreAt r.core fun c => { c with tenureQueue := c.tenureQueue ++ [.record r.id] } else s
  { s with
    cur := .none l
    saved := s.saved ++ [r]
    commands := s.commands.map fun c => if c.vlc == l && c.saved.isNone then { c with saved := some r.id } else c }

/-- `adjourn`: this stream resumes after it, the other where it stands (R423). A context with a pending migration request
resumes on the target (R429). -/
def execAdjourn (s : State) :=
  runPlain .adjourn s fun t =>
    if !t.mayAdjourn then .wait t .unit
    else .stop ((t.setPc (t.pc + 4)).adjournCur t.cur.migrate)

/-! ## Resumption (R426, R427) -/

/-- A register group of V with its bytes in element order, at another VLEN (R427). -/
def refit (n m g : Nat) (v : Vector VReg 32) : Vector VReg 32 :=
  (List.range (32 / g)).foldl (fun (out : Vector VReg 32) k =>
    let x := (List.range g).foldl (fun acc j => acc ||| ((v[Fin.ofNat 32 (k * g + j)].toNat % 2 ^ n) <<< (j * n))) 0
    (List.range g).foldl (fun (out : Vector VReg 32) j =>
      out.set (Fin.ofNat 32 (k * g + j)) (BitVec.ofNat 16384 (bitsAt x (j * m) m))) out) v

/-- A context's registers on a core of VLEN m, saved on one of VLEN n (R427). -/
def Vlc.refitted (v : Vlc) (n m : Nat) (ncore : Bool) : Vlc :=
  if n == m then v
  else
    let top := Machine.vlmax ncore (wcTy v.ctl.wc) v.ctl.g
    { v with
      vec := { v.vec with
        v := refit n m v.ctl.g v.vec.v
        m := v.vec.m.map fun x => BitVec.ofNat 16384 (x.toNat % 2 ^ m) }
      ctl := { v.ctl with
        vl := BitVec.ofNat 15 (min v.ctl.vl.toNat top), vlsave := BitVec.ofNat 15 (min v.ctl.vlsave.toNat top) } }

/-- The lowest-numbered core of a die, other than its own, that a record may move to, W-cores before N-cores (R314). -/
def State.moveCore (s : State) (r : Saved) (w : Work) : Option CoreId :=
  ((s.eligible w.queue w.wcore).map fun k => (⟨r.vlc.loc.die, k⟩ : CoreId)).find? fun c =>
    c != r.vlc.loc.coreId && s.hasSlot c && s.roomFor r c

/-- Whether another eligible core of the die has a free slot and free tenure (R314). -/
def State.tenureElsewhere (s : State) (c : CoreId) (w : Work) : Bool :=
  (s.eligible w.queue w.wcore).any fun k =>
    k != c.core && s.hasSlot ⟨c.die, k⟩ && decide (s.tenured ⟨c.die, k⟩ < tenureLimit ⟨c.die, k⟩)

/-- Whether a core is narrower than the one that saved a record which holds tenure: such a move needs the fold routine (R314, R428). -/
def Saved.narrows (r : Saved) (c : CoreId) : Bool := r.vlc.tenure && decide (vlen c.ncore < 8 * r.vlenb)

/-- Whether a core is the one where a record resumes: its target (R429), its own core (R311), or the core that R314 moves it to because
its own is no longer eligible or, after a long wait (log 7), has no tenure for it, where that is no narrower one. -/
def State.resumesOn (s : State) (r : Saved) (c : CoreId) : Bool :=
  c == r.core || match r.target, r.vlc.work with
    | none, some w =>
      (!s.eligibleFor w r.core || (r.vlc.tenure && !s.mayTake r.core (.record r.id) && s.tenureElsewhere r.core w)) &&
        s.moveCore r w == some c && !r.narrows c
    | _, _ => false

/-- Whether a record may resume on a core now (R310, R311, R314, R427, R429). -/
def State.fits (s : State) (r : Saved) (c : CoreId) : Bool :=
  s.resumesOn r c && s.roomFor r c && (!r.vlc.tenure || s.mayTake c (.record r.id))

/-- Loads a record into a free slot (R426): its registers are restored, what its engines held for it is delivered (R461), and
its streams go on. -/
def State.resumeAt (s : State) (r : Saved) (l : Loc) : State :=
  let v := (r.vlc.refitted (8 * r.vlenb) (vlen l.coreId.ncore) l.coreId.ncore)
  let v := { v with loc := l, migrate := none, folding := false, clock := 0 }
  ({ s with
    cores := s.cores.map fun c => { c with tenureQueue := c.tenureQueue.filter (· != .record r.id) }
    saved := s.saved.filter (·.id != r.id)
    commands := s.commands.map fun c => if c.saved == some r.id then { c with vlc := l, saved := none } else c } : State).modCoreAt l.coreId (fun c =>
      if v.tenure then { c with holders := c.holders.filter (· != l) ++ [l] } else c) |>.addVlc v

/-- A record resumes in a slot (R426). -/
def execResume (k : Nat) (l : Loc) (s : State) : Stepped :=
  .next <| match s.saved[k]? with
    | some r => if s.slotFree l && s.fits r l.coreId then s.resumeAt r l else s
    | none => s

/-! ## Scheduling (R310 to R314) -/

/-- A stream that waits, in the context in focus. -/
def State.waits (s : State) : Option Wait := s.str.wait

/-- Whether either stream waits for a grant, a queue or a token (R311). -/
def Vlc.longWait (v : Vlc) : Bool :=
  let long (w : Option Wait) : Bool := match w with
    | some .grant | some (.queue _) | some (.token _) => true
    | _ => false
  long v.ep.wait || long v.ap.wait

/-- Where a context moves to: the core of R314, and its lowest free slot. A move for want of tenure needs a core that has both a
free slot and free tenure. -/
def State.moveTarget (s : State) (v : Vlc) (w : Work) (needTenure : Bool) : Option Loc :=
  if needTenure && !s.tenureElsewhere v.loc.coreId w then none
  else (s.moveCore ⟨0, v, vlen v.loc.coreId.ncore / 8, none⟩ w).bind fun c =>
    ((List.finRange 4).map fun x => (⟨c.die, c.core, x⟩ : Loc)).find? s.slotFree

/-- A context leaves its core (R314, R428): by a request at its next `vstrip` where it holds tenure and the target is narrower
(never with FOLD = 0), else at once, as far as the core that it comes to has tenure for it; a context on a core that is no longer
eligible is adjourned where no core qualifies. -/
def execContextMove (l : Loc) (s : State) : Stepped :=
  .next <| s.within l .ep fun t =>
    match t.cur.work with
    | none => t
    | some w =>
      let out := !(t.queueAt w.queue).qcmask.getLsbD l.core.val
      let waiting := t.core.tenureQueue.contains (.vlc l)
      if !(out || waiting) || !t.mayAdjourn then t
      else match t.moveTarget t.cur w (!out) with
        | some place =>
          if t.cur.tenure && place.coreId.ncore && !t.ncore then
            if w.fold == 0 then t else t.modVlc fun v => { v with migrate := some place.coreId }
          else
            let t := t.adjournCur none
            match t.saved.getLast? with
            | some r => if !r.vlc.tenure || t.mayTake place.coreId (.record r.id) then t.resumeAt r place else t
            | none => t
        | none => if out && !(t.cur.tenure && t.cur.migrate.isSome) then t.adjournCur none else t

/-- The `vstrip` or `vstripx` at pc, where the stream in focus stands at one (R141). -/
def State.stripAt (s : State) : Option Instr :=
  match s.fetchParcels s.pc 1 with
  | (.ok [w], _) =>
    let f := Fields32.ofParcel w
    if isLong w || f.op != 0x18 then none
    else match decStrip f with
      | .ok .vrel => none
      | .ok i => some i
      | .error _ => none
  | _ => none

/-- A pending request for a narrower core traps to the fold routine before the `vstrip` that the EP stands at (R428), whose own trap at
decode comes first (R415). -/
def execMigrationRequest (l : Loc) (s : State) : Stepped :=
  .next <| s.within l .ep fun t =>
    match t.stripAt with
    | none => t
    | some i =>
      if !t.runnable || !t.cur.flights.isEmpty then t
      else match t.migrationTrap, decodeTrap i t with
        | some _, some x => takeTrap t t.pc x
        | some u, none => u
        | none, _ => t

/-- Whether the EP stands at a `vstrip` at which a migration request is due, which comes before a flag fall and an adjournment by the
scheduler (R415). -/
def State.requestFirst (s : State) : Bool :=
  s.stream == .ep && s.stripAt.isSome && s.migrationTrap.isSome

/-- A context, or the context of a record, that waits for tenure on a core, a free slot apart (R311). -/
def State.waiter (s : State) (c : CoreId) : Tenant → Option Vlc
  | .vlc l => (s.onCore c).find? (·.loc == l)
  | .record id => (s.saved.find? fun r => r.id == id && s.roomFor r c).map (·.vlc)

/-- The core adjourns a tenured context: the lowest in priority, and of two such the one whose tenure began later, for one of higher
priority that waits for tenure; or one in a long wait while another waits for tenure (R311; log 7). -/
def execSchedulerAdjourn (l : Loc) (s : State) : Stepped :=
  .next <| s.within l .ep fun t =>
    let c := t.coreId
    let all := t.onCore c
    let asking := t.core.tenureQueue.filterMap (t.waiter c)
    let mine := t.prioOf t.cur
    let since (v : Vlc) : Nat := t.core.holders.idxOf v.loc
    let lowest := (all.filter (·.tenure)).all fun v =>
      decide (mine < t.prioOf v) || (t.prioOf v == mine && decide (since v ≤ since t.cur))
    let byPrio := lowest && asking.any fun v => decide (mine < t.prioOf v)
    if t.cur.tenure && t.mayAdjourn && !t.requestFirst && (byPrio || (t.cur.longWait && !asking.isEmpty)) then t.adjournCur none else t

/-- Tenure goes to the waiting context that comes first; a record takes it when it resumes (R310, R311). -/
def execVectorTenureGrant (c : CoreId) (s : State) : Stepped :=
  .next <|
    match s.firstAsker c s.cores[c.index].tenureQueue with
    | some (.vlc l) =>
      if decide (s.tenured c < tenureLimit c) then
        s.within l .ep fun t =>
          t.takeTenure.setStr { t.str with wait := if t.str.wait == some .tenure then none else t.str.wait }
      else s
    | _ => s

/-- The array takes the tile state of a context whose T-mode instruction waits (R312). -/
def execTileStateExchange (l : Loc) (s : State) : Stepped :=
  .next <| s.within l .ep fun t =>
    if t.ncore || t.core.tileOwner == some l || t.str.wait != some .unit || !t.cur.ctl.tm then t
    else (t.modCore fun x => { x with tileOwner := some l }).setStr { t.str with wait := none }

/-- The vector sequencer decides (R316): the oldest request of the queue at the head of the highest priority executes its
`vstrip` or `vstripx`. -/
def execGrantDecision (c : CoreId) (s : State) : Stepped :=
  .next <|
    let arb := s.cores[c.index].arb
    match arb.head fun x => s.queues[x.index].prio.toNat with
    | none => s
    | some q =>
      match arb.waiting.find? (·.queue == q) with
      | none => s
      | some r => s.within r.loc .ep fun t =>
        if !t.runnable then t
        else
          let run (o : Host.Outcome State Fault Refusal) : State := match o with | .next u => u | _ => t
          match t.stripAt with
          | some (.vstrip d a sv) => run (execVstrip d a sv t)
          | some (.vstripx d a b sv) => run (execVstripx d a b sv t)
          | _ => t

/-! ## Ends of waits (R33, R105, R333) -/

/-- A stream that waits for a token is granted one where enough stand in its FIFO (R105), and acquires what the post released (R371). -/
def execTokenGrant (l : Loc) (st : Stream) (s : State) : Stepped :=
  .next <| s.within l st fun t =>
    match t.waits with
    | some (.token k) =>
      let ahead := (t.cur.korder[k].takeWhile (· != st)).length
      if t.cur.korder[k].contains st && decide (t.cur.k[k].toNat > ahead) then
        ((t.setStr { t.str with granted := true, wait := none }).forget).observe (t.cur.brings (32 + k.val) ahead)
      else t
    | _ => t

/-- Whether the wait of a stream on a queue is over: room for a push, an entry for a pop (R33). -/
def State.queueReady (s : State) (st : Stream) (q : Fin 32) : Bool :=
  let pops := if q.val < 8 then st == .ep else if q.val < 12 then st == .ap else if q.val == 12 then st == .ep
    else q.val == 17 || q.val == 19
  if pops then decide (s.qcount q > 0) else decide (s.qcount q < qdepth q)

def execQueueWaitEnd (l : Loc) (st : Stream) (s : State) : Stepped :=
  .next <| s.within l st fun t =>
    match t.waits with
    | some (.queue q) => if t.queueReady st (Fin.ofNat 32 q) then t.setStr { t.str with wait := none } else t
    | _ => t

/-- A write of ATP or ASID takes effect once every access of both streams stands at context scope, which a held write does not (R333,
R342). Only system level writes them (R18). -/
def execAtpAsidWrite (l : Loc) (asid : Bool) (val : Word) (s : State) : Stepped :=
  .next <| s.within l .ep fun t =>
    let n := if asid then 0x081 else 0x080
    if t.cur.ctl.sys && !t.tablesBusy n then cregWrite t n val else t

/-! ## Flag fall (R420 to R422) -/

/-- UNIT and PORT of an access to a global address (R422): the owner-cache change that it waits for (R338), the port of its route, or the
memory of this device that it goes to. -/
def State.portOf (s : State) (ga : Nat) : Nat × Nat :=
  let d := s.cur.loc.die
  let h := gaFrame ga
  if s.changing d h then (0, 8)
  else match (if s.firstStop d h == s.here then s.localOf ga else none) with
    | none => ((s.portFor (frameRoute h)).val, 4)
    | some l => match regionOf l with
      | .host => (0, 3)
      | .commons x => (0, if x == d then 0 else 2)
      | .dram x => (0, if x == d then 1 else 2)
      | .hole => (0, 1)

/-- The global address that a stream waits for at memory: that of its access, else one of a store on its way. -/
def State.stalledAt (s : State) (w : Wait) : Option Nat :=
  match w with
  | .load va | .store va => match (s.xlate .read va).1 with | .ok ga => some ga | .error _ => none
  | _ => match s.moves.find? fun m => m.held.any (Held.ofDie s.cur.loc.die) with
    | some m => some (m.frame * 2 ^ 16)
    | none => ((s.pend.find? fun e => e.loc == s.cur.loc).bind (·.bytes.head?)).map (·.ga)

/-- UNIT and PORT of a stalled instruction (R422); a wait that the table does not list leaves PORT open (log 4). -/
def State.stallPort (s : State) (w : Wait) : Nat × Nat :=
  let open_ := (0, (Config.freeVec s.fresh).toNat % 16)
  match w with
  | .token k => (k.val, 6)
  | .queue q => (q % 32, 5)
  | .grant | .tenure => (0, 7)
  | .load _ | .store _ | .stores => match s.stalledAt w with | some ga => s.portOf ga | none => open_
  | _ => open_

/-- INFO of a flag fall (R422): an instruction that stops with a progress index has the element or row at VSTART still to perform, any
other its first. -/
def State.stallInfo (s : State) (w : Wait) : BitVec 24 :=
  let (unit, port) := s.stallPort w
  BitVec.ofNat 24 (unit * 2 ^ 19 + port * 2 ^ 15 + (if s.longAt.elim false interruptible then s.vstart else 0))

/-- EVAL of a flag fall (R422): the address of the stalled element; that of a store on its way is open (log 4). -/
def State.stallEval (s : State) : Wait → Word
  | .load va | .store va => va
  | .stores => (Config.freeVec (s.fresh + 1)).setWidth 64
  | _ => 0

/-- The clock of a context runs out in a wait (R420 to R422): its stream takes cause 11 at the instruction that waits, of which a
`tbload` leaves no board (R266). The clock
runs between steps too, so that any wait may be long enough (log 7). -/
def execFlagFall (l : Loc) (st : Stream) (s : State) : Stepped :=
  .next <| s.within l st fun t =>
    match t.waits with
    | some w =>
      if t.runnable && t.cur.flights.isEmpty && !t.cur.ctl.sys && t.cur.clock != 0 && !t.requestFirst then
        takeTrap ((t.longAt.elim t t.dropBoard).bump.bump) t.pc ⟨causeFlagFall, t.stallEval w, t.stallInfo w⟩
      else t
    | none => t

end Sys2Proof.Machine
end

