-- ==== Sys2Proof/Machine/Tile.lean ====
section
/-! DEFINITION. Tile registers, accumulators, the matrix array and threshold boards (R243 to R270). -/

namespace Sys2Proof.Machine

/-! ## Byte stores read and written whole -/

/-- The first `n` bytes of a byte store. -/
def ByteStore.bytes (b : ByteStore) (n : Nat) : Array Byte :=
  b.cells.foldl (fun (a : Array Byte) c => a.setIfInBounds c.1 c.2) (.replicate n 0)

/-- Two lists of cells in rising order as one; the second's byte wins. Fuel is their length. -/
def mergeCells : Nat → List Host.Cell → List Host.Cell → List Host.Cell
  | 0, _, new => new
  | _, [], new => new
  | _, old, [] => old
  | n + 1, a :: old, b :: new =>
    if a.1 < b.1 then a :: mergeCells n old (b :: new)
    else if a.1 = b.1 then b :: mergeCells n old new
    else b :: mergeCells n (a :: old) new

/-- Bytes written at rising offsets, keeping the canonical form. -/
def ByteStore.writeAll (b : ByteStore) (ups : List Host.Cell) : ByteStore :=
  ⟨(mergeCells (b.cells.length + ups.length) b.cells ups).filter fun c => c.2 != 0⟩

/-- Bytes at rising offsets from one. -/
def cellsFrom (off : Nat) (bs : List Byte) : List Host.Cell := bs.zipIdx.map fun x => (off + x.2, x.1)

/-- Fields of one width packed from bit 0 (R58), in whole bytes. -/
def packBytes (w : Nat) (vals : List Nat) : List Byte :=
  leBytes ((vals.length * w + 7) / 8) (vals.foldr (fun v acc => acc * 2 ^ w + v % 2 ^ w) 0)

/-! ## Tile registers (R245) -/

/-- Bytes of a row in the element store, and blocks of a row. -/
def TileCfg.rowBytes (c : TileCfg) : Nat := (c.cols * c.ty.sew + 7) / 8
def TileCfg.rowBlocks (c : TileCfg) : Nat := (c.cols + blockLen c.ty - 1) / blockLen c.ty
/-- Bytes of a tile as R30 counts them. -/
def TileCfg.bytes (c : TileCfg) : Nat := c.rows * c.cols * c.ty.sew / 8

def State.putTile (s : State) (k : Fin 16) (x : Tile) : State :=
  s.modTile fun r => { r with t := r.t.set k x, tPast := (x.elems, x.scales) :: r.tPast }

/-- A tile's contents for reading: each row's elements as one number, and its scales. -/
structure TileView where
  cfg : TileCfg
  rows : Array Nat
  scales : Array Byte

def State.viewTile (s : State) (k : Fin 16) : TileView :=
  let c := s.cfg k
  let t := s.tile k
  let bytes := t.elems.bytes (c.rows * c.rowBytes)
  ⟨c, ((List.range c.rows).map fun r =>
      leNat ((List.range c.rowBytes).map fun j => bytes.getD (r * c.rowBytes + j) 0)).toArray,
    if c.ty.isScaled then t.scales.bytes (c.rows * c.rowBlocks) else #[]⟩

def TileView.raw (v : TileView) (r c : Nat) : Nat := bitsAt (v.rows.getD r 0) (c * v.cfg.ty.sew) v.cfg.ty.sew
def TileView.scale (v : TileView) (r blk : Nat) : Nat := (v.scales.getD (r * v.cfg.rowBlocks + blk) 0).toNat
/-- `Tx(r, c)`, read exactly (R245). -/
def TileView.at (v : TileView) (r c : Nat) : FVal :=
  if v.cfg.ty.isScaled then readScaled v.cfg.ty (v.scale r (c / blockLen v.cfg.ty)) (v.raw r c) else readTy v.cfg.ty (v.raw r c)

/-- A row written: its elements, and its scales where the type is scaled. -/
structure RowData where
  row : Nat
  elems : List Nat
  scales : List Nat

def State.putRows (s : State) (k : Fin 16) (rows : List RowData) : State :=
  let c := s.cfg k
  let t := s.tile k
  s.putTile k { t with
    elems := t.elems.writeAll (rows.flatMap fun r => cellsFrom (r.row * c.rowBytes) (packBytes c.ty.sew r.elems))
    scales := if c.ty.isScaled then
        t.scales.writeAll (rows.flatMap fun r => cellsFrom (r.row * c.rowBlocks) (r.scales.map (BitVec.ofNat 8)))
      else t.scales }

/-- A row of error values (R47). -/
def errorRow (c : TileCfg) (v : TileView) (r : Nat) : RowData :=
  if c.ty.isScaled then ⟨r, (List.range c.cols).map (v.raw r), List.replicate c.rowBlocks 0xFF⟩
  else ⟨r, List.replicate c.cols (errorValue c.ty), []⟩

/-! ## Accumulators (R246) -/

/-- Bytes of an accumulator element. -/
def accBytes (dbl : Bool) : Nat := if dbl then 8 else 4

/-- An accumulator's slots for reading. -/
def State.viewAcc (s : State) (a : Fin 4) (dbl : Bool) : Nat → Nat → Nat :=
  let n := s.shapeN
  let w := accBytes dbl
  let bytes := s.cur.tile.acc[a].bytes (min (s.shapeM * n * w) 262144)
  fun m c => leNat ((List.range w).map fun j => bytes.getD ((m * n + c) * w + j) 0)

/-- Writes accumulator elements, in rising order of row and column. -/
def State.putAcc (s : State) (a : Fin 4) (dbl : Bool) (ups : List (Nat × Nat × Nat)) : State :=
  let n := s.shapeN
  let w := accBytes dbl
  let cells := ups.flatMap fun u => cellsFrom ((u.1 * n + u.2.1) * w) (leBytes w u.2.2)
  s.modTile fun r => { r with acc := r.acc.set a (r.acc[a].writeAll cells), accPast := r.acc[a].writeAll cells :: r.accPast }

/-! ## Shapes (R249, R250) -/

def roundUp (x n : Nat) : Nat := (x + n - 1) / n * n

/-- The grant of R250 for a request; 0 asks for the largest. -/
def grantShape (t : Ty) (m n k : Nat) : BitVec 28 :=
  let kg := kcOf (matClass t)
  let a := if t == .f64 then 2 else 1
  let gm := if m == 0 then 256 else min (roundUp m 32) 256
  let gn0 := if n == 0 then 256 else min (roundUp n 32) 256
  let gn := ((List.range 8).map fun i => gn0 - 32 * i).find? (fun x => decide (gm * x * a ≤ 65536)) |>.getD 32
  let kcap := min (65536 * 8 / (max gm gn * t.sew)) 512 / kg * kg
  let gk := if k == 0 then kcap else min (roundUp k kg) kcap
  BitVec.ofNat 28 (gm + gn * 2 ^ 9 + gk * 2 ^ 18)

def State.setShape (s : State) (d : Fin 32) (g : BitVec 28) : State :=
  let s := s.modCtl fun c => { c with tvalid := true, tshape := g }
  s.gwrite d (0x8000000000000000 ||| g.setWidth 64)

def execTshape (c : Common) (ty : Ty) (d : Fin 32) (s : State) :=
  runPlain (.tshape c ty d) s fun t => .ok (t.setShape d (grantShape ty 0 0 0))
def execTshapex (c : Common) (ty : Ty) (d a : Fin 32) (s : State) :=
  runPlain (.tshapex c ty d a) s fun t =>
    let x := (t.gread a).toNat
    .ok (t.setShape d (grantShape ty (bitsAt x 0 9) (bitsAt x 9 9) (bitsAt x 18 10)))

/-! ## Tile loads and stores (R251 to R253) -/

/-- Rows from VSTART, or up to where the instruction is interrupted (R418). -/
def State.rowsFrom (s : State) (n : Nat) : List Nat := (List.range n).filter fun r => decide (s.vstart ≤ r) && s.below r

/-- What a row of memory brought: its pieces, and which of them came poisoned or not at all. -/
structure RowGot where
  row : Nat
  got : List (Nat × Got)

/-- Rows in order until one faults: each row is translated whole, then read piece by piece. -/
def loadRows (base : Nat → Word) (bytes pieces : Nat) (piece : Word → Nat → Piece) :
    List Nat → State → List RowGot × Option (Nat × Flt) × State
  | [], s => ([], none, s)
  | r :: rest, s =>
    match s.xlateRow .read (base r) bytes with
    | (.error f, s) => ([], some (r, f), s)
    | (.ok _, s) =>
      let (got, _, s) := loadElems (piece (base r)) (List.range pieces) s
      let (out, flt, s) := loadRows base bytes pieces piece rest s
      (⟨r, got⟩ :: out, flt, s)

/-- The end of a load by rows: `put` writes the rows that came, and `per` says how many elements piece j brings. Poison in the rows below
one that faults counts as elsewhere, and its flag is not recorded, for the instruction traps (R28, R438). -/
def rowLoadEff (rows : List RowGot) (flt : Option (Nat × Flt)) (per : Nat → Nat) (put : State → List RowGot → State) (t : State) : Eff :=
  let u := put t rows
  let psn := rows.flatMap fun r => (poisonedOf r.got).flatMap fun j => List.replicate (per j) r.row
  match flt with
  | some (f, e) => .trap ((u.notePoison psn).setVstart f) (e.trap .read)
  | none => .done u (rows.flatMap fun r => (badOf r.got).map fun _ => (r.row, flPSN)) psn none

/-- One access of a store by rows: `n` bytes at an address, of which the low `w` bits of a value are written. -/
structure CellStore where
  va : Word
  n : Nat
  w : Nat
  x : Nat

def State.storeCell (s : State) (k : CellStore) : State :=
  if k.w == 8 * k.n then (s.store false k.va (leBytes k.n k.x)).2
  else match s.xlateN .write k.va k.n with
    | (.error _, s) => s
    | (.ok gas, s) => gas.zipIdx.foldl (fun (s : State) g =>
        s.storeEntry false [⟨g.1, BitVec.ofNat 8 (k.x >>> (8 * g.2)), BitVec.ofNat 8 ((2 ^ k.w - 1) >>> (8 * g.2))⟩]) s

/-- The accesses of a row in order of column. With ORD = 1 one whose predecessor is held at a frozen frame marks the instruction as one
that waits, with nothing stored (R253, R363). -/
def storeCells (c : Common) : List CellStore → State → State
  | [], s => s
  | k :: rest, s =>
    let s := s.settleOrd c false
    if s.mustSettle c false then s.markHeld (.store k.va) else storeCells c rest (s.storeCell k)

/-- Stores rows in order until one faults. -/
def storeRows (c : Common) (base : Nat → Word) (bytes : Nat) (cells : Nat → List CellStore) :
    List Nat → State → Option (Nat × Flt) × State
  | [], s => (none, s)
  | r :: rest, s =>
    match s.xlateRow .write (base r) bytes with
    | (.error f, s) => (some (r, f), s)
    | (.ok _, s) => storeRows c base bytes cells rest (storeCells c (cells r) s)

def rowStoreEff (c : Common) (x : Option (Nat × Flt) × State) : Eff :=
  match x with
  | (some (f, e), t) => .trap (t.setVstart f) (e.trap .write)
  | (none, t) => .ok (t.outToPost c)

/-- The elements of a row at consecutive addresses, `b` bytes each. -/
def cellsOf (va : Word) (b : Nat) (vals : List Nat) : List CellStore :=
  vals.zipIdx.map fun x => ⟨va + BitVec.ofNat 64 (x.2 * b), b, 8 * b, x.1⟩

/-- The bytes of a packed row of `bits` bits: one masked write each (R179). -/
def bytesOf (va : Word) (bits x : Nat) : List CellStore :=
  (List.range ((bits + 7) / 8)).map fun j => ⟨va + BitVec.ofNat 64 j, 1, min 8 (bits - 8 * j), bitsAt x (8 * j) 8⟩

/-- The address of row r (R251). -/
def rowBase (a b : Fin 32) (t : State) (r : Nat) : Word := t.gread a + BitVec.ofNat 64 r * t.gread b

/-- Whether a scaled tile's base and pitch are out of step (R252). -/
def rowMisaligned (c : TileCfg) (a b : Fin 32) (t : State) : Bool :=
  c.ty.isScaled && decide (t.vstart < c.rows) && ((t.gread a).toNat % 32 != 0 || (t.gread b).toNat % 32 != 0)

def execTld (c : Common) (d : Fin 16) (a b : Fin 32) (s : State) :=
  runPlain (.tld c d a b) s fun t =>
    let k := t.cfg d
    let w := k.ty.sew
    let base := rowBase a b t
    if rowMisaligned k a b t then .trap t ⟨causeMisaligned, t.gread a, 0⟩
    else if k.ty.isScaled then
      let bl := blockLen k.ty
      let (rows, flt, t) := loadRows base (32 * k.rowBlocks) k.rowBlocks (fun va j => ⟨va + BitVec.ofNat 64 (32 * j), 32, 0, 256⟩)
        (t.rowsFrom k.rows) t
      rowLoadEff rows flt (fun j => min bl (k.cols - j * bl)) (fun u rs => u.putRows d (rs.map fun r =>
        let blk (j : Nat) : Nat := (r.got.find? (·.1 == j)).elim 0 fun g => leNat g.2.bytes
        let bad := badOf r.got
        ⟨r.row, (List.range k.cols).map fun e => bitsAt (blk (e / bl)) (8 + e % bl * w) w,
          (List.range k.rowBlocks).map fun j => if bad.contains j then 0xFF else blk j % 256⟩)) t
    else
      let (rows, flt, t) := loadRows base k.rowBytes k.cols (fun va e => packedPiece va (e * w) w) (t.rowsFrom k.rows) t
      rowLoadEff rows flt (fun _ => 1) (fun u rs => u.putRows d (rs.map fun r =>
        ⟨r.row, r.got.map fun g => if g.2.bad then errorValue k.ty else (packedPiece (base r.row) (g.1 * w) w).value g.2.bytes, []⟩)) t

def execTst (c : Common) (d : Fin 16) (a b : Fin 32) (s : State) :=
  runPlain (.tst c d a b) s fun t =>
    let k := t.cfg d
    let w := k.ty.sew
    let base := rowBase a b t
    let v := t.viewTile d
    if rowMisaligned k a b t then .trap t ⟨causeMisaligned, t.gread a, 0⟩
    else if k.ty.isScaled then
      let bl := blockLen k.ty
      rowStoreEff c (storeRows c base (32 * k.rowBlocks) (fun r => cellsOf (base r) 32 ((List.range k.rowBlocks).map fun j =>
        let codes := (List.range bl).map fun e => if j * bl + e < k.cols then v.raw r (j * bl + e) else 0
        v.scale r j + codes.foldr (fun y acc => acc * 2 ^ w + y) 0 * 256)) (t.rowsFrom k.rows) t)
    else
      rowStoreEff c (storeRows c base k.rowBytes (fun r =>
        if w < 8 then bytesOf (base r) (k.cols * w) (v.rows.getD r 0)
        else cellsOf (base r) (w / 8) ((List.range k.cols).map (v.raw r))) (t.rowsFrom k.rows) t)

def execTlda (c : Common) (dbl : Bool) (d : Fin 4) (a b : Fin 32) (s : State) :=
  runPlain (.tlda c dbl d a b) s fun t =>
    if !t.shapeFits dbl then badHandle (.tlda c dbl d a b) t
    else
      let w := accBytes dbl
      let n := t.shapeN
      let err := errorValue (if dbl then .f64 else .f32)
      let (rows, flt, t) := loadRows (rowBase a b t) (n * w) n (fun va e => ⟨va + BitVec.ofNat 64 (e * w), w, 0, 8 * w⟩)
        (t.rowsFrom t.shapeM) t
      rowLoadEff rows flt (fun _ => 1) (fun u rs => u.putAcc d dbl (rs.flatMap fun r => r.got.map fun g =>
        (r.row, g.1, if g.2.bad then err else leNat g.2.bytes))) t

def execTsta (c : Common) (dbl : Bool) (d : Fin 4) (a b : Fin 32) (s : State) :=
  runPlain (.tsta c dbl d a b) s fun t =>
    if !t.shapeFits dbl then badHandle (.tsta c dbl d a b) t
    else
      let w := accBytes dbl
      let base := rowBase a b t
      let v := t.viewAcc d dbl
      rowStoreEff c (storeRows c base (t.shapeN * w) (fun r => cellsOf (base r) w ((List.range t.shapeN).map (v r)))
        (t.rowsFrom t.shapeM) t)

/-! ## Matrix multiply (R254 to R263) -/

/-- One accumulator element (R255, R61): the products of its K positions in order, added to `v0`. `draw j` is rounding j's. -/
def mmElem (cls : Nat) (rm : Rm) (v0 : Nat) (kk : Nat) (product : Nat → Term) (draw : Nat → Nat) : Nat × Fl :=
  if cls ≥ 3 then
    let ty : Ty := if cls == 4 then .f64 else .f32
    (List.range kk).foldl (fun (acc : Nat × Fl) k =>
      let (r, f) := ((Term.of (readTy ty acc.1)).add (product k)).round ty rm (draw k)
      (r, acc.2 ||| f)) (v0, 0)
  else
    let kc := kcOf cls
    (List.range ((kk + kc - 1) / kc)).foldl (fun (acc : Nat × Fl) st =>
      let p := (List.range (min kc (kk - st * kc))).foldl (fun (x : Term) j => x.add (product (st * kc + j))) .empty
      let (pr, f) := p.round .f32 rm (draw (2 * st))
      let (x, f1) := fAdd rm (readTy .f32 acc.1) (readTy .f32 pr)
      let (r, f2) := writeFloat .f32 rm false x (draw (2 * st + 1))
      (r, acc.2 ||| f ||| f1 ||| f2)) (v0, 0)

/-- Roundings of an element (R263). -/
def mmDraws (cls kk : Nat) : Nat := if cls ≥ 3 then kk else 2 * ((kk + kcOf cls - 1) / kcOf cls)

/-- One row of a product: its number, its columns, where its draws begin, the products of element n, and flags of its own. -/
structure MmRow where
  row : Nat
  cols : Nat
  first : Nat
  product : Nat → Nat → Term
  own : Fl

/-- Rows of a product into an accumulator: the state and the flags by row. -/
def mmRows (c : Common) (z : Bool) (d : Fin 4) (cls kk : Nat) (draws : List Nat) (rows : List MmRow) (t : State) :
    State × Raised :=
  let dbl := cls == 4
  let old := if z then fun _ _ => 0 else t.viewAcc d dbl
  let ds := draws.toArray
  let out := rows.map fun r =>
    let es := (List.range r.cols).map fun n =>
      (n, mmElem cls c.rm (old r.row n) kk (r.product n) fun j => ds.getD (r.first + n * mmDraws cls kk + j) 0)
    (r.row, es, es.foldl (fun (f : Fl) e => f ||| e.2.2) r.own)
  (t.putAcc d dbl (out.flatMap fun r => r.2.1.map fun e => (r.1, e.1, e.2.1)), raises (out.map fun r => (r.1, r.2.2)))

/-- The check of the array on the rows that an instruction performs (R269): row m of the region receives error values. -/
def rowCheck (rows : List Nat) (spoil : Nat → State → State) : Check := ⟨rows, (· % 64), spoil, true⟩

def mmCheck (d : Fin 4) (cls : Nat) (rows : List MmRow) : Check :=
  rowCheck (rows.map (·.row)) fun m u =>
    u.putAcc d (cls == 4) ((List.range ((rows.find? (·.row == m)).elim 0 (·.cols))).map fun n =>
      (m, n, errorValue (if cls == 4 then .f64 else .f32)))

/-- A product with a plain region (R255, R257, R260): M', N', K', the products of row m, and the row's own flags. The draws are reserved
before the checks of R248 (`ok`), whose failure consumes them (R52). -/
def mmForm (i : Instr) (ok : Bool) (c : Common) (z : Bool) (d : Fin 4) (cls m n kk : Nat) (product : Nat → Nat → Nat → Term)
    (own : Nat → Fl) (t : State) : Eff :=
  let ne := mmDraws cls kk
  let (ds, t) := t.takeDraws (if c.rm == .rsr then m * n * ne else 0)
  if !(ok && t.shapeFits (cls == 4) && decide (m ≤ t.shapeM) && decide (n ≤ t.shapeN) && decide (kk ≤ t.shapeK)) then badHandle i t
  else
    let rows := (t.rowsFrom m).map fun r => (⟨r, n, r * n * ne, product r, own r⟩ : MmRow)
    let (u, fl) := mmRows c z d cls kk ds rows t
    .done u fl [] (some (mmCheck d cls rows))

def execTmma (c : Common) (z : Bool) (d : Fin 4) (a b : Fin 16) (s : State) :=
  runPlain (.tmma c z d a b) s fun t =>
    let ka := t.cfg a
    let kb := t.cfg b
    let va := t.viewTile a
    let vb := t.viewTile b
    mmForm (.tmma c z d a b) (sameClass ka.ty kb.ty && ka.cols == kb.cols) c z d (matClass ka.ty) ka.rows kb.rows ka.cols
        (fun m n k => (Term.of (va.at m k)).mul (.of (vb.at n k))) (fun _ => 0) t

def execTmmas (c : Common) (z : Bool) (d : Fin 4) (a b : Fin 16) (s : State) :=
  runPlain (.tmmas c z d a b) s fun t =>
    let ka := t.cfg a
    let kb := t.cfg b
    let va := t.viewTile a
    let vb := t.viewTile b
    mmForm (.tmmas c z d a b) (sameClass ka.ty kb.ty && kb.rows == 1 && decide (ka.cols ≤ kb.cols)) c z d (matClass ka.ty) ka.rows (kb.cols - ka.cols + 1) ka.cols
        (fun m n k => (Term.of (va.at m k)).mul (.of (vb.at 0 (n + k)))) (fun _ => 0) t

/-- The dense positions that a mask keeps, first κ set bits of each group of 128, with the kept value's column (R260). -/
def keptAt (v : TileView) (m kap groups : Nat) : List (Nat × Nat) × Bool :=
  (List.range groups).foldl (fun (acc : List (Nat × Nat) × Bool) q =>
    let set := (List.range 128).filter fun j => (v.raw m (16 * q + j / 8)).testBit (j % 8)
    (acc.1 ++ (set.take kap).zipIdx.map fun x => (128 * q + x.1, q * kap + x.2), acc.2 || set.length != kap)) ([], false)

def execTspmm (c : Common) (z : Bool) (den : Bool) (d : Fin 4) (a b e : Fin 16) (s : State) :=
  runPlain (.tspmm c z den d a b e) s fun t =>
    let ka := t.cfg a
    let kb := t.cfg b
    let ke := t.cfg e
    let kap := if den then 32 else 64
    let kk := kb.cols
    let ok := sameClass ka.ty kb.ty && decide (matClass ka.ty ≤ 2) && ke.ty == .n8 && kk % 128 == 0 && ka.cols == kk * kap / 128 &&
      ke.rows == ka.rows && ke.cols == kk / 8
    let va := t.viewTile a
    let vb := t.viewTile b
    let ve := t.viewTile e
    let kept := ((List.range ka.rows).map fun m => keptAt ve m kap (kk / 128)).toArray
    let col (m : Nat) : Array (Option Nat) := ((kept.getD m ([], false)).1).foldl
      (fun (acc : Array (Option Nat)) x => acc.setIfInBounds x.1 (some x.2)) (.replicate kk none)
    mmForm (.tspmm c z den d a b e) ok c z d (matClass ka.ty) ka.rows kb.rows kk
      (fun m => let at_ := col m; fun n k => match at_.getD k none with
        | some j => (Term.of (va.at m j)).mul (.of (vb.at n k))
        | none => .of .zero)
      (fun m => flIf (kept.getD m ([], false)).2 flNV) t

/-- The groups of R258: number, first row, size. -/
def groupRows (sizes : List Nat) : List (Nat × Nat × Nat) :=
  (sizes.zipIdx.foldl (fun (acc : List (Nat × Nat × Nat) × Nat) x => (acc.1 ++ [(x.2, acc.2, x.1)], acc.2 + x.1)) ([], 0)).1

/-- Tokens of a nonzero group (R259): its own and those of the empty groups attached to it. -/
def groupTokens (sizes : List Nat) (j : Nat) : Nat :=
  let later := ((sizes.drop (j + 1)).takeWhile (· == 0)).length
  let first := (sizes.take j).all (· == 0)
  1 + later + (if first then j else 0)

/-- Posts n tokens. -/
def State.postMany (s : State) (k : Fin 8) (n : Nat) : State := (List.range n).foldl (fun (s : State) _ => s.post k) s

/-- Posts of n tokens one by one while there is room: the state, with those still owed (R34, R259). -/
def State.postOwed (s : State) (c : Common) (n : Nat) : State :=
  match c.post with
  | none => s.modVlc fun v => { v with owedPosts := 0 }
  | some k =>
    let fit := min n (63 - s.cur.k[k].toNat)
    (s.postMany k fit).modVlc fun v => { v with owedPosts := n - fit }

/-- What the groups of a `tgmm` have come to: the state, the flags, the rows performed, and whether it goes no further: a post has to
wait, or it is interrupted. -/
structure GroupAcc where
  t : State
  fl : Raised
  rows : List MmRow
  stuck : Bool

/-- `tgmm` (R258, R259): the tokens still owed from the group before VSTART, then group by group its rows and its tokens. It waits, or is
interrupted, at the end of a nonzero group alone. -/
def execTgmm (c : Common) (z : Bool) (gc : Fin 8) (d : Fin 4) (a b : Fin 16) (e : Fin 32) (s : State) :=
  runInstr (.tgmm c z gc d a b e) s fun w _ t =>
    let g := gc.val + 1
    let ka := t.cfg a
    let cls := matClass ka.ty
    let vc := w.read t e 1
    let sizes := if t.groupsFit gc a b then (List.range g).map fun j => bitsAt vc (16 * j) 16 else []
    let total := sizes.foldl (· + ·) 0
    let kk := ka.cols
    let ok := t.groupsFit gc a b && decide (total ≤ ka.rows)
    let ne := mmDraws cls kk
    let groups := groupRows sizes
    let colsOf (j : Nat) : Nat := (t.cfg (tileAt b j)).rows
    let firsts := (groups.foldl (fun (acc : List Nat × Nat) x => (acc.1 ++ [acc.2], acc.2 + x.2.2 * colsOf x.1 * ne)) ([], 0))
    let (ds, t) := t.takeDraws (if c.rm == .rsr then firsts.2 else 0)
    if !ok then badHandle (.tgmm c z gc d a b e) t
    else
      let va := t.viewTile a
      let start := t.vstart
      let owed := t.cur.owedPosts
      let one (acc : GroupAcc) (x : Nat × Nat × Nat) : GroupAcc :=
        let (j, o, sz) := x
        if acc.stuck || sz == 0 || decide (o < start) then acc
        else if !acc.t.below o then { acc with stuck := true }
        else
          let vb := acc.t.viewTile (tileAt b j)
          let n := colsOf j
          let rows := (List.range sz).map fun r => (⟨o + r, n, firsts.1.getD j 0 + r * n * ne,
            fun col k => (Term.of (va.at (o + r) k)).mul (.of (vb.at col k)), 0⟩ : MmRow)
          let (u, fl) := mmRows c z d cls kk ds rows acc.t
          let u := (u.setVstart (o + sz)).postOwed c (groupTokens sizes j)
          ⟨u, acc.fl ++ fl, acc.rows ++ rows, u.cur.owedPosts != 0⟩
      let t := t.postOwed c owed
      let r := groups.foldl one ⟨t, [], [], t.cur.owedPosts != 0⟩
      let u := if total == 0 && owed == 0 then r.t.postOwed c g else r.t
      let chk := if r.rows.isEmpty then none else some (mmCheck d cls r.rows)
      if u.cur.owedPosts != 0 then .part u (some (.token (c.post.getD 0))) r.fl [] chk
      else if r.stuck then .part u none r.fl [] chk
      else .done u r.fl [] chk

/-- One row of `tcvt` (R261): elements under the default forms, or blocks quantised with every element active. -/
def cvtRow (k : TileCfg) (rm : Rm) (row : Nat) (src : Nat → Nat) (draw : Nat → Nat) : RowData × Fl :=
  let ts : Ty := if k.ty == .f64 then .f64 else .f32
  let es := List.range k.cols
  if k.ty.isScaled then
    let bl := blockLen k.ty
    let blocks := (List.range k.rowBlocks).map fun j =>
      quantBlock k.ty rm true 0 ((es.filter fun e => e / bl == j).map fun e => (⟨readTy ts (src e), true, 0, draw e⟩ : Cand))
    (⟨row, blocks.flatMap (·.2.1), blocks.map (·.1)⟩,
      blocks.foldl (fun (f : Fl) b => b.2.2.foldl (· ||| ·) f) 0)
  else
    let rs := es.map fun e => convert k.ty ts rm false (src e) (draw e)
    (⟨row, rs.map (·.1), []⟩, rs.foldl (fun (f : Fl) r => f ||| r.2) 0)

def execTcvt (c : Common) (d : Fin 16) (a : Fin 4) (s : State) :=
  runPlain (.tcvt c d a) s fun t =>
    let k := t.cfg d
    let dbl := k.ty == .f64
    let (ds, t) := t.takeDraws (if c.rm == .rsr then k.rows * k.cols else 0)
    if !(t.shapeFits dbl && decide (k.rows ≤ t.shapeM) && decide (k.cols ≤ t.shapeN)) then badHandle (.tcvt c d a) t
    else
      let draws := ds.toArray
      let v := t.viewAcc a dbl
      let rows := (t.rowsFrom k.rows).map fun r => (r, cvtRow k c.rm r (v r) fun e => draws.getD (r * k.cols + e) 0)
      .done (t.putRows d (rows.map fun r => r.2.1)) (raises (rows.map fun r => (r.1, r.2.2))) []
        (some (rowCheck (rows.map (·.1)) fun m u => u.putRows d [errorRow k (u.viewTile d) m]))

/-! ## Threshold boards (R264 to R270) -/

def execTbload (c : Common) (bt : Bool) (a : Fin 16) (s : State) :=
  runPlain (.tbload c bt a) s fun t =>
    let none_ := t.modTile fun r => { r with board := none }
    let part (k : Nat) : Fin 16 := tileAt a k
    if !((List.range 3).all fun k => (t.cfg (part k)).bytes == 65536) then badHandle (.tbload c bt a) none_
    else .ok (t.modTile fun r => { r with board := some ⟨bt, (t.tile (part 0)).elems, (t.tile (part 1)).elems, (t.tile (part 2)).elems⟩ })

/-- A cell of a board (R264). -/
structure BoardCell where
  mask : Nat
  feat : Nat
  thresh : Nat
  missRight : Bool

/-- The cells of a board, row by row. -/
def Board.cells (b : Board) : Array BoardCell :=
  let part (p : ByteStore) : List BoardCell :=
    let bytes := p.bytes 65536
    (List.range 4096).map fun k =>
      let x := leNat ((List.range 16).map fun j => bytes.getD (16 * k + j) 0)
      ⟨bitsAt x 0 96, bitsAt x 96 8, bitsAt x 104 16, x.testBit 120⟩
  (part b.part0 ++ part b.part1 ++ part b.part2).toArray

/-- Whether a cell sends a feature value, or a missing one, right (R267). -/
def BoardCell.goesRight (c : BoardCell) (s16 : Bool) (x : Option Nat) : Bool :=
  let ty : Ty := if s16 then .s16 else .bf16
  match x with
  | none => c.missRight
  | some v =>
    if (if s16 then v == 0x8000 else (readTy .bf16 v).isNan) then c.missRight
    else if s16 then !decide (intOf ty v < intOf ty c.thresh)
    else
      let th := readTy .bf16 c.thresh
      th.isNan || fCmp (readTy .bf16 v) th != .lt

/-- The leaf of a sample in tree n: the lowest live one, 255 where none is. -/
def leafOf (cells : Array BoardCell) (s16 : Bool) (feature : Nat → Option Nat) (n : Nat) : Nat :=
  let live := (List.range 96).foldl (fun (live : Nat) r =>
    match cells[128 * r + n]? with
    | some c => if c.goesRight s16 (feature c.feat) then live &&& c.mask else live
    | none => live) (2 ^ 96 - 1)
  ((List.range 96).find? live.testBit).getD 255

/-- `tbeval` (R267). Its check begins with the sample that the generator has it evaluate twice, and goes on with every sample whose cells'
codes are checked (R270): the error says which of them fails. -/
def execTbeval (c : Common) (d a : Fin 16) (s : State) :=
  runPlain (.tbeval c d a) s fun t =>
    let ka := t.cfg a
    let kd := t.cfg d
    match t.cur.tile.board with
    | none => badHandle (.tbeval c d a) t
    | some b =>
      if !(ka.ty == (if b.s16 then .s16 else .bf16) && decide (ka.rows ≤ 128) && kd.ty == .n8 && kd.rows == ka.rows &&
          kd.cols == 128) then badHandle (.tbeval c d a) t
      else
        let v := t.viewTile a
        let cells := b.cells
        let rows := t.rowsFrom ka.rows
        let out := rows.map fun r =>
          let feature (f : Nat) : Option Nat := if f < ka.cols then some (v.raw r f) else none
          (⟨r, (List.range 128).map (leafOf cells b.s16 feature), []⟩ : RowData)
        let seed := srNext t.core.spotseed
        let twice := (rows[srOut seed * (128 * rows.length) / 2 ^ 24 / 128]?).toList
        let u := (t.putRows d out).modCore fun x => { x with spotseed := if rows.isEmpty then x.spotseed else seed }
        .done u [] [] (some (rowCheck (twice ++ rows) fun m w => w.putRows d [errorRow kd (w.viewTile d) m]))

def execTleaf (c : Common) (z : Bool) (col : BitVec 8) (d : Fin 4) (a b : Fin 16) (s : State) :=
  runPlain (.tleaf c z col d a b) s fun t =>
    let ka := t.cfg a
    let kb := t.cfg b
    let (ds, t) := t.takeDraws (if c.rm == .rsr then ka.rows * 128 else 0)
    if !(t.cur.ctl.tvalid && ka.ty == .n8 && (kb.ty == .f32 || kb.ty == .f16 || kb.ty == .bf16) && ka.cols == 128 &&
        decide (ka.rows ≤ t.shapeM) && decide (col.toNat < t.shapeN) && kb.rows == 128 && kb.cols == 96) then
      badHandle (.tleaf c z col d a b) t
    else
      let draws := ds.toArray
      let va := t.viewTile a
      let vb := t.viewTile b
      let acc := t.viewAcc d false
      let rows := t.rowsFrom ka.rows
      let out := rows.map fun r =>
        (r, (List.range 128).foldl (fun (x : Nat × Fl) n =>
          let l := va.raw r n
          let (w, f0) : FVal × Fl := if l < 96 then (vb.at n l, 0) else (.nan false, flNV)
          let (e, f1) := fAdd c.rm (readTy .f32 x.1) w
          let (y, f2) := writeFloat .f32 c.rm false e (draws.getD (r * 128 + n) 0)
          (y, x.2 ||| f0 ||| f1 ||| f2)) ((if z then 0 else acc r col.toNat), (0 : Fl)))
      .done (t.putAcc d false (out.map fun r => (r.1, col.toNat, r.2.1))) (raises (out.map fun r => (r.1, r.2.2))) []
        (some (rowCheck rows fun m w => w.putAcc d false [(m, col.toNat, errorValue .f32)]))

end Sys2Proof.Machine
end

