-- ==== Sys2Proof/Machine/Engine.lean ====
section
/-! DEFINITION. The copy engine, the stream-load unit and the collective engine, and the stream engine's prefetch (R201, R285 to
R290, R402, R411, R461). -/

namespace Sys2Proof.Machine

/-! ## Commands -/

/-- Replaces the first command equal to `c`, or removes it. -/
def replaceCommand : List Command → Command → Option Command → List Command
  | [], _, _ => []
  | x :: xs, c, n => if x == c then (match n with | some y => y :: xs | none => xs) else x :: replaceCommand xs c n

/-- A context that has trapped without a handler ends when the last of its tile fills has landed (R417). -/
def State.reap (s : State) (l : Loc) : State :=
  s.within l .ep fun t =>
    let landing (c : Command) : Bool := c.vlc == l && c.saved.isNone && c.queue == 16 && c.record.tdst && c.owed.isEmpty
    if t.cur.live && t.cur.ep.run == .ended && !t.commands.any landing then t.killVector.endContext false else t

/-- A command becomes another; one that owes nothing more is gone. -/
def State.finishCommand (s : State) (c : Command) (owed : List Owed) : State :=
  let rest : Option Command := if owed.isEmpty then none else some { c with started := true, owed := owed }
  let s := { s with commands := replaceCommand s.commands c rest }
  if c.saved.isNone then s.reap c.vlc else s

/-- The next command that an engine takes from a queue: they start in push order (R284). -/
def State.nextCommand (s : State) (l : Loc) (q : Fin 32) : Option Command :=
  s.commands.find? fun c => c.vlc == l && c.queue == q && !c.started

/-- OPC, and the fields of FLG (R285). -/
def Record.opc (r : Record) : Nat := r.field 0 1
def Record.cpl (r : Record) : Bool := r.getLsbD 8
def Record.tok (r : Record) : Bool := r.getLsbD 9
def Record.tk (r : Record) : Fin 8 := Fin.ofNat 8 (bitsAt (r.field 1 1) 2 3)

/-- Whether every byte that a command does not define is zero, FLG[7:6] among them (R285). -/
def Record.zeroOutside (r : Record) (defined : List (Nat × Nat)) : Bool :=
  bitsAt (r.field 1 1) 6 2 == 0 && r.field 2 2 == 0 &&
  (List.range 56).all fun k => (defined.any fun d => decide (d.1 ≤ k + 8 ∧ k + 8 < d.1 + d.2)) || r.field (k + 8) 1 == 0

/-- A completion record (R288). -/
def completion (r : Record) (status done : Nat) (faddr : Word) : Record :=
  recordOf (leBytes 1 r.opc ++ leBytes 1 status ++ leBytes 2 0 ++ leBytes 4 (r.field 4 4) ++ leBytes 8 done ++ leBytes 8 faddr.toNat
    ++ leBytes 40 0)

/-- What a command owes at its end: its tokens, then its completion record where one is due (R287, R288, R411). -/
def owes (r : Record) (tokens status done : Nat) (faddr : Word) : List Owed :=
  (if r.tok then List.replicate tokens (.token r.tk) else []) ++
  (if r.cpl || status != 0 then [.record (completion r status done faddr)] else [])

/-- STATUS of a fault (R288). -/
def faultStatus (f : Flt) : Nat := if f.access then 2 else 1

/-- A translation under what was in force at the push (R286, R330). -/
def State.cmdXlate (s : State) (c : Command) (acc : Acc) (va : Word) (n : Nat) : Except Flt (List Nat) × State :=
  xlateBytes (fun s va => s.translate c.vlc c.atp c.asid c.sys acc va) n va none s

/-- Reads bytes from the path of an engine (R358). -/
def State.engineRead (s : State) (l : Loc) (level : Nat) (gas : List Nat) : ReadRes × State :=
  if gas.isEmpty then (⟨[], false, false, false⟩, s) else s.readBytes ⟨l, none, level⟩ gas

/-- Stores bytes into an engine's level, one entry for each line (R288, R358). `bad` lists the lines that land poisoned. -/
def State.engineWrite (s : State) (l : Loc) (level : Nat) (bs : List MByte) (bad : List Nat) : State :=
  (linesOf bs).foldl (fun (s : State) x =>
    ({ s with pend := s.pend ++ [{ s.newEntry level (bs.filter fun b => gaLine b.ga == x) with
      loc := l, stream := .ep, poison := bad.contains x, pc := 0, after := [] }] } : State).bump) s

/-- The stores of a context's engines that are on their way (R288, R370). -/
def State.engineStores (s : State) (l : Loc) : List Nat :=
  ((s.pend ++ s.heldEntries).filter fun e => e.loc == l && e.pc == 0).map (·.id)

/-! ## The copy engine (R286 to R288) -/

/-- Whether a fault is none, but a translation that has to be held (R342). -/
def heldFlt (f : Option Flt) : Bool := f.elim false (·.held)

/-- Bytes translated one by one until one faults: their addresses, and the fault. -/
def xlatePrefix (x : Xlate) : Nat → Word → State → List Nat × Option Flt × State
  | 0, _, s => ([], none, s)
  | n + 1, va, s =>
    match x s va with
    | (.error f, s) => ([], some f, s)
    | (.ok ga, s) =>
      let (rest, f, s) := xlatePrefix x n (va + 1) s
      (ga :: rest, f, s)

def State.cmdPrefix (s : State) (c : Command) (acc : Acc) (va : Word) (n : Nat) : List Nat × Option Flt × State :=
  xlatePrefix (fun s va => s.translate c.vlc c.atp c.asid c.sys acc va) n va s

/-- Lines of the destination that receive a byte of a poisoned line, or one that nobody answered for. -/
def State.badLines (s : State) (p : Path) (src dst : List Nat) : List Nat :=
  (((src.zip dst).filter fun x => s.poisonOn p x.1 || !s.reachable p.loc.die x.1).map fun x => gaLine x.2).eraseDups

/-- COPY (R286): DONE counts bytes; a byte at or above the first failure may have landed (log 23). While a read of it has to be held
(R342) the command waits. -/
def State.runCopy (s : State) (c : Command) : State :=
  let s0 := s
  let r := c.record
  let n := r.field 32 4
  let src := BitVec.ofNat 64 (r.field 8 8)
  let dst := BitVec.ofNat 64 (r.field 16 8)
  if r.opc != 1 || r.tdst || !r.zeroOutside [(8, 16), (32, 4)] then s.finishCommand c (owes r 0 3 0 0)
  else
    let (gs, fs, s) := s.cmdPrefix c .read src n
    let (gd, fd, s) := s.cmdPrefix c .write dst n
    let done := min gs.length gd.length
    let (got, s) := s.engineRead c.vlc 2 gs
    if got.held || heldFlt fs || heldFlt fd then s0
    else
    let bad := s.badLines ⟨c.vlc, none, 2⟩ (gs.take done) (gd.take done)
    let s := (s.engineWrite c.vlc 2 (mbytes (gd.take done) got.bytes) bad).bump
    match (if gs.length ≤ gd.length then fs else fd), done == n with
    | some f, false => s.finishCommand c (owes r 0 (faultStatus f) done f.va)
    | _, _ => s.finishCommand c (owes r 1 (if bad.isEmpty then 0 else 5) n 0)

/-- One row of a GATHER: where it comes from and goes to, and whether its index came poisoned or not at all, which is then 0, the error
value of its type (R47), and makes the row a poisoned one (R288; log 33). -/
structure GatherRow where
  row : Nat
  bad : Bool
  src : List Nat
  dst : List Nat

/-- The row's own addresses (R286): the index, the source and, for memory, the destination. -/
def State.gatherRow (s : State) (c : Command) (mem : Bool) (j : Nat) : Except Flt GatherRow × State :=
  let r := c.record
  let ixt : Ty := match r.field 50 1 with | 1 => .n16 | 2 => .s32 | 3 => .n64 | _ => .n32
  let w := ixt.sew / 8
  let rowb := r.field 36 4
  match s.cmdXlate c .read (BitVec.ofNat 64 (r.field 24 8 + j * w)) w with
  | (.error f, s) => (.error f, s)
  | (.ok gi, s) =>
    let (got, s) := s.engineRead c.vlc 2 gi
    let lost := got.absent || got.poison
    let ix := intOf ixt (if lost then 0 else leNat got.bytes)
    if got.held then (.error ⟨false, false, 0, 0, true⟩, s)
    else
    let pitch : Int := (BitVec.ofNat 64 (r.field 40 8)).toInt
    match s.cmdXlate c .read (BitVec.ofInt 64 ((r.field 8 8 : Int) + ix * pitch)) rowb with
    | (.error f, s) => (.error f, s)
    | (.ok gs, s) =>
      if !mem then (.ok ⟨j, lost, gs, []⟩, s)
      else match s.cmdXlate c .write (BitVec.ofNat 64 (r.field 16 8 + j * rowb)) rowb with
        | (.error f, s) => (.error f, s)
        | (.ok gd, s) => (.ok ⟨j, lost, gs, gd⟩, s)

/-- The tile register and row that row j of a fill goes to, from register t0 (R286). -/
def fillPlace (cfgs : Fin 16 → Option TileCfg) : Nat → Nat → Nat → Option (Fin 16 × Nat)
  | 0, _, _ => none
  | fuel + 1, t, j =>
    if t ≥ 16 then none
    else match cfgs (Fin.ofNat 16 t) with
      | none => none
      | some k => if j < k.rows then some (Fin.ofNat 16 t, j) else fillPlace cfgs fuel (t + 1) (j - k.rows)

/-- Bytes of one row image of a tile register (R252). -/
def TileCfg.image (k : TileCfg) : Nat := if k.ty.isScaled then 32 * k.rowBlocks else k.rowBytes

/-- A row of a tile register from its memory image (R252); `bad` gives the error values of R288. -/
def rowOf (k : TileCfg) (row : Nat) (bs : List Byte) (bad : Bool) : RowData :=
  let x := leNat bs
  let w := k.ty.sew
  if k.ty.isScaled then
    let bl := blockLen k.ty
    ⟨row, (List.range k.cols).map fun e => bitsAt x (256 * (e / bl) + 8 + e % bl * w) w,
      (List.range k.rowBlocks).map fun b => if bad then 0xFF else bitsAt x (256 * b) 8⟩
  else ⟨row, (List.range k.cols).map fun e => if bad then errorValue k.ty else bitsAt x (e * w) w, []⟩

/-- Lands one row, in memory or in the tile register of its context; the answer is whether it was poisoned, and whether its read has
to be held. -/
def State.landRow (s : State) (c : Command) (place : Option (Fin 16 × Nat)) (g : GatherRow) : Bool × Bool × State :=
  let (got, s) := s.engineRead c.vlc 2 g.src
  let bad := g.bad || got.poison || got.absent
  match place with
  | none => (bad, got.held, s.engineWrite c.vlc 2 (mbytes g.dst got.bytes) (if bad then linesOf (mbytes g.dst got.bytes) else []))
  | some (k, row) => (bad, got.held, s.within c.vlc s.stream fun t =>
      match (t.tile k).cfg with
      | some cfg => t.putRows k [rowOf cfg row got.bytes bad]
      | none => t)

/-- How far the rows of a GATHER have come: the first failure, whether a row came poisoned, and whether a read has to be held. -/
structure Gathered where
  fail : Option (Nat × Flt)
  bad : Bool
  held : Bool

/-- The rows in order: those below the first failure land, and a later one that could land may have (R288; log 23). -/
def State.gatherRows (s : State) (c : Command) (place : Nat → Option (Fin 16 × Nat)) (mem : Bool) (n : Nat) : Gathered × State :=
  let free := s.fresh
  (List.range n).foldl (fun (acc : Gathered × State) j =>
    let (r, s) := acc
    match s.gatherRow c mem j with
    | (.error f, s) => ({ r with fail := if r.fail.isNone then some (j, f) else r.fail, held := r.held || f.held }, s)
    | (.ok g, s) =>
      if r.fail.isNone || Config.freeLanded free j then
        let (b, h, s) := s.landRow c (place j) g
        ({ r with bad := r.bad || (b && r.fail.isNone), held := r.held || h }, s)
      else (r, s)) (⟨none, false, false⟩, s.bump)

/-- GATHER (R286 to R288). While a read of it has to be held (R342) the command waits. -/
def State.runGather (s : State) (c : Command) : State :=
  let s0 := s
  let r := c.record
  let n := r.field 32 4
  let mem := !r.tdst
  let trows := r.field 48 2
  let t0 := bitsAt (r.field 16 8) 0 4
  let cfgs : Fin 16 → Option TileCfg := match (s.cur :: s.parked).find? fun v => v.live && v.loc == c.vlc with
    | some v => fun k => v.tile.t[k].cfg
    | none => fun _ => none
  let place (j : Nat) : Option (Fin 16 × Nat) := if mem then none else fillPlace cfgs 17 t0 j
  if !r.zeroOutside [(8, 43)] || r.field 50 1 > 3 || (!mem && r.field 16 8 > 15) then s.finishCommand c (owes r 0 3 0 0)
  else if !mem && (List.range n).any fun j => match place j with
      | some (k, _) => ((cfgs k).map TileCfg.image).getD 0 != r.field 36 4
      | none => true then s.finishCommand c (owes r 0 4 0 0)
  else
    let (got, s) := s.gatherRows c place mem n
    let done := got.fail.elim n (·.1)
    let whole := done == n
    let units (m : Nat) : Nat :=
      if mem then
        if trows == 0 then (if whole then 1 else 0)
        else if whole then (m + trows - 1) / trows else m / trows
      else
        let full := (List.range m).filter fun j => match place j with
          | some (k, row) => (cfgs k).elim false fun x => row + 1 == x.rows
          | none => false
        full.length + (if whole && m != 0 && !full.contains (m - 1) then 1 else 0)
    if got.held then s0
    else match got.fail with
    | some (_, f) => s.finishCommand c (owes r (units done) (faultStatus f) done f.va)
    | none => s.finishCommand c (owes r (units n) (if got.bad then 5 else 0) n 0)

/-- The copy engine takes a COPY, or a record that is no command of its (R285, R286). -/
def execCopy (l : Loc) (s : State) : Stepped :=
  .next <| match s.nextCommand l 16 with
    | some c => if c.record.opc == 2 then s else s.runCopy c
    | none => s

def execGather (l : Loc) (s : State) : Stepped :=
  .next <| match s.nextCommand l 16 with
    | some c => if c.record.opc == 2 then s.runGather c else s
    | none => s

/-! ## Posts and completions (R287, R288, R411, R461) -/

/-- Whether a command's context is gone for good. -/
def State.orphan (s : State) (c : Command) : Bool :=
  match c.saved with
  | some id => s.saved.all (·.id != id)
  | none => false

/-- The command of a queue and slot whose turn it is to deliver something: the oldest that owes it to a context that is there, or to none
any more. Those of an adjourned context wait for it, and no other's with them (R461). -/
def State.deliverer (s : State) (l : Loc) (q : Fin 32) (p : Owed → Bool) : Option Command :=
  s.commands.find? fun c => c.vlc == l && c.queue == q && c.started && c.owed.head?.elim false p && (c.saved.isNone || s.orphan c)

/-- An engine posts the next token that a command owes: it waits at 63 (R34) and for an adjourned context (R461). -/
def execEngineTokenPost (l : Loc) (q : Fin 32) (s : State) : Stepped :=
  .next <| match s.deliverer l q (fun o => match o with | .token _ => true | .record _ => false) with
    | none => s
    | some c =>
      match c.owed with
      | .token k :: rest =>
        let full := ((s.cur :: s.parked).find? fun v => v.live && v.loc == l).elim true fun v => v.k[k] == 63
        if s.orphan c then s.finishCommand c rest
        else if full then s
        else (s.finishCommand c rest).within l s.stream fun t =>
          (t.notePosted (32 + k.val) (t.cur.k[k]).toNat (t.engineStores l)).post k
      | _ => s

/-- An engine pushes the completion record of a command: it waits while the completion queue is full (R288) and while the context
is adjourned (R461). -/
def execEngineCompletion (l : Loc) (q : Fin 32) (s : State) : Stepped :=
  .next <| match s.deliverer l q (fun o => match o with | .record _ => true | .token _ => false) with
    | none => s
    | some c =>
      match c.owed with
      | .record r :: rest =>
        let held := ((s.cur :: s.parked).find? fun v => v.live && v.loc == l).elim 8 fun v =>
          (if q == 16 then v.q.q17 else v.q.q19).length
        if s.orphan c then s.finishCommand c rest
        else if decide (held ≥ 8) then s
        else (s.finishCommand c rest).within l s.stream fun t =>
          (t.notePosted (q.val + 1) held (t.engineStores l)).modQ fun y =>
          if q == 16 then { y with q17 := y.q17 ++ [r] } else { y with q19 := y.q19 ++ [r] }
      | _ => s

/-! ## The stream-load unit (R203, R290) -/

/-- Changes the context that pushed a command, wherever it is. -/
def State.modOwner (s : State) (c : Command) (f : Vlc → Vlc) : State :=
  match c.saved with
  | some id => { s with saved := s.saved.map fun r => if r.id == id then { r with vlc := f r.vlc } else r }
  | none =>
    if s.cur.live && s.cur.loc == c.vlc then { s with cur := f s.cur }
    else { s with parked := s.parked.map fun v => if v.loc == c.vlc then f v else v }

def State.ownerOfCommand (s : State) (c : Command) : Option Vlc :=
  match c.saved with
  | some id => (s.saved.find? (·.id == id)).map (·.vlc)
  | none => (s.cur :: s.parked).find? fun v => v.live && v.loc == c.vlc

/-- Whether a Q20 record passes R285 and R290. -/
def Record.unitOk (r : Record) : Bool :=
  (r.opc == 0x20 || r.opc == 0x21) && !r.tdst && r.zeroOutside [(8, 9)] && r.field 8 8 % 16 == 0 && decide (r.field 16 1 < 32)

/-- Ends a Q20 command: 16 bytes at its address where it writes them, and its token. -/
def State.endUnit (s : State) (c : Command) (bytes : Option (List Byte)) : State :=
  let s := match bytes with
    | some bs => s.engineWrite c.vlc 2 (mbytes ((List.range 16).map (c.dst + ·)) bs) []
    | none => s
  s.finishCommand c (if c.record.tok then [.token c.record.tk] else [])

/-- STATUS, or a record that fails R285 (R290). -/
def execStatus (l : Loc) (s : State) : Stepped :=
  .next <| match s.nextCommand l 20 with
    | none => s
    | some c =>
      if !c.record.unitOk then s.endUnit c (some (List.replicate 16 0xFF))
      else if c.record.opc == 0x20 then
        let b := (s.ownerOfCommand c).bind fun v => v.binds.find? (·.1.val == c.record.field 16 1)
        s.endUnit c (some (leBytes 8 (b.elim 0 (·.2.waited.toNat)) ++ leBytes 8 (b.elim 0 (·.2.strips.toNat))))
      else s

def execClear (l : Loc) (s : State) : Stepped :=
  .next <| match s.nextCommand l 20 with
    | none => s
    | some c =>
      if c.record.unitOk && c.record.opc == 0x21 then
        let zero (b : Fin 32 × Binding) : Fin 32 × Binding :=
          if b.1.val == c.record.field 16 1 then (b.1, { b.2 with waited := 0, strips := 0 }) else b
        (s.modOwner c fun v => { v with binds := v.binds.map zero }).endUnit c none
      else s

/-- A translation that the stream engine makes for its context, which keeps no instruction waiting (R201). -/
def State.fetchXlate (s : State) (va : Word) (n : Nat) : Except Flt (List Nat) × State :=
  xlateBytes (fun s va => s.translate s.cur.loc s.cur.ctl.atp s.cur.ctl.asid s.cur.ctl.sys .read va) n va none s

/-- The stream engine or the stream-load unit fetches up to four strips of VLMAX elements beyond the last one consumed, from what memory
holds now (R201, R383). A table's one strip arrives: as many entries as Vb can hold at the largest grouping, for the spec gives the length
of a strip by its reader alone, and no reader uses an entry past those (R176; DESIGN CHOICE, log 46). A byte that faults, has to be held,
or comes poisoned or not at all, is left for the reader to meet. -/
def execStreamPrefetch (l : Loc) (v : Fin 32) (s : State) : Stepped :=
  .next <| s.within l .ep fun t =>
    match t.binding v with
    | none => t
    | some b =>
      let table := b.desc.kind == 2
      let n := if table then (if b.ready then 0 else min b.rem (Machine.vlmax t.ncore b.desc.ty 8)) else min b.rem (4 * t.vlmax)
      let (cells, t) := (List.range n).foldl (fun (acc : List Host.Cell × State) k =>
        let p := b.piece (b.pos + k)
        if (b.prefetched p).isSome then acc
        else match acc.2.fetchXlate p.va p.n with
          | (.error _, t) => (acc.1, t)
          | (.ok gas, t) =>
            if gas.any (fun ga => !t.reachable l.die ga) then (acc.1, t)
            else
              let (r, t) := t.readBytes ⟨l, none, 2⟩ gas
              if r.held || r.poison then (acc.1, t)
              else (r.bytes.zipIdx.foldl (fun c x => insertCell c (p.va + BitVec.ofNat 64 x.2).toNat x.1) acc.1, t)) (b.pre, t)
      t.modVlc fun x => { x with binds := x.binds.map fun y => if y.1 == v then (y.1, { y.2 with pre := cells, ready := table }) else y }

/-! ## The collective engine (R289, R402) -/

/-- OPC, BYTES, TYPE and ROP: what every member's command must agree on. -/
def Record.collKey (r : Record) : Nat × Nat × Nat × Nat := (r.opc, r.field 24 8, r.field 34 1, r.field 35 1)

/-- The type of a REDSCATTER (R289). -/
def Record.collTy (r : Record) : Option Ty :=
  match tyOfNat (r.field 34 1) with
  | some t => if t == .s32 || t == .n32 || t == .s64 || t == .n64 || t == .f32 || t == .bf16 || t == .f64 then some t else none
  | none => none

/-- Whether a Q18 record passes R285 and R289. One that breaks a limit of R289 (such as a BYTES that is no multiple of 64) ends with BADCMD,
where R289 names no status (DESIGN CHOICE, log 39). -/
def Record.collOk (r : Record) : Bool :=
  !r.tdst && r.zeroOutside [(8, 28)] && r.field 24 8 % 64 == 0 && decide (r.field 32 2 < 8192) &&
    if r.opc == 0x10 then r.field 34 2 == 0 else r.opc == 0x11 && r.collTy.isSome && decide (r.field 35 1 ≤ 2)

/-- A header of the collective engine for the members of a group: `k` is the command's count (R402). -/
def State.collPacket (s : State) (group k : Nat) (r : Record) : Packet where
  kind := 0x30
  home := BitVec.ofNat 13 group
  dst := BitVec.ofNat 13 group
  grp := true
  rly := false
  pv := false
  src := s.fabric.fendp
  orig := s.fabric.fendp
  len := 64
  seq := 0
  rprev := 0
  addr := 0
  op := 0
  ty := 0
  route := BitVec.ofNat 16 group
  oseq := BitVec.ofNat 32 k
  mbz := 0
  data := leBytes 64 r.toNat
  poison := false

/-- A piece of a block for the members of a group (R391, R402), which OP 1 tells from a multicast store element (log 35). -/
def State.blockPacket (s : State) (group ga : Nat) (data : List Byte) (bad : Bool) : Packet :=
  { s.framePacket 8 group (gaFrame ga) (ga % 2 ^ 16) data data.length with
    grp := true, home := BitVec.ofNat 13 group, op := 1, poison := bad }

/-- The die whose owner cache the engines of the hub send through: the spec gives an owner cache to each compute die and names none for
the hub, which is none of them; the model takes that of die 0 (DESIGN CHOICE, log 46). -/
def hubDie : Fin 4 := 0

/-- Writes bytes at a member of a group (R402): at this device through the device buffer, elsewhere at once where the member
answers. A member that cannot perform them says so in its response, which is what counts (R397). -/
def State.writeAtMember (s : State) (l : Loc) (m : Nat) (gas : List Nat) (bs : List Byte) (bad : Bool) : State :=
  let ms : List MByte := mbytes (gas.map (atMember m)) bs
  if m == s.here then s.engineWrite l 4 ms (if bad then linesOf ms else [])
  else if ms.any fun b => s.gaFaults b.ga || !s.reachable hubDie b.ga then s
  else (linesOf ms).foldl (fun s x => s.performBytes (ms.filter fun b => gaLine b.ga == x) bad) s

/-- Commands of the collective engine in flight on the device (R328). -/
def State.collectives (s : State) : Nat := (s.commands.filter fun c => c.queue == 18 && c.started && c.owed.isEmpty).length

/-- The bytes of a block in pieces of consecutive addresses, none across a boundary of 4,096 bytes, with the address of each (R388). -/
def blockPieces (gd : List Nat) (bs : List Byte) : List (Nat × List Byte) :=
  (gd.zip bs).foldr (fun x acc => match acc with
    | (a, ys) :: rest => if a == x.1 + 1 && a % 4096 != 0 then (x.1, x.2 :: ys) :: rest else (x.1, [x.2]) :: acc
    | [] => [(x.1, [x.2])]) []

/-- The block of an ALLGATHER goes to every member (R289, R402): whether it came poisoned, and the state. A group with no member but this
device takes no packet (R387). An error is the fault of its addresses. -/
def State.sendBlock (s : State) (c : Command) (g : GroupEntry) : Except Flt Bool × State :=
  let r := c.record
  let n := r.field 24 8
  match s.cmdXlate c .read (BitVec.ofNat 64 (r.field 8 8)) n with
  | (.error f, s) => (.error f, s)
  | (.ok gs, s) =>
    match s.cmdXlate c .write (BitVec.ofNat 64 (r.field 16 8 + g.rank * n)) n with
    | (.error f, s) => (.error f, s)
    | (.ok gd, s) =>
      let (got, s) := s.engineRead c.vlc 4 gs
      if got.held then (.error ⟨false, false, 0, 0, true⟩, s)
      else
        let bad := got.poison || got.absent
        let t := g.list.foldl (fun (s : State) m => s.writeAtMember c.vlc m gd got.bytes bad) s
        let send (s : State) (p : Nat × List Byte) : State := s.sendRequest hubDie (s.blockPacket g.num p.1 p.2 bad)
        (.ok bad, if g.list.all (· == s.here) then t else (blockPieces gd got.bytes).foldl send t)

/-! ### Traffic of other members (R289, R402) -/

/-- The collective command of this device that comes next in a group. -/
def State.collNext (s : State) (group : Nat) : Option Command :=
  s.commands.find? fun c => c.queue == 18 && c.started && c.owed.isEmpty && c.record.field 32 2 == group

/-- The header of a member's command of the same count as a command of this device. -/
def State.headerOf (s : State) (c : Command) (m : BitVec 13) : Option Record :=
  (s.fabric.collIn.find? fun p => p.dst.toNat == c.record.field 32 2 && p.src == m && p.oseq.toNat == c.dst).map fun p => recordOf p.data

/-- Bytes that a member's block has brought to a command. -/
def Command.gotOf (c : Command) (m : BitVec 13) : Nat := (c.got.find? (·.1 == m)).elim 0 (·.2)

/-- Bytes that the block of a member's command brings: an ALLGATHER sends one, agreeing or not. -/
def blockBytes (h : Record) : Nat := if h.opc == 0x10 then h.field 24 8 else 0

/-- A piece of a block that waits is let on: written where its member's command agrees with this device's, discarded where it does not
(R289), and counted. It goes on waiting before its command's turn or its header. None stands for that. -/
def State.landPiece (s : State) (p : Packet) : Option State :=
  match s.collNext p.dst.toNat with
  | none => none
  | some c => match s.headerOf c p.src with
    | none => none
    | some h =>
      if c.gotOf p.src ≥ blockBytes h then none
      else
        let agree := h.collKey == c.record.collKey
        let d : Command := { c with
          got := (p.src, c.gotOf p.src + p.len.toNat) :: c.got.filter (·.1 != p.src), bad := c.bad || (agree && p.poison) }
        let s := { s with commands := replaceCommand s.commands c (some d) }
        some (if agree then s.accessPacket p else s.respond p 0 [])

/-- Whether a REDREAD of a member waits for this device's command of its count (R402): the member has told of a REDSCATTER that has not
begun here. -/
def State.redWaits (s : State) (p : Packet) : Bool :=
  let begun := (s.fabric.collSeq.find? (·.1 == p.dst)).elim 0 (·.2.toNat)
  s.fabric.collIn.any fun q => q.dst == p.dst && q.src == p.src && decide (begun ≤ q.oseq.toNat) && (recordOf q.data).opc == 0x11

/-- What a packet that waits in the collective engine comes to, once its turn has come. -/
def State.letOn (s : State) (p : Packet) : Option State :=
  if p.kind.toNat == 9 then (if s.redWaits p then none else some (s.accessPacket p)) else s.landPiece p

/-- The packets that wait in the collective engine, as far as their turn has come, in the order in which they came; `n` bounds how often
one is looked for. -/
def State.settleBlocks (s : State) : Nat → State
  | 0 => s
  | n + 1 =>
    match s.fabric.blocks.findSome? fun p => (s.letOn p).map fun t => (p, t) with
    | none => s
    | some (p, t) => ({ t with fabric := { t.fabric with blocks := t.fabric.blocks.erase p } } : State).settleBlocks n

/-- All of them that can go on do. -/
def State.settleAll (s : State) : State := s.settleBlocks s.fabric.blocks.length

/-- Traffic of a member's collective command that arrives (R402): it waits behind what has come before it, until its turn. -/
def State.blockArrives (s : State) (p : Packet) : State :=
  ({ s with fabric := { s.fabric with blocks := s.fabric.blocks ++ [p] } } : State).settleAll

/-- Collective traffic (R402): kept for the command of its count, and answered once that has begun. -/
def State.collective (s : State) (p : Packet) : State :=
  let begun := (s.fabric.collSeq.find? (·.1 == p.dst)).elim false fun x => decide (p.oseq.toNat < x.2.toNat)
  let s := { s with fabric := { s.fabric with collIn := s.fabric.collIn ++ [p] } }
  (if begun then s.respond p 0 [] else s).settleAll

/-! ### The commands -/

/-- A collective command begins (R289, R402), with at most 64 in flight (R328): it is numbered in its group, tells the other members
what it is, and an ALLGATHER sends its block. A group that was not configured when the command was pushed raises the access fault of
R190 at its SRC (R400); one that this device is no member of has no rank for it, and the command ends with BADCMD (DESIGN CHOICE, log
47). While a read of it has to be held (R342) it does not begin. -/
def State.beginCollective (s : State) (c : Command) : State :=
  let s0 := s
  let r := c.record
  if s.collectives ≥ 64 then s
  else if !r.collOk then s.finishCommand c (owes r 0 3 0 0)
  else match c.group with
  | none => s.finishCommand c (owes r 0 2 0 (BitVec.ofNat 64 (r.field 8 8)))
  | some g =>
    if !g.member then s.finishCommand c (owes r 0 3 0 0)
    else
    let grp := r.field 32 2
    let k := (s.fabric.collSeq.find? (·.1.toNat == grp)).elim 0 (·.2.toNat)
    let s := { s with fabric := { s.fabric with
      collSeq := (BitVec.ofNat 13 grp, BitVec.ofNat 32 (k + 1)) :: s.fabric.collSeq.filter (·.1.toNat != grp) } }
    let early := s.fabric.collIn.filter fun p => p.dst.toNat == grp && p.oseq.toNat == k
    let s := early.foldl (fun (s : State) p => s.respond p 0 []) s
    let s := if g.list.all (· == s.here) then s else s.sendRequest hubDie (s.collPacket grp k r)
    let keep (s : State) (bad : Bool) : State :=
      ({ s with commands := replaceCommand s.commands c (some { c with started := true, dst := k, bad := bad }) } : State).settleAll
    if r.opc != 0x10 then keep s false
    else match s.sendBlock c g with
      | (.error f, s) => if f.held then s0 else s.finishCommand c (owes r 0 (faultStatus f) 0 f.va)
      | (.ok bad, s) => keep s bad

def execAllgather (l : Loc) (s : State) : Stepped :=
  .next <| match s.nextCommand l 18 with
    | some c => if c.record.opc == 0x11 then s else s.beginCollective c
    | none => s

def execRedscatter (l : Loc) (s : State) : Stepped :=
  .next <| match s.nextCommand l 18 with
    | some c => if c.record.opc == 0x11 then s.beginCollective c else s
    | none => s

/-- The elements of a REDSCATTER: each combined across the members, which the engine reads from its own level, and written at DST
(R192, R358, R402). -/
def State.reduceBlock (s : State) (c : Command) (g : GroupEntry) (ty : Ty) (gs gd : List Nat) : Reduced × State :=
  let w := ty.sew / 8
  let rop : Rop := match c.record.field 35 1 with | 1 => .min | 2 => .max | _ => .sum
  (List.range (gs.length / w)).foldl (fun (acc : Reduced × State) e =>
    let (x, s) := acc.2.readMembers rop ty ⟨c.vlc, none, 4⟩ g ((gs.drop (e * w)).take w)
    let bad := x.poison || x.absent
    let ms := mbytes ((gd.drop (e * w)).take w) (leBytes w x.val)
    ({ x with poison := acc.1.poison || bad, held := acc.1.held || x.held },
      s.engineWrite c.vlc 4 ms (if bad then linesOf ms else []))) (⟨0, 0, 0, false, false, false⟩, s)

/-- Whether every member has answered for the blocks that this device has sent to a group (R402). -/
def State.blocksAnswered (s : State) (group : Nat) : Bool :=
  s.fabric.send.all fun x => !(x.grp && x.dst.toNat == group) ||
    (x.unanswered.all fun u => u.packet.kind != 8) && x.queued.all fun u => u.1.kind != 8

/-- Whether a piece of a block of a group is held at a frozen frame of this device, so that the block has not landed (R342, R370). -/
def State.blockHeld (s : State) (group : Nat) : Bool :=
  s.moves.any fun m => m.held.any fun h => match h with
    | .packet p => p.kind.toNat == 8 && p.op == 1 && p.dst.toNat == group
    | _ => false

/-- Whether every other member's command of a command's count is known and its block has come whole (R402). -/
def State.allCame (s : State) (c : Command) (g : GroupEntry) : Bool :=
  (g.list.filter (· != s.here)).all fun m =>
    (s.headerOf c (BitVec.ofNat 13 m)).elim false fun h => decide (blockBytes h ≤ c.gotOf (BitVec.ofNat 13 m))

/-- Whether a member's command of the same count disagrees with a command (R289). -/
def State.disagreed (s : State) (c : Command) (g : GroupEntry) : Bool :=
  (g.list.filter (· != s.here)).any fun m =>
    (s.headerOf c (BitVec.ofNat 13 m)).elim false fun h => h.collKey != c.record.collKey

/-- Whether a collective command can end: it is the next of its group, and all that it waits for has come (R289, R370, R402). -/
def State.collReady (s : State) (c : Command) : Bool :=
  let grp := c.record.field 32 2
  s.collNext grp == some c && !s.blockHeld grp && s.blocksAnswered grp && c.group.elim true (s.allCame c)

/-- A collective command ends once every other member's command of its count has been seen, every block has come and landed, and its own
is answered for (R289, R370, R402): with BADCMD where a member's command disagrees, and with the status of poison where its own block
or another's came poisoned (R288). The next command of the group comes after it. -/
def execCollectiveComplete (l : Loc) (s : State) : Stepped :=
  .next <| match s.commands.find? fun c => c.vlc == l && c.queue == 18 && c.started && c.owed.isEmpty && s.collReady c with
    | none => s
    | some c =>
      let r := c.record
      let n := r.field 24 8
      let grp := r.field 32 2
      match c.group with
      | none => s.finishCommand c (owes r 0 2 0 (BitVec.ofNat 64 (r.field 8 8)))
      | some g =>
        let close (s : State) (o : List Owed) : State :=
          (({ s with fabric := { s.fabric with
            collIn := s.fabric.collIn.filter fun p => !(p.dst.toNat == grp && p.oseq.toNat == c.dst) } } : State).finishCommand c o).settleAll
        if s.disagreed c g then close s (owes r 0 3 0 0)
        else if r.opc == 0x10 then close s (owes r 1 (if c.bad then 5 else 0) g.list.length 0)
        else
          match s.cmdXlate c .read (BitVec.ofNat 64 (r.field 8 8 + g.rank * n)) n with
          | (.error f, t) => if f.held then s else close t (owes r 0 (faultStatus f) 0 f.va)
          | (.ok gs, t) =>
            match t.cmdXlate c .write (BitVec.ofNat 64 (r.field 16 8)) n with
            | (.error f, t) => if f.held then s else close t (owes r 0 (faultStatus f) 0 f.va)
            | (.ok gd, t) =>
              let (x, t) := t.reduceBlock c g (r.collTy.getD .s32) gs gd
              if x.held then s else close t (owes r 1 (if x.poison then 5 else 0) g.list.length 0)

end Sys2Proof.Machine
end

