-- ==== Sys2Proof/Machine/Castle.lean ====
section
/-! DEFINITION. The migration coordinator: moves of a frame (R291, R296, R340 to R348), stubs and their reclamation (R349), hot
frames (R352), retirement (R353 to R356), and memory health in service (R440, R445, R446). -/

namespace Sys2Proof.Machine

/-! ## Answers (R291, R296) -/

/-- STATUS and OWNER of R296. -/
def moveAnswer (status owner : Nat) : Nat := status + owner % 2 ^ 13 * 2 ^ 8

/-- Ends a Q21 command: its status where CPLVA says, and its token (R291). -/
def State.endMigration (s : State) (c : Command) (status owner : Nat) : State :=
  let gas := (List.range 8).map (c.dst + ·)
  (s.engineWrite c.vlc 4 (mbytes gas (leBytes 8 (moveAnswer status owner))) []).finishCommand c
    (if c.record.tok then [.token c.record.tk] else [])

/-- Tells whoever asked for a move of frame h how it ended (R296, R341, R352): a stream that still waits for it, a status address, an
endpoint, to which a refusal goes with its STATUS (log 35), or for an automatic one the log. -/
def State.answerMove (s : State) (a : Asker) (h dst status owner : Nat) : State :=
  match a with
  | .pgmove l st d => s.within l st fun t =>
      if t.str.wait == some .unit then
        (t.gwrite d (BitVec.ofNat 64 (moveAnswer status owner))).complete (.pgmove d 0 0) [] (t.pc + 4)
      else t
  | .record ga => match s.commands.find? fun c => c.queue == 21 && c.started && c.dst == ga with
    | some c => s.endMigration c status owner
    | none => s
  | .remote p => if status == 0 then s.respond p 0 [] else s.respond p 4 [BitVec.ofNat 8 status]
  | .nobody => s
  | .automatic =>
    if status == 0 then s
    else s.logEvent 10 0 0 (BitVec.ofNat 64 (h * 2 ^ 16)) (BitVec.ofNat 64 status) (BitVec.ofNat 64 dst)

/-! ## Requests (R296, R340, R348) -/

/-- The die of this endpoint whose DRAM holds a frame (R347). -/
def State.frameDie (s : State) (h : Nat) : Fin 4 := ((s.physOf (h * 2 ^ 16)).bind localDie).elim 0 (·.1)

/-- Stub records in use in the table of a die (R347). -/
def State.stubsUsed (s : State) (d : Fin 4) : Nat :=
  (s.frames.map fun r => (r.stubs.filter fun x => x.endpoint == s.fabric.fendp && x.die == d).length).sum

/-- The lowest free visitor frame of a pool (R340). -/
def State.poolFrame (s : State) (d : Fin 4) : Option Nat :=
  let p := s.dies[d]
  ((List.range p.poolCount.toNat).map (p.poolBase.toNat + ·)).find? fun f => p.visitors.all (·.2 != f)

/-- A visitor frame for a frame that arrives (R340): from the pool of its home address's die, else of the lowest-numbered die that
has one. -/
def State.takeVisitor (s : State) (h : Nat) : Option State :=
  (Fin.ofNat 4 (bitsAt h 20 2) :: List.finRange 4).findSome? fun d =>
    (s.poolFrame d).map fun f => s.modDie d fun x => { x with visitors := x.visitors ++ [(h, f)] }

def State.dropVisitor (s : State) (h : Nat) : State :=
  { s with dies := s.dies.map fun x => { x with visitors := x.visitors.filter (·.1 != h) } }

/-- A packet of the migration coordinator (R341; log 35): OP 0 asks the owner for a move to the endpoint in its data, OP 1
brings the frame, OP 2 is the transfer, OP 3 the release. -/
def State.migratePacket (s : State) (h dst op : Nat) (data : List Byte) : Packet :=
  { s.framePacket 0x20 dst h 0 data data.length with op := BitVec.ofNat 6 op }

/-- What becomes of a request for a move: refused with a STATUS, left to wait its turn, or begun. -/
inductive Moved where
  | refused (status : Nat) (s : State)
  | waits (s : State)
  | begun (s : State)

/-- A request that did not reach an endpoint that does not answer (R296, R395), of the context that asked where it is one. -/
def State.moveFailed (s : State) (a : Asker) (dst h : Nat) : State :=
  match a with
  | .pgmove l _ _ => s.requestFailed (locNum l) s.pc 0x20 dst (frameRoute h) false
  | _ => s.requestFailed 0 0 0x20 dst (frameRoute h) false

/-- A move of frame h to an endpoint whose turn it is (R296, R340, R348): nothing is asked of the owner where no visitor frame is free. -/
def State.startMove (s : State) (h dst : Nat) (a : Asker) : Moved :=
  let home := h / 2 ^ 34
  let l := h % 2 ^ 34 * 2 ^ 16
  let o := s.ownerOf h
  let live := ((s.frameRec h).elim [] (·.stubs)).filter (!·.reclaiming)
  let isDram := match regionOf l with | .dram _ => true | _ => false
  if !isDram || (home == s.here && s.isReserved l) then .refused 5 s
  else if !s.answers o || s.unreachable.contains h then .refused 4 (s.moveFailed a o h)
  else if o == dst then .refused 3 s
  else if (live.length ≥ 2 && !live.any (·.endpoint.toNat == dst)) || (o == s.here && s.stubsUsed (s.frameDie h) ≥ 65536) then
    .refused 1 s
  else if !s.answers dst then .refused 4 (s.moveFailed a dst h)
  else
    let begin_ (s : State) : State :=
      { s with moves := s.moves ++ [(⟨h, BitVec.ofNat 13 o, BitVec.ofNat 13 dst, a, []⟩ : MoveRec)] }
    let ask (s : State) : State := if o == s.here then s else s.sendRequest hubDie (s.migratePacket h o 0 (leBytes 2 dst))
    if dst == s.here then
      if home == s.here then .begun (begin_ (ask s))
      else match s.takeVisitor h with
        | none => .refused 2 s
        | some s => .begun (begin_ (ask s))
    else if o == s.here then .begun (begin_ (s.sendRequest hubDie (s.migratePacket h dst 1 [])))
    else .begun (begin_ (ask s))

/-- Whether a move of frame h must wait its turn: behind one of the same frame, or with eight in flight (R296, R328). -/
def State.movesBusy (s : State) (h : Nat) (before : List MoveReq) : Bool :=
  s.moves.any (·.frame == h) || before.any (·.frame == h) || decide (s.moves.length ≥ 8)

/-- A request for a move: in arrival order with those that wait (R328). -/
def State.requestMove (s : State) (h dst : Nat) (a : Asker) : Moved :=
  if s.movesBusy h s.coord.waiting then
    .waits { s with coord := { s.coord with waiting := s.coord.waiting ++ [(⟨h, dst, a⟩ : MoveReq)] } }
  else s.startMove h dst a

/-- The requests that wait, in arrival order: each whose turn has come begins, or is refused. `before` are those that still wait ahead of
the list. -/
def State.pumpMoves (s : State) (before : List MoveReq) : List MoveReq → State
  | [] => { s with coord := { s.coord with waiting := before } }
  | m :: rest =>
    if s.movesBusy m.frame before then s.pumpMoves (before ++ [m]) rest
    else match s.startMove m.frame m.dst m.asker with
      | .begun t => t.pumpMoves before rest
      | .refused st t => (t.answerMove m.asker m.frame m.dst st (t.ownerOf m.frame)).pumpMoves before rest
      | .waits t => t.pumpMoves before rest

/-- The end of a move lets those that wait go on. -/
def State.nextMoves (s : State) : State := s.pumpMoves [] s.coord.waiting

/-- The frame that a global address names, bit 63 and the bits below 16 ignored (R296). -/
def frameNamed (x : Word) : Nat := gaFrame (x.toNat % 2 ^ 63)

/-- A stream takes over the move that it has asked for before it trapped in its wait (R421). -/
def State.takeMove (s : State) (h dst : Nat) (a : Asker) : State :=
  { s with
    moves := s.moves.map fun m => if m.frame == h && m.dst.toNat == dst && m.asker == .nobody then { m with asker := a } else m
    coord := { s.coord with waiting := s.coord.waiting.map fun m =>
      if m.frame == h && m.dst == dst && m.asker == .nobody then { m with asker := a } else m } }

/-- `pgmove` (R296): it waits until the transfer event or a refusal. -/
def execPgmove (d a b : Fin 32) (s : State) :=
  runPlain (.pgmove d a b) s fun t =>
    let me : Asker := .pgmove t.cur.loc t.stream d
    let h := frameNamed (t.gread a)
    let dst := bitsAt (t.gread b).toNat 0 13
    let t := t.takeMove h dst me
    if t.moves.any (·.asker == me) || t.coord.waiting.any (·.asker == me) then .wait t .unit
    else
      match t.requestMove h dst me with
      | .refused st t => .ok (t.gwrite d (BitVec.ofNat 64 (moveAnswer st (t.ownerOf h))))
      | .waits t => .wait t .unit
      | .begun t => .wait t .unit

/-- `pgstat` (R297). An unreachable home leaves the answer open (log 4). -/
def execPgstat (d a : Fin 32) (s : State) :=
  runPlain (.pgstat d a) s fun t =>
    let h := frameNamed (t.gread a)
    let home := h / 2 ^ 34
    let o := t.ownerOf h
    let stubs := (t.frameRec h).elim [] (·.stubs)
    let stub := stubs.any (·.endpoint == t.fabric.fendp)
    let inPlace := (t.physOf (h * 2 ^ 16)).elim false fun l =>
      t.flash.badFrames.any fun e => badFrame e == l / 2 ^ 16 && (badSpare e).isNone
    let state := if inPlace then 4
      else if t.moves.any (fun m => m.frame == h && (m.src == t.fabric.fendp || m.dst == t.fabric.fendp)) then 3
      else if home == t.here && o != t.here then 1
      else if stub then 2
      else if o == t.here then 0
      else 5
    if !t.answers home then
      .ok (((t.requestFailed (locNum t.cur.loc) t.pc 0x20 home (frameRoute h) false).gwrite d ((Config.freeVec t.fresh).setWidth 64)).bump)
    else .ok (t.gwrite d (BitVec.ofNat 64
      (moveAnswer state o + min 2 (stubs.filter (!·.reclaiming)).length * 2 ^ 21 + if stub then 2 ^ 23 else 0)))

/-! ## The transfer event (R341 to R348) -/

/-- A frame at home with no stub needs no record (R346). -/
def FrameRec.kept (r : FrameRec) : Bool := r.owner.toNat != r.frame / 2 ^ 34 || !r.stubs.isEmpty

/-- Ownership of a frame passes (R343): the new owner's stub is freed, the old owner keeps one (R347, R348). -/
def State.passOwner (s : State) (m : MoveRec) : State :=
  let old := (s.frameRec m.frame).elim [] (·.stubs)
  let names := (s.coord.sharers.filter (·.1 == m.frame)).map (·.2)
  let stub : Stub := ⟨m.src, if m.src.toNat == s.here then s.frameDie m.frame else 0, m.dst, false,
    if m.src.toNat == s.here then names.take 64 else [], m.src.toNat == s.here && decide (names.length > 64), []⟩
  let r : FrameRec := ⟨m.frame, m.dst, (old.filter fun x => x.endpoint != m.dst && x.endpoint != m.src) ++ [stub]⟩
  { s with
    frames := r :: s.frames.filter (·.frame != m.frame)
    coord := { s.coord with
      sharers := s.coord.sharers.filter (·.1 != m.frame), samples := s.coord.samples.filter (·.1 != m.frame) } }

/-- A held access goes on at the owner (R343): a store whose entry was kept in the device buffer leaves it, an atomic is performed and
its stream finds the answer, a read may bind, and a relay takes effect. -/
def State.performHeld (s : State) : Held → State
  | .entry e => ({ s with pend := s.pend.erase e } : State).performEntry { e with sent := false }
  | .atomic l st gas req => s.within l st fun t =>
      let (r, t) := t.performAtomic gas req
      t.setStr { t.str with wait := none, answer := some r }
  | .read l st => s.within l st fun t => t.setStr { t.str with wait := none }
  | .packet p => if p.rly && p.src == s.fabric.fendp then s.performRemote p else s.performPacket p

/-- Drops every owner-cache entry of this device that names an endpoint for a frame (R349). -/
def State.dropOwner (s : State) (h : Nat) (e : BitVec 13) : State :=
  { s with dies := s.dies.map fun x => { x with owners := x.owners.filter fun o => !(o.1 == h && o.2 == e) } }

/-- Whether an access of this device to a frame has been sent to an endpoint and is not acknowledged, since the frame is frozen (R342). -/
def State.sentTo (s : State) (h : Nat) (e : BitVec 13) : Bool :=
  s.moves.any fun m => m.frame == h && m.held.any fun x => x.die?.elim false fun d => s.firstStop d h == e.toNat

/-- The owner-invalidates whose accesses are acknowledged take effect and are answered (R338, R349). -/
def State.settleInvs (s : State) : State :=
  let (wait, go) := s.coord.invs.partition fun p => s.sentTo (packetFrame p) p.src
  go.foldl (fun s p => (s.dropOwner (packetFrame p) p.src).respond p 0 []) { s with coord := { s.coord with invs := wait } }

/-- The retirements that waited for a move are made (R350). -/
def State.settleDue (s : State) : State :=
  let due := s.coord.due
  let s := { s with coord := { s.coord with due := due.filter fun x => s.moving x.1 } }
  due.foldl (fun s x => if s.moving x.1 then s else s.retire x.1 x.2) s

/-- The transfer event, and the release that follows it: the new owner hears of it, and the home, whose pointer is set (R346), and the held
accesses are performed at the new owner, in arrival order. -/
def State.transfer (s : State) (m : MoveRec) : State :=
  let s := if m.src.toNat == s.here then s.fireInjections (frameLines m.frame) else s
  let s := s.passOwner m
  let s := if m.src.toNat == s.here then s.dropVisitor m.frame else s
  let s := { s with moves := s.moves.filter (·.frame != m.frame) }
  let home := m.frame / 2 ^ 34
  let s := if m.src.toNat == s.here && m.dst.toNat != s.here then
      s.sendRequest hubDie (s.migratePacket m.frame m.dst.toNat 2 []) else s
  let s := if m.src.toNat == s.here && home != s.here && home != m.dst.toNat then
      s.sendRequest hubDie (s.migratePacket m.frame home 2 (leBytes 2 m.dst.toNat)) else s
  ((m.held.foldl State.performHeld s).settleInvs.settleDue.answerMove m.asker m.frame m.dst.toNat 0 m.dst.toNat).nextMoves

def execTransferEvent (frame : Nat) (s : State) : Stepped :=
  .next <| match s.moves.find? (·.frame == frame) with
    | some m => s.transfer m
    | none => s

/-- A move that was accepted ends without a transfer (R296, R395): the frame stays, and the held writes are performed there. -/
def State.cancelMove (s : State) (m : MoveRec) (status : Nat) : State :=
  let s := if m.dst.toNat == s.here then s.dropVisitor m.frame else s
  let s := { s with moves := s.moves.filter (·.frame != m.frame) }
  ((m.held.foldl State.performHeld s).settleInvs.settleDue.answerMove m.asker m.frame m.dst.toNat status m.src.toNat).nextMoves

/-! ## Stubs (R349) -/

def State.modStub (s : State) (die : Fin 4) (h : Nat) (f : Stub → Stub) : State :=
  { s with frames := s.frames.map fun r =>
      if r.frame == h then
        { r with stubs := r.stubs.map fun x => if x.endpoint == s.fabric.fendp && x.die == die then f x else x }
      else r }

def State.stubOf (s : State) (die : Fin 4) (h : Nat) : Option Stub :=
  ((s.frameRec h).elim [] (·.stubs)).find? fun x => x.endpoint == s.fabric.fendp && x.die == die

/-- An owner-invalidate for a frame (R349, R391). -/
def State.owninvPacket (s : State) (h : Nat) (e : BitVec 13) : Packet :=
  { s.migratePacket h e.toNat 0 [] with kind := 0x21, route := e.setWidth 16 }

/-- Reclamation of a stub begins: owner-invalidates to its sharers, or to every endpoint that there is (R349; log 41). The time
since the transfer is at least STUBMIN (log 7). -/
def execStubReclaim (die : Fin 4) (frame : Nat) (s : State) : Stepped :=
  .next <| match s.stubOf die frame with
    | some x =>
      if x.reclaiming then s
      else
        let all := (s.fabric.known ++ s.fabric.answering).eraseDups
        let asked := (if x.everyone then all else x.sharers).filter (· != s.fabric.fendp)
        let s := (s.modStub die frame fun y => { y with reclaiming := true, sharers := asked, replies := [] }).dropOwner frame
          s.fabric.fendp
        asked.foldl (fun s e => s.sendRequest die (s.owninvPacket frame e)) s
    | none => s

/-- With every reply collected the record is free (R349), and the owner hears of it, which counts the frame's stubs (R348; log 35). -/
def execStubFree (die : Fin 4) (frame : Nat) (s : State) : Stepped :=
  .next <| match s.stubOf die frame with
    | some x =>
      if x.reclaiming && x.sharers.all x.replies.contains then
        let o := s.ownerOf frame
        let s := { s with frames := (s.frames.map fun r =>
            if r.frame == frame then { r with stubs := r.stubs.filter (· != x) } else r).filter FrameRec.kept }
        if o == s.here then s else s.sendRequest die (s.migratePacket frame o 3 [])
      else s
    | none => s

/-- The owner-invalidates of a stub that nobody has answered are sent again (R349). -/
def execOwninvRetry (die : Fin 4) (frame : Nat) (s : State) : Stepped :=
  .next <| match s.stubOf die frame with
    | some x =>
      if !x.reclaiming then s
      else
        let due (u : Unanswered) : Bool :=
          u.packet.kind == 0x21 && u.packet.home.toNat * 2 ^ 34 + u.packet.addr.toNat / 2 ^ 16 == frame
        let again := s.fabric.send.flatMap fun p => (p.unanswered.filter due).map (·.packet)
        let count (u : Unanswered) : Unanswered := if due u then { u with resends := u.resends + 1 } else u
        let send := s.fabric.send.map fun p => { p with unanswered := p.unanswered.map count }
        let s := { s with fabric := { s.fabric with outbox := s.fabric.outbox ++ again, send := send } }
        again.foldl (fun s p => s.modPort (s.portFor p.route.toNat) fun x => { x with presend := x.presend + 1 }) s
    | none => s

/-! ## The coordinator's commands (R291) -/

/-- The bytes that a Q21 command defines; none for an OPC that is not assigned. -/
def migrationBytes (opc : Nat) : Option (List (Nat × Nat)) :=
  match opc with
  | 0x30 => some [(8, 10), (24, 8)]
  | 0x31 => some [(8, 8), (24, 8)]
  | 0x32 | 0x33 => some [(8, 4), (24, 8)]
  | 0x34 => some [(8, 1), (24, 8)]
  | _ => none

/-- Whether a Q21 record passes R285 and R291. -/
def Record.migrationOk (r : Record) : Bool :=
  match migrationBytes r.opc with
  | none => false
  | some def_ => !r.tdst && r.zeroOutside def_ && r.field 24 8 % 8 == 0 && !(r.opc == 0x32 && r.field 8 4 == 0) &&
      !(r.opc == 0x34 && decide (r.field 8 1 > 1))

/-- The next Q21 command of a context, where it is a good one of OPC `opc`. -/
def State.migrationCommand (s : State) (l : Loc) (opc : Nat) (f : Command → State) : Stepped :=
  .next <| match s.nextCommand l 21 with
    | some c => if c.record.migrationOk && c.record.opc == opc then f c else s
    | none => s

/-- MOVE, or a record that fails R285 (R291). -/
def execMove (l : Loc) (s : State) : Stepped :=
  .next <| match s.nextCommand l 21 with
    | none => s
    | some c =>
      if !c.record.migrationOk then s.endMigration c 7 0
      else if c.record.opc != 0x30 then s
      else
        let h := frameNamed (BitVec.ofNat 64 (c.record.field 8 8))
        match s.requestMove h (c.record.field 16 2 % 2 ^ 13) (.record c.dst) with
        | .refused st s => s.endMigration c st (s.ownerOf h)
        | .waits s | .begun s => { s with commands := replaceCommand s.commands c (some { c with started := true }) }

/-- RETIRE (R291, R353): a retirement that meets a move of the frame waits for it (R350). STATUS of one that is not made is not
stated (log 4). -/
def execRetire (l : Loc) (s : State) : Stepped :=
  s.migrationCommand l 0x31 fun c =>
    let f := c.record.field 8 8 / 2 ^ 16
    let isDram := match regionOf (f * 2 ^ 16) with | .dram _ => true | _ => false
    if s.moving f then s
    else if !isDram then s.endMigration c 5 s.here
    else
      let t := s.retire f 1
      if t.flash.badFrames.length > s.flash.badFrames.length then t.endMigration c 0 s.here
      else (t.endMigration c ((Config.freeVec t.fresh).toNat % 256) s.here).bump

def execCeThreshold (l : Loc) (s : State) : Stepped :=
  s.migrationCommand l 0x32 fun c =>
    ({ s with coord := { s.coord with threshold := BitVec.ofNat 32 (c.record.field 8 4) } } : State).endMigration c 0 s.here

def execStubmin (l : Loc) (s : State) : Stepped :=
  s.migrationCommand l 0x33 fun c =>
    ({ s with coord := { s.coord with stubmin := BitVec.ofNat 32 (max 100 (c.record.field 8 4)) } } : State).endMigration c 0 s.here

def execHotFrameMigration (l : Loc) (s : State) : Stepped :=
  s.migrationCommand l 0x34 fun c =>
    ({ s with coord := { s.coord with auto := c.record.field 8 1 == 1 } } : State).endMigration c 0 s.here

/-! ## Hot frames (R352) -/

/-- A frame that is hot from one other endpoint moves there as `pgmove` would move it; a refusal is logged. -/
def State.moveHot (s : State) (h : Nat) : State :=
  let mine := s.coord.samples.filter (·.1 == h)
  let total := (mine.map (·.2.2)).sum
  match mine.find? fun x => x.2.1 != s.fabric.fendp && decide (4 * x.2.2 > 3 * total) with
  | none => s
  | some x =>
    if total < 8192 then s
    else match s.requestMove h x.2.1.toNat .automatic with
      | .refused st s => s.answerMove .automatic h x.2.1.toNat st (s.ownerOf h)
      | .waits s => s
      | .begun s => s

/-- The end of a window of 1 ms. -/
def execHotFrameWindow (s : State) : Stepped :=
  .next <|
    if !s.coord.auto then s
    else
      let s := ((s.coord.samples.map (·.1)).eraseDups).foldl State.moveHot s
      { s with coord := { s.coord with samples := [] } }

/-! ## Memory health (R440, R445, R446) -/

/-- A read found a correctable error of a line of this device (R445). The per-core stores and the host-line cache have no local address: a
line number from 2^44 on stands for one of theirs, of the die in its low two bits (DESIGN CHOICE, log 12). -/
def execEccCorrectedRead (line : Nat) (s : State) : Stepped :=
  .next (if line < 2 ^ 44 then s.correctedError (line * 64)
    else s.modDie (Fin.ofNat 4 line) fun d => { d with comce := d.comce + 1 })

/-- An uncorrectable error of a line: the mark, the count and log kind 4, and the frame's retirement with CAUSE 2 (R446), which waits for
a move of it (R350). -/
def State.uncorrectable (s : State) (l : Nat) : State :=
  match localDie l with
  | none => s
  | some (_, false) => s.markUncorrectable (some (s.gaOf l)) l
  | some (_, true) =>
    let f := l / 2 ^ 16
    (s.markUncorrectable ((s.hosted f).map fun h => h * 2 ^ 16 + l % 2 ^ 16) l).retireDue f 2

/-- A scrub read: it corrects and counts as other reads do, and neither consumes poison nor triggers an injection (R445). -/
def execScrubRead (line : Nat) (found : LineState) (s : State) : Stepped :=
  .next <| match found with
    | .clean => s
    | .correctable => s.correctedError (line * 64)
    | .uncorrectable => s.uncorrectable (line * 64)

/-- Any write of LMCLR (R440). -/
def execLmclr (c : CoreId) (s : State) : Stepped :=
  .next (s.modCoreAt c fun x => { x with cnt := { x.cnt with lquar := 0, lmis := .replicate 64 0 } })

end Sys2Proof.Machine
end

