-- ==== Sys2Proof/Machine/Fabric.lean ====
section
/-! DEFINITION. Packets as this endpoint receives them (R389 to R402), links and their replays (R394, R395), and the movement of
stores (R359). -/

namespace Sys2Proof.Machine

/-! ## Requests of other endpoints (R389) -/

/-- The stubs of a frame that a packet speaks for: those of its sender (R347). -/
def State.modStubsOf (s : State) (p : Packet) (f : Stub → Option Stub) : State :=
  { s with frames := (s.frames.map fun r =>
      if r.frame == packetFrame p then
        { r with stubs := r.stubs.filterMap fun x => if x.endpoint == p.src then f x else some x }
      else r).filter FrameRec.kept }

/-- Traffic of the migration coordinator (R341; log 35). OP 0 asks the owner for a move; OP 1 brings a frame here, or bytes of it;
OP 2 is the transfer, which names the new owner to the home where that is neither the old one nor the new (R346); OP 3 says that a stub
of its sender is freed (R349); any other only is answered. -/
def State.migration (s : State) (p : Packet) : State :=
  let h := packetFrame p
  match p.op.toNat with
  | 0 =>
    let dst := leNat (p.data.take 2) % 2 ^ 13
    match s.requestMove h dst (.remote p) with
    | .refused st s => s.answerMove (.remote p) h dst st (s.ownerOf h)
    | .waits s | .begun s => s
  | 1 =>
    let copied (s : State) : State :=
      (s.performBytes (mbytes ((List.range p.data.length).map (p.home.toNat * 2 ^ 50 + p.addr.toNat + ·)) p.data) p.poison).respond p 0 []
    if s.moves.any (·.frame == h) then copied s
    else
      match (if h / 2 ^ 34 == s.here then some s else s.takeVisitor h : Option State) with
      | some t => copied { t with moves := t.moves ++ [(⟨h, p.src, t.fabric.fendp, .nobody, []⟩ : MoveRec)] }
      | none => s.respond p 4 [2]
  | 2 => (match s.moves.find? (fun (m : MoveRec) => m.frame == h) with
      | some m => s.transfer m
      | none =>
        if h / 2 ^ 34 == s.here && p.data.length == 2 then
          s.passOwner ⟨h, BitVec.ofNat 13 (s.ownerOf h), BitVec.ofNat 13 (leNat p.data), .nobody, []⟩
        else s).respond p 0 []
  | 3 => (s.modStubsOf p fun _ => none).respond p 0 []
  | _ => s.respond p 0 []

/-- An owner-invalidate: its stub is reclaimed, every owner-cache entry that names its sender goes, and the reply; but both wait for
accesses sent to the stub and not acknowledged, which are those held at the frozen frame (R338, R349). -/
def State.ownerInvalidate (s : State) (p : Packet) : State :=
  let s := s.modStubsOf p fun x => some { x with reclaiming := true }
  if s.sentTo (packetFrame p) p.src then { s with coord := { s.coord with invs := s.coord.invs ++ [p] } }
  else (s.dropOwner (packetFrame p) p.src).respond p 0 []

/-- Whether a request that comes in its turn can be accepted: an access waits for room in a hold queue (R342). -/
def State.canTake (s : State) (p : Packet) : Bool :=
  match p.kind.toNat with
  | 0x20 | 0x21 | 0x30 => true
  | _ => s.holdRoom p

/-- What an accepted request does. -/
def State.take (s : State) (p : Packet) : State :=
  match p.kind.toNat with
  | 0x20 => s.migration p
  | 0x21 => s.ownerInvalidate p
  | 0x30 => s.collective p
  | 0x08 => if p.op == 1 then s.blockArrives p else s.accessPacket p
  | 0x09 => s.blockArrives p
  | _ => s.accessPacket p

/-- A request: a duplicate is counted and its response sent again (R381); one whose predecessor has not been accepted waits (R392); one
that finds no room is left with its sender; any other is accepted and performed. -/
def State.receive (s : State) (port : Fin 16) (p : Packet) : State :=
  let r := s.recvPair p
  if r.duplicate p.seq then s.duplicated port p
  else if !r.inOrder p then s.keepWaiting port p
  else if !s.canTake p then s
  else (s.accepted p).take p

/-- The requests that wait at the ports, as far as their turn has come; `n` bounds how often one is looked for. -/
def State.pumpWaiting (s : State) : Nat → State
  | 0 => s
  | n + 1 =>
    let due (x : Fin 16 × Packet) : Bool := (s.recvPair x.2).duplicate x.2.seq || ((s.recvPair x.2).inOrder x.2 && s.canTake x.2)
    match s.fabric.waiting.find? due with
    | none => s
    | some x =>
      (({ s with fabric := { s.fabric with waiting := s.fabric.waiting.erase x } } : State).receive x.1 x.2).pumpWaiting n

/-- A request of a kind arrives at a port, and with it those that have waited for it. -/
def State.request (s : State) (port : Fin 16) (kind : Nat) (p : Packet) : Stepped :=
  .next (s.arrive port kind p fun s => (s.receive port p).pumpWaiting s.fabric.waiting.length)

def execRead (port : Fin 16) (p : Packet) (s : State) : Stepped := s.request port 0x01 p
def execWrite (port : Fin 16) (p : Packet) (s : State) : Stepped := s.request port 0x02 p
/-- Performed once at the ownership point (R381). -/
def execAtomic (port : Fin 16) (p : Packet) (s : State) : Stepped := s.request port 0x03 p
/-- The packet names the bytes of one element, or those that a run of elements covers (log 35). -/
def execRdstride (port : Fin 16) (p : Packet) (s : State) : Stepped := s.request port 0x04 p
/-- A member's copy of a multicast store element (R373, R397), or a piece of a block (R402). -/
def execMcwrite (port : Fin 16) (p : Packet) (s : State) : Stepped := s.request port 0x08 p
/-- A member's value of a reducing load element (R374, R398). -/
def execRedread (port : Fin 16) (p : Packet) (s : State) : Stepped := s.request port 0x09 p
def execMigrate (port : Fin 16) (p : Packet) (s : State) : Stepped := s.request port 0x20 p
def execOwninv (port : Fin 16) (p : Packet) (s : State) : Stepped := s.request port 0x21 p
def execColl (port : Fin 16) (p : Packet) (s : State) : Stepped := s.request port 0x30 p

/-! ## Responses (R344, R390, R395, R397) -/

/-- Whether a response tells of a relay: the owner answered (R344, R390). -/
def redirects (p : Packet) : Bool := p.addr.getLsbD 21

/-- The member of a group that a response speaks for: its sender, or the one whose frame its sender owns, where the copy was relayed
there. -/
def State.memberFor (s : State) (x : SendPair) (u : Unanswered) (p : Packet) : Option (BitVec 13) :=
  let list := ((s.group x.dst.toNat).elim [] (·.list)).filter fun m => !u.answered.any (·.toNat == m)
  if list.contains p.src.toNat then some p.src
  else if redirects p then
    (list.find? fun m => s.ownerOf (m * 2 ^ 34 + u.packet.addr.toNat / 2 ^ 16) == p.src.toNat).map (BitVec.ofNat 13)
  else none

/-- Whether an unanswered request is the one that a response answers: from the endpoint it was sent to, a member of its group, or the
owner that it was relayed to (R344, R390). -/
def State.answeredBy (s : State) (x : SendPair) (u : Unanswered) (p : Packet) : Bool :=
  u.packet.seq == p.seq &&
  if x.grp then (s.memberFor x u p).isSome
  else x.dst == p.src || (redirects p && u.packet.route == p.route && u.packet.home == p.home)

/-- The requests of a pair after a response: a request to a group stays until every other member has answered. -/
def State.settleRequests (s : State) (x : SendPair) (p : Packet) : SendPair :=
  { x with unanswered := x.unanswered.filterMap fun u =>
      if s.answeredBy x u p then
        let got := (s.memberFor x u p).getD p.src :: u.answered
        let all := !x.grp || ((s.group x.dst.toNat).elim [] (·.list)).all fun m => m == s.here || got.any (·.toNat == m)
        if all then none else some { u with answered := got }
      else some u }

/-- The frame that the access of a request was made to, by its home: at the member that answers, where the request went to a group. -/
def State.accessFrame (s : State) (x : SendPair) (u : Unanswered) (p : Packet) : Nat :=
  match (if x.grp then s.memberFor x u p else none) with
  | some m => m.toNat * 2 ^ 34 + u.packet.addr.toNat / 2 ^ 16
  | none => packetFrame u.packet

/-- What a response means for the request it answers. A redirect goes into the owner cache of the die that sent the request, for the
frame accessed (R338, R344). -/
def State.answered (s : State) (h : Nat) (u : Unanswered) (p : Packet) : State :=
  let q := u.packet
  let status := bitsAt p.addr.toNat 0 8
  let s := if q.kind == 0x08 && (status == 1 || status == 2) then s.countDrop q.route.toNat else s
  let s := if redirects p then s.putOwner u.die h (BitVec.ofNat 13 (bitsAt p.addr.toNat 8 13)) else s
  match q.kind.toNat with
  | 0x21 => { s with frames := s.frames.map fun r =>
      if r.frame == packetFrame q then
        { r with stubs := r.stubs.map fun x =>
            if x.endpoint == s.fabric.fendp && x.reclaiming then { x with replies := p.src :: x.replies } else x }
      else r }
  | 0x20 => match s.moves.find? (·.frame == packetFrame q), status with
    | some m, 4 => s.cancelMove m (p.data.head?.elim 2 (·.toNat))
    | _, _ => s
  | _ => s

/-- The requests that waited for a pair's unanswered ones to grow fewer leave (R379). -/
def State.sendQueued (s : State) (p : Packet) : State :=
  let x := s.sendPair p
  let (out, y) := x.pump x.queued
  if x.queued.isEmpty then s else s.putPair p out y

/-- A response (R390): the first to each number is taken, and any other is discarded and counted (R381). It acknowledges what its request's
port has replayed (R394). -/
def execResp (port : Fin 16) (p : Packet) (s : State) : Stepped :=
  .next (s.arrive port 0x10 p fun s =>
    match s.fabric.send.findSome? fun x => (x.unanswered.find? fun u => s.answeredBy x u p).map fun u => (x, u) with
    | none => s.modPort port fun x => { x with pdup := x.pdup + 1 }
    | some (x, u) =>
      let h := s.accessFrame x u p
      let send := s.fabric.send.map fun y => if y == x then s.settleRequests y p else y
      let s := ({ s with fabric := { s.fabric with send := send } } : State).modPort (s.portFor u.packet.route.toNat) fun y =>
        { y with replay := 0 }
      (s.answered h u p).sendQueued u.packet)

/-! ## Links (R380, R394, R395) -/

/-- A port goes down (R394, R405). -/
def State.downPort (s : State) (port : Fin 16) : State :=
  (s.modPort port fun x => { x with up := false, train := true, downev := true, replay := 0 }).raiseEvent 5

/-- A flit is replayed; after 16 consecutive replays of one the port is taken down and retrained (R394). -/
def execLinkReplay (port : Fin 16) (s : State) : Stepped :=
  .next <|
    if !s.fabric.ports[port].up then s
    else
      let s := s.modPort port fun x => { x with preplay := x.preplay + 1, replay := x.replay + 1 }
      if s.fabric.ports[port].replay ≥ 16 then s.downPort port else s

/-- The end of boot (R448, R455). -/
def State.bootDone (s : State) : State :=
  ({ s with mgmt := { s.mgmt with stage := 8, ready := true, memUp := true } } : State).raiseEvent 0

/-- A port that trains has trained. Once all have done so in stage 7, boot is over (R448; log 42). -/
def execPortTrain (port : Fin 16) (s : State) : Stepped :=
  .next <|
    if !s.powered || !s.fabric.ports[port].train then s
    else
      let s := s.modPort port fun x => { x with up := true, train := false, replay := 0 }
      if s.mgmt.stage == 7 && s.fabric.ports.toList.all (·.up) then s.bootDone else s

/-- A request that has failed (R395). -/
def State.requestLost (s : State) (q : Packet) : State :=
  let s := s.logEvent 7 0 0 0 (q.kind.setWidth 64) (q.dst.setWidth 64)
  let s := if [0x02, 0x03, 0x08].contains q.kind.toNat then s.countDrop q.route.toNat else s
  match q.kind.toNat, s.moves.find? (·.frame == packetFrame q) with
  | 0x20, some m => s.cancelMove m 4
  | _, _ => s

/-- Whether the requests of a route that went before one have been sent again as often as it is to be now (R395). -/
def SendPair.inTurn (x : SendPair) (u : Unanswered) : Bool :=
  (x.unanswered.takeWhile (· != u)).all fun v => v.packet.route != u.packet.route || decide (v.resends > u.resends)

/-- A request without a response after TMO is sent again, the ones of a route in their original order, or fails after LIMIT resends
(R395); an owner-invalidate never fails (R349). -/
def execE2eResend (dst : BitVec 13) (seq : BitVec 32) (s : State) : Stepped :=
  .next <|
    match s.fabric.send.findSome? fun x =>
        if x.dst == dst then (x.unanswered.find? (·.packet.seq == seq)).map fun u => (x, u) else none with
    | none => s
    | some (x, u) =>
      let set (l : List Unanswered) : State :=
        { s with fabric := { s.fabric with send := s.fabric.send.map fun y => if y == x then { y with unanswered := l } else y } }
      if !x.inTurn u then s
      else if decide (u.resends < s.fabric.limit.toNat) || u.packet.kind == 0x21 then
        let s := set (x.unanswered.map fun v => if v == u then { v with resends := v.resends + 1 } else v)
        let s := { s with fabric := { s.fabric with outbox := s.fabric.outbox ++ [u.packet] } }
        s.modPort (s.portFor u.packet.route.toNat) fun y => { y with presend := y.presend + 1 }
      else ((set (x.unanswered.filter (· != u))).requestLost u.packet).sendQueued u.packet

/-- A peer has been reset and its ports train again: numbering starts afresh both ways (R380). -/
def execPeerEndpointReset (endpoint : BitVec 13) (s : State) : Stepped :=
  .next { s with fabric := { s.fabric with
    recv := s.fabric.recv.filter (·.src != endpoint)
    waiting := s.fabric.waiting.filter (·.2.src != endpoint)
    send := s.fabric.send.map fun x => if x.dst == endpoint && !x.grp then { x with next := 0, routes := [] } else x } }

/-! ## Stores moving outward (R359) -/

/-- Whether two entries stand in one buffer. -/
def Entry.sameBuffer (a b : Entry) : Bool :=
  a.level == b.level && (⟨a.loc, some a.stream, a.level⟩ : Path).sees b

/-- The k-th buffered store moves to the next level, where no older one of its buffer overlaps it, save one that counts as sent, and
no open strip holds it (R359); from the device buffer it is performed, or comes into the hold queue of a frozen frame, where that has
room (R342). -/
def execStoreEntryMove (k : Nat) (s : State) : Stepped :=
  .next <| match s.pend[k]? with
    | none => s
    | some e =>
      let older := (s.pend.take k).any fun x => e.sameBuffer x && !x.sent && e.bytes.any fun b => x.covers b.ga
      let full := e.level ≥ 4 && (s.mayNotLeave e.loc.die ((e.bytes.take 1).map (·.ga)) || s.moves.any fun m =>
        e.bytes.head?.elim false (gaFrame ·.ga == m.frame) && !s.mayHold m e)
      if e.strip || e.sent || older || full then s
      else
        let rest := s.pend.eraseIdx k
        if e.level ≥ 4 then ({ s with pend := rest } : State).performEntry e
        else { s with pend := rest ++ [{ e with level := e.level + 1 }] }

/-! ## FENDP (R385, R405) -/

/-- A global address of this device under another endpoint number. -/
def renumber (old new ga : Nat) : Nat := if gaEndpoint ga == old then new * 2 ^ 50 + gaLocal ga else ga

/-- The endpoint number changes: what lies at this endpoint lies there under its new number (log 43). -/
def State.setEndpoint (s : State) (e : BitVec 13) : State :=
  let old := s.here
  let new := e.toNat
  if old == new then s
  else
    let move (ga : Nat) : Nat := renumber old new ga
    let mine (ga : Nat) : Bool := gaEndpoint ga != new
    let frame (h : Nat) : Nat := if h / 2 ^ 34 == old then new * 2 ^ 34 + h % 2 ^ 34 else h
    let id (x : BitVec 13) : BitVec 13 := if x.toNat == old then e else x
    let entry (x : TlbEntry) : TlbEntry := if x.fabric then { x with base := move x.base } else x
    { s with
      fabric := { s.fabric with fendp := e }
      mem := (s.mem.filter fun c => mine c.1).foldl (fun m c => Memory.write m (move c.1) c.2) []
      poison := (s.poison.filter fun l => mine (l * 64)).foldl (fun p l => insertNat (move (l * 64) / 64) p) []
      pend := s.pend.map fun x => { x with bytes := x.bytes.map fun b => { b with ga := move b.ga } }
      trace := s.trace.map fun t => (move t.1, t.2)
      frames := s.frames.map fun r => { r with
        frame := frame r.frame, owner := id r.owner, stubs := r.stubs.map fun x => { x with endpoint := id x.endpoint, next := id x.next } }
      unreachable := s.unreachable.map frame
      cores := s.cores.map fun c => { c with tlb := c.tlb.map entry }
      dies := s.dies.map fun d => { d with tlb := d.tlb.map entry } }

/-- A write of FENDP: ignored while any port is up (R405). In stage 7 it is that of the boot firmware, after which the ports train
(R448). -/
def State.writeFendp (s : State) (v : Word) : State :=
  if s.fabric.ports.toList.any (·.up) then s
  else
    let s := s.setEndpoint (v.setWidth 13)
    if s.mgmt.stage == 7 then { s with fabric := { s.fabric with ports := s.fabric.ports.map fun p => { p with train := true } } } else s

def execFendpWrite (val : Word) (s : State) : Stepped := .next (if s.powered && !s.mgmt.err then s.writeFendp val else s)

end Sys2Proof.Machine
end

