-- ==== Sys2Proof/Machine/Crypto.lean ====
section
/-! DEFINITION. SHAKE256 (FIPS 202) and SLH-DSA-SHAKE-256s (FIPS 205), which R450 and R451 name; log 17. -/

namespace Sys2Proof.Machine

/-! ## SHAKE256 -/

/-- The round constants of Keccak. -/
def keccakRounds : List Word :=
  [0x0000000000000001, 0x0000000000008082, 0x800000000000808A, 0x8000000080008000, 0x000000000000808B, 0x0000000080000001,
   0x8000000080008081, 0x8000000000008009, 0x000000000000008A, 0x0000000000000088, 0x0000000080008009, 0x000000008000000A,
   0x000000008000808B, 0x800000000000008B, 0x8000000000008089, 0x8000000000008003, 0x8000000000008002, 0x8000000000000080,
   0x000000000000800A, 0x800000008000000A, 0x8000000080008081, 0x8000000000008080, 0x0000000080000001, 0x8000000080008008]

/-- The rotation of lane (x, y), at x + 5y. -/
def keccakRotations : List Nat :=
  [0, 1, 62, 28, 27, 36, 44, 6, 55, 20, 3, 10, 43, 25, 39, 41, 45, 15, 21, 8, 18, 2, 61, 56, 14]

def lane (a : List Word) (x y : Nat) : Word := a.getD (x % 5 + 5 * (y % 5)) 0

/-- The 25 lanes given by a function of x and y. -/
def lanes (f : Nat → Nat → Word) : List Word := (List.range 25).map fun i => f (i % 5) (i / 5)

def keccakRound (a : List Word) (rc : Word) : List Word :=
  let c := (List.range 5).map fun x => (List.range 5).foldl (fun acc y => acc ^^^ lane a x y) 0
  let a := lanes fun x y => lane a x y ^^^ c.getD ((x + 4) % 5) 0 ^^^ (c.getD ((x + 1) % 5) 0).rotateLeft 1
  let b := lanes fun x y =>
    let u := (x + 3 * y) % 5
    (lane a u x).rotateLeft (keccakRotations.getD (u + 5 * x) 0)
  lanes fun x y => (lane b x y ^^^ (~~~(lane b (x + 1) y) &&& lane b (x + 2) y)) ^^^ (if x + y == 0 then rc else 0)

def keccakF (a : List Word) : List Word := keccakRounds.foldl keccakRound a

/-- A block of 136 bytes taken into the state. -/
def absorb (a : List Word) (block : List Byte) : List Word :=
  keccakF (a.zipIdx.map fun l => l.1 ^^^ BitVec.ofNat 64 (leNat ((block.drop (8 * l.2)).take 8)))

/-- Blocks of 136 bytes, the last one with its padding. -/
def shakeBlocks (m : List Byte) : List (List Byte) :=
  let k := m.length / 136 + 1
  let p := m ++ [(0x1F : Byte)] ++ List.replicate (136 * k - m.length - 1) 0
  (List.range k).map fun i =>
    let b := (p.drop (136 * i)).take 136
    if i + 1 == k then b.set 135 (b.getD 135 0 ||| 0x80) else b

/-- Blocks of output from a state. -/
def squeeze : Nat → List Word → List Byte
  | 0, _ => []
  | k + 1, a => (a.take 17).flatMap (fun l => leBytes 8 l.toNat) ++ squeeze k (keccakF a)

/-- SHAKE256 of a message: its first `n` bytes. -/
def shake (m : List Byte) (n : Nat) : List Byte :=
  (squeeze ((n + 135) / 136) ((shakeBlocks m).foldl absorb (List.replicate 25 0))).take n

/-- SHAKE256 of a message, 512 bits (R451). -/
def shake256 (m : List Byte) : BitVec 512 := BitVec.ofNat 512 (leNat (shake m 64))

/-! ## SLH-DSA-SHAKE-256s: n = 32, h = 64, d = 8, h' = 8, a = 14, k = 22, w = 16, m = 47 -/

/-- A number in `n` bytes, highest first, and back. -/
def beBytes (n x : Nat) : List Byte := (leBytes n x).reverse
def beNat (bs : List Byte) : Nat := leNat bs.reverse

/-- A hash address: layer, tree, type, and the three words that its type gives a meaning. -/
structure Adrs where
  layer : Nat
  tree : Nat
  kind : Nat
  w1 : Nat
  w2 : Nat
  w3 : Nat

def Adrs.bytes (a : Adrs) : List Byte :=
  beBytes 4 a.layer ++ beBytes 12 a.tree ++ beBytes 4 a.kind ++ beBytes 4 a.w1 ++ beBytes 4 a.w2 ++ beBytes 4 a.w3

/-- F, H and the T functions of the parameter set. -/
def slhHash (seed : List Byte) (a : Adrs) (m : List Byte) : List Byte := shake (seed ++ a.bytes ++ m) 32

/-- PRF. -/
def slhPrf (seed secret : List Byte) (a : Adrs) : List Byte := shake (seed ++ a.bytes ++ secret) 32

/-- `s` steps of a WOTS chain from step `i`. -/
def slhChain (seed : List Byte) (a : Adrs) (x : List Byte) (i s : Nat) : List Byte :=
  (List.range s).foldl (fun y j => slhHash seed { a with w3 := i + j } y) x

/-- The 67 digits that WOTS signs of 32 bytes: 64 of the message and three of its checksum. -/
def wotsDigits (m : List Byte) : List Nat :=
  let ds := m.flatMap fun b => [b.toNat / 16, b.toNat % 16]
  let sum := (ds.map (15 - ·)).sum
  ds ++ [sum / 256 % 16, sum / 16 % 16, sum % 16]

/-- Parts of 32 bytes. -/
def parts (bs : List Byte) (k : Nat) : List (List Byte) := (List.range k).map fun i => (bs.drop (32 * i)).take 32

/-- The WOTS public key under a key-pair address, from the ends of its chains. -/
def wotsRoot (seed : List Byte) (a : Adrs) (ends : List (List Byte)) : List Byte :=
  slhHash seed { a with kind := 1, w2 := 0, w3 := 0 } ends.flatten

/-- A WOTS public key from a signature. -/
def wotsFromSig (seed : List Byte) (a : Adrs) (sig : List (List Byte)) (m : List Byte) : List Byte :=
  wotsRoot seed a (((wotsDigits m).zip sig).zipIdx.map fun x => slhChain seed { a with kind := 0, w2 := x.2 } x.1.2 x.1.1 (15 - x.1.1))

/-- The root of a tree from a leaf and its path. -/
def climb (seed : List Byte) (a : Adrs) (idx : Nat) (auth : List (List Byte)) (leaf : List Byte) : List Byte :=
  auth.zipIdx.foldl (fun node x =>
    let b := { a with w2 := x.2 + 1, w3 := idx / 2 ^ (x.2 + 1) }
    if idx / 2 ^ x.2 % 2 == 0 then slhHash seed b (node ++ x.1) else slhHash seed b (x.1 ++ node)) leaf

/-- The root of an XMSS tree from a signature of 75 parts. -/
def xmssFromSig (seed : List Byte) (layer tree idx : Nat) (sig : List (List Byte)) (m : List Byte) : List Byte :=
  climb seed ⟨layer, tree, 2, 0, 0, 0⟩ idx (sig.drop 67) (wotsFromSig seed ⟨layer, tree, 0, idx, 0, 0⟩ (sig.take 67) m)

/-- The root of the hypertree from a signature of 8 XMSS signatures. -/
def hyperFromSig (seed : List Byte) (tree leaf : Nat) (sig : List (List Byte)) (m : List Byte) : List Byte :=
  ((List.range 8).foldl (fun (acc : List Byte × Nat × Nat) j =>
    (xmssFromSig seed j acc.2.1 acc.2.2 ((sig.drop (75 * j)).take 75) acc.1, acc.2.1 / 256, acc.2.1 % 256)) (m, tree, leaf)).1

/-- The 22 indices of 14 bits that FORS signs. -/
def forsIndices (md : List Byte) : List Nat := (List.range 22).map fun i => beNat md / 2 ^ (312 - 14 * (i + 1)) % 2 ^ 14

/-- The FORS public key from a signature of 22 × 15 parts. -/
def forsFromSig (seed : List Byte) (tree leaf : Nat) (sig : List (List Byte)) (md : List Byte) : List Byte :=
  let a : Adrs := ⟨0, tree, 3, leaf, 0, 0⟩
  let roots := (forsIndices md).zipIdx.map fun x =>
    let i := x.2 * 2 ^ 14 + x.1
    climb seed a i ((sig.drop (15 * x.2 + 1)).take 14) (slhHash seed { a with w3 := i } (sig.getD (15 * x.2) []))
  slhHash seed { a with kind := 4 } roots.flatten

/-- What the digest of a message selects: the FORS message, the tree and the leaf. -/
def slhDigest (r pk m : List Byte) : List Byte × Nat × Nat :=
  let d := shake (r ++ pk ++ m) 47
  (d.take 39, beNat ((d.drop 39).take 7), beNat (d.drop 46))

/-- Verification with an empty context. A public key is PK.seed and PK.root. -/
def slhVerify (pk m sig : List Byte) : Bool :=
  if sig.length != 29792 then false
  else
    let seed := pk.take 32
    let ps := parts sig 931
    let (md, tree, leaf) := slhDigest (ps.headD []) pk ([(0 : Byte), 0] ++ m)
    hyperFromSig seed tree leaf (ps.drop 331) (forsFromSig seed tree leaf ((ps.drop 1).take 330) md) == pk.drop 32

/-- The start of a WOTS chain. -/
def wotsSecret (seed secret : List Byte) (a : Adrs) (i : Nat) : List Byte :=
  slhPrf seed secret { a with kind := 5, w2 := i, w3 := 0 }

/-- A node of an XMSS tree at a height. -/
def xmssNode (seed secret : List Byte) (layer tree : Nat) : Nat → Nat → List Byte
  | 0, i =>
    let a : Adrs := ⟨layer, tree, 0, i, 0, 0⟩
    wotsRoot seed a ((List.range 67).map fun k => slhChain seed { a with w2 := k } (wotsSecret seed secret a k) 0 15)
  | z + 1, i =>
    slhHash seed ⟨layer, tree, 2, 0, z + 1, i⟩ (xmssNode seed secret layer tree z (2 * i) ++ xmssNode seed secret layer tree z (2 * i + 1))

/-- An XMSS signature: 67 parts of WOTS and the path of 8. -/
def xmssSign (seed secret : List Byte) (layer tree idx : Nat) (m : List Byte) : List (List Byte) :=
  let a : Adrs := ⟨layer, tree, 0, idx, 0, 0⟩
  ((wotsDigits m).zipIdx.map fun x => slhChain seed { a with w2 := x.2 } (wotsSecret seed secret a x.2) 0 x.1) ++
    (List.range 8).map fun j => xmssNode seed secret layer tree j ((idx / 2 ^ j) ^^^ 1)

/-- A node of FORS at a height. -/
def forsNode (seed secret : List Byte) (a : Adrs) : Nat → Nat → List Byte
  | 0, i => slhHash seed { a with w2 := 0, w3 := i } (slhPrf seed secret { a with kind := 6, w2 := 0, w3 := i })
  | z + 1, i =>
    slhHash seed { a with w2 := z + 1, w3 := i } (forsNode seed secret a z (2 * i) ++ forsNode seed secret a z (2 * i + 1))

def forsSign (seed secret : List Byte) (tree leaf : Nat) (md : List Byte) : List (List Byte) :=
  let a : Adrs := ⟨0, tree, 3, leaf, 0, 0⟩
  (forsIndices md).zipIdx.flatMap fun x =>
    slhPrf seed secret { a with kind := 6, w3 := x.2 * 2 ^ 14 + x.1 } ::
      (List.range 14).map fun j => forsNode seed secret a j (x.2 * 2 ^ (14 - j) + ((x.1 / 2 ^ j) ^^^ 1))

/-- A key pair: SK.seed, SK.prf and PK.seed. -/
structure SlhKey where
  secret : List Byte
  prf : List Byte
  seed : List Byte

/-- The public key of 64 bytes. -/
def SlhKey.pub (k : SlhKey) : List Byte := k.seed ++ xmssNode k.seed k.secret 7 0 8 0

/-- A signature of 29,792 bytes under a randomizer, with an empty context. -/
def SlhKey.sign (k : SlhKey) (m rand : List Byte) : List Byte :=
  let m := [(0 : Byte), 0] ++ m
  let r := shake (k.prf ++ rand ++ m) 32
  let q := slhDigest r k.pub m
  let fors := forsSign k.seed k.secret q.2.1 q.2.2 q.1
  let first := forsFromSig k.seed q.2.1 q.2.2 fors q.1
  let hyper := (List.range 8).foldl (fun (acc : List (List Byte) × List Byte × Nat × Nat) j =>
    let x := xmssSign k.seed k.secret j acc.2.2.1 acc.2.2.2 acc.2.1
    (acc.1 ++ x, xmssFromSig k.seed j acc.2.2.1 acc.2.2.2 x acc.2.1, acc.2.2.1 / 256, acc.2.2.1 % 256)) ([], first, q.2.1, q.2.2)
  (r :: fors ++ hyper.1).flatten

/-! ## What the device signs and verifies (R450) -/

/-- The digest of what is measured (R448, R451): 64 bytes of SHAKE256 (DEDUCED, log 17). -/
def digestOf (bs : List Byte) : BitVec 512 := shake256 bs

/-- Whether signed bytes verify under one of the two fused keys. The spec does not say where a signature stands: the model takes the
first 29,792 bytes (DESIGN CHOICE, log 17). -/
def verifies (bs : List Byte) : Bool :=
  [false, true].any fun k => slhVerify ((List.range 64).map (Config.firmwareKey k)) (bs.drop 29792) (bs.take 29792)

/-- The device identity, derived from the fused secret. -/
def identity : SlhKey :=
  ⟨(List.range 32).map Config.identityKey, (List.range 32).map (fun i => Config.identityKey (32 + i)),
   (List.range 32).map fun i => Config.identityKey (64 + i)⟩

end Sys2Proof.Machine
end

