-- ==== Sys2Proof/Machine/Module.lean ====
section
/-! DEFINITION. The host link (R406 to R410), the registers that the host and the sideband reach (R300, R303, R404, R405, R439 to
R442, R453, R454), boot, firmware and attestation (R448 to R452), power and heat (R456), and the sideband (R457). -/

namespace Sys2Proof.Machine

/-! ## CXL.mem and CXL.cache (R376, R407 to R410) -/

/-- Whether a run of bytes of the HDM range lies in it whole (R406, R407). -/
def State.hdmHolds (s : State) (off n : Nat) : Bool :=
  s.powered && s.host.up && match s.host.hdm with | some (_, size) => decide (off + n ≤ size) | none => false

def State.hdmBase (s : State) : Nat := match s.host.hdm with | some (b, _) => b | none => 0

/-- Whether a run of bytes of the HDM range meets a hole (R407). -/
def State.hole (s : State) (off n : Nat) : Bool :=
  (List.range n).any fun k => regionOf (off + k) == .hole || s.isReserved (off + k)

/-- Hands data to the host. -/
def State.toHost (s : State) (bs : List Byte) (poison : Bool) : State :=
  { s with host := { s.host with answers := s.host.answers ++ [(bs, poison)] } }

/-- A host access that meets a hole is counted and logged (R407). -/
def State.meetHole (s : State) (write : Bool) (off : Nat) : State :=
  ({ s with host := { s.host with holes := s.host.holes + 1 } } : State).logEvent 11 0 0 0 (if write then 1 else 0)
    (BitVec.ofNat 64 (s.hdmBase + off))

/-- Whether the hold queue of a frozen frame has no room, so that nothing more is accepted there (R342). -/
def State.holdFull (s : State) (gas : List Nat) : Bool :=
  s.moves.any fun m => !s.holdRoomAt m && gas.any fun ga => gaFrame ga == m.frame

/-- A host read of device memory (R327, R407, R376): at its ownership point, as an access of this device; a hole, or an owner that does
not answer, gives data marked poison (log 4). -/
def execHostMemRead (off n : Nat) (s : State) : Stepped :=
  .next <|
    let gas := (List.range n).map fun k => s.gaOf (off + k)
    let junk : List Byte := (List.range n).map (Config.freeByte s.fresh)
    if !s.hdmHolds off n || s.holdFull gas then s
    else if s.hole off n then
      ((s.toHost junk true).bump).meetHole false off
    else match gas.find? fun ga => !s.reachable hubDie ga with
      | some ga => ((s.toHost junk true).bump).requestFailed 0 0 1 (s.silent hubDie (gaFrame ga)) (gaRoute ga) false
      | none =>
        let (r, s) := s.pointRead gas
        (s.noteAccess hubDie gas .load).toHost r.bytes r.poison

/-- A host write of device memory (R376, R407): performed at `fabric` scope on acceptance, which waits while the frame is frozen
(R342); at a hole it is discarded. -/
def execHostMemWrite (off : Nat) (data : List Byte) (poison : Bool) (s : State) : Stepped :=
  .next <|
    let gas := (List.range data.length).map fun k => s.gaOf (off + k)
    if !s.hdmHolds off data.length then s
    else if s.hole off data.length then s.meetHole true off
    else if gas.any fun ga => s.moves.any fun (m : MoveRec) => m.frame == gaFrame ga then s
    else match gas.find? fun ga => !s.reachable hubDie ga with
      | some ga => s.requestFailed 0 0 2 (s.silent hubDie (gaFrame ga)) (gaRoute ga) true
      | none => (s.pointWrite gas data poison).noteAccess hubDie gas .store

/-- A host snoop takes a line of host memory from the host-line cache, or keeps it shared (R327, R409); it is answered with the line as the
stores performed so far have left it, whole (R409), where the cache holds it, and without data where not. `data` is what the host writes to
a line it owns. -/
def execHostSnoop (line : Nat) (own : Bool) (data : Option (List Byte)) (s : State) : Stepped :=
  .next <|
    let base := s.gaOf (0x2000000000000 + line * 64 % 2 ^ 48)
    if !s.powered || !s.host.up then s
    else
      let x := gaLine base
      let s := if s.host.lines.any (·.1 == x) then
          s.toHost ((List.range 64).map fun k => s.mem.read (base + k)) (s.poison.contains x)
        else s.toHost [] false
      let lines := if own then s.host.lines.filter (·.1 != x)
        else s.host.lines.map fun y => if y.1 == x then (x, false) else y
      let s := { s with host := { s.host with lines := lines } }
      match data with
      | some bs => if own then { s with mem := writeMem s.mem base (bs.take 64) } else s
      | none => s

/-- The CXL link goes down, or has trained: for the first time at boot (R448), or again, with event 6; or it reports an error that it does
not correct, with event 6 as well (R410, R455). -/
def execCxlLinkRetrain (e : LinkEvent) (s : State) : Stepped :=
  .next <|
    if !s.powered then s
    else match e with
    | .down => { s with host := { s.host with up := false } }
    | .error => if s.host.up then s.raiseEvent 6 else s
    | .trained =>
      if s.mgmt.stage.toNat < 6 || s.host.up then s
      else
        let s : State := { s with host := { s.host with up := true } }
        if s.mgmt.stage == 6 then { s with mgmt := { s.mgmt with stage := 7 } } else s.raiseEvent 6

/-- The host commits the HDM decoder: refused, with a decoder commit error, until MEM is 1 (R448) and beyond 256 GiB (R406). -/
def execHdmDecoderCommit (base size : Nat) (s : State) : Stepped :=
  .next <|
    if !s.powered || !s.host.up then s
    else if s.mgmt.memUp && decide (size ≤ 0x4000000000) then
      { s with host := { s.host with hdm := some (base, size), commitError := false } }
    else { s with host := { s.host with commitError := true } }

/-- Whether a register of a BAR can be reached at all, which it always can by the sideband of a powered module, BAR 0 alone in the failed
state of stage 2 (R448, R457). -/
def State.sidebandUp (s : State) (bar : Nat) : Bool := s.powered && (!s.mgmt.err || bar == 0)

/-! ## Queue registers (R300, R301) -/

/-- A write of PRIO and WEIGHT begins every core's deficit of the queue afresh (R316). -/
def State.clearDeficits (s : State) (q : QueueId) : State :=
  let clear (c : CoreState) : CoreState :=
    if c.arb.deficits.any (·.1 == q) then { c with arb := c.arb.setDeficit q 0 } else c
  { s with cores := s.cores.map clear }

/-- QCTL (R301). -/
def State.writeQctl (s : State) (q : QueueId) (v : Word) : State :=
  let w : BitVec 8 := v.extractLsb' 8 8
  (s.modQueue q fun x => { x with en := v.getLsbD 16, weight := if w = 0 then 1 else w, prio := v.extractLsb' 0 3 }).clearDeficits q

def execQctlWrite (q : QueueId) (val : Word) (s : State) : Stepped := .next (if s.sidebandUp 2 then s.writeQctl q val else s)

/-- QCMASK (R301): contexts of a core that is no longer eligible are moved under R314. -/
def State.writeQcmask (s : State) (q : QueueId) (v : Word) : State := s.modQueue q fun x => { x with qcmask := v.setWidth 12 }

def execQcmaskWrite (q : QueueId) (val : Word) (s : State) : Stepped :=
  .next (if s.sidebandUp 2 then s.writeQcmask q val else s)

/-- The register of a queue's page (R300). -/
def State.writeQueueReg (s : State) (q : QueueId) (off : Nat) (v : Word) : State :=
  if off < 0x40 then s.launchWrite q off (leBytes 8 v.toNat)
  else match off with
  | 0x40 => s.writeQctl q v
  | 0x50 => s.modQueue q fun x => { x with qatp := storedAtp v }
  | 0x58 => s.modQueue q fun x => { x with qasid := v.setWidth 16 }
  | 0x60 => s.writeQcmask q v
  | 0x68 => s.modQueue q fun x => { x with qtvec := v &&& ~~~(0xFF : Word) }
  | _ => s

def State.readQueueReg (s : State) (q : QueueId) (off : Nat) : Word :=
  let x := s.queueAt q
  match off with
  | 0x40 => (x.prio.setWidth 64) ||| (x.weight.setWidth 64 <<< 8) ||| (if x.en then 0x10000 else 0)
  | 0x48 => BitVec.ofNat 64 (32 - x.fifo.length) ||| (x.dropped.setWidth 64 <<< 16) ||| (x.refusedCnt.setWidth 64 <<< 32) |||
      (x.done.setWidth 64 <<< 48)
  | 0x50 => x.qatp
  | 0x58 => x.qasid.setWidth 64
  | 0x60 => x.qcmask.setWidth 64
  | 0x68 => x.qtvec
  | _ => 0

/-- The queue that an offset of BAR 2 lies in (R300). -/
def queueOfOffset (off : Nat) : QueueId := ⟨Fin.ofNat 4 (off / 0x40000), Fin.ofNat 64 (off / 0x1000)⟩

/-! ## Fabric registers (R404, R405) -/

def State.writeFabricReg (s : State) (off : Nat) (v : Word) : State :=
  let f := s.fabric
  match off with
  | 0x000 => s.writeFendp v
  | 0x008 => { s with fabric := { f with fgtbase := v &&& 0x3FFFFFFFE0001 } }
  | 0x010 =>
    let n : BitVec 4 := v.extractLsb' 32 4
    let t : BitVec 32 := v.setWidth 32
    { s with fabric := { f with limit := if n = 0 then 1 else n, tmo := if t < 5 then 5 else t } }
  | _ =>
    if 0x100 ≤ off ∧ off < 0x500 ∧ off % 0x40 == 0 then
      s.modPort (Fin.ofNat 16 ((off - 0x100) / 0x40)) fun p => { p with downev := p.downev && !v.getLsbD 2 }
    else s

def State.readFabricReg (s : State) (off : Nat) : Word :=
  let f := s.fabric
  match off with
  | 0x000 => f.fendp.setWidth 64
  | 0x008 => f.fgtbase
  | 0x010 => (f.limit.setWidth 64 <<< 32) ||| f.tmo.setWidth 64
  | _ =>
    if 0x100 ≤ off ∧ off < 0x500 then
      let p := f.ports[Fin.ofNat 16 ((off - 0x100) / 0x40)]
      match off % 0x40 with
      | 0x00 => (if p.up then 1 else 0) ||| (if p.train then 2 else 0) ||| (if p.downev then 4 else 0)
      | 0x08 => p.pdup
      | 0x10 => p.preplay
      | 0x18 => p.presend
      | 0x20 => p.pdrop
      | 0x28 => p.ppsn
      | _ => 0
    else 0

/-! ## Translation invalidation (R334, R454) -/

/-- A write of TINVCTL: GO starts, and is ignored while BUSY is 1; ASID is written in any case (R454). -/
def State.writeTinv (s : State) (v : Word) : State :=
  let m := s.mgmt
  { s with mgmt := { m with
      tinvAsid := v.setWidth 16
      tinvGo := if m.tinvGo.isNone && v.getLsbD 16 then some (v.setWidth 16, m.tinvva, m.tinvlen) else m.tinvGo } }

def execTlbInvalidate (val : Word) (s : State) : Stepped := .next (if s.sidebandUp 0 then s.writeTinv val else s)

/-- Whether an invalidation names an entry: its ASID, and a page that meets the range. -/
def invalidates (asid : BitVec 16) (va len : Word) (e : TlbEntry) : Bool :=
  e.asid == asid && (len == 0 || decide (e.va < va.toNat + len.toNat ∧ va.toNat < e.va + 2 ^ e.lgSize))

/-- The invalidation completes: the entries are gone, and every access stands at `device` scope (R334). It waits for the stores of
an open strip, for instructions in flight and for held writes. -/
def execTlbInvalidateDone (s : State) : Stepped :=
  .next <|
    match s.mgmt.tinvGo with
    | none => s
    | some (asid, va, len) =>
      if s.pend.any (·.strip) || (s.cur :: s.parked).any (!·.flights.isEmpty) || s.moves.any (!·.held.isEmpty) then s
      else
        let s := s.dropTlb (invalidates asid va len)
        { s with
          pend := (byLevel s.pend).map fun e => { e with level := 4 }
          mgmt := { s.mgmt with tinvGo := none } }

/-! ## Visitor pools (R340, R454) -/

/-- A write of VPOOLd: ignored while a frame of the pool holds a visitor. -/
def State.writeVpool (s : State) (d : Fin 4) (v : Word) : State :=
  if s.dies[d].visitors.isEmpty then
    s.modDie d fun x => { x with poolCount := v.extractLsb' 48 16, poolBase := v.setWidth 34 }
  else s

def execVpoolWrite (die : Fin 4) (val : Word) (s : State) : Stepped :=
  .next (if s.sidebandUp 0 then s.writeVpool die val else s)

/-! ## Attestation and measurement (R450 to R452) -/

/-- `extend` of R451. -/
def State.extend (s : State) (i : Fin 8) (d : BitVec 512) : State :=
  let x := shake256 (leBytes 64 s.mgmt.meas[i].toNat ++ leBytes 64 d.toNat)
  { s with mgmt := { s.mgmt with meas := s.mgmt.meas.set i x } }

/-- A write of ATTCTL: GO starts a request, and is ignored while BUSY is 1; OP and SLOT are written in any case (R454). -/
def State.writeAtt (s : State) (v : Word) : State :=
  let m := s.mgmt
  let op : BitVec 2 := v.extractLsb' 8 2
  let slot : BitVec 3 := v.extractLsb' 4 3
  { s with mgmt := { m with
      attOp := op, attSlot := slot
      attGo := if m.attGo.isNone && v.getLsbD 0 then some ⟨op, slot, m.attbuf, m.attnonce⟩ else m.attGo } }

/-- The report, signed under the device identity with a randomizer of its own (R450, R452). -/
def State.report (s : State) (nonce : BitVec 256) : List Byte :=
  let body := leBytes 4 1 ++ leBytes 4 30432 ++ leBytes 8 s.here ++ leBytes 32 nonce.toNat ++ leBytes 8 s.flash.bootcnt.toNat
    ++ leBytes 8 0 ++ (s.mgmt.meas.toList.flatMap fun m => leBytes 64 m.toNat) ++ identity.pub
  body ++ identity.sign body ((List.range 32).map (Config.freeRandomizer s.fresh))

/-- Operation 0 (R452): the report goes to ATTBUF. -/
def execAttestReport (s : State) : Stepped :=
  .next <|
    match s.mgmt.attGo with
    | none => s
    | some r =>
      if r.op != 0 then s
      else
        let bs := s.report r.nonce
        let gas := (List.range bs.length).map fun k => s.gaOf (r.buf.toNat + k)
        ({ s.performBytes (mbytes gas bs) false with mgmt := { s.mgmt with attGo := none } } : State).bump

/-- Operation 1 (R451), of which bytes marked poisoned are open (log 33): slots 4 to 7 are extended, a request for another one, or of
another operation, has no effect (R454). -/
def execMeasExtend (s : State) : Stepped :=
  .next <|
    match s.mgmt.attGo with
    | none => s
    | some r =>
      if r.op == 0 then s
      else
        let gas := (List.range 64).map fun k => s.gaOf (r.buf.toNat + k)
        let s := s.fireInjections gas
        let bs := if s.poison.contains (gaLine (gas.headD 0)) then (List.range 64).map (Config.freeByte s.fresh) else gas.map s.mem.read
        let s := if r.op == 1 && decide (4 ≤ r.slot.toNat) then s.extend (Fin.ofNat 8 r.slot.toNat) (recordOf bs) else s
        ({ s with mgmt := { s.mgmt with attGo := none } } : State).bump

/-! ## Reset and boot (R448, R449) -/

/-- Whether a byte lies in the DRAM or the Commons of this module. -/
def State.inModule (s : State) (ga : Nat) : Bool :=
  match s.localOf ga with
  | some l => regionOf l != .host
  | none => false

/-- The frames that a loss of this module's state leaves unreachable (R449): those at home here that are away, and those that visit. -/
def State.stranded (s : State) : List Nat :=
  (s.frames.filter fun r => r.frame / 2 ^ 34 == s.here || r.owner == s.fabric.fendp).map (·.frame)

/-- What a module reset, or the loss of power, leaves (R449, R456; log 42): flash, the ranges set aside, and what surrounds the module, the
memory of the host and of other endpoints among it. FENDP is 0 again. -/
def State.lost (s : State) : State :=
  let s := s.setEndpoint 0
  { State.reset with
    agenda := s.agenda
    flash := s.flash
    reserved := s.reserved
    upsets := s.upsets
    fresh := s.fresh
    mem := s.mem.filter fun c => !s.inModule c.1
    poison := s.poison.filter fun l => !s.inModule (64 * l)
    frames := (s.frames.filter fun r => !s.stranded.contains r.frame).map fun r =>
      { r with stubs := r.stubs.filter (·.endpoint != s.fabric.fendp) }
    unreachable := s.unreachable ++ s.stranded
    fabric := { Fabric.reset with known := s.fabric.known, answering := s.fabric.answering } }

/-- Where HOT has reached TRIP core power goes at once, and the state is lost (R456). -/
def State.checkTrip (s : State) : State := if s.mgmt.trip ≤ s.mgmt.hot then { s.lost with powered := false } else s

/-- The image that a firmware slot holds. -/
def imageOf (slot : List Host.Cell) : List Byte :=
  match slot.getLast? with
  | some (a, _) => (List.range (a + 1)).map (Memory.read slot)
  | none => []

/-- Boot up to the training of the CXL link (R448 stages 1 to 5): the first slot whose image verifies runs; with none, boot stops in
stage 2 with ERR. R448 does not say when MEAS1 is extended, with the management firmware (R451): the model does so as the firmware starts,
in stage 3 (DESIGN CHOICE, log 17). -/
def State.boot (s : State) : State :=
  let s := { s with flash := { s.flash with bootcnt := s.flash.bootcnt + 1 } }
  let a := (imageOf s.flash.slotA, false)
  let b := (imageOf s.flash.slotB, true)
  match (if s.flash.firstB then [b, a] else [a, b]).find? fun x => verifies x.1 with
  | none => { s with mgmt := { s.mgmt with stage := 2, err := true } }
  | some (image, isB) =>
    let s := { s with flash := { s.flash with runsB := isB } }
    let s := (s.extend 0 (digestOf image)).extend 2 (digestOf Config.fuses)
    let s := s.extend 1 (digestOf (Config.managementPart image))
    let s := s.extend 3 (digestOf (s.flash.badFrames.flatMap fun e => leBytes 8 e.toNat))
    { s with mgmt := { s.mgmt with stage := 6 } }

/-- Power is good: the module boots (R448). -/
def execPowerGood (s : State) : Stepped :=
  .next (if s.powered && s.mgmt.stage != 1 then s else ({ s.lost with powered := true } : State).boot)

/-- RSTCTL.MRST resets the whole module, which boots again (R449). -/
def execMrst (s : State) : Stepped := .next (if s.powered then s.lost.boot else s)

/-- Power is lost (R355): flash survives. -/
def execPowerLoss (s : State) : Stepped := .next { s.lost with powered := false }

/-! ## Firmware (R449) -/

def writeCells (l : List Host.Cell) (off : Nat) (bs : List Byte) : List Host.Cell :=
  (bs.foldl (fun (acc : List Host.Cell × Nat) b => (insertCell acc.1 acc.2 b, acc.2 + 1)) (l, off)).1

/-- 256 bytes of the inactive slot. -/
def execFwWrite (off : Nat) (data : List Byte) (s : State) : Stepped :=
  .next <|
    if !s.powered || data.length != 256 then s
    else if s.flash.runsB then { s with flash := { s.flash with slotA := writeCells s.flash.slotA off data } }
    else { s with flash := { s.flash with slotB := writeCells s.flash.slotB off data } }

/-- The inactive slot, where it verifies, is tried first at the next boot. -/
def execFwCommit (s : State) : Stepped :=
  .next <|
    let other := imageOf (if s.flash.runsB then s.flash.slotA else s.flash.slotB)
    if s.powered && verifies other then { s with flash := { s.flash with firstB := !s.flash.runsB } } else s

/-! ## BAR 0 (R439 to R442, R453, R454) -/

/-- The core whose counter block an offset lies in (R439). -/
def coreOfOffset (off : Nat) : Option CoreId :=
  let b := (off - 0x4000) / 0x100
  if h : 0x4000 ≤ off ∧ b < 64 ∧ b % 16 < 12 then some ⟨⟨b / 16, by omega⟩, ⟨b % 16, h.2.2⟩⟩ else none

/-- EVMASK (R455): a vector whose event stands and is unmasked is raised. -/
def State.writeEvmask (s : State) (mask : BitVec 7) : State :=
  let freed := (List.range 7).filter fun k => s.mgmt.evstat.getLsbD k && s.mgmt.evmask.getLsbD k && !mask.getLsbD k
  { s with mgmt := { s.mgmt with evmask := mask }, host := { s.host with msix := s.host.msix ++ freed } }

/-- The registers of the management block (R453, R454). -/
def State.writeMgmtReg (s : State) (off : Nat) (v : Word) : State :=
  let m := s.mgmt
  match off with
  | 0x010 => if v.getLsbD 0 then s.lost.boot else s
  | 0x018 => { s with mgmt := { m with pwrcap := BitVec.ofNat 16 (min 3200 (max 800 (bitsAt v.toNat 0 16))) } }
  | 0x028 => ({ s with mgmt := { m with trip := BitVec.ofNat 8 (min 110 (max 90 (bitsAt v.toNat 8 8))) } } : State).checkTrip
  | 0x030 => { s with mgmt := { m with evstat := m.evstat &&& ~~~(v.setWidth 7) } }
  | 0x038 => s.writeEvmask (v.setWidth 7)
  | 0x040 => s.writeTinv v
  | 0x048 => { s with mgmt := { m with tinvva := v &&& ~~~(0xFFF : Word) } }
  | 0x050 => { s with mgmt := { m with tinvlen := v &&& ~~~(0xFFF : Word) } }
  | 0x100 => s.writeVpool 0 v
  | 0x108 => s.writeVpool 1 v
  | 0x110 => s.writeVpool 2 v
  | 0x118 => s.writeVpool 3 v
  | 0x200 => s.writeAtt v
  | 0x208 => { s with mgmt := { m with attbuf := v.setWidth 50 &&& ~~~(0x3F : BitVec 50) } }
  | 0x220 | 0x228 | 0x230 | 0x238 =>
    let k := off - 0x220
    { s with mgmt := { m with attnonce := BitVec.ofNat 256 (putBits m.attnonce.toNat (8 * k) 64 v.toNat) } }
  | _ => s

/-- The reliability registers (R439 to R442). -/
def State.writeHealthReg (s : State) (off : Nat) (v : Word) : State :=
  let log := s.log
  match off with
  | 0x8400 => { s with log := { log with base := v &&& 0x3FFFFFFFC0001 } }
  | 0x8410 => { s with log := { log with tail := v.setWidth 32 } }
  | 0x8420 =>
    let n : BitVec 16 := v.setWidth 16
    { s with log := { log with lanethr := if n = 0 then 1 else n } }
  | _ => match coreOfOffset off with
    | some c => if off % 0x100 == 0x40 then s.modCoreAt c fun x => { x with cnt := { x.cnt with lquar := 0, lmis := .replicate 64 0 } } else s
    | none => s

def State.readMgmtReg (s : State) (off : Nat) : Word :=
  let m := s.mgmt
  let d (k : Fin 4) : Word := (s.dies[k].poolCount.setWidth 64 <<< 48) ||| s.dies[k].poolBase.setWidth 64
  match off with
  | 0x000 => 0x0008000400000000 ||| Config.siliconRevision.setWidth 64
  | 0x008 => (m.stage.setWidth 64 <<< 4) ||| (if m.err then 4 else 0) ||| (if m.memUp then 2 else 0) ||| (if m.ready then 1 else 0)
  | 0x018 => m.pwrcap.setWidth 64
  | 0x020 => (m.power.setWidth 64 <<< 16) ||| m.fmhz.setWidth 64
  | 0x028 => (m.trip.setWidth 64 <<< 8) ||| m.hot.setWidth 64
  | 0x030 => m.evstat.setWidth 64
  | 0x038 => m.evmask.setWidth 64
  | 0x040 => (if m.tinvGo.isSome then 0x8000000000000000 else 0) ||| m.tinvAsid.setWidth 64
  | 0x048 => m.tinvva
  | 0x050 => m.tinvlen
  | 0x100 => d 0
  | 0x108 => d 1
  | 0x110 => d 2
  | 0x118 => d 3
  | 0x200 => (if m.attGo.isSome then 0x8000000000000000 else 0) ||| (m.attOp.setWidth 64 <<< 8) ||| (m.attSlot.setWidth 64 <<< 4)
  | 0x208 => m.attbuf.setWidth 64
  | 0x220 | 0x228 | 0x230 | 0x238 => BitVec.ofNat 64 (bitsAt m.attnonce.toNat (8 * (off - 0x220)) 64)
  | _ =>
    if 0x400 ≤ off ∧ off < 0x600 then BitVec.ofNat 64 (bitsAt (m.meas[Fin.ofNat 8 ((off - 0x400) / 64)]).toNat (8 * (off % 64)) 64) else 0

def CoreCounters.reg (c : CoreCounters) (off : Nat) : Word :=
  match off with
  | 0x00 => c.scmcnt
  | 0x08 => c.rewind
  | 0x10 => c.repeats
  | 0x18 => c.disarm
  | 0x20 => c.ssbovf
  | 0x28 => c.psncnt
  | 0x38 => c.lquar
  | _ =>
    if off < 0x80 then 0
    else
      let k := (off - 0x80) / 2
      let w (i : Nat) : Word := (c.lmis[Fin.ofNat 64 (k + i)]).setWidth 64 <<< (16 * i)
      w 0 ||| w 1 ||| w 2 ||| w 3

def DieState.reg (d : DieState) (off : Nat) : Word :=
  match off with
  | 0x00 => d.dramce
  | 0x08 => d.dramue
  | 0x10 => d.comce
  | 0x18 => d.comue
  | 0x20 => d.bankres
  | 0x28 => d.retired
  | _ => 0

def State.readHealthReg (s : State) (off : Nat) : Word :=
  match off with
  | 0x8400 => s.log.base
  | 0x8408 => s.log.head.setWidth 64
  | 0x8410 => s.log.tail.setWidth 64
  | 0x8418 => s.log.lost
  | 0x8420 => s.log.lanethr.setWidth 64
  | _ =>
    if 0x8000 ≤ off ∧ off < 0x8400 then (s.dies[Fin.ofNat 4 ((off - 0x8000) / 0x100)]).reg (off % 0x100)
    else match coreOfOffset off with
      | some c => (s.cores[c.index]).cnt.reg (off % 0x100)
      | none => 0

/-! ## Register accesses (R404, R453, R457) -/

/-- An 8-byte write of a register. -/
def State.writeReg (s : State) (bar off : Nat) (v : Word) : State :=
  if off % 8 != 0 then s
  else match bar with
  | 0 => if off < 0x4000 then s.writeMgmtReg off v else if off < 0x10000 then s.writeHealthReg off v else s
  | 2 => if off < 0x100000 then s.writeQueueReg (queueOfOffset off) (off % 0x1000) v else s
  | 4 => if off < 0x10000 then s.writeFabricReg off v else s
  | _ => s

/-- An 8-byte read of a register. -/
def State.readReg (s : State) (bar off : Nat) : Word :=
  if off % 8 != 0 then 0
  else match bar with
  | 0 => if off < 0x4000 then s.readMgmtReg off else s.readHealthReg off
  | 2 => if off < 0x100000 then s.readQueueReg (queueOfOffset off) (off % 0x1000) else 0
  | 4 => s.readFabricReg off
  | _ => 0

/-- Whether CXL.io reaches a BAR: once the link is up, and in the failed state of stage 2 BAR 0 alone (R448, R410). -/
def State.barUp (s : State) (bar : Nat) : Bool := s.powered && (s.host.up || (s.mgmt.err && bar == 0))

/-- A host write of a register. -/
def execRegisterWrite (bar off : Nat) (val : Word) (s : State) : Stepped :=
  .next (if s.barUp bar then s.writeReg bar off val else s)

/-- Sideband command 0x10 (R457): 8 bytes, or 64 to a LAUNCH register. -/
def execSidebandWrite (bar off : Nat) (data : List Byte) (s : State) : Stepped :=
  .next <|
    if !s.sidebandUp bar then s
    else if data.length == 8 then s.writeReg bar off (BitVec.ofNat 64 (leNat data))
    else if bar == 2 && data.length == 64 && decide (off < 0x100000) && off % 0x1000 == 0 then
      s.launchWrite (queueOfOffset off) 0 data
    else s

/-- Sideband command 0x11 (R457). -/
def execSidebandRead (bar off : Nat) (s : State) : Stepped :=
  .next (if s.sidebandUp bar then s.toHost (leBytes 8 (s.readReg bar off).toNat) false else s)

/-- A debug token (R457): one that verifies enables the debug port, and extends MEAS2. -/
def execDebugToken (token : List Byte) (s : State) : Stepped :=
  .next (if s.powered && verifies token then ({ s with debug := true } : State).extend 2 (digestOf token) else s)

/-! ## Power and heat (R456) -/

/-- The highest step that keeps the power at or below the cap, the power being in proportion to the clock (log 44). -/
def capStep (fmhz power cap : Nat) : Nat :=
  (((List.range 13).map fun k => 4000 - 250 * k).find? fun f => decide (power * f ≤ cap * fmhz)).getD 1000

/-- One step lower for each 2 °C above 95. -/
def heatStep (hot : Nat) : Nat := max 1000 (4000 - 250 * ((hot - 95) / 2))

/-- The SMP measures power and heat, and sets the clock (R456). -/
def execClockStep (power : BitVec 16) (hot : Byte) (s : State) : Stepped :=
  .next <|
    if !s.powered then s
    else
      let m := s.mgmt
      let a := capStep m.fmhz.toNat power.toNat m.pwrcap.toNat
      let b := heatStep hot.toNat
      let s := { s with mgmt := { m with power := power, hot := hot, fmhz := BitVec.ofNat 13 (min a b) } }
      let s := if a < 4000 then s.raiseEvent 3 else s
      (if b < 4000 then s.raiseEvent 4 else s).checkTrip

/-- HOT reaches TRIP (R456). -/
def execThermalTrip (hot : Byte) (s : State) : Stepped :=
  .next (if s.powered then ({ s with mgmt := { s.mgmt with hot := hot } } : State).checkTrip else s)

end Sys2Proof.Machine
end

