-- ==== Sys2Proof/Machine/Dispatch.lean ====
section
/-! DEFINITION. Which meaning each instruction and each event has: one arm per constructor of `Instr`. -/

namespace Sys2Proof.Machine

def exec (i : Instr) (s : State) : Host.Outcome State Fault Refusal :=
  match i with
  | .add d a b => Sys2Proof.Machine.execAdd d a b s
  | .sub d a b => Sys2Proof.Machine.execSub d a b s
  | .and d a b => Sys2Proof.Machine.execAnd d a b s
  | .or d a b => Sys2Proof.Machine.execOr d a b s
  | .xor d a b => Sys2Proof.Machine.execXor d a b s
  | .sll d a b => Sys2Proof.Machine.execSll d a b s
  | .srl d a b => Sys2Proof.Machine.execSrl d a b s
  | .sra d a b => Sys2Proof.Machine.execSra d a b s
  | .slt d a b => Sys2Proof.Machine.execSlt d a b s
  | .sltn d a b => Sys2Proof.Machine.execSltn d a b s
  | .min d a b => Sys2Proof.Machine.execMin d a b s
  | .minn d a b => Sys2Proof.Machine.execMinn d a b s
  | .max d a b => Sys2Proof.Machine.execMax d a b s
  | .maxn d a b => Sys2Proof.Machine.execMaxn d a b s
  | .clz d a => Sys2Proof.Machine.execClz d a s
  | .ctz d a => Sys2Proof.Machine.execCtz d a s
  | .pcnt d a => Sys2Proof.Machine.execPcnt d a s
  | .addw d a b => Sys2Proof.Machine.execAddw d a b s
  | .subw d a b => Sys2Proof.Machine.execSubw d a b s
  | .addi d a imm => Sys2Proof.Machine.execAddi d a imm s
  | .andi d a imm => Sys2Proof.Machine.execAndi d a imm s
  | .ori d a imm => Sys2Proof.Machine.execOri d a imm s
  | .xori d a imm => Sys2Proof.Machine.execXori d a imm s
  | .slti d a imm => Sys2Proof.Machine.execSlti d a imm s
  | .sltni d a imm => Sys2Proof.Machine.execSltni d a imm s
  | .slli d a sh => Sys2Proof.Machine.execSlli d a sh s
  | .srli d a sh => Sys2Proof.Machine.execSrli d a sh s
  | .srai d a sh => Sys2Proof.Machine.execSrai d a sh s
  | .lui d imm => Sys2Proof.Machine.execLui d imm s
  | .pcui d imm => Sys2Proof.Machine.execPcui d imm s
  | .mul d a b => Sys2Proof.Machine.execMul d a b s
  | .mulh d a b => Sys2Proof.Machine.execMulh d a b s
  | .mulhn d a b => Sys2Proof.Machine.execMulhn d a b s
  | .mulhsn d a b => Sys2Proof.Machine.execMulhsn d a b s
  | .div d a b => Sys2Proof.Machine.execDiv d a b s
  | .divn d a b => Sys2Proof.Machine.execDivn d a b s
  | .rem d a b => Sys2Proof.Machine.execRem d a b s
  | .remn d a b => Sys2Proof.Machine.execRemn d a b s
  | .sld k d a imm => Sys2Proof.Machine.execSld k d a imm s
  | .sst k d a imm => Sys2Proof.Machine.execSst k d a imm s
  | .fadd f d a b => Sys2Proof.Machine.execFadd f d a b s
  | .fsub f d a b => Sys2Proof.Machine.execFsub f d a b s
  | .fmul f d a b => Sys2Proof.Machine.execFmul f d a b s
  | .fdiv f d a b => Sys2Proof.Machine.execFdiv f d a b s
  | .fsqrt f d a => Sys2Proof.Machine.execFsqrt f d a s
  | .fmin f d a b => Sys2Proof.Machine.execFmin f d a b s
  | .fmax f d a b => Sys2Proof.Machine.execFmax f d a b s
  | .fsgnj f d a b => Sys2Proof.Machine.execFsgnj f d a b s
  | .fsgnjn f d a b => Sys2Proof.Machine.execFsgnjn f d a b s
  | .fsgnjx f d a b => Sys2Proof.Machine.execFsgnjx f d a b s
  | .feq f d a b => Sys2Proof.Machine.execFeq f d a b s
  | .flt f d a b => Sys2Proof.Machine.execFlt f d a b s
  | .fle f d a b => Sys2Proof.Machine.execFle f d a b s
  | .fclass f d a => Sys2Proof.Machine.execFclass f d a s
  | .fmadd f d a b c => Sys2Proof.Machine.execFmadd f d a b c s
  | .fmsub f d a b c => Sys2Proof.Machine.execFmsub f d a b c s
  | .fnmadd f d a b c => Sys2Proof.Machine.execFnmadd f d a b c s
  | .fnmsub f d a b c => Sys2Proof.Machine.execFnmsub f d a b c s
  | .fldF64 d a imm => Sys2Proof.Machine.execFldF64 d a imm s
  | .fldF32 d a imm => Sys2Proof.Machine.execFldF32 d a imm s
  | .fldF16 d a imm => Sys2Proof.Machine.execFldF16 d a imm s
  | .fstF64 d a imm => Sys2Proof.Machine.execFstF64 d a imm s
  | .fstF32 d a imm => Sys2Proof.Machine.execFstF32 d a imm s
  | .fstF16 d a imm => Sys2Proof.Machine.execFstF16 d a imm s
  | .fmvgh d a => Sys2Proof.Machine.execFmvgh d a s
  | .fmvhg d a => Sys2Proof.Machine.execFmvhg d a s
  | .fcvtFloatFloat g f d a => Sys2Proof.Machine.execFcvtFloatFloat g f d a s
  | .fcvtFloatInt it f d a => Sys2Proof.Machine.execFcvtFloatInt it f d a s
  | .fcvtIntFloat f it d a => Sys2Proof.Machine.execFcvtIntFloat f it d a s
  | .fcvtz it f d a => Sys2Proof.Machine.execFcvtz it f d a s
  | .beq a b off => Sys2Proof.Machine.execBeq a b off s
  | .bne a b off => Sys2Proof.Machine.execBne a b off s
  | .blt a b off => Sys2Proof.Machine.execBlt a b off s
  | .bge a b off => Sys2Proof.Machine.execBge a b off s
  | .bltn a b off => Sys2Proof.Machine.execBltn a b off s
  | .bgen a b off => Sys2Proof.Machine.execBgen a b off s
  | .j off => Sys2Proof.Machine.execJ off s
  | .call off => Sys2Proof.Machine.execCall off s
  | .jr a imm => Sys2Proof.Machine.execJr a imm s
  | .callr a imm => Sys2Proof.Machine.execCallr a imm s
  | .ret => Sys2Proof.Machine.execRet s
  | .exit => Sys2Proof.Machine.execExit s
  | .bany m off => Sys2Proof.Machine.execBany m off s
  | .ball m off => Sys2Proof.Machine.execBall m off s
  | .bnone m off => Sys2Proof.Machine.execBnone m off s
  | .bnall m off => Sys2Proof.Machine.execBnall m off s
  | .bq off => Sys2Proof.Machine.execBq off s
  | .bqn off => Sys2Proof.Machine.execBqn off s
  | .vstrip d a sv => Sys2Proof.Machine.execVstrip d a sv s
  | .vstripx d a b sv => Sys2Proof.Machine.execVstripx d a b sv s
  | .vrel => Sys2Proof.Machine.execVrel s
  | .mode t => Sys2Proof.Machine.execMode t s
  | .apfork off => Sys2Proof.Machine.execApfork off s
  | .apjoin => Sys2Proof.Machine.execApjoin s
  | .cread d creg => Sys2Proof.Machine.execCread d creg s
  | .cwrite creg a => Sys2Proof.Machine.execCwrite creg a s
  | .cswap d creg a => Sys2Proof.Machine.execCswap d creg a s
  | .fenceFull scope => Sys2Proof.Machine.execFenceFull scope s
  | .fenceAcq scope => Sys2Proof.Machine.execFenceAcq scope s
  | .fenceRel scope => Sys2Proof.Machine.execFenceRel scope s
  | .fenceIfetch scope => Sys2Proof.Machine.execFenceIfetch scope s
  | .trap n => Sys2Proof.Machine.execTrap n s
  | .tret => Sys2Proof.Machine.execTret s
  | .adjourn => Sys2Proof.Machine.execAdjourn s
  | .pgmove d a b => Sys2Proof.Machine.execPgmove d a b s
  | .pgstat d a => Sys2Proof.Machine.execPgstat d a s
  | .cvy cnt slots => Sys2Proof.Machine.execCvy cnt slots s
  | .nop => Sys2Proof.Machine.execNop s
  | .hint32 bits => Sys2Proof.Machine.execHint32 bits s
  | .hint64 bits => Sys2Proof.Machine.execHint64 bits s
  | .vadd c d a b => Sys2Proof.Machine.execVadd c d a b s
  | .vsub c d a b => Sys2Proof.Machine.execVsub c d a b s
  | .vrsub c d a b => Sys2Proof.Machine.execVrsub c d a b s
  | .vmul c d a b => Sys2Proof.Machine.execVmul c d a b s
  | .vmulh c d a b => Sys2Proof.Machine.execVmulh c d a b s
  | .vdiv c d a b => Sys2Proof.Machine.execVdiv c d a b s
  | .vrem c d a b => Sys2Proof.Machine.execVrem c d a b s
  | .vmin c d a b => Sys2Proof.Machine.execVmin c d a b s
  | .vmax c d a b => Sys2Proof.Machine.execVmax c d a b s
  | .vand c d a b => Sys2Proof.Machine.execVand c d a b s
  | .vor c d a b => Sys2Proof.Machine.execVor c d a b s
  | .vxor c d a b => Sys2Proof.Machine.execVxor c d a b s
  | .vsll c d a b => Sys2Proof.Machine.execVsll c d a b s
  | .vsrl c d a b => Sys2Proof.Machine.execVsrl c d a b s
  | .vsra c d a b => Sys2Proof.Machine.execVsra c d a b s
  | .vsadd c d a b => Sys2Proof.Machine.execVsadd c d a b s
  | .vssub c d a b => Sys2Proof.Machine.execVssub c d a b s
  | .vsqrt c d a => Sys2Proof.Machine.execVsqrt c d a s
  | .vabs c d a => Sys2Proof.Machine.execVabs c d a s
  | .vneg c d a => Sys2Proof.Machine.execVneg c d a s
  | .vsgnj c d a b => Sys2Proof.Machine.execVsgnj c d a b s
  | .vsgnjn c d a b => Sys2Proof.Machine.execVsgnjn c d a b s
  | .vsel c d a b => Sys2Proof.Machine.execVsel c d a b s
  | .vmv c d b => Sys2Proof.Machine.execVmv c d b s
  | .vfmadd c d a b e => Sys2Proof.Machine.execVfmadd c d a b e s
  | .vfmsub c d a b e => Sys2Proof.Machine.execVfmsub c d a b e s
  | .vfnmadd c d a b e => Sys2Proof.Machine.execVfnmadd c d a b e s
  | .vfnmsub c d a b e => Sys2Proof.Machine.execVfnmsub c d a b e s
  | .vwfmadd c src d a b e => Sys2Proof.Machine.execVwfmadd c src d a b e s
  | .vwfmsub c src d a b e => Sys2Proof.Machine.execVwfmsub c src d a b e s
  | .vwfnmadd c src d a b e => Sys2Proof.Machine.execVwfnmadd c src d a b e s
  | .vwfnmsub c src d a b e => Sys2Proof.Machine.execVwfnmsub c src d a b e s
  | .vcvt c src d a => Sys2Proof.Machine.execVcvt c src d a s
  | .vcvtx c src d a => Sys2Proof.Machine.execVcvtx c src d a s
  | .vcmpeq c d a b => Sys2Proof.Machine.execVcmpeq c d a b s
  | .vcmpne c d a b => Sys2Proof.Machine.execVcmpne c d a b s
  | .vcmplt c d a b => Sys2Proof.Machine.execVcmplt c d a b s
  | .vcmple c d a b => Sys2Proof.Machine.execVcmple c d a b s
  | .vcmpgt c d a b => Sys2Proof.Machine.execVcmpgt c d a b s
  | .vcmpge c d a b => Sys2Proof.Machine.execVcmpge c d a b s
  | .mand c d a b => Sys2Proof.Machine.execMand c d a b s
  | .mor c d a b => Sys2Proof.Machine.execMor c d a b s
  | .mxor c d a b => Sys2Proof.Machine.execMxor c d a b s
  | .mandn c d a b => Sys2Proof.Machine.execMandn c d a b s
  | .msbf c d a => Sys2Proof.Machine.execMsbf c d a s
  | .msif c d a => Sys2Proof.Machine.execMsif c d a s
  | .msof c d a => Sys2Proof.Machine.execMsof c d a s
  | .mpcnt c d a => Sys2Proof.Machine.execMpcnt c d a s
  | .mfirst c d a => Sys2Proof.Machine.execMfirst c d a s
  | .vslideup c d a b => Sys2Proof.Machine.execVslideup c d a b s
  | .vslidedown c d a b => Sys2Proof.Machine.execVslidedown c d a b s
  | .vrgather c d a b => Sys2Proof.Machine.execVrgather c d a b s
  | .vcompress c d a m => Sys2Proof.Machine.execVcompress c d a m s
  | .vid c d => Sys2Proof.Machine.execVid c d s
  | .viota c d a => Sys2Proof.Machine.execViota c d a s
  | .vgetg c d a => Sys2Proof.Machine.execVgetg c d a s
  | .vgeth c d a => Sys2Proof.Machine.execVgeth c d a s
  | .vputg c d a => Sys2Proof.Machine.execVputg c d a s
  | .vputh c d a => Sys2Proof.Machine.execVputh c d a s
  | .vredsum c w d a b => Sys2Proof.Machine.execVredsum c w d a b s
  | .vredosum c w d a b => Sys2Proof.Machine.execVredosum c w d a b s
  | .vredmin c d a b => Sys2Proof.Machine.execVredmin c d a b s
  | .vredmax c d a b => Sys2Proof.Machine.execVredmax c d a b s
  | .vredand c d a b => Sys2Proof.Machine.execVredand c d a b s
  | .vredor c d a b => Sys2Proof.Machine.execVredor c d a b s
  | .vredxor c d a b => Sys2Proof.Machine.execVredxor c d a b s
  | .vconf c d a => Sys2Proof.Machine.execVconf c d a s
  | .vconfr c d a => Sys2Proof.Machine.execVconfr c d a s
  | .vtopk c d a b => Sys2Proof.Machine.execVtopk c d a b s
  | .vunpk c d a b => Sys2Proof.Machine.execVunpk c d a b s
  | .vlut c ix lb d a b => Sys2Proof.Machine.execVlut c ix lb d a b s
  | .vexpm c d a => Sys2Proof.Machine.execVexpm c d a s
  | .vld c d a disp => Sys2Proof.Machine.execVld c d a disp s
  | .vst c d a disp => Sys2Proof.Machine.execVst c d a disp s
  | .vlds c d a b => Sys2Proof.Machine.execVlds c d a b s
  | .vsts c d a b => Sys2Proof.Machine.execVsts c d a b s
  | .mld c d a disp => Sys2Proof.Machine.execMld c d a disp s
  | .mst c d a disp => Sys2Proof.Machine.execMst c d a disp s
  | .vldb c d a o => Sys2Proof.Machine.execVldb c d a o s
  | .vstb c d a o => Sys2Proof.Machine.execVstb c d a o s
  | .vldx c d a b sc ix => Sys2Proof.Machine.execVldx c d a b sc ix s
  | .vstx c d a b sc ix => Sys2Proof.Machine.execVstx c d a b sc ix s
  | .sbind c d sr => Sys2Proof.Machine.execSbind c d sr s
  | .sfree c d => Sys2Proof.Machine.execSfree c d s
  | .sdld c d a => Sys2Proof.Machine.execSdld c d a s
  | .sdst c d a => Sys2Proof.Machine.execSdst c d a s
  | .vstm c d a b => Sys2Proof.Machine.execVstm c d a b s
  | .vldr c d a b => Sys2Proof.Machine.execVldr c d a b s
  | .vldrmin c d a b => Sys2Proof.Machine.execVldrmin c d a b s
  | .vldrmax c d a b => Sys2Proof.Machine.execVldrmax c d a b s
  | .psld c d a n disp => Sys2Proof.Machine.execPsld c d a n disp s
  | .psst c d a n disp => Sys2Proof.Machine.execPsst c d a n disp s
  | .psadd c d a b e => Sys2Proof.Machine.execPsadd c d a b e s
  | .psmul c d a b e => Sys2Proof.Machine.execPsmul c d a b e s
  | .psdense c d a b => Sys2Proof.Machine.execPsdense c d a b s
  | .pssparse c d a b e => Sys2Proof.Machine.execPssparse c d a b e s
  | .fnld c d a b => Sys2Proof.Machine.execFnld c d a b s
  | .fnst c d a => Sys2Proof.Machine.execFnst c d a s
  | .fnadd c d a b => Sys2Proof.Machine.execFnadd c d a b s
  | .fnsub c d a b => Sys2Proof.Machine.execFnsub c d a b s
  | .fnmul c rule d a b => Sys2Proof.Machine.execFnmul c rule d a b s
  | .fnscl c d a b => Sys2Proof.Machine.execFnscl c d a b s
  | .fndiff c axis d a => Sys2Proof.Machine.execFndiff c axis d a s
  | .fnint c axis d a => Sys2Proof.Machine.execFnint c axis d a s
  | .fnproj c d a b => Sys2Proof.Machine.execFnproj c d a b s
  | .fntrace c face d a => Sys2Proof.Machine.execFntrace c face d a s
  | .fneval c d a b e => Sys2Proof.Machine.execFneval c d a b e s
  | .fnquad c d a => Sys2Proof.Machine.execFnquad c d a s
  | .fndeg c d a => Sys2Proof.Machine.execFndeg c d a s
  | .fnfree c d => Sys2Proof.Machine.execFnfree c d s
  | .tshape c ty d => Sys2Proof.Machine.execTshape c ty d s
  | .tshapex c ty d a => Sys2Proof.Machine.execTshapex c ty d a s
  | .tld c d a b => Sys2Proof.Machine.execTld c d a b s
  | .tst c d a b => Sys2Proof.Machine.execTst c d a b s
  | .tlda c dbl d a b => Sys2Proof.Machine.execTlda c dbl d a b s
  | .tsta c dbl d a b => Sys2Proof.Machine.execTsta c dbl d a b s
  | .tmma c z d a b => Sys2Proof.Machine.execTmma c z d a b s
  | .tmmas c z d a b => Sys2Proof.Machine.execTmmas c z d a b s
  | .tgmm c z gc d a b e => Sys2Proof.Machine.execTgmm c z gc d a b e s
  | .tspmm c z den d a b e => Sys2Proof.Machine.execTspmm c z den d a b e s
  | .tcvt c d a => Sys2Proof.Machine.execTcvt c d a s
  | .tbload c bt a => Sys2Proof.Machine.execTbload c bt a s
  | .tbeval c d a => Sys2Proof.Machine.execTbeval c d a s
  | .tleaf c z col d a b => Sys2Proof.Machine.execTleaf c z col d a b s
  | .amoswap c sem scope d a b => Sys2Proof.Machine.execAmoswap c sem scope d a b s
  | .amocas c sem scope d a b e => Sys2Proof.Machine.execAmocas c sem scope d a b e s
  | .amoadd c sem scope d a b => Sys2Proof.Machine.execAmoadd c sem scope d a b s
  | .amoand c sem scope d a b => Sys2Proof.Machine.execAmoand c sem scope d a b s
  | .amoor c sem scope d a b => Sys2Proof.Machine.execAmoor c sem scope d a b s
  | .amoxor c sem scope d a b => Sys2Proof.Machine.execAmoxor c sem scope d a b s
  | .amomin c sem scope d a b => Sys2Proof.Machine.execAmomin c sem scope d a b s
  | .amomax c sem scope d a b => Sys2Proof.Machine.execAmomax c sem scope d a b s
  | .amofadd c sem scope d a b => Sys2Proof.Machine.execAmofadd c sem scope d a b s
  | .amofmin c sem scope d a b => Sys2Proof.Machine.execAmofmin c sem scope d a b s
  | .amofmax c sem scope d a b => Sys2Proof.Machine.execAmofmax c sem scope d a b s
  | .vamoswap c sc ix scope r a b e => Sys2Proof.Machine.execVamoswap c sc ix scope r a b e s
  | .vamoadd c sc ix scope r a b e => Sys2Proof.Machine.execVamoadd c sc ix scope r a b e s
  | .vamoand c sc ix scope r a b e => Sys2Proof.Machine.execVamoand c sc ix scope r a b e s
  | .vamoor c sc ix scope r a b e => Sys2Proof.Machine.execVamoor c sc ix scope r a b e s
  | .vamoxor c sc ix scope r a b e => Sys2Proof.Machine.execVamoxor c sc ix scope r a b e s
  | .vamomin c sc ix scope r a b e => Sys2Proof.Machine.execVamomin c sc ix scope r a b e s
  | .vamomax c sc ix scope r a b e => Sys2Proof.Machine.execVamomax c sc ix scope r a b e s
  | .vamofadd c sc ix scope r a b e => Sys2Proof.Machine.execVamofadd c sc ix scope r a b e s
  | .vamofmin c sc ix scope r a b e => Sys2Proof.Machine.execVamofmin c sc ix scope r a b e s
  | .vamofmax c sc ix scope r a b e => Sys2Proof.Machine.execVamofmax c sc ix scope r a b e s
  | .qput c q a => Sys2Proof.Machine.execQput c q a s
  | .qget c d q => Sys2Proof.Machine.execQget c d q s
  | .qld c tc q a b e => Sys2Proof.Machine.execQld c tc q a b e s
  | .qgetv c tc d q e => Sys2Proof.Machine.execQgetv c tc d q e s
  | .qcmd c q a => Sys2Proof.Machine.execQcmd c q a s
  | .qres c q b => Sys2Proof.Machine.execQres c q b s
  | .qcnt c d q => Sys2Proof.Machine.execQcnt c d q s
  | .ksync c => Sys2Proof.Machine.execKsync c s
  | .kcnt c d k => Sys2Proof.Machine.execKcnt c d k s
  | .tspawn c d a b => Sys2Proof.Machine.execTspawn c d a b s
  | .vpub c fin a b => Sys2Proof.Machine.execVpub c fin a b s
  | .atpAsidWrite l asid val => Sys2Proof.Machine.execAtpAsidWrite l asid val s
  | .tokenGrant l st => Sys2Proof.Machine.execTokenGrant l st s
  | .queueWaitEnd l st => Sys2Proof.Machine.execQueueWaitEnd l st s
  | .flagFall l st => Sys2Proof.Machine.execFlagFall l st s
  | .migrationRequest l => Sys2Proof.Machine.execMigrationRequest l s
  | .resume k l => Sys2Proof.Machine.execResume k l s
  | .schedulerAdjourn l => Sys2Proof.Machine.execSchedulerAdjourn l s
  | .contextMove l => Sys2Proof.Machine.execContextMove l s
  | .vectorTenureGrant c => Sys2Proof.Machine.execVectorTenureGrant c s
  | .tileStateExchange l => Sys2Proof.Machine.execTileStateExchange l s
  | .grantDecision c => Sys2Proof.Machine.execGrantDecision c s
  | .launch q off data => Sys2Proof.Machine.execLaunch q off data s
  | .admission q => Sys2Proof.Machine.execAdmission q s
  | .vlcCreate task l => Sys2Proof.Machine.execVlcCreate task l s
  | .taskComplete task => Sys2Proof.Machine.execTaskComplete task s
  | .qctlWrite q val => Sys2Proof.Machine.execQctlWrite q val s
  | .qcmaskWrite q val => Sys2Proof.Machine.execQcmaskWrite q val s
  | .registerWrite bar off val => Sys2Proof.Machine.execRegisterWrite bar off val s
  | .copy l => Sys2Proof.Machine.execCopy l s
  | .gather l => Sys2Proof.Machine.execGather l s
  | .engineTokenPost l q => Sys2Proof.Machine.execEngineTokenPost l q s
  | .engineCompletion l q => Sys2Proof.Machine.execEngineCompletion l q s
  | .allgather l => Sys2Proof.Machine.execAllgather l s
  | .redscatter l => Sys2Proof.Machine.execRedscatter l s
  | .collectiveComplete l => Sys2Proof.Machine.execCollectiveComplete l s
  | .status l => Sys2Proof.Machine.execStatus l s
  | .clear l => Sys2Proof.Machine.execClear l s
  | .move l => Sys2Proof.Machine.execMove l s
  | .retire l => Sys2Proof.Machine.execRetire l s
  | .ceThreshold l => Sys2Proof.Machine.execCeThreshold l s
  | .stubmin l => Sys2Proof.Machine.execStubmin l s
  | .hotFrameMigration l => Sys2Proof.Machine.execHotFrameMigration l s
  | .streamPrefetch l v => Sys2Proof.Machine.execStreamPrefetch l v s
  | .transferEvent frame => Sys2Proof.Machine.execTransferEvent frame s
  | .stubReclaim die frame => Sys2Proof.Machine.execStubReclaim die frame s
  | .stubFree die frame => Sys2Proof.Machine.execStubFree die frame s
  | .owninvRetry die frame => Sys2Proof.Machine.execOwninvRetry die frame s
  | .hotFrameWindow => Sys2Proof.Machine.execHotFrameWindow s
  | .eccCorrectedRead line => Sys2Proof.Machine.execEccCorrectedRead line s
  | .scrubRead line found => Sys2Proof.Machine.execScrubRead line found s
  | .lmclr c => Sys2Proof.Machine.execLmclr c s
  | .read port p => Sys2Proof.Machine.execRead port p s
  | .write port p => Sys2Proof.Machine.execWrite port p s
  | .atomic port p => Sys2Proof.Machine.execAtomic port p s
  | .rdstride port p => Sys2Proof.Machine.execRdstride port p s
  | .mcwrite port p => Sys2Proof.Machine.execMcwrite port p s
  | .redread port p => Sys2Proof.Machine.execRedread port p s
  | .resp port p => Sys2Proof.Machine.execResp port p s
  | .migrate port p => Sys2Proof.Machine.execMigrate port p s
  | .owninv port p => Sys2Proof.Machine.execOwninv port p s
  | .coll port p => Sys2Proof.Machine.execColl port p s
  | .linkReplay port => Sys2Proof.Machine.execLinkReplay port s
  | .portTrain port => Sys2Proof.Machine.execPortTrain port s
  | .e2eResend dst seq => Sys2Proof.Machine.execE2eResend dst seq s
  | .hostMemRead off n => Sys2Proof.Machine.execHostMemRead off n s
  | .hostMemWrite off data poison => Sys2Proof.Machine.execHostMemWrite off data poison s
  | .hostSnoop line own data => Sys2Proof.Machine.execHostSnoop line own data s
  | .cxlLinkRetrain e => Sys2Proof.Machine.execCxlLinkRetrain e s
  | .hdmDecoderCommit base size => Sys2Proof.Machine.execHdmDecoderCommit base size s
  | .fendpWrite val => Sys2Proof.Machine.execFendpWrite val s
  | .powerGood => Sys2Proof.Machine.execPowerGood s
  | .mrst => Sys2Proof.Machine.execMrst s
  | .fwWrite off data => Sys2Proof.Machine.execFwWrite off data s
  | .fwCommit => Sys2Proof.Machine.execFwCommit s
  | .sidebandWrite bar off data => Sys2Proof.Machine.execSidebandWrite bar off data s
  | .sidebandRead bar off => Sys2Proof.Machine.execSidebandRead bar off s
  | .debugToken token => Sys2Proof.Machine.execDebugToken token s
  | .tlbInvalidate val => Sys2Proof.Machine.execTlbInvalidate val s
  | .tlbInvalidateDone => Sys2Proof.Machine.execTlbInvalidateDone s
  | .attestReport => Sys2Proof.Machine.execAttestReport s
  | .measExtend => Sys2Proof.Machine.execMeasExtend s
  | .vpoolWrite die val => Sys2Proof.Machine.execVpoolWrite die val s
  | .clockStep power hot => Sys2Proof.Machine.execClockStep power hot s
  | .thermalTrip hot => Sys2Proof.Machine.execThermalTrip hot s
  | .storeEntryMove k => Sys2Proof.Machine.execStoreEntryMove k s
  | .peerEndpointReset endpoint => Sys2Proof.Machine.execPeerEndpointReset endpoint s
  | .powerLoss => Sys2Proof.Machine.execPowerLoss s

end Sys2Proof.Machine
end

