-- ==== Sys2Proof/Machine/Flight.lean ====
section
/-! DEFINITION. Instructions that a stream has issued and gone past: which may be, what may go ahead of them, and how they are performed
(R40, R357, R362, R363, R366, R369, R423). The order of two instructions is free where neither depends on the other, no byte is common to
their accesses, and both orders come to the same (log 6). -/

namespace Sys2Proof.Machine

/-- The general and scalar floating registers that an instruction names, as numbers. -/
def namesOf : Instr → List (Fin 32)
  | .add d a b | .sub d a b | .and d a b | .or d a b | .xor d a b | .sll d a b | .srl d a b | .sra d a b | .slt d a b | .sltn d a b
  | .min d a b | .minn d a b | .max d a b | .maxn d a b | .addw d a b | .subw d a b | .mul d a b | .mulh d a b | .mulhn d a b
  | .mulhsn d a b | .div d a b | .divn d a b | .rem d a b | .remn d a b | .fadd _ d a b | .fsub _ d a b | .fmul _ d a b
  | .fdiv _ d a b | .fmin _ d a b | .fmax _ d a b | .fsgnj _ d a b | .fsgnjn _ d a b | .fsgnjx _ d a b | .feq _ d a b
  | .flt _ d a b | .fle _ d a b | .amoswap _ _ _ d a b | .amoadd _ _ _ d a b | .amoand _ _ _ d a b | .amoor _ _ _ d a b
  | .amoxor _ _ _ d a b | .amomin _ _ _ d a b | .amomax _ _ _ d a b | .amofadd _ _ _ d a b | .amofmin _ _ _ d a b
  | .amofmax _ _ _ d a b => [d, a, b]
  | .fmadd _ d a b c | .fmsub _ d a b c | .fnmadd _ d a b c | .fnmsub _ d a b c | .amocas _ _ _ d a b c => [d, a, b, c]
  | .clz d a | .ctz d a | .pcnt d a | .addi d a _ | .andi d a _ | .ori d a _ | .xori d a _ | .slti d a _ | .sltni d a _ | .slli d a _
  | .srli d a _ | .srai d a _ | .sld _ d a _ | .sst _ d a _ | .fldF64 d a _ | .fldF32 d a _ | .fldF16 d a _ | .fstF64 d a _
  | .fstF32 d a _ | .fstF16 d a _ | .fsqrt _ d a | .fclass _ d a | .fmvgh d a | .fmvhg d a | .fcvtFloatFloat _ _ d a
  | .fcvtFloatInt _ _ d a | .fcvtIntFloat _ _ d a | .fcvtz _ _ d a => [d, a]
  | .lui d _ | .pcui d _ | .cread d _ => [d]
  | .beq a b _ | .bne a b _ | .blt a b _ | .bge a b _ | .bltn a b _ | .bgen a b _ => [a, b]
  | .jr a _ | .callr a _ | .vputg _ _ a | .vputh _ _ a | .vld _ _ a _ | .vst _ _ a _ | .mst _ _ a _ | .vldb _ _ a _ | .vstb _ _ a _
  | .vldx _ _ a _ _ _ | .vstx _ _ a _ _ _ | .vamoswap _ _ _ _ _ a _ _ | .vamoadd _ _ _ _ _ a _ _ | .vamoand _ _ _ _ _ a _ _
  | .vamoor _ _ _ _ _ a _ _ | .vamoxor _ _ _ _ _ a _ _ | .vamomin _ _ _ _ _ a _ _ | .vamomax _ _ _ _ _ a _ _
  | .vamofadd _ _ _ _ _ a _ _ | .vamofmin _ _ _ _ _ a _ _ | .vamofmax _ _ _ _ _ a _ _ => [a]
  | .vlds _ _ a b | .vsts _ _ a b | .vstm _ _ a b | .vldr _ _ a b | .vldrmin _ _ a b | .vldrmax _ _ a b | .tld _ _ a b | .tst _ _ a b
  | .tlda _ _ _ a b | .tsta _ _ _ a b => [a, b]
  | .vadd _ _ _ (.s r) | .vsub _ _ _ (.s r) | .vrsub _ _ _ (.s r) | .vmul _ _ _ (.s r) | .vmulh _ _ _ (.s r) | .vdiv _ _ _ (.s r)
  | .vrem _ _ _ (.s r) | .vmin _ _ _ (.s r) | .vmax _ _ _ (.s r) | .vand _ _ _ (.s r) | .vor _ _ _ (.s r) | .vxor _ _ _ (.s r)
  | .vsll _ _ _ (.s r) | .vsrl _ _ _ (.s r) | .vsra _ _ _ (.s r) | .vsadd _ _ _ (.s r) | .vssub _ _ _ (.s r) | .vsgnj _ _ _ (.s r)
  | .vsgnjn _ _ _ (.s r) | .vsel _ _ _ (.s r) | .vmv _ _ (.s r) | .vcmpeq _ _ _ (.s r) | .vcmpne _ _ _ (.s r) | .vcmplt _ _ _ (.s r)
  | .vcmple _ _ _ (.s r) | .vcmpgt _ _ _ (.s r) | .vcmpge _ _ _ (.s r) => [r]
  | _ => []

/-- A scalar atomic with no role in the order of others (R275). -/
def relaxed : Instr → Bool
  | .amoswap _ m .. | .amocas _ m .. | .amoadd _ m .. | .amoand _ m .. | .amoor _ m .. | .amoxor _ m .. | .amomin _ m .. | .amomax _ m ..
  | .amofadd _ m .. | .amofmin _ m .. | .amofmax _ m .. => m == .none
  | _ => false

/-- Whether a stream may go past an instruction that it has issued: a scalar load, a relaxed atomic, or one that has a progress index,
which waits for and posts no token. -/
def mayFly (i : Instr) : Bool :=
  i.common.all (fun c => c.wait.isNone && c.post.isNone) && match i with
    | .sld .. | .fldF64 .. | .fldF32 .. | .fldF16 .. => true
    | .mld .. | .tgmm .. => false
    | _ => relaxed i || interruptible i

/-- Whether an instruction may go ahead of older ones: one that orders nothing (R362, R366, R367, R370, R372). A push into Q0 to Q12 by
the EP and `apfork` go ahead of instructions with OVT = 1 (R366). -/
def mayPass (st : Stream) (older : List Flight) (i : Instr) : Bool :=
  match i with
  | .exit => false
  | .cread .. => true
  | .qput .. | .qld .. | .apfork .. => st == .ep && older.all fun f => f.instr.common.elim false (·.ovt)
  | _ => relaxed i || interruptible i || match i.cell with
    | .irr | .iim | .lup | .imd | .sld | .sst | .frr | .fma4 | .fls | .fcv | .pcu | .bcc | .jmp | .call | .jr | .bany | .hint => true
    | _ => false

/-- Whether an instruction names a register that another, in flight, is to write. -/
def namesResult (s : State) (f j : Instr) : Bool :=
  let span (o : VOp) : Nat := o.span s.cur.ctl
  (match f with
    | .sld .. | .fldF64 .. | .fldF32 .. | .fldF16 .. => ((namesOf f).take 1).any (namesOf j).contains
    | _ => relaxed f && ((namesOf f).take 1).any (namesOf j).contains) ||
  (((opsOf f s).filter (·.dst)).any fun o => (opsOf j s).any fun x => rangesMeet o.reg.val (span o) x.reg.val (span x)) ||
  (cellIsTile f.cell && cellIsTile j.cell)

/-- A context as far as the order of two instructions can show in it. -/
def Vlc.settled (v : Vlc) : Vlc :=
  let plain (x : StreamState) : StreamState := { x with seen := [], near := [], released := [], early := [] }
  { v with
    ep := plain v.ep, ap := plain v.ap, busy := [], posted := [], flights := [], clock := 0
    vec := { v.vec with vPast := [], mPast := [] }
    tile := { v.tile with tPast := [], accPast := [] } }

/-- Whether two states differ in nothing that a program can tell apart but by what others do next. -/
def sameEffect (a b : State) : Bool :=
  let plain (s : State) : List Entry := s.pend.map fun e => { e with id := 0, after := [] }
  a.cur.settled == b.cur.settled && plain a == plain b && a.mem == b.mem && a.poison == b.poison && a.core.srseed == b.core.srseed

/-- Whether the instruction `i` of the stream in focus, begun in `s`, has completed in `t`: it neither waits nor stands part performed, and
neither a trap nor a rewind has come. -/
def completed (s t : State) : Bool :=
  t.str.wait.isNone && t.cur.handler == s.cur.handler && t.cur.live && t.cur.loc == s.cur.loc &&
    (t.cur.inFlight.isEmpty || s.stream == .ap && t.cur.inFlight == s.cur.inFlight) &&
    t.cur.strip.rewound == s.cur.strip.rewound

/-- What performing an instruction in flight comes to: it is complete, or has come to a progress index, or must stay as it is, or has
trapped or had its strip rewound. -/
inductive Performed where
  | whole (s : State)
  | part (s : State)
  | stays
  | broken (s : State)

/-- VSTART as an instruction in flight finds it: its own index, where it is one that VSTART concerns. -/
def State.standingAt (s : State) (f : Flight) : State := if clearsVstart f.instr then s.setVstart f.shown.index else s

/-- An instruction in flight is performed, to an index where one is given: as its stream would at its address, with its own index (R426).
Its stream stays where it is. One that younger ones have gone ahead of, which it could complete before, takes no trap after them: while it
would it stays as it is (R418; log 6). -/
noncomputable def State.performFlight (s : State) (f : Flight) (limit : Option Nat) : Performed :=
  let x := s.cur.str f.stream
  let others := s.cur.flights.erase f
  let oldest := s.cur.flights.head? == some f
  let on := { s with stream := f.stream, limit := limit, cur := { s.cur with owedFlags := f.owed, inFlight := [], flights := others } }
  let on := (on.setStr { x with pc := f.shown.pc, wait := none, granted := false, reserve := none, answer := none }).standingAt f
  match exec f.instr on with
  | .next t =>
    let back (fs : List Flight) : State :=
      let u := { t with stream := s.stream, limit := s.limit, cur := { t.cur with
        ctl := { t.cur.ctl with vstart := s.cur.ctl.vstart }, owedFlags := s.cur.owedFlags, inFlight := s.cur.inFlight, flights := fs
        clock := if oldest then 0 else s.cur.clock } }
      { u with cur := u.cur.setStr f.stream { u.cur.str f.stream with
          pc := x.pc, wait := x.wait, granted := x.granted, reserve := x.reserve, answer := x.answer } }
    if completed on t then .whole (back others)
    else if t.str.wait.isSome then .stays
    else match t.cur.inFlight with
      | [y] => .part (back (s.cur.flights.map fun g => if g == f then
          { f with shown := { f.shown with index := y.index }, owed := t.cur.owedFlags } else g))
      | _ =>
        if f.passed && (t.cur.handler != s.cur.handler || !t.cur.live) then .stays
        else .broken { t with limit := s.limit, cur := { t.cur with flights := others.filter (·.stream != f.stream) } }
  | _ => .stays

/-- The state after an instruction in flight that completes. -/
noncomputable def State.afterFlight (s : State) (f : Flight) : Option State :=
  match s.performFlight f none with
  | .whole t => some t
  | _ => none

/-- Instructions in flight performed in order. -/
noncomputable def State.afterFlights (s : State) (fs : List Flight) : Option State := fs.foldl (fun o f => o.bind (·.afterFlight f)) (some s)

/-- Whether an instruction `i`, which `run` completes, may go ahead of older ones in flight (R362). -/
noncomputable def State.goesAhead (s : State) (older : List Flight) (i : Instr) (run : State → Option State) : Bool :=
  let from_ := { s with probe := some [] }
  mayPass s.stream older i && s.upset.isNone && older.all (fun f => !namesResult s f.instr i) &&
    match run from_, s.afterFlights older with
    | some b, some a => match b.probe, from_.afterFlights older, ({ b with probe := some [] } : State).afterFlights older, run a with
      | some mine, some p, some q, some u =>
        mine.all (fun g => !(p.probe.getD []).contains g) && p.probe == q.probe && sameEffect u { q with probe := none }
      | _, _, _, _ => false
    | _, _ => false

/-- The instruction at pc of the stream in focus, executed, where it completes. -/
noncomputable def State.afterNext (i : Instr) (s : State) : Option State :=
  match exec i s with
  | .next t => if completed s t then some t else none
  | _ => none

/-- The instructions of a stream that are in flight, oldest first. -/
def State.ownFlights (s : State) : List Flight := s.cur.flights.filter (·.stream == s.stream)

/-- Younger instructions have gone ahead of some in flight. -/
def State.passing (s : State) (fs : List Flight) : State :=
  s.modVlc fun v => { v with flights := v.flights.map fun f => if fs.contains f then { f with passed := true } else f }

/-- The k-th instruction in flight of the context is performed, as far as an index where one is given: where older ones of its stream
stand before it, ahead of these. -/
noncomputable def State.performNth (s : State) (k : Nat) (limit : Option Nat) : State :=
  match s.cur.flights[k]? with
  | none => s
  | some f =>
    let on := { s with stream := f.stream }
    let older := (s.cur.flights.take k).filter (·.stream == f.stream)
    if older.isEmpty || on.goesAhead older f.instr (·.afterFlight f) then
      match ({ (on.passing older) with stream := s.stream } : State).performFlight f
          (limit.bind fun n => if (on.standingAt f).maybeStop f.instr n then some n else none) with
      | .whole t | .part t | .broken t => t
      | .stays => s
    else s

/-- The oldest instruction in flight of a stream comes first: one that nothing has gone ahead of is the stream's next again, and any other is
performed. -/
noncomputable def State.oldestFirst (s : State) (st : Stream) : State :=
  let own := s.cur.flights.filter (·.stream == st)
  match own with
  | [] => s
  | f :: _ =>
    if own.all fun g => !g.passed then
      let t := { s with stream := st, cur := { s.cur with
        flights := s.cur.flights.filter (·.stream != st)
        owedFlags := if st == Stream.ep then f.owed else s.cur.owedFlags
        inFlight := if f.shown.index == 0 then s.cur.inFlight else [f.shown] } }
      { (t.standingAt f).setPc f.shown.pc with stream := s.stream }
    else match s.performFlight f none with
      | .whole t | .part t | .broken t => t
      | .stays => s

/-- The instruction at pc of the stream in focus. -/
noncomputable def State.nextInstr (s : State) : Option Instr :=
  match s.fetchAll with
  | (.ok ps, _) => match decode ps with | .ok (i, _) => some i | .error _ => none
  | (.error _, _) => none

/-- Whether the stream in focus may go past its next instruction: one that would complete once those in flight have. -/
noncomputable def State.mayIssue (s : State) (i : Instr) : Bool :=
  mayFly i && s.upset.isNone && s.str.wait.isNone && s.cur.inFlight.isEmpty &&
    (s.afterFlights s.ownFlights).elim false fun t => (t.afterNext i).isSome

/-- The stream in focus issues the instruction at its pc and goes past it (R362). -/
noncomputable def State.issueNext (s : State) : State :=
  match s.nextInstr with
  | none => s
  | some i =>
    if s.mayIssue i then
      let shown : InFlight := ⟨s.pc, evalOf i, if clearsVstart i then s.vstart else 0, BitVec.ofNat 64 s.vl, s.vtypeWord, scalarsOf i s⟩
      let t := s.modVlc fun v => { v with flights := v.flights ++ [⟨s.stream, i, shown, [], false⟩] }
      (if clearsVstart i then t.setVstart 0 else t).setPc (s.nextPc i)
    else s

end Sys2Proof.Machine
end

