-- ==== Sys2Proof/Machine/Step.lean ====
section
/-! DEFINITION. One step of the machine (log 6): the next choice of the agenda, or the stream in focus. -/

namespace Sys2Proof.Machine

/-- Fetches, decodes and executes the instruction at the pc of the stream in focus (R118 steps 1 and 2, then `exec`). -/
noncomputable def stepStream (s : State) : Host.Outcome State Fault Refusal :=
  match s.fetchAll with
  | (.error none, t) => .next (s.waitFor (t.str.wait.getD (.store s.pc)))
  | (.error (some t), s) => .next (takeTrap s s.pc t)
  | (.ok ps, s) =>
    match decode ps with
    | .error _ => .next (takeTrap s s.pc ⟨causeIllegal, rawWord ps, 0⟩)
    | .ok (i, _) => exec i s

/-- The stream in focus goes on, with instructions of its context in flight: its next instruction goes ahead of those of its own stream
where it may, and the oldest comes first where it may not (R362), or where a trap or the end of the context would come before one (R418). -/
noncomputable def stepPast (s : State) : Host.Outcome State Fault Refusal :=
  match s.ownFlights with
  | [] => match stepStream s with
    | .next t =>
      if s.cur.flights.isEmpty || (t.cur.handler == s.cur.handler && t.cur.live && t.cur.loc == s.cur.loc) then .next t
      else .next (s.oldestFirst (if s.stream == .ep then .ap else .ep))
    | o => o
  | own => match s.nextInstr with
    | some i => if s.goesAhead own i (State.afterNext i) then stepStream (s.passing own) else .next (s.oldestFirst s.stream)
    | none => .next (s.oldestFirst s.stream)

/-- The stream in focus runs an instruction that is interrupted at index `n`, where it may be (R40, R418); any other runs whole. -/
noncomputable def stepCut (s : State) (n : Nat) : Host.Outcome State Fault Refusal :=
  if s.ownFlights.isEmpty && s.nextInstr.elim false (s.maybeStop · n) then
    match stepPast { s with limit := some n } with
    | .next t => .next { t with limit := none }
    | o => o
  else stepPast s

/-- One step. What the agenda names first goes first: an event, a stream, an instruction issued or performed out of order, a byte bound or
a parcel fetched ahead, or a core's renaming; with an empty agenda the stream in focus runs, and a machine in which it cannot run stays as
it is. -/
noncomputable def step (s : State) : Host.Outcome State Fault Refusal :=
  match s.agenda with
  | [] => if !s.powered then .fault .moduleOff else if s.runnable then stepPast s else .next s
  | .event i :: rest => exec i { s with agenda := rest }
  | .renaming l :: rest => .next (({ s with agenda := rest } : State).renamingDisarms l)
  | .run l st :: rest =>
    match ({ s with agenda := rest } : State).focus l st with
    | none => .next { s with agenda := rest }
    | some t => if t.powered && t.runnable then stepPast t else .next { s with agenda := rest }
  | .cut l st n :: rest =>
    match ({ s with agenda := rest } : State).focus l st with
    | none => .next { s with agenda := rest }
    | some t => if t.powered && t.runnable then stepCut t n else .next { s with agenda := rest }
  | .issue l st :: rest => .next (({ s with agenda := rest } : State).within l st fun t => if t.powered && t.runnable then t.issueNext else t)
  | .perform l k n :: rest => .next (({ s with agenda := rest } : State).within l s.stream fun t => if t.powered then t.performNth k n else t)
  | .bind l st member ga :: rest =>
    .next (({ s with agenda := rest } : State).within l st fun t => if t.powered && t.runnable then t.bindAhead member ga else t)
  | .prefetch l va :: rest =>
    match ({ s with agenda := rest } : State).focus l s.stream with
    | none => .next { s with agenda := rest }
    | some t => if t.powered then .next (t.prefetchParcel va) else .next { s with agenda := rest }

/-- The instruction of `nbits` bits `w`, stored where the next step fetches (log 5): as many parcels as it has, two at least. -/
def State.withFetchWord (s : State) (nbits w : Nat) : State :=
  let w := w % 2 ^ nbits
  s.placeBytes (leBytes (4 * max 2 (1 + restParcels (BitVec.ofNat 32 w))) w)

end Sys2Proof.Machine
end

