-- ==== Sys2Proof/Machine/Record.lean ====
section
/-! DEFINITION. The bytes of an adjournment record, as the save area of a die holds it (R424, R425, R460; log 21). -/

namespace Sys2Proof.Machine

/-- Bytes filled up with zeros to a length. -/
def padTo (n : Nat) (bs : List Byte) : List Byte := bs ++ List.replicate (n - bs.length) 0

/-- Bytes filled up with zeros to a multiple of a number. -/
def padBy (n : Nat) (bs : List Byte) : List Byte := bs ++ List.replicate ((n - bs.length % n) % n) 0

/-- Words of 64 bits, in order. -/
def dwords (l : List Word) : List Byte := l.flatMap fun x => leBytes 8 x.toNat

/-- A control register as it reads in the context of a record. -/
def Saved.creg (r : Saved) (s : State) (n : Nat) : Word := cregRead { s with cur := r.vlc } n

/-- G of a stream, its return-address stack in 16 entries, and DEPTH (R137). -/
def StreamState.stack (x : StreamState) : List Word := (x.ras ++ List.replicate (16 - x.ras.length) 0) ++ [BitVec.ofNat 64 x.ras.length]

def Saved.scalarSection (r : Saved) : List Byte :=
  padTo 1024 (dwords (r.vlc.ep.g.toList ++ r.vlc.h.toList ++ r.vlc.ep.stack))

/-- The registers of the Control section: the RW and W1C ones of a context with FXIDX and FXPC, but for VL, VTYPE and VLSAVE. -/
def controlNumbers : List Nat :=
  [0x001, 0x008, 0x009, 0x00A, 0x00B, 0x010] ++ (List.range 8).map (0x018 + ·) ++ (List.range 8).map (0x020 + ·) ++ [0x028, 0x031] ++
    (List.range 16).map (0x040 + ·) ++ [0x080, 0x081, 0x082, 0x0C0, 0x0C1, 0x0C2, 0x0C3, 0x0C4]

/-- The Control section. With an instruction in flight, which takes its index from its entry, VSTART is 0. PL0 to PL7, which R424 has
travel with P and for which the 48 × B bytes of the Vector section leave no room, stand in its last 64 bytes (DESIGN CHOICE, log 21). -/
def Saved.controlSection (r : Saved) (s : State) : List Byte :=
  let one (n : Nat) : Word := if n == 1 && !r.vlc.inFlight.isEmpty then 0 else r.creg s n
  padTo 448 (dwords (controlNumbers.map one)) ++ dwords ((List.range 8).map fun k => r.creg s (0x070 + k))

def Saved.apSection (r : Saved) : List Byte :=
  if r.vlc.ctl.apon then padTo 512 (dwords (r.vlc.ap.pc :: r.vlc.ap.g.toList ++ r.vlc.ap.stack)) else []

/-- A held entry: its tag and its data (R460). -/
def queueEntry (queue count tc : Nat) (bs : List Byte) : List Byte :=
  leBytes 8 (bs.length * 2 ^ 32 + count * 2 ^ 16 + tc * 2 ^ 8 + queue) ++ padBy 8 bs

def Strip.bytes (x : Strip) : List Byte :=
  leBytes (if x.ty.isScaled then 32 * ((x.count + blockLen x.ty - 1) / blockLen x.ty) else (x.count * x.ty.sew + 7) / 8) x.data.toNat

/-- The held entries of a context, in queue order. -/
def Vlc.entries (v : Vlc) : List (List Byte) :=
  (v.q.strips.toList.zipIdx.flatMap fun x => x.1.map fun y => queueEntry x.2 y.count (tyCode y.ty).toNat y.bytes) ++
  (v.q.words.toList.zipIdx.flatMap fun x => x.1.map fun y => queueEntry (8 + x.2) 0 0 (leBytes 8 y.toNat)) ++
  (v.q.bits.map fun b => queueEntry 12 0 0 (leBytes 8 (if b then 1 else 0))) ++
  (v.q.q17.map fun x => queueEntry 17 0 0 (leBytes 64 x.toNat)) ++ (v.q.q19.map fun x => queueEntry 19 0 0 (leBytes 64 x.toNat))

def Saved.queueSection (r : Saved) : List Byte :=
  let es := r.vlc.entries
  padBy 64 (padTo 64 ((r.vlc.k.toList.flatMap fun k => leBytes 1 k.toNat) ++ leBytes 4 es.length) ++ es.flatten)

/-- The Streams section. Each of its eight parts holds the descriptor, the number of the bound V register (all ones where none is bound),
the next element's address and rem (the order and the mark are a DESIGN CHOICE, log 21). -/
def Saved.streamSection (r : Saved) : List Byte :=
  (List.finRange 8).flatMap fun k =>
    let place : List Word := match r.vlc.binds.find? (·.2.sreg == k) with
      | some (v, b) => [BitVec.ofNat 64 v.val, (b.piece b.pos).va, BitVec.ofNat 64 b.rem]
      | none => [BitVec.allOnes 64, 0, 0]
    padTo 64 (r.vlc.s[k].image ++ dwords place)

/-- The entries of the instructions in flight, in program order: those that a stream has gone past, then the one that the EP stands at. -/
def Saved.inFlight (r : Saved) : List InFlight := r.vlc.flights.map (·.shown) ++ r.vlc.inFlight

def Saved.flightSection (r : Saved) : List Byte :=
  r.inFlight.flatMap fun f => padTo 64 (dwords ([f.pc, f.encoding, BitVec.ofNat 64 f.index, f.vl, f.vtype] ++ f.scalars.take 3))

/-- The Vector section: V, M, and the records of P, B bytes each (R205, R424). -/
def Saved.vectorSection (r : Saved) : List Byte :=
  if r.vlc.tenure then
    (r.vlc.vec.v.toList.flatMap fun x => leBytes r.vlenb x.toNat) ++ (r.vlc.vec.m.toList.flatMap fun x => leBytes r.vlenb x.toNat) ++
      (r.vlc.vec.p.toList.flatMap fun x => padTo r.vlenb (x.pairs.flatMap (recordBytes x.ty)))
  else []

/-- Whether a function register is allocated. -/
def Saved.hasFunctions (r : Saved) : Bool := r.vlc.vec.f.toList.any (·.isSome)

/-- The image of a function register (R212). -/
def FnReg.image (f : FnReg) : List Byte := f.coef.flatMap fun x => leBytes f.bytes x.toNat

def Saved.functionSection (r : Saved) : List Byte :=
  if r.hasFunctions then
    padBy 64 (padTo 256 (dwords (r.vlc.vec.f.toList.map fun f => f.elim 0 (·.word))) ++ r.vlc.vec.f.toList.flatMap fun f => f.elim [] (·.image))
  else []

/-- Whether a context has tile state (R312). -/
def Saved.hasTiles (r : Saved) : Bool := r.vlc.tile.t.toList.any (·.cfg.isSome) || r.vlc.ctl.tvalid || r.vlc.tile.board.isSome

/-- Bytes of each of the four parts of the accumulator store, and of a part of a board. -/
def accPart : Nat := 262144
def boardPart : Nat := 65536

def Saved.tileSection (r : Saved) (s : State) : List Byte :=
  if r.hasTiles then
    padBy 64 (padBy 64 (dwords ((List.range 16).map (fun k => r.creg s (0x040 + k)) ++ [r.creg s 0x031])) ++
      (r.vlc.tile.t.toList.flatMap fun t => match t.cfg with
        | none => []
        | some c => (t.elems.bytes (c.rows * c.rowBytes)).toList ++ (if c.ty.isScaled then (t.scales.bytes (c.rows * c.rowBlocks)).toList else [])) ++
      (if r.vlc.ctl.tvalid then r.vlc.tile.acc.toList.flatMap fun a => (a.bytes accPart).toList else []) ++
      (match r.vlc.tile.board with
        | none => []
        | some b => leBytes 64 (if b.s16 then 1 else 0) ++ [b.part0, b.part1, b.part2].flatMap fun p => (p.bytes boardPart).toList))
  else []

/-- The sections after the header, in the order of R424, each a multiple of 64 bytes. -/
def Saved.sections (r : Saved) (s : State) : List Byte :=
  r.scalarSection ++ r.controlSection s ++ r.apSection ++ r.queueSection ++ r.streamSection ++ r.flightSection ++ r.vectorSection ++
    r.functionSection ++ r.tileSection s

/-- FLAGS of the header (R425). -/
def Saved.flags (r : Saved) : Nat :=
  [r.vlc.ctl.apon, r.vlc.ctl.tm, r.vlc.ctl.sys, r.vlc.tenure, r.hasFunctions, r.hasTiles, r.vlc.tile.board.isSome, r.target.isSome].zipIdx.foldl
    (fun n x => n + if x.1 then 2 ^ x.2 else 0) 0

/-- The EP's point of resumption (R423, R425): after the instruction in flight, which R426 executes from its entry first. -/
def Saved.resumePc (r : Saved) : Word :=
  match r.vlc.inFlight.getLast? with
  | none => r.vlc.ep.pc
  | some f => f.pc + if f.encoding.getLsbD 0 then 8 else 4

/-- SIZE: the bytes of the whole record (R425). -/
def Saved.size (r : Saved) (s : State) : Nat := 64 + (r.sections s).length

def Saved.header (r : Saved) (s : State) : List Byte :=
  let target := r.target.elim 0 fun c => locNum ⟨c.die, c.core, 0⟩ / 4
  leBytes 2 1 ++ leBytes 2 r.flags ++ leBytes 2 r.vlenb ++ leBytes 2 r.inFlight.length ++ leBytes 4 (r.size s) ++ leBytes 4 target ++
    dwords [r.resumePc, r.creg s 0x000, r.creg s 0x002, r.creg s 0x003, r.creg s 0x0A0, 0]

/-- The record (R424, R425). -/
def Saved.record (r : Saved) (s : State) : List Byte := r.header s ++ r.sections s

end Sys2Proof.Machine
end

