-- ==== Sys2Proof/Safety.lean ====
section
/-! DEFINITION. The terms in which statements speak of runs: what a well-kept state is, and when an instruction gets from a
state to its own effect. -/

namespace Sys2Proof.Machine

/-- A step went on: it neither faulted nor refused. -/
def Proceeds (o : Host.Outcome State Fault Refusal) : Prop := ∃ t, o = .next t

/-- Memory keeps its canonical form. -/
def MemoryKept (s : State) : Prop := s.mem.wf = true

/-- Instruction `i` gets from `s` to its own effect, which begins in `u` with the strips `st` of its bound operands (R199) and
the draws `ds` (R52): it passes steps 3 to 6 of R118 and waits for nothing (R105, R310, R312), which stores nothing; no strip
brought poison or a missing answer (R438, R395), no read has to be held (R342), no hardware error is to be found in it (R436),
and nothing interrupts it (R40). -/
structure Begins (i : Instr) (s : State) (st : Strips) (ds : List Nat) (u : State) : Prop where
  ready : ∃ t, gate i s = .ok t ∧ prepare i t = .ok (st, ds, u)
  whole : st.psn = [] ∧ st.absent = []
  free : u.str.wait = none
  sound : u.upset = none
  uncut : i.common.isSome = true → u.limit = none
  same : u.pend = s.pend ∧ u.stream = s.stream

/-- Nothing keeps instruction `i` from beginning in `s` (R105, R118, R310, R312, R366, R371): it passes steps 3 to 6, its context holds
the tenure or array it needs, the token it waits for is granted, its post finds room and no write of its stream is held, it names no
bound register, no error is in store and nothing interrupts it. -/
structure Ready (i : Instr) (s : State) : Prop where
  passes : decodeTrap i s = none
  tenure : needsTenure i = true → s.cur.tenure = true
  array : cellIsTile i.cell = true → s.core.tileOwner = some s.cur.loc
  wait : ∀ c, i.common = some c → c.wait = none ∨ s.str.granted = true
  post : ∀ c k, i.common = some c → c.post = some k → (s.cur.k[k]).toNat < 63 ∧ s.ownHeld = false
  fork : accessesMemory i = true → s.forkHeld = false
  plain : s.cur.binds = []
  sound : s.upset = none
  uncut : i.common.isSome = true → s.limit = none

/-- Nothing stands between the stream in focus and memory: its addresses are bare (log 8), no store is on its way, no release is on its
mind (R368), it waits for no atomic, has bound nothing ahead and has nothing in flight, no frame moves or is away from its home, no
injection is armed, no line is marked, and no error is in store. -/
structure Quiet (s : State) : Prop where
  bare : (s.cur.ctl.atp >>> 60) = 0
  idle : s.pend = [] ∧ s.moves = [] ∧ s.frames = []
  fresh : s.str.released = [] ∧ s.str.near = []
  unanswered : s.str.answer = none
  still : s.str.early = [] ∧ s.cur.flights = [] ∧ s.probe = none
  calm : ∀ c ∈ s.cores.toList, c.injb.getLsbD 0 = false
  clean : s.poison = []
  sound : s.upset = none

/-- The global addresses of `n` bytes at a bare address (log 8). -/
def bareBytes (va : Word) (n : Nat) : List Nat := (List.range n).map fun k => (va + BitVec.ofNat 64 k).toNat % 2 ^ 63

/-- Bytes at global addresses exist, are open to accesses, and their owner answers (R324, R337), to which one more request may be sent
(R338, R379). -/
def State.reaches (s : State) (gas : List Nat) : Prop :=
  ∀ ga ∈ gas, s.gaFaults ga = false ∧ s.reachable s.cur.loc.die ga = true ∧ s.mayNotLeave s.cur.loc.die [ga] = false

/-- The strips of an instruction that names no bound register. -/
def noStrips : Strips := ⟨[], [], [], [], none⟩

/-- The state whose stream in focus waits for nothing. -/
def State.awake (s : State) : State := s.setStr { s.str with wait := none }

/-- `s` after an instruction of one parcel whose only result is `x` in G[d], where register 0 discards it (R41): the stream goes
on after it, no longer waits, and its context's progress clock starts again as at any completion (R420). -/
def State.afterG (s : State) (d : Fin 32) (x : Word) : State :=
  (s.setStr { s.str with
    g := if d = 0 then s.str.g else s.str.g.set d x
    pc := s.str.pc + 4
    wait := none
    granted := false }).restartClock

/-- Instruction `i` of a stream in `s` completes with the result state `w` and the flags `r`, and goes on after itself. -/
def Completes (i : Instr) (s w : State) (r : Raised) : Prop := exec i s = .next (w.complete i r (w.nextPc i))

/-- Instruction `i` of a stream in `s` completes with the result state `w`, and goes on at `pc`. -/
def GoesTo (i : Instr) (s w : State) (pc : Word) : Prop := exec i s = .next (w.complete i [] pc)

/-- Instruction `i` of a stream in `s`, whose operands' strips are `st`, completes with the result state `w`, in which its stores bear its
OVT (R103), the check `chk` passed (R430) and the flags `r`, and goes on after itself. -/
def Ends (i : Instr) (s : State) (st : Strips) (w : State) (r : Raised) (chk : Option Check) : Prop :=
  exec i s = .next (finish i st ((w.markedBy i s).spot chk) r)

/-- What register, memory and buffer state two states share: all but the context in focus. -/
def SameOutside (s t : State) : Prop := t = { s with cur := t.cur }

/-- No byte of memory reads differently, on any path (R360). -/
def SameMemory (s t : State) : Prop := ∀ (p : Path) (ga : Nat), t.byteOn p ga = s.byteOn p ga

end Sys2Proof.Machine
end

