-- ==== Sys2Proof/WellFormed.lean ====
section
/-! DEFINITION. What makes an instruction one that an encoding can hold: the checks of its cell and its own (R97, R100,
R101, R104, R105, R109, R114). The types of the constructors' fields carry the rest. -/

namespace Sys2Proof

/-- Whether a row of the opcode table is an instruction: the others are events, with no encoding. -/
def Instr.encodable (i : Instr) : Bool := i.cell != .event

/-- An instruction whose fields pass every check of R118 step 2. Events bring data of their own and are always well formed. -/
def Instr.WellFormed (i : Instr) : Prop := firstReject i.checks = none

abbrev Instr.wellFormed (i : Instr) : Bool := (firstReject i.checks).isNone

end Sys2Proof
end

