-- ==== Sys2Proof/Certificates/Slice0/Obligations.lean ====
section
/-! DEFINITION. The statements for the provers, in the order of OBLIGATIONS.json. -/

open Sys2Proof Sys2Proof.Machine

/-! ## Encodings -/

/-- R94 to R99 and the tables of R107 and R108: every well-formed instruction is read back from its own encoding, whatever parcels
follow it. -/
def Obligations.DecodeEncode : Prop :=
  ∀ (i : Instr) (rest : List Parcel), i.WellFormed → i.encodable = true → decode (encode i ++ rest) = .ok (i, rest)

/-- Words that the spec writes out field by field stand for the instructions it gives them to: `beq G5, G0` (OFF12 13),
`cread G5, VL`, `slli G6, G5, 2`, `j` (OFF25 −13), `vrel`, `exit`, `adjourn`, `fence device, rel`, and of 64 bits
`vldx.f32 V3, [G4 + V7*4], M2.t, post=K3`, `fnmul F3, F1, F2`, `tmma ACC1, T2, T3, z=1` and `tbeval T7, T6`. -/
def Obligations.SpecWordsDecode : Prop :=
  decodeTableWord 32 0x00D05020 = some (.beq 5 0 13) ∧
  decodeTableWord 32 0x000002B4 = some (.cread 5 0x000) ∧
  decodeTableWord 32 0x002C5304 = some (.slli 6 5 2) ∧
  decodeTableWord 32 0xFFFFF9A2 = some (.j (-13)) ∧
  decodeTableWord 32 0x00040030 = some .vrel ∧
  decodeTableWord 32 0x00060026 = some .exit ∧
  decodeTableWord 32 0x0004003A = some .adjourn ∧
  decodeTableWord 32 0x01300038 = some (.fenceRel .device) ∧
  decodeTableWord 64 0x80001C8300B23A23 =
    some (.vldx ⟨.rne, none, some 3, false, false, some .f32, some ⟨2, true⟩⟩ 3 4 7 2 .n32) ∧
  decodeTableWord 64 0x002008230003E033 = some (.fnmul ⟨.rne, none, none, false, false, none, none⟩ .follow 3 1 2) ∧
  decodeTableWord 64 0x01000C410003E043 = some (.tmma ⟨.rne, none, none, false, false, none, none⟩ true 1 2 3) ∧
  decodeTableWord 64 0x001000C70003E045 = some (.tbeval ⟨.rne, none, none, false, false, none, none⟩ 7 6)

/-! ## Steps, reset and what every step keeps -/

/-- A step of the stream in focus, with nothing of its context in flight, runs the instruction that the parcels at its pc decode to, in
the state that their fetch leaves (R118 steps 1 and 2). -/
def Obligations.StepRunsDecoded : Prop :=
  ∀ (s t : State) (ps rest : List Parcel) (i : Instr),
    s.agenda = [] → s.powered = true → s.runnable = true → s.cur.flights = [] → s.fetchAll = (.ok ps, t) → decode ps = .ok (i, rest) →
    step s = exec i t

/-- What the head of the agenda names is what the next step performs, with the agenda moved on (the model's own order, log 6): an event;
or a stream issues its instruction and goes past it, which writes no register, no store and no memory; or it binds a byte ahead (R362,
R363), which changes neither its registers nor its stores, and which the stream's next load of that byte takes. -/
def Obligations.StepRunsEvent : Prop :=
  ∀ (s : State) (i : Instr) (rest : List Choice) (ga : Nat),
    (s.agenda = .event i :: rest → step s = exec i { s with agenda := rest }) ∧
    (s.cur.live = true → s.agenda = .issue s.cur.loc s.stream :: rest →
      ∃ t, step s = .next t ∧ t.str.g = s.str.g ∧ t.cur.h = s.cur.h ∧ t.cur.vec = s.cur.vec ∧ t.pend = s.pend ∧ t.mem = s.mem) ∧
    (s.cur.live = true → s.agenda = .bind s.cur.loc s.stream false ga :: rest →
      ∃ t, step s = .next t ∧ t.str.g = s.str.g ∧ t.pc = s.pc ∧ t.cur.vec = s.cur.vec ∧ t.pend = s.pend) ∧
    (∀ x, s.str.early = [x] → x.ga = ga → x.level = 0 →
      (s.readOwn .load s.path [ga]).1 = ⟨[x.byte], x.poison, false, false⟩ ∧ (s.readOwn .load s.path [ga]).2.str.early = [])

/-- Every step keeps the canonical form of memory, in which equal memories are equal data. -/
def Obligations.StepKeepsMemoryForm : Prop :=
  ∀ s t : State, MemoryKept s → step s = .next t → MemoryKept t

/-- Memory has its canonical form at reset. -/
def Obligations.ResetKeepsMemoryForm : Prop := MemoryKept State.reset

/-- R18 and R20: what core reset leaves in SRSEED, SPOTSEED and CLKLIM of every core, and what a context has at its creation:
VL, VSTART, VLSAVE, FL, FSTAT, CSP, EPC, ECAUSE, EVAL and ESCRATCH 0, VTYPE 2, DEGCAP 15, FQUOTA by core kind, SMISS 7, no tile
shape, and ATP, ASID and ETVEC as the launch unit read them. -/
def Obligations.ResetValues : Prop :=
  (∀ k : Fin 48, (State.reset.cores[k]).srseed = 1 ∧ (State.reset.cores[k]).spotseed = 1 ∧
    (State.reset.cores[k]).clklim = 0x01000000) ∧
  ∀ (l : Loc) (pc atp etvec : Word) (asid : BitVec 16) (s : State), s.cur = Vlc.create l pc atp asid etvec →
    (∀ n ∈ [0x000, 0x001, 0x003, 0x008, 0x00B, 0x010, 0x031, 0x082, 0x0C0, 0x0C1, 0x0C2, 0x0C4], cregRead s n = 0) ∧
    cregRead s 0x002 = 2 ∧ cregRead s 0x009 = 15 ∧ cregRead s 0x00A = (if l.coreId.ncore then 256 else 2048) ∧
    cregRead s 0x028 = 7 ∧ cregRead s 0x004 = (if l.coreId.ncore then 0x100 else 0x800) ∧
    cregRead s 0x080 = atp ∧ cregRead s 0x081 = asid.setWidth 64 ∧ cregRead s 0x0C3 = etvec

/-! ## What instructions share -/

/-- R105, R118, R310, R312: an instruction that passes steps 3 to 6, holds the tenure or array it needs, waits for no token or for
one that is there, finds room for its post and names no bound register, gets to its own effect, in the state it finds but for the
draws that it reserves (R52). -/
def Obligations.InstructionsBegin : Prop :=
  ∀ (i : Instr) (s : State), Ready i s →
    Begins i s noStrips (drawn i s).1 (drawn i s).2 ∧ (drawsAtIssue i s = 0 → drawn i s = ([], s.awake))

/-- R105: an instruction takes its place in the order of its FIFO, behind those of the other stream that came first. Its token wait is
granted where the FIFO holds more tokens than there are instructions ahead of it; else it waits at K, with nothing performed and its pc
where it was. -/
def Obligations.TokenWait : Prop :=
  ∀ (s : State) (k : Fin 8), s.str.granted = false →
    let order := if s.cur.korder[k].contains s.stream then s.cur.korder[k] else s.cur.korder[k] ++ [s.stream]
    let ahead := (order.takeWhile (· != s.stream)).length
    (ahead < (s.cur.k[k]).toNat → ∃ t, s.needToken k = .ok t ∧ t.str.granted = true ∧ t.cur.k = s.cur.k ∧
      t.cur.korder = s.cur.korder.set k order ∧ t.pc = s.pc ∧ t.str.g = s.str.g ∧ t.mem = s.mem) ∧
    ((s.cur.k[k]).toNat ≤ ahead → ∃ t, s.needToken k = .error t ∧ t.str.wait = some (.token k) ∧ t.cur.k = s.cur.k ∧
      t.cur.korder = s.cur.korder.set k order ∧ t.pc = s.pc ∧ t.str.g = s.str.g ∧ t.mem = s.mem)

/-- R105, R23, R420: completion removes the token waited for, then posts (`tgmm` has posted its own, R259); a vector-class instruction
leaves VSTART 0, and any other one leaves it as it is, which is the model's reading of R23 (log 24); the progress clock is 0, save where
an older instruction of vectors is incomplete; the stream goes on at `pc`; no register of V, M,
P, F, T, ACC, G, H, S or Q, and no byte of memory, changes. -/
def Obligations.CompletionFrame : Prop :=
  ∀ (i : Instr) (s : State) (r : Raised) (pc : Word),
    let t := s.complete i r pc
    t.pc = pc ∧ t.str.wait = none ∧ ((s.stream = .ep ∧ s.cur.flights = []) ∨ s.vectorWaits = false → t.cur.clock = 0) ∧
    (clearsVstart i = true → t.cur.ctl.vstart = 0) ∧ (clearsVstart i = false → t.cur.ctl.vstart = s.cur.ctl.vstart) ∧
    t.cur.vec = s.cur.vec ∧ t.cur.tile = s.cur.tile ∧ t.str.g = s.str.g ∧ t.cur.h = s.cur.h ∧ t.cur.s = s.cur.s ∧
    t.cur.q = s.cur.q ∧ SameMemory s t ∧ t.cur.ctl.vl = s.cur.ctl.vl ∧ t.cur.ctl.atp = s.cur.ctl.atp ∧
    t.cur.ctl.epc = s.cur.ctl.epc ∧ t.cur.ctl.sys = s.cur.ctl.sys ∧
    (∀ c, i.common = some c → ∀ k : Fin 8,
      let left := if c.wait = some k then s.cur.k[k] - 1 else s.cur.k[k]
      let posts := match i with | .tgmm .. => false | _ => c.post == some k
      t.cur.k[k] = if posts then left + 1 else left) ∧
    (i.common = none → t.cur.k = s.cur.k)

/-- R27, R28: flags merge into FSTAT, and only those raised are added; a class raised before keeps its FXIDX and FXPC, and a new
one takes its lowest raising index and PC[56:2]. -/
def Obligations.FlagsMerge : Prop :=
  ∀ (s : State) (r : Raised) (n : Fin 8),
    let t := commitFlags s r
    t.cur.ctl.fstat.getLsbD n.val = (s.cur.ctl.fstat.getLsbD n.val || r.any fun x => x.2.getLsbD n.val) ∧
    (s.cur.ctl.fxvalid.getLsbD n.val = true →
      t.cur.ctl.fxidx[n] = s.cur.ctl.fxidx[n] ∧ t.cur.ctl.fxpc[n] = s.cur.ctl.fxpc[n]) ∧
    (s.cur.ctl.fxvalid.getLsbD n.val = false → ∀ k, lowestRaise r n.val = some k →
      t.cur.ctl.fxvalid.getLsbD n.val = true ∧ t.cur.ctl.fxidx[n] = BitVec.ofNat 14 k ∧
      t.cur.ctl.fxpc[n] = (s.pc >>> 2).setWidth 55)

/-- R41: G0 reads zero and discards writes; any other register holds what was written, and no other one changes. -/
def Obligations.GeneralRegisters : Prop :=
  ∀ (s : State) (n m : Fin 32) (x : Word),
    s.gread 0 = 0 ∧ s.gwrite 0 x = s ∧ (n ≠ 0 → (s.gwrite n x).gread n = x) ∧
    (m ≠ n → (s.gwrite n x).gread m = s.gread m) ∧ SameOutside s (s.gwrite n x) ∧
    (s.gwrite n x).cur.ctl = s.cur.ctl ∧ (s.gwrite n x).cur.h = s.cur.h ∧ (s.gwrite n x).pc = s.pc

/-! ## Traps -/

/-- R413, R416: trap entry with a handler, of any cause but 10, which goes to FOLD (R428), leaves no V register that an instruction is still to finish (R39), writes
EPC, ECAUSE (INFO, PSYS, STRM, CODE) and EVAL, raises the level, holds the other stream, and goes to ETVEC + 4 × code; no other control
register, no register of G, H, V, M, P, F, T, ACC, S, Q or K, and no byte of memory, changes. -/
def Obligations.TrapEntry : Prop :=
  ∀ (s : State) (epc : Word) (q : TrapReq), s.cur.ctl.etvec ≠ 0 → q.code < 64 → q.code ≠ causeMigration →
    let t := takeTrap s epc q
    t.cur.ctl = { s.cur.ctl with
      epc := epc
      ecause := (0#24) ++ q.info ++ (if s.cur.ctl.sys then 1#1 else 0#1) ++
        (match s.stream with | .ep => 0#1 | .ap => 1#1) ++ (0#8) ++ BitVec.ofNat 6 q.code
      eval := q.val
      sys := true } ∧
    t.pc = s.cur.ctl.etvec + BitVec.ofNat 64 (4 * q.code) ∧ t.cur.handler = some s.stream ∧
    (∀ y, (t.cur.str y).g = (s.cur.str y).g ∧ (t.cur.str y).ras = (s.cur.str y).ras) ∧ t.cur.h = s.cur.h ∧ t.cur.busy = [] ∧
    t.cur.vec = s.cur.vec ∧ t.cur.tile = s.cur.tile ∧ t.cur.s = s.cur.s ∧ t.cur.q = s.cur.q ∧ t.cur.k = s.cur.k ∧
    SameMemory s t

/-- R12, R118: on an N-core, an instruction that names T, ACC, TCFG or TSHAPE takes the illegal-instruction trap at decode, and so
does `mode` with the T-mode operand; the state is that of its trap entry, without a board (R266). -/
def Obligations.NcoreHasNoTiles : Prop :=
  ∀ (i : Instr) (s : State), s.ncore = true →
    (cellIsTile i.cell = true ∨ i = .mode true ∨
      ∃ n r w, cregUse i = some (n, r, w) ∧ (n = 0x031 ∨ (0x040 ≤ n ∧ n ≤ 0x04F))) →
    exec i s = .next (takeTrap (s.dropBoard i) s.pc ⟨causeIllegal, evalOf i, 0⟩)

/-- R18, R38, R118: at task level `tret`, `pgmove`, `pgstat` and a push into Q21 or a count of it take the privilege trap in either
stream, and so does every access to a control register that R18 gives the system level: a read, a write or an
exchange of ATP, ASID, SPOTSEED, INJA, INJB, EPC, ECAUSE, EVAL, ETVEC and ESCRATCH, a read or an exchange of VPI0 to VPI31, and a write or an
exchange of VL, VLSAVE, FQUOTA, TSHAPE and CLKLIM, which the task level may read. The state is that of the trap entry. -/
def Obligations.PrivilegeTrap : Prop :=
  ∀ (s : State) (d a b : Fin 32) (n : BitVec 12) (c : Common), s.cur.ctl.sys = false →
    let traps (i : Instr) : Prop := exec i s = .next (takeTrap s s.pc ⟨causePrivilege, evalOf i, 0⟩)
    let system : Prop := n.toNat ∈ [0x080, 0x081, 0x091, 0x098, 0x099, 0x0C0, 0x0C1, 0x0C2, 0x0C3, 0x0C4]
    let progress : Prop := 0x050 ≤ n.toNat ∧ n.toNat ≤ 0x06F
    let readable : Prop := n.toNat ∈ [0x000, 0x003, 0x00A, 0x088] ∨ (n.toNat = 0x031 ∧ s.ncore = false)
    traps .tret ∧ traps (.pgmove d a b) ∧ traps (.pgstat d a) ∧
    (∀ i ∈ [Instr.qcmd c 21 a, .qcnt c d 21], modeOk i s = true → shapeOk i s = true → traps i) ∧
    (system ∨ progress → traps (.cread d n)) ∧
    (system → traps (.cwrite n a) ∧ traps (.cswap d n a)) ∧
    (progress → traps (.cswap d n a)) ∧
    (readable → (n.toNat = 0x000 → s.stream = .ep ∧ s.cur.ctl.tm = false) → traps (.cwrite n a) ∧ traps (.cswap d n a))

/-- R295, R416, R417: `trap n` enters the trap with cause 9, EVAL n and EPC the next instruction; `tret` at system level takes
MODE.SYS from ECAUSE.PSYS and PC from EPC and releases the other stream. -/
def Obligations.TrapAndReturn : Prop :=
  ∀ s : State,
    (∀ n : BitVec 12, decodeTrap (.trap n) s = none →
      exec (.trap n) s = .next (takeTrap s.awake (s.pc + 4) ⟨causeSoftware, n.setWidth 64, 0⟩)) ∧
    (s.cur.ctl.sys = true → ∃ t, exec .tret s = .next t ∧ t.cur.ctl.sys = s.cur.ctl.ecause.getLsbD 15 ∧
      t.pc = s.cur.ctl.epc &&& ~~~(3 : Word) ∧ t.cur.handler = none ∧ t.str.g = s.str.g ∧ t.cur.vec = s.cur.vec ∧
      t.mem = s.mem ∧ t.cur.ctl.epc = s.cur.ctl.epc ∧ t.cur.ctl.ecause = s.cur.ctl.ecause)

/-! ## Scalar instructions -/

/-- R96, R122 to R124: the integer register and immediate operations (on the sign-extended IMM12, or on IMM20 in bits [31:12],
sign-extended). No state stops them, no flag is raised, and nothing but G[D] and the pc of the stream changes; that VSTART stays is the
model's reading of R23 (log 24). `clz` n: the n highest bits are clear and the next one is set; `ctz` likewise from bit 0; 64 for zero;
`pcnt`: the number of set bits. -/
def Obligations.IntegerOps : Prop :=
  ∀ (s : State) (d a b : Fin 32) (imm : BitVec 12) (sh : BitVec 6) (up : BitVec 20),
    let x := s.gread a
    let y := s.gread b
    let k := imm.signExtend 64
    let z := (up ++ (0#12)).signExtend 64
    exec (.add d a b) s = .next (s.afterG d (x + y)) ∧
    exec (.sub d a b) s = .next (s.afterG d (x - y)) ∧
    exec (.and d a b) s = .next (s.afterG d (x &&& y)) ∧
    exec (.or d a b) s = .next (s.afterG d (x ||| y)) ∧
    exec (.xor d a b) s = .next (s.afterG d (x ^^^ y)) ∧
    exec (.sll d a b) s = .next (s.afterG d (x <<< (y.toNat % 64))) ∧
    exec (.srl d a b) s = .next (s.afterG d (x >>> (y.toNat % 64))) ∧
    exec (.sra d a b) s = .next (s.afterG d (x.sshiftRight (y.toNat % 64))) ∧
    exec (.slt d a b) s = .next (s.afterG d (if x.toInt < y.toInt then 1 else 0)) ∧
    exec (.sltn d a b) s = .next (s.afterG d (if x.toNat < y.toNat then 1 else 0)) ∧
    exec (.min d a b) s = .next (s.afterG d (if y.toInt < x.toInt then y else x)) ∧
    exec (.minn d a b) s = .next (s.afterG d (if y.toNat < x.toNat then y else x)) ∧
    exec (.max d a b) s = .next (s.afterG d (if x.toInt < y.toInt then y else x)) ∧
    exec (.maxn d a b) s = .next (s.afterG d (if x.toNat < y.toNat then y else x)) ∧
    exec (.addw d a b) s = .next (s.afterG d (((x + y).setWidth 32).signExtend 64)) ∧
    exec (.subw d a b) s = .next (s.afterG d (((x - y).setWidth 32).signExtend 64)) ∧
    (∃ n ≤ 64, exec (.clz d a) s = .next (s.afterG d (BitVec.ofNat 64 n)) ∧
      (∀ j < 64, 64 - n ≤ j → x.getLsbD j = false) ∧ (n < 64 → x.getLsbD (63 - n) = true)) ∧
    (∃ n ≤ 64, exec (.ctz d a) s = .next (s.afterG d (BitVec.ofNat 64 n)) ∧
      (∀ j < n, x.getLsbD j = false) ∧ (n < 64 → x.getLsbD n = true)) ∧
    exec (.pcnt d a) s = .next (s.afterG d (BitVec.ofNat 64 ((List.range 64).countP fun j => x.getLsbD j))) ∧
    exec (.addi d a imm) s = .next (s.afterG d (x + k)) ∧
    exec (.andi d a imm) s = .next (s.afterG d (x &&& k)) ∧
    exec (.ori d a imm) s = .next (s.afterG d (x ||| k)) ∧
    exec (.xori d a imm) s = .next (s.afterG d (x ^^^ k)) ∧
    exec (.slti d a imm) s = .next (s.afterG d (if x.toInt < k.toInt then 1 else 0)) ∧
    exec (.sltni d a imm) s = .next (s.afterG d (if x.toNat < k.toNat then 1 else 0)) ∧
    exec (.slli d a sh) s = .next (s.afterG d (x <<< sh.toNat)) ∧
    exec (.srli d a sh) s = .next (s.afterG d (x >>> sh.toNat)) ∧
    exec (.srai d a sh) s = .next (s.afterG d (x.sshiftRight sh.toNat)) ∧
    exec (.lui d up) s = .next (s.afterG d z) ∧
    exec (.pcui d up) s = .next (s.afterG d (s.pc + z))

/-- What `afterG` says, register by register: the frame of the integer instructions. That VSTART is among what stays is the model's reading
of R23 (log 24). -/
def Obligations.IntegerFrame : Prop :=
  ∀ (s : State) (d : Fin 32) (x : Word),
    let t := s.afterG d x
    t.gread d = (if d = 0 then 0 else x) ∧ (∀ r, r ≠ d → t.gread r = s.gread r) ∧ t.pc = s.pc + 4 ∧
    t.cur.ctl = s.cur.ctl ∧ t.cur.h = s.cur.h ∧ t.cur.vec = s.cur.vec ∧ t.cur.tile = s.cur.tile ∧ t.cur.s = s.cur.s ∧
    t.cur.q = s.cur.q ∧ t.cur.k = s.cur.k ∧ t.str.ras = s.str.ras ∧ SameOutside s t ∧ SameMemory s t

/-- R44, R125: products; quotients truncate toward zero, a remainder has the dividend's sign, the most negative value by −1 wraps; by
zero, the quotient is all ones and the remainder the dividend, with DZ. -/
def Obligations.IntegerProductsAndQuotients : Prop :=
  ∀ (s : State) (d a b : Fin 32),
    let x := s.gread a
    let y := s.gread b
    let high (z : Int) : Word := BitVec.ofInt 64 (z / 2 ^ 64)
    let dz : Raised := if y = 0 then [(0, flDZ)] else []
    Completes (.mul d a b) s (s.awake.gwrite d (x * y)) [] ∧
    Completes (.mulh d a b) s (s.awake.gwrite d (high (x.toInt * y.toInt))) [] ∧
    Completes (.mulhn d a b) s (s.awake.gwrite d (high ((x.toNat : Int) * y.toNat))) [] ∧
    Completes (.mulhsn d a b) s (s.awake.gwrite d (high (x.toInt * y.toNat))) [] ∧
    Completes (.div d a b) s (s.awake.gwrite d (if y = 0 then BitVec.allOnes 64 else x.sdiv y)) dz ∧
    Completes (.divn d a b) s (s.awake.gwrite d (if y = 0 then BitVec.allOnes 64 else x / y)) dz ∧
    Completes (.rem d a b) s (s.awake.gwrite d (if y = 0 then x else x.srem y)) dz ∧
    Completes (.remn d a b) s (s.awake.gwrite d (if y = 0 then x else x % y)) dz

/-- R127, R132, R179, R341, R359, R360: a load whose bytes can be translated, that nobody holds back, and that brings neither poison nor
a missing answer completes with them, little-endian, extended as its kind says (H keeps the bits of a floating load, upper bits
zero); a store whose bytes can be translated completes with the low bytes of its register, lowest first, in the store buffers of
its stream; one that cannot be translated traps with the fault's cause, at its own pc (R119, R414). -/
def Obligations.ScalarAccesses : Prop :=
  ∀ (s t : State) (d a : Fin 32) (imm : BitVec 12) (x : Nat) (n : Nat) (bs : List Byte), s.forkHeld = false → t.str.wait = none →
    let va := s.gread a + imm.signExtend 64
    (s.awake.load va n = (.ok ⟨bs, false, false, false⟩, t) → leNat bs = x →
      (∀ k, ldBytes k = n → Completes (.sld k d a imm) s (t.gwrite d (ldExtend k x)) []) ∧
      (s.stream = .ep →
        (n = 8 → Completes (.fldF64 d a imm) s (t.hwrite d (BitVec.ofNat 64 x)) []) ∧
        (n = 4 → Completes (.fldF32 d a imm) s (t.hwrite d (BitVec.ofNat 64 x)) []) ∧
        (n = 2 → Completes (.fldF16 d a imm) s (t.hwrite d (BitVec.ofNat 64 x)) []))) ∧
    (s.awake.store false va (leBytes n (s.gread d).toNat) = (.ok (), t) →
      ∀ k, stBytes k = n → Completes (.sst k d a imm) s t []) ∧
    (s.stream = .ep → s.awake.store false va (leBytes n (s.hread d).toNat) = (.ok (), t) →
      (n = 8 → Completes (.fstF64 d a imm) s t []) ∧ (n = 4 → Completes (.fstF32 d a imm) s t []) ∧
      (n = 2 → Completes (.fstF16 d a imm) s t [])) ∧
    (∀ f k, s.awake.load va (ldBytes k) = (.error f, t) → exec (.sld k d a imm) s = .next (takeTrap t t.pc (f.trap .read))) ∧
    (∀ f k, s.awake.store false va (leBytes (stBytes k) (s.gread d).toNat) = (.error f, t) →
      exec (.sst k d a imm) s = .next (takeTrap t t.pc (f.trap .write)))

/-- R129, R131, R134: scalar floating arithmetic rounds the exact result to the format, to nearest, ties to even, and raises its flags
at index 0. -/
def Obligations.FloatArithmetic : Prop :=
  ∀ (s : State) (f : FFmt) (d a b c : Fin 32), s.stream = .ep →
    let v (n : Fin 32) : FVal := readTy (ffTy f) ((s.hread n).toNat % 2 ^ (ffTy f).sew)
    let done (i : Instr) (x : Exact × Fl) : Prop :=
      let r := writeFloat (ffTy f) .rne false x.1 0
      Completes i s (s.awake.hwrite d (BitVec.ofNat 64 r.1)) (raiseIf [] 0 (x.2 ||| r.2))
    done (.fadd f d a b) (fAdd .rne (v a) (v b)) ∧ done (.fsub f d a b) (fAdd .rne (v a) (v b).neg) ∧
    done (.fmul f d a b) (fMul (v a) (v b)) ∧ done (.fdiv f d a b) (fDiv (v a) (v b)) ∧ done (.fsqrt f d a) (fSqrt (v a)) ∧
    done (.fmadd f d a b c) (fFma .rne false false (v a) (v b) (v c)) ∧
    done (.fmsub f d a b c) (fFma .rne false true (v a) (v b) (v c)) ∧
    done (.fnmadd f d a b c) (fFma .rne true true (v a) (v b) (v c)) ∧
    done (.fnmsub f d a b c) (fFma .rne true false (v a) (v b) (v c))

/-- R129, R130, R133: minima and maxima, sign injection, compares, classes, moves and conversions of scalar floating values. -/
def Obligations.FloatMovesAndCompares : Prop :=
  ∀ (s : State) (f g : FFmt) (it : IFmt) (d a b : Fin 32), s.stream = .ep →
    let t := ffTy f
    let r (n : Fin 32) : Nat := (s.hread n).toNat % 2 ^ t.sew
    let v (n : Fin 32) : FVal := readTy t (r n)
    let toH (i : Instr) (x : Nat × Fl) : Prop := Completes i s (s.awake.hwrite d (BitVec.ofNat 64 x.1)) (raiseIf [] 0 x.2)
    let toG (i : Instr) (x : Word × Fl) : Prop := Completes i s (s.awake.gwrite d x.1) (raiseIf [] 0 x.2)
    let truth (x : Bool × Fl) : Word × Fl := (if x.1 then 1 else 0, x.2)
    toH (.fmin f d a b) (fMinMax t false (r a) (r b)) ∧ toH (.fmax f d a b) (fMinMax t true (r a) (r b)) ∧
    toH (.fsgnj f d a b) (withSign t (r a) (signBit t (r b)), 0) ∧
    toH (.fsgnjn f d a b) (withSign t (r a) (!signBit t (r b)), 0) ∧
    toH (.fsgnjx f d a b) (withSign t (r a) (signBit t (r a) != signBit t (r b)), 0) ∧
    toG (.feq f d a b) (truth (fTest true (· == .eq) false (v a) (v b))) ∧
    toG (.flt f d a b) (truth (fTest false (· == .lt) false (v a) (v b))) ∧
    toG (.fle f d a b) (truth (fTest false (· != .gt) false (v a) (v b))) ∧
    toG (.fclass f d a) (BitVec.ofNat 64 (fClass t (r a)), 0) ∧
    toG (.fmvgh d a) (s.hread a, 0) ∧ toH (.fmvhg d a) ((s.gread a).toNat, 0) ∧
    toH (.fcvtFloatFloat g f d a) (convert (ffTy g) t .rne false (r a) 0) ∧
    toG (.fcvtFloatInt it f d a) (gExtend it (writeInt (ifTy it) .rne (v a) 0).1, (writeInt (ifTy it) .rne (v a) 0).2) ∧
    toG (.fcvtz it f d a) (gExtend it (writeInt (ifTy it) .rtz (v a) 0).1, (writeInt (ifTy it) .rtz (v a) 0).2) ∧
    toH (.fcvtIntFloat f it d a) (convert t (ifTy it) .rne false ((s.gread a).toNat % 2 ^ (ifTy it).sew) 0)

/-! ## Control -/

/-- R135, R138, R140: a conditional branch goes to PC + sext(OFF12) × 4 where its condition holds, and on where it does not. A branch on
mask register M[A] looks at bits 0 to VL − 1; a branch on an outcome bit pops it from Q12, and waits where there is none. -/
def Obligations.Branches : Prop :=
  ∀ (s : State) (a b : Fin 32) (m : Fin 8) (off : BitVec 12),
    let x := s.gread a
    let y := s.gread b
    let on (p : Prop) [Decidable p] : Word := if p then s.pc + off.signExtend 64 * 4 else s.pc + 4
    let bit (k : Nat) : Bool := (s.cur.vec.m[m]).getLsbD k
    GoesTo (.beq a b off) s s.awake (on (x = y)) ∧ GoesTo (.bne a b off) s s.awake (on (x ≠ y)) ∧
    GoesTo (.blt a b off) s s.awake (on (x.toInt < y.toInt)) ∧ GoesTo (.bge a b off) s s.awake (on (y.toInt ≤ x.toInt)) ∧
    GoesTo (.bltn a b off) s s.awake (on (x.toNat < y.toNat)) ∧ GoesTo (.bgen a b off) s s.awake (on (y.toNat ≤ x.toNat)) ∧
    (s.stream = .ep → s.cur.tenure = true →
      GoesTo (.bany m off) s s.awake (on (∃ k < s.vl, bit k = true)) ∧
      GoesTo (.ball m off) s s.awake (on (∀ k < s.vl, bit k = true)) ∧
      GoesTo (.bnone m off) s s.awake (on (∀ k < s.vl, bit k = false)) ∧
      GoesTo (.bnall m off) s s.awake (on (∃ k < s.vl, bit k = false))) ∧
    (s.stream = .ep → ∀ t rest, s.cur.q.bits = t :: rest →
      let popped := (s.awake.modQ fun q => { q with bits := rest }).takePosted 12
      GoesTo (.bq off) s popped (on (t = true)) ∧ GoesTo (.bqn off) s popped (on (t = false))) ∧
    (s.stream = .ep → s.cur.q.bits = [] → exec (.bq off) s = .next (s.awake.waitIn (.bq off) (.queue 12)) ∧
      exec (.bqn off) s = .next (s.awake.waitIn (.bqn off) (.queue 12)))

/-- R136, R137: transfers. `call` and `callr` push PC + 4 on the return-address stack while it has room; `ret` pops its youngest entry.
`exit` in the AP ends that stream, its stores drained to the context's level (R146). -/
def Obligations.Transfers : Prop :=
  ∀ (s : State) (off : BitVec 25) (a : Fin 32) (imm : BitVec 12),
    let near := s.pc + off.signExtend 64 * 4
    let far := (s.gread a + imm.signExtend 64) &&& ~~~(3 : Word)
    let pushed := s.awake.setStr { s.awake.str with ras := s.str.ras ++ [s.pc + 4] }
    GoesTo (.j off) s s.awake near ∧ GoesTo (.jr a imm) s s.awake far ∧
    (s.str.ras.length < 16 → GoesTo (.call off) s pushed near ∧ GoesTo (.callr a imm) s pushed far) ∧
    (∀ rest x, s.str.ras = rest ++ [x] → GoesTo .ret s (s.awake.setStr { s.awake.str with ras := rest }) x) ∧
    (s.stream = .ap → ∃ t, exec .exit s = .next t ∧ t.str.run = .ended ∧ t.str.g = s.str.g ∧ t.mem = s.mem ∧
      ∀ e ∈ t.pend, e.loc = s.cur.loc → e.stream = .ap → e.strip = true ∨ 1 ≤ e.level)

/-- R146, R308: `exit` in the EP, with the AP gone and no tile fill to come, starts the context's next combination at the kernel's entry
with G1 to G6 the arguments and the index registers the indices, or ends the context, which its task then counts no more. -/
def Obligations.ExitEndsCombination : Prop :=
  ∀ (s : State) (w : Work), s.stream = .ep → s.cur.ctl.apon = false → s.fillsPending = false → s.cur.work = some w →
    (∀ idx rest, w.todo = idx :: rest → ∃ t, exec .exit s = .next t ∧ t.cur.live = true ∧ t.cur.ep.run = .running ∧
      t.cur.ep.pc = w.entry &&& ~~~(3 : Word) ∧ t.cur.ep.g = startG w.args w.idxRegs idx ∧ t.cur.strip.isOpen = false ∧ t.mem = s.mem ∧
      t.cur.work = some { w with current := idx, todo := rest }) ∧
    (w.todo = [] → ∃ t, exec .exit s = .next t ∧ t.cur.live = false ∧ t.cur.ep.run = .ended ∧ t.mem = s.mem ∧
      ∀ x ∈ s.tasks, x.id = w.task → { x with running := x.running - 1 } ∈ t.tasks)

/-- R21, R141 to R143, R315, R364: a strip grant. With G[A] = 0, or VILL, it is 0. A context without arbitration gets what its request,
VLMAX and the caps allow; one whose queue alone asks gets no more than its quantum of 64 × WEIGHT units of the datapath. -/
def Obligations.StripGrants : Prop :=
  ∀ (s : State) (d a b : Fin 32) (sv : Option SetV),
    s.stream = .ep → s.cur.ctl.tm = false → s.cur.tenure = true → s.cur.migrate = none → (sv.isSome = true ∨ s.cur.ctl.vill = false) →
    let n := (s.gread a).toNat
    let u := match sv with | some x => s.awake.setVtype x.lg x.wc | none => s.awake
    let ty := wcTy u.cur.ctl.wc
    (n = 0 ∨ u.cur.ctl.vill = true →
      Completes (.vstrip d a sv) s (u.grant d 0) [] ∧ Completes (.vstripx d a b sv) s (u.grant d 0) []) ∧
    (n ≠ 0 → u.cur.ctl.vill = false → s.cur.work = none →
      Completes (.vstrip d a sv) s (u.grant d (min n u.vlmax)) [] ∧
      Completes (.vstripx d a b sv) s (u.grant d (grantSize s.ncore ty n u.vlmax (capsOf (s.gread b)) none none)) []) ∧
    (∀ w, n ≠ 0 → u.cur.ctl.vill = false → s.cur.work = some w → w.chain = none → s.core.arb = ⟨[], [], []⟩ →
      let quota := 64 * (s.queues[w.queue.index]).weight.toNat * datapath s.ncore / (ty.sew * u.cur.ctl.g)
      let g := min (min n u.vlmax) quota
      ∃ t, exec (.vstrip d a sv) s = .next t ∧ t.cur.ctl.vl = BitVec.ofNat 15 g ∧ t.cur.ctl.vstart = 0 ∧
        t.gread d = (if d = 0 then 0 else BitVec.ofNat 64 g) ∧ t.cur.strip.isOpen = decide (g ≠ 0) ∧ t.pc = s.pc + 4)

/-- R37: after `vrel` the vector, mask, sparse, function and tile state is dead: V, M and ACC are undefined, P is empty, every F is
unallocated and every TCFG unset, VL, VLSAVE, MODE.TM and TSHAPE.VALID are 0; G, H, S, Q, K and the other control registers
are unchanged. -/
def Obligations.VrelLeavesNothing : Prop :=
  ∀ s : State, s.stream = .ep → s.fillsPending = false →
    ∃ t, exec .vrel s = .next t ∧ t.pc = s.pc + 4 ∧
      (∀ k : Fin 32, t.cur.vec.v[k] = 0 ∨ t.cur.vec.v[k] ∈ s.cur.vec.vPast) ∧
      (∀ k : Fin 8, t.cur.vec.m[k] = 0 ∨ t.cur.vec.m[k] ∈ s.cur.vec.mPast) ∧
      (∀ k : Fin 8, t.cur.vec.p[k] = ⟨.s8, []⟩) ∧ (∀ k : Fin 16, t.cur.vec.f[k] = none) ∧
      (∀ k : Fin 16, (t.cur.tile.t[k]).cfg = none) ∧ (∀ k : Fin 4, t.cur.tile.acc[k] = .zero ∨ t.cur.tile.acc[k] ∈ s.cur.tile.accPast) ∧
      t.cur.ctl = { s.cur.ctl with vl := 0, vlsave := 0, tm := false, tvalid := false } ∧
      t.str.g = s.str.g ∧ t.cur.h = s.cur.h ∧ t.cur.s = s.cur.s ∧ t.cur.q = s.cur.q ∧ t.cur.k = s.cur.k

/-- R35, R145, R366: `mode` to T-mode saves VL and sets it to 0, keeps V0 to V23 and leaves V24 to V31 undefined, unbound; back in V-mode
VL is VLSAVE. `apfork` starts the AP at its target with the EP's G registers, and `apjoin` waits until it has ended. That `mode` leaves
VSTART as it is is the model's reading of R23 (log 24). -/
def Obligations.ModesAndStreams : Prop :=
  ∀ (s : State) (off : BitVec 12), s.stream = .ep →
    (s.ncore = false → s.cur.ctl.tm = false → ∃ t, exec (.mode true) s = .next t ∧ t.pc = s.pc + 4 ∧
      t.cur.ctl = { s.cur.ctl with tm := true, vlsave := s.cur.ctl.vl, vl := 0 } ∧
      (∀ k : Fin 32, k.val < 24 → t.cur.vec.v[k] = s.cur.vec.v[k]) ∧
      (∀ k : Fin 32, 24 ≤ k.val → (t.cur.vec.v[k] = 0 ∨ t.cur.vec.v[k] ∈ s.cur.vec.vPast) ∧ t.binding k = none) ∧
      t.cur.vec.m = s.cur.vec.m ∧ t.cur.tile = s.cur.tile ∧ t.str.g = s.str.g) ∧
    (s.cur.ctl.tm = true → ∃ t, exec (.mode false) s = .next t ∧ t.pc = s.pc + 4 ∧
      t.cur.ctl = { s.cur.ctl with tm := false, vl := s.cur.ctl.vlsave } ∧ t.cur.vec = s.cur.vec ∧ t.cur.tile = s.cur.tile) ∧
    (s.cur.ctl.apon = false → ∃ t, exec (.apfork off) s = .next t ∧ t.pc = s.pc + 4 ∧ t.cur.ctl.apon = true ∧
      t.cur.ap.run = .running ∧ t.cur.ap.pc = s.pc + off.signExtend 64 * 4 ∧ t.cur.ap.g = s.str.g) ∧
    (s.cur.ctl.apon = true → s.cur.ap.run ≠ .running → ∃ t, exec .apjoin s = .next t ∧ t.pc = s.pc + 4 ∧
      t.cur.ctl.apon = false ∧ t.cur.ap.run = .absent) ∧
    (s.cur.ctl.apon = true → s.cur.ap.run = .running → exec .apjoin s = .next (s.awake.waitIn .apjoin .join))

/-- R18, R19, R147, R333: a control register reads and writes as its table says where the level and stream may use it; `cswap` reads
G[A] before it writes G[D]. A read of CYCLE finds it advanced by an amount that nothing constrains (log 11), one of VPI shows
VLMAX where no instruction in flight writes the register, else an index that has risen by whole element groups (R39), by how many nothing
constrains (log 33). A write of ATP or ASID waits for the instructions in flight and the held writes of its context. -/
def Obligations.ControlRegisters : Prop :=
  ∀ (s : State) (d a : Fin 32) (n : BitVec 12),
    let fixed : Prop := n.toNat ≠ 0x0A1 ∧ (n.toNat < 0x050 ∨ 0x06F < n.toNat)
    (decodeTrap (.cread d n) s = none → fixed → Completes (.cread d n) s (s.awake.gwrite d (cregRead s n.toNat)) []) ∧
    (decodeTrap (.cread d 0x0A1) s = none →
      ∃ t, exec (.cread d 0x0A1) s = .next t ∧ t.gread d = (if d = 0 then 0 else s.core.cycle + Config.freeCycles s.fresh)) ∧
    (decodeTrap (.cread d n) s = none → 0x050 ≤ n.toNat → n.toNat ≤ 0x06F → s.cur.flights = [] →
      ∃ t, exec (.cread d n) s = .next t ∧ t.pc = s.pc + 4 ∧ (d ≠ 0 →
        ((∀ f ∈ s.cur.busy, f.reg.val + 0x50 ≠ n.toNat) → t.gread d = BitVec.ofNat 64 s.vlmax) ∧
        (∀ f, s.cur.busy = [f] → f.reg.val + 0x50 = n.toNat →
          (t.gread d = BitVec.ofNat 64 s.vlmax ∧ t.cur.busy = []) ∨
          ∃ k, t.gread d = BitVec.ofNat 64 (f.index + f.group * k) ∧ f.index + f.group * k < f.vl ∧
            t.cur.busy = [{ f with index := f.index + f.group * k }]))) ∧
    (decodeTrap (.cwrite n a) s = none → s.tablesBusy n.toNat = false →
      Completes (.cwrite n a) s (cregWrite s.awake n.toNat (s.gread a)) []) ∧
    (decodeTrap (.cwrite n a) s = none → s.tablesBusy n.toNat = true → exec (.cwrite n a) s = .next (s.awake.waitIn (.cwrite n a) .stores)) ∧
    (decodeTrap (.cswap d n a) s = none → fixed → s.tablesBusy n.toNat = false →
      Completes (.cswap d n a) s ((cregWrite s.awake n.toNat (s.gread a)).gwrite d (cregRead s n.toNat)) [])

/-- R18, R19, R21, R24, R30, R147, R298: what writes of control registers leave: VL at most VLMAX, VSTART, VTYPE with VL 0, FL and FQUOTA at
most their limits, DEGCAP, FRULE, the report register of SMISS whose ANY bit a one clears, W1C flags, a valid TSHAPE, a TCFG that is set
where its type is assigned and its size allowed and empty otherwise, with the contents of its tile register undefined, CSP aligned to 8, ETVEC
to 256, CLKLIM at least 4,096, seeds never 0, INJA and INJB with a reserved KIND stored as 0; a read-only register ignores the write. What R18
gives VLSAVE no field map for, the bits above VL's 15, is dropped, which is the model's choice (log 46). -/
def Obligations.ControlRegisterWrites : Prop :=
  ∀ (s : State) (x : Word) (n : Nat) (k : Fin 16),
    let w := cregWrite s n x
    let reads (y : Word) : Prop := cregRead w n = y
    (n = 0x000 → (cregRead w n).toNat = min x.toNat s.vlmax) ∧
    (n = 0x001 → w.cur.ctl = { s.cur.ctl with vstart := x.setWidth 15 }) ∧
    (n = 0x002 → (wcOk (x.extractLsb' 0 4) = true → reads (x &&& 0x3F) ∧ w.vl = 0) ∧
      (wcOk (x.extractLsb' 0 4) = false → reads ((1 : Word) <<< 63))) ∧
    (n = 0x003 → reads (x &&& 0x7FFF)) ∧
    (n = 0x008 → (cregRead w n).toNat = min x.toNat (if s.ncore then 64 else 512)) ∧
    (n = 0x009 → reads (x &&& 0xF)) ∧
    (n = 0x00A → (cregRead w n).toNat = min x.toNat (if s.ncore then 256 else 2048)) ∧
    (n = 0x00B → reads (x &&& 1)) ∧
    (n = 0x010 → reads (cregRead s 0x010 &&& ~~~x)) ∧
    (n = 0x028 → reads (cregRead s 0x028 &&& ~~~x &&& 0x8000000000000000 ||| x &&& 7)) ∧
    (n = 0x031 → reads (0x8000000000000000 ||| x &&& 0xFFFFFFF)) ∧
    (n = 0x040 + k.val →
      let rows := bitsAt x.toNat 0 9
      let cols := bitsAt x.toNat 9 9
      let small (ty : Ty) : Prop :=
        1 ≤ rows ∧ rows ≤ 256 ∧ 1 ≤ cols ∧ cols ≤ 256 ∧ rows * cols * (if ty.sew < 8 then ty.sew else (ty.sew + 7) / 8 * 8) ≤ 65536 * 8
      (∀ ty, tyOfNat (bitsAt x.toNat 18 5) = some ty → small ty →
        (w.tile k).cfg = some ⟨ty, rows, cols⟩ ∧ reads (0x8000000000000000 ||| x &&& 0x7FFFFF)) ∧
      ((tyOfNat (bitsAt x.toNat 18 5) = none ∨ ∃ ty, tyOfNat (bitsAt x.toNat 18 5) = some ty ∧ ¬small ty) →
        (w.tile k).cfg = none ∧ reads 0) ∧
      (((w.tile k).elems, (w.tile k).scales) = (.zero, .zero) ∨ ((w.tile k).elems, (w.tile k).scales) ∈ s.cur.tile.tPast)) ∧
    (n = 0x082 → reads (x &&& ~~~(7 : Word))) ∧
    (n = 0x088 → (cregRead w n).toNat = max (x.toNat % 2 ^ 48) 4096) ∧
    (n = 0x090 ∨ n = 0x091 → reads (if x = 0 then 1 else x)) ∧
    (n = 0x098 → reads (x &&& 0x3FFFFFFFFFFFF)) ∧
    (n = 0x099 → reads (if x.toNat / 2 % 8 < 3 then x &&& 0xF else x &&& 1)) ∧
    (n = 0x0C0 ∨ n = 0x0C2 ∨ n = 0x0C4 → reads x) ∧
    (n = 0x0C1 → reads (x &&& 0xFFFFFFC03F)) ∧
    (n = 0x0C3 → reads (x &&& ~~~(0xFF : Word))) ∧
    (n = 0x004 ∨ (0x018 ≤ n ∧ n ≤ 0x027) ∨ n = 0x030 ∨ (0x050 ≤ n ∧ n ≤ 0x077) ∨ n = 0x0A0 ∨ n = 0x0A1 → w = s)

/-- R110 to R117: hints do nothing but go on, in every state and either stream; the header of a convoy whose members can be fetched and
pass their checks changes nothing else either, and a member that fails traps at the header's pc. -/
def Obligations.HintsAndConvoys : Prop :=
  ∀ (s : State) (b : BitVec 25) (c : BitVec 56) (cnt : BitVec 3) (slots : BitVec 18),
    Completes .nop s s.awake [] ∧ Completes (.hint32 b) s s.awake [] ∧ Completes (.hint64 c) s s.awake [] ∧
    ∀ ps u, s.stream = .ep → s.awake.fetchParcels (s.pc + 4) (2 * (cnt.toNat + 2)) = (.ok ps, u) → u.str.wait = none →
      let bad := (List.range (cnt.toNat + 2)).findSome? fun k =>
        memberCheck u (u.pc + 4 + BitVec.ofNat 64 (8 * k)) (cvUnitOf (slots.extractLsb' (3 * k) 3))
      (bad = none → Completes (.cvy cnt slots) s u []) ∧
      ∀ q, bad = some q → exec (.cvy cnt slots) s = .next (takeTrap u u.pc q)

/-! ## Ordering and atomics -/

/-- R274, R367, R368: a fence that releases completes once every store that the stream has observed stands at its scope, and waits until
then; one that acquires takes in what the loads before it, all of them bound, have told of releases in its scope; `fence.ifetch` forgets
every parcel fetched. -/
def Obligations.Fences : Prop :=
  ∀ (s : State) (sc : Scope),
    Completes (.fenceAcq sc) s (s.awake.acquire sc 0) [] ∧
    (∀ t, s.awake.release sc = some t → t.str.wait = none →
      (∀ e ∈ t.pend ++ t.heldEntries, (e.loc = s.cur.loc ∧ e.stream = s.stream) ∨ e.id ∈ t.str.seen → e ∈ t.pend ∧ scopeLevel sc ≤ e.level) ∧
      Completes (.fenceFull sc) s (t.acquire sc 0) [] ∧ Completes (.fenceRel sc) s t [] ∧
      Completes (.fenceIfetch sc) s (t.modVlc fun v => { v with fetched := [] }) []) ∧
    (s.awake.release sc = none → ∀ i ∈ [Instr.fenceFull sc, .fenceRel sc, .fenceIfetch sc],
      exec i s = .next ((s.awake.closing sc).waitIn i .stores))

/-- R275, R276: a scalar atomic on an aligned address that can be written completes with the old value in G[D], extended by its type; the
location takes the value that its operation makes of the old one, G[B] and, for `amocas`, G[C]. At bare addresses (log 8) where nothing
stands in the way, each completes. -/
def Obligations.ScalarAtomics : Prop :=
  ∀ (s : State) (c : Common) (sem : Sem) (sc : Scope) (d a b e : Fin 32) (st : Strips) (ds : List Nat)
    (u t v w : State) (gas : List Nat) (old : Nat) (fl : Fl),
    let ty := c.ty.getD .n64
    let done (i : Instr) (o : Amo) (e : Fin 32) : Prop :=
      Begins i s st ds u → u.xlateN .write (u.gread a) (ty.sew / 8) = (.ok gas, t) →
      (if releases sem then t.release sc else some t) = some v →
      v.atomicAt gas ⟨o, ty, c.rm, (v.gread b).toNat % 2 ^ ty.sew, (v.gread e).toNat % 2 ^ ty.sew⟩ =
        (some ⟨old, fl, false, false, false⟩, w) →
      let x := if acquires sem then w.acquire sc t.str.near.length else w
      Ends i s st ((if x.stream == .ep then x.disarm else x).gwrite d (extendTo ty old)) (raiseIf [] 0 fl) none
    ((u.gread a).toNat % (ty.sew / 8) = 0 → w.str.wait = none → w.upset = none →
      done (.amoswap c sem sc d a b) .swap 0 ∧ done (.amocas c sem sc d a b e) .cas e ∧ done (.amoadd c sem sc d a b) .add 0 ∧
      done (.amoand c sem sc d a b) .and 0 ∧ done (.amoor c sem sc d a b) .or 0 ∧ done (.amoxor c sem sc d a b) .xor 0 ∧
      done (.amomin c sem sc d a b) .min 0 ∧ done (.amomax c sem sc d a b) .max 0 ∧ done (.amofadd c sem sc d a b) .fadd 0 ∧
      done (.amofmin c sem sc d a b) .fmin 0 ∧ done (.amofmax c sem sc d a b) .fmax 0) ∧
    ∀ p ∈ [(Instr.amoswap c sem sc d a b, Amo.swap), (.amocas c sem sc d a b e, .cas), (.amoadd c sem sc d a b, .add),
        (.amoand c sem sc d a b, .and), (.amoor c sem sc d a b, .or), (.amoxor c sem sc d a b, .xor), (.amomin c sem sc d a b, .min),
        (.amomax c sem sc d a b, .max), (.amofadd c sem sc d a b, .fadd), (.amofmin c sem sc d a b, .fmin),
        (.amofmax c sem sc d a b, .fmax)],
      let n := ty.sew / 8
      let gas := bareBytes (s.gread a) n
      let held := leNat (gas.map s.mem.read)
      let new := (⟨p.2, ty, c.rm, (s.gread b).toNat % 2 ^ ty.sew, (s.gread e).toNat % 2 ^ ty.sew⟩ : AtomReq).new held
      Ready p.1 s → Quiet s → MemoryKept s → 8 ≤ ty.sew → (s.gread a).toNat % n = 0 → s.reaches gas →
      ∃ t, exec p.1 s = .next t ∧ t.gread d = (if d = 0 then 0 else extendTo ty held) ∧ t.pc = s.pc + 8 ∧
        gas.map t.mem.read = leBytes n new.1 ∧ ∀ g, g ∉ gas → t.mem.read g = s.mem.read g

/-- R276, R361: an atomic at a place of this device's memory that no buffered store covers, in a frame that does not move, reads the bytes
there and writes its new value's bytes there, as one step, and changes no other byte. -/
def Obligations.AtomicAtMemory : Prop :=
  ∀ (s : State) (ga n : Nat) (req : AtomReq),
    let gas := (List.range n).map (ga + ·)
    let old := leNat (gas.map s.mem.read)
    0 < n → s.str.answer = none → s.pend = [] → s.moves = [] →
    (∀ g ∈ gas, s.reachable s.cur.loc.die g = true ∧ s.mayNotLeave s.cur.loc.die [g] = false) →
    (∀ c ∈ s.cores.toList, c.injb.getLsbD 0 = false) → s.upset = none → (∀ g ∈ gas, gaLine g ∉ s.poison) → MemoryKept s →
    ∃ t, s.atomicAt gas req = (some ⟨old, (req.new old).2, false, false, false⟩, t) ∧
      gas.map t.mem.read = leBytes n (req.new old).1 ∧ (∀ g, g ∉ gas → t.mem.read g = s.mem.read g) ∧ MemoryKept t

/-- R277, R278: a vector atomic whose performed elements can all be written performs those in its scope's domain in ascending order, reports
the others in M[SMISS.MREG], and completes with the old values in Vd where it returns them. At bare addresses (log 8) where nothing
stands in the way, each completes. -/
def Obligations.VectorAtomics : Prop :=
  ∀ (s : State) (c : Common) (x : Fin 4) (ix : IdxTy) (sc : Scope) (r : Option (Fin 32)) (a b e : Fin 32) (st : Strips)
    (ds : List Nat) (u t w : State) (addrs : List (Nat × List Nat)) (run : VamoRun),
    let ty := effTy u.cur.ctl c.ty
    let done (i : Instr) (o : Amo) : Prop :=
      Begins i s st ds u →
      atomAddrs (ty.sew / 8) (indexAddr st.view u a b x ix) (u.performed c) u = (addrs, none, t) →
      vamoElems o ty c.rm sc (fun k => elem ty (st.view.src u e ty) k) addrs (if t.stream == .ep then t.disarm else t) = (run, w) →
      Ends i s st (w.putVamo r ty run) run.fl none
    (run.stop = none → (w.putVamo r ty run).str.wait = none → (w.putVamo r ty run).upset = none →
      done (.vamoswap c x ix sc r a b e) .swap ∧ done (.vamoadd c x ix sc r a b e) .add ∧ done (.vamoand c x ix sc r a b e) .and ∧
      done (.vamoor c x ix sc r a b e) .or ∧ done (.vamoxor c x ix sc r a b e) .xor ∧ done (.vamomin c x ix sc r a b e) .min ∧
      done (.vamomax c x ix sc r a b e) .max ∧ done (.vamofadd c x ix sc r a b e) .fadd ∧ done (.vamofmin c x ix sc r a b e) .fmin ∧
      done (.vamofmax c x ix sc r a b e) .fmax) ∧
    ∀ i ∈ [Instr.vamoswap c x ix sc r a b e, .vamoadd c x ix sc r a b e, .vamoand c x ix sc r a b e, .vamoor c x ix sc r a b e,
        .vamoxor c x ix sc r a b e, .vamomin c x ix sc r a b e, .vamomax c x ix sc r a b e, .vamofadd c x ix sc r a b e,
        .vamofmin c x ix sc r a b e, .vamofmax c x ix sc r a b e],
      let ty := effTy s.cur.ctl c.ty
      let ea := indexAddr [] s a b x ix
      let is := s.performed c
      Ready i s → Quiet s → 8 ≤ ty.sew →
      (∀ k ∈ is, (ea k).toNat % (ty.sew / 8) = 0 ∧ s.reaches (bareBytes (ea k) (ty.sew / 8))) →
      ∃ t, exec i s = .next t ∧ t.pc = s.pc + 8 ∧ t.cur.ctl.vstart = 0 ∧ t.str.g = s.str.g ∧
        (∀ k ∈ is, k < vlen s.ncore → (t.mread s.cur.ctl.mreg).testBit k = !s.inDomain sc ((ea k).toNat % 2 ^ 63)) ∧
        (r = none → t.cur.vec.v = s.cur.vec.v)

/-! ## Queues, engines and tasks -/

/-- R33, R280, R281: `qput` appends to a queue with room (a word to Q8 to Q11, a bit to Q12), `qget` takes the oldest entry, `qcnt` and `kcnt`
count, `ksync` only waits and posts; a full queue, or an empty one, is waited for. Where nothing stands in the way, each completes. -/
def Obligations.StreamQueues : Prop :=
  ∀ (s u : State) (c : Common) (st : Strips) (ds : List Nat) (d a q : Fin 32) (k : Fin 8),
    (Begins (.qput c q a) s st ds u →
      let out := u.moveToContext u.stream
      let t := out.notePush q.val (out.qcount q)
      (u.qcount q < qdepth q → u.boundHeld = true → exec (.qput c q a) s = .next (u.waitIn (.qput c q a) .stores)) ∧
      (u.qcount q < qdepth q → u.boundHeld = false → q.val = 12 →
        Ends (.qput c q a) s st (t.modQ fun y => { y with bits := y.bits ++ [(u.gread a).getLsbD 0] }) [] none) ∧
      (u.qcount q < qdepth q → u.boundHeld = false → q.val ≠ 12 →
        Ends (.qput c q a) s st
          (t.modQ fun y => { y with words := y.words.set (qIdx4 q) (y.words[qIdx4 q] ++ [u.gread a]) }) [] none) ∧
      (qdepth q ≤ u.qcount q → exec (.qput c q a) s = .next (u.waitIn (.qput c q a) (.queue q.val)))) ∧
    (Begins (.qget c d q) s st ds u →
      (∀ x rest, q.val ≠ 12 → u.cur.q.words[qIdx4 q] = x :: rest → ∃ t, exec (.qget c d q) s = .next t ∧
        t.gread d = (if d = 0 then 0 else x) ∧ t.cur.q.words[qIdx4 q] = rest ∧ t.pc = s.pc + 8) ∧
      (∀ x rest, q.val = 12 → u.cur.q.bits = x :: rest → ∃ t, exec (.qget c d q) s = .next t ∧
        t.gread d = (if d = 0 then 0 else if x then 1 else 0) ∧ t.cur.q.bits = rest ∧ t.pc = s.pc + 8) ∧
      (q.val ≠ 12 → u.cur.q.words[qIdx4 q] = [] → exec (.qget c d q) s = .next (u.waitIn (.qget c d q) (.queue q.val)))) ∧
    (Begins (.qcnt c d q) s st ds u → Ends (.qcnt c d q) s st (u.gwrite d (BitVec.ofNat 64 (u.qcount q))) [] none) ∧
    (Begins (.kcnt c d k) s st ds u → Ends (.kcnt c d k) s st (u.gwrite d ((u.cur.k[k]).setWidth 64)) [] none) ∧
    (Begins (.ksync c) s st ds u → Ends (.ksync c) s st u [] none) ∧
    (Ready (.qput c q a) s → s.qcount q < qdepth q → s.boundHeld = false → ∃ t, exec (.qput c q a) s = .next t ∧ t.pc = s.pc + 8 ∧
      (q.val = 12 → t.cur.q = { s.cur.q with bits := s.cur.q.bits ++ [(s.gread a).getLsbD 0] }) ∧
      (q.val ≠ 12 → t.cur.q = { s.cur.q with words := s.cur.q.words.set (qIdx4 q) (s.cur.q.words[qIdx4 q] ++ [s.gread a]) })) ∧
    (Ready (.qget c d q) s → (q.val = 12 → s.cur.q.bits ≠ []) → (q.val ≠ 12 → s.cur.q.words[qIdx4 q] ≠ []) →
      ∃ t, exec (.qget c d q) s = .next t ∧ t.pc = s.pc + 8 ∧ (q.val = 12 → t.cur.q.bits = s.cur.q.bits.tail) ∧
        (q.val ≠ 12 → t.cur.q.words[qIdx4 q] = (s.cur.q.words[qIdx4 q]).tail)) ∧
    (Ready (.qcnt c d q) s → ∃ t, exec (.qcnt c d q) s = .next t ∧ t.pc = s.pc + 8 ∧
      t.gread d = if d = 0 then 0 else BitVec.ofNat 64 (s.qcount q)) ∧
    (Ready (.kcnt c d k) s → ∃ t, exec (.kcnt c d k) s = .next t ∧ t.pc = s.pc + 8 ∧
      t.gread d = if d = 0 then 0 else (s.cur.k[k]).setWidth 64) ∧
    (Ready (.ksync c) s → ∃ t, exec (.ksync c) s = .next t ∧ t.pc = s.pc + 8 ∧ t.str.g = s.str.g ∧ t.cur.q = s.cur.q)

/-! ## Vector instructions -/

/-- R153 to R159: element-wise integer and floating arithmetic. Element e of the destination is what the operation makes of element e of
the operands, for each performed e, with its flags at index e; floating results are rounded once under RM. -/
def Obligations.VectorArithmetic : Prop :=
  ∀ (s u : State) (c : Common) (d a : Fin 32) (b : Src) (st : Strips) (ds : List Nat),
    let ty := effTy u.cur.ctl c.ty
    let is := u.performed c
    let x (e : Nat) : Nat := elem ty (st.view.src u a ty) e
    let y : Nat → Nat := srcVal st.view u b ty
    let I (e : Nat) : Int := intOf ty (x e)
    let J (e : Nat) : Int := intOf ty (y e)
    let done (i : Instr) (f : Nat → Nat × Fl) : Prop := Begins i s st ds u →
      Ends i s st (u.putElems d ty (is.map fun e => (e, (f e).1))) (raises (is.map fun e => (e, (f e).2))) (some (vecCheck u d ty is))
    let both (i : Instr) (n : Nat → Int) (r : Nat → Exact × Fl) : Prop :=
      done i fun e => if ty.isInt then (wrapInt ty (n e), 0) else rounded ty c.rm (r e) (drawAt ds e)
    both (.vadd c d a b) (fun e => I e + J e) (fun e => fAdd c.rm (readTy ty (x e)) (readTy ty (y e))) ∧
    both (.vsub c d a b) (fun e => I e - J e) (fun e => fAdd c.rm (readTy ty (x e)) (readTy ty (y e)).neg) ∧
    both (.vrsub c d a b) (fun e => J e - I e) (fun e => fAdd c.rm (readTy ty (y e)) (readTy ty (x e)).neg) ∧
    both (.vmul c d a b) (fun e => I e * J e) (fun e => fMul (readTy ty (x e)) (readTy ty (y e))) ∧
    done (.vmulh c d a b) (fun e => (wrapInt ty (I e * J e / (2 ^ ty.sew : Nat)), 0)) ∧
    done (.vdiv c d a b) (fun e => if ty.isInt then intDiv ty (x e) (y e)
      else rounded ty c.rm (fDiv (readTy ty (x e)) (readTy ty (y e))) (drawAt ds e)) ∧
    done (.vrem c d a b) (fun e => intRem ty (x e) (y e)) ∧
    done (.vmin c d a b) (fun e => if ty.isInt then (if J e < I e then y e else x e, 0) else fMinMax ty false (x e) (y e)) ∧
    done (.vmax c d a b) (fun e => if ty.isInt then (if J e < I e then x e else y e, 0) else fMinMax ty true (x e) (y e)) ∧
    done (.vand c d a b) (fun e => (x e &&& y e, 0)) ∧ done (.vor c d a b) (fun e => (x e ||| y e, 0)) ∧
    done (.vxor c d a b) (fun e => (x e ^^^ y e, 0)) ∧
    done (.vsll c d a b) (fun e => ((x e <<< (y e % ty.sew)) % 2 ^ ty.sew, 0)) ∧
    done (.vsrl c d a b) (fun e => (x e >>> (y e % ty.sew), 0)) ∧
    done (.vsra c d a b) (fun e => (wrapInt ty
      ((if signBit ty (x e) then (x e : Int) - (2 ^ ty.sew : Nat) else x e) / (2 ^ (y e % ty.sew) : Nat)), 0)) ∧
    done (.vsadd c d a b) (fun e => satInt ty (I e + J e)) ∧ done (.vssub c d a b) (fun e => satInt ty (I e - J e)) ∧
    done (.vsgnj c d a b) (fun e => (withSign ty (x e) (signBit ty (y e)), 0)) ∧
    done (.vsgnjn c d a b) (fun e => (withSign ty (x e) (!signBit ty (y e)), 0)) ∧
    done (.vmv c d b) (fun e => (y e, 0)) ∧ done (.vid c d) (fun e => (e % 2 ^ ty.sew, 0)) ∧
    done (.vsqrt c d a) (fun e => rounded ty c.rm (fSqrt (readTy ty (x e))) (drawAt ds e)) ∧
    done (.vabs c d a) (fun e => if ty.isInt then (wrapInt ty (I e).natAbs, 0) else (withSign ty (x e) false, 0)) ∧
    done (.vneg c d a) (fun e => if ty.isInt then (wrapInt ty (-(I e)), 0) else (withSign ty (x e) (!signBit ty (x e)), 0)) ∧
    (Begins (.vsel c d a b) s st ds u →
      let all := (List.range u.vl).filter fun e => decide (u.vstart ≤ e)
      Ends (.vsel c d a b) s st (u.putElems d ty (all.map fun e => (e, if u.active c e then x e else y e))) []
        (some (vecCheck u d ty all)))

/-- R42, R13: what writing elements into a register group leaves. Each element written reads back, each other one below VLMAX reads as
before, and no register outside the group, no other register file and no byte of memory changes; nor does completion after it
change any of these. -/
def Obligations.VectorElementsAndFrame : Prop :=
  ∀ (u : State) (d : Fin 32) (ty : Ty) (rs : List (Nat × Nat)) (i : Instr) (st : Strips) (fl : Raised) (is : List Nat),
    let g := groupFor u.cur.ctl ty
    g ≤ 8 → d.val % g = 0 → (∀ r ∈ rs, r.1 < vlmax u.ncore ty g ∧ r.2 < 2 ^ ty.sew) → (rs.map (·.1)).Nodup →
    let t := finish i st (((u.putElems d ty rs).markedBy i u).spot (some (vecCheck u d ty is))) fl
    (∀ r ∈ rs, elem ty (t.readGroup d g) r.1 = r.2) ∧
    (∀ e, e < vlmax u.ncore ty g → e ∉ rs.map (·.1) → elem ty (t.readGroup d g) e = elem ty (u.readGroup d g) e) ∧
    (∀ k : Fin 32, (k.val < d.val ∨ d.val + g ≤ k.val) → t.cur.vec.v[k] = u.cur.vec.v[k]) ∧
    t.cur.vec.m = u.cur.vec.m ∧ t.cur.vec.p = u.cur.vec.p ∧ t.cur.vec.f = u.cur.vec.f ∧ t.cur.tile = u.cur.tile ∧
    t.str.g = u.str.g ∧ t.cur.h = u.cur.h ∧ t.cur.s = u.cur.s ∧ t.cur.q = u.cur.q ∧ SameMemory u t ∧
    t.cur.ctl.vl = u.cur.ctl.vl ∧ t.cur.ctl.wc = u.cur.ctl.wc ∧ t.cur.ctl.lg = u.cur.ctl.lg

/-- R57, R160 to R163: fused multiply-add, with one rounding, and its widening forms on operands of Ts; conversions of elements, and of
whole blocks into a scaled type. -/
def Obligations.VectorFusedAndConversions : Prop :=
  ∀ (s u : State) (c : Common) (ts : Ty) (d a b e : Fin 32) (st : Strips) (ds : List Nat),
    let ty := effTy u.cur.ctl c.ty
    let is := u.performed c
    let chk := some (vecCheck u d ty is)
    let done (i : Instr) (f : Nat → Nat × Fl) : Prop := Begins i s st ds u →
      Ends i s st (u.putElems d ty (is.map fun k => (k, (f k).1))) (raises (is.map fun k => (k, (f k).2))) chk
    let fma (i : Instr) (tp : Ty) (np nc : Bool) : Prop := done i fun k =>
      let acc := elem ty (st.view.src u e ty) k
      let x := st.view.src u a tp
      let y := st.view.src u b tp
      if ty.isInt then
        let p := intOf tp (elem tp x k) * intOf tp (elem tp y k)
        (wrapInt ty ((if np then -p else p) + (if nc then -(intOf ty acc) else intOf ty acc)), 0)
      else rounded ty c.rm (fFma c.rm np nc (elemVal tp x k) (elemVal tp y k) (readTy ty acc)) (drawAt ds k)
    fma (.vfmadd c d a b e) ty false false ∧ fma (.vfmsub c d a b e) ty false true ∧
    fma (.vfnmadd c d a b e) ty true true ∧ fma (.vfnmsub c d a b e) ty true false ∧
    fma (.vwfmadd c ts d a b e) ts false false ∧ fma (.vwfmsub c ts d a b e) ts false true ∧
    fma (.vwfnmadd c ts d a b e) ts true true ∧ fma (.vwfnmsub c ts d a b e) ts true false ∧
    ∀ (x : Bool), let i : Instr := if x then .vcvtx c ts d a else .vcvt c ts d a
      (ty.isScaled = false → done i fun k => convElem ty ts c.rm x (st.view.src u a ts) k (drawAt ds k)) ∧
      (ty.isScaled = true → Begins i s st ds u →
        let g := groupFor u.cur.ctl ty
        let q := quantGroup ty c.rm (!x) (u.readGroup d g) is (fun k => elemVal ts (st.view.src u a ts) k) (drawAt ds)
        Ends i s st (u.writeGroup d g q.1) (raises q.2) chk)

/-- R164 to R166: compares write a truth into each performed bit of M[D]; mask logic likewise; `msbf`, `msif` and `msof` mark the bits before,
up to and at the first present set bit; `mpcnt` counts them and `mfirst` names the first, all ones where there is none. -/
def Obligations.VectorComparesAndMasks : Prop :=
  ∀ (s u : State) (c : Common) (d m n : Fin 8) (a g : Fin 32) (b : Src2) (st : Strips) (ds : List Nat),
    let ty := effTy u.cur.ctl c.ty
    let is := u.performed c
    let here := u.presentAll c
    let x (e : Nat) : Nat := elem ty (st.view.src u a ty) e
    let y : Nat → Nat := src2Val st.view u b ty
    let cmp (i : Instr) (p : Ordering → Bool) (nan quiet : Bool) : Prop := Begins i s st ds u →
      let r (e : Nat) : Bool × Fl := if ty.isInt then (p (compare (intOf ty (x e)) (intOf ty (y e))), 0)
        else fTest quiet p nan (readTy ty (x e)) (readTy ty (y e))
      Ends i s st (u.putMask d (is.map fun e => (e, (r e).1))) (raises (is.map fun e => (e, (r e).2)))
        (some (maskCheck (elemLane u.ncore ty) d is))
    let bits (i : Instr) (l : List Nat) (f : Nat → Bool) : Prop := Begins i s st ds u →
      Ends i s st (u.putMask d (l.map fun e => (e, f e))) [] (some (maskCheck (bitLane u.ncore) d l))
    let p (e : Nat) : Bool := (u.mread m).testBit e
    let q (e : Nat) : Bool := (u.mread n).testBit e
    let first := here.find? p
    let toG (i : Instr) (v : Word) : Prop := Begins i s st ds u →
      Ends i s st (u.gwrite g v) [] (some (oneCheck (if here.isEmpty then [] else [0]) (fun _ => 0) fun t => t.gwrite g 0))
    cmp (.vcmpeq c d a b) (· == .eq) false true ∧ cmp (.vcmpne c d a b) (· != .eq) true true ∧
    cmp (.vcmplt c d a b) (· == .lt) false false ∧ cmp (.vcmple c d a b) (· != .gt) false false ∧
    cmp (.vcmpgt c d a b) (· == .gt) false false ∧ cmp (.vcmpge c d a b) (· != .lt) false false ∧
    bits (.mand c d m n) is (fun e => p e && q e) ∧ bits (.mor c d m n) is (fun e => p e || q e) ∧
    bits (.mxor c d m n) is (fun e => p e != q e) ∧ bits (.mandn c d m n) is (fun e => p e && !q e) ∧
    bits (.msbf c d m) here (fun e => first.all fun k => decide (e < k)) ∧
    bits (.msif c d m) here (fun e => first.all fun k => decide (e ≤ k)) ∧
    bits (.msof c d m) here (fun e => first == some e) ∧
    toG (.mpcnt c g m) (BitVec.ofNat 64 (here.countP p)) ∧
    toG (.mfirst c g m) (match first with | none => BitVec.allOnes 64 | some k => BitVec.ofNat 64 k)

/-- R167 to R169: slides, gathers and compression move whole units (elements, or blocks of a scaled type); `viota` counts the present set bits
below each element; element 0 moves to and from a scalar register. That `vputg` and `vputh` write only where VSTART is 0 is the model's choice
(log 29), and so is how many units a group has at an overridden type (log 32). -/
def Obligations.VectorPermutes : Prop :=
  ∀ (s w : State) (c : Common) (d a b : Fin 32) (m : Fin 8) (st : Strips) (ds : List Nat),
    let ty := effTy w.cur.ctl c.ty
    let u := w.units ty
    let g := groupFor w.cur.ctl ty
    let x := st.view.src w a ty
    let off := (w.gread b).toNat
    let on := w.unitsOn u (w.active c)
    let moves (i : Instr) (rs : List (Nat × Nat)) : Prop := Begins i s st ds w →
      Ends i s st (w.writeGroup d g (u.set (w.readGroup d g) rs)) [] (some (vecCheck w d ty (rs.map fun r => r.1 * u.per)))
    let zero := (w.performed c).filter (· == 0)
    let put (i : Instr) (v : Word) : Prop := Begins i s st ds w →
      Ends i s st (w.putElems d ty (zero.map fun e => (e, v.toNat % 2 ^ ty.sew))) [] (some (vecCheck w d ty zero))
    moves (.vslideup c d a b) ((on.filter fun i => decide (off ≤ i)).map fun i => (i, u.get x (i - off))) ∧
    moves (.vslidedown c d a b) (on.map fun i => (i, if i + off < u.n then u.get x (i + off) else 0)) ∧
    moves (.vrgather c d a b) (on.map fun i =>
      (i, if elem .n16 (st.view.src w b .n16) i < u.n then u.get x (elem .n16 (st.view.src w b .n16) i) else 0)) ∧
    moves (.vcompress c d a m) (((w.unitsOn u (w.mread m).testBit).map (u.get x)).zipIdx.map fun r => (r.2, r.1)) ∧
    (Begins (.viota c d m) s st ds w → ∃ rs, rs.map (·.1) = w.presentAll c ∧
      (∀ r ∈ rs, r.2 = ((w.presentAll c).countP fun e => decide (e < r.1) && (w.mread m).testBit e) % 2 ^ ty.sew) ∧
      Ends (.viota c d m) s st (w.writeGroup d g (u.set (w.readGroup d g) rs)) []
        (some (vecCheck w d ty (rs.map fun r => r.1 * u.per)))) ∧
    put (.vputg c d a) (w.gread a) ∧ put (.vputh c d a) (w.hread a) ∧
    (w.vl ≤ w.vstart → (Begins (.vgetg c d a) s st ds w → Ends (.vgetg c d a) s st w [] none) ∧
      (Begins (.vgeth c d a) s st ds w → Ends (.vgeth c d a) s st w [] none)) ∧
    (w.vstart < w.vl →
      (Begins (.vgetg c d a) s st ds w → Ends (.vgetg c d a) s st (w.gwrite d (BitVec.ofInt 64 (intOf ty (elem ty x 0)))) []
        (some (oneCheck [0] (fun _ => 0) fun t => t.gwrite d (BitVec.ofInt 64 (intOf ty (errorValue ty)))))) ∧
      (Begins (.vgeth c d a) s st ds w → Ends (.vgeth c d a) s st (w.hwrite d (BitVec.ofNat 64 (elem ty x 0))) []
        (some (oneCheck [0] (fun _ => 0) fun t => t.hwrite d (BitVec.ofNat 64 (errorValue ty))))))

/-- R60: `vredosum` starts from the seed and adds each present element in ascending order, one rounding each. -/
def Obligations.OrderedSum : Prop :=
  ∀ (s u : State) (c : Common) (w : Option Ty) (d a b : Fin 32) (st : Strips) (ds : List Nat),
    let td := effTy u.cur.ctl c.ty
    let ts := w.getD td
    let x := st.view.src u a ts
    let seed := elem td (st.view.src u b td) 0
    let add (acc : Nat) (e : Nat) : Nat := (rounded td c.rm (fAdd c.rm (readTy td acc) (elemVal ts x e)) 0).1
    Begins (.vredosum c w d a b) s st ds u → u.vstart < u.vl →
      ∃ fl, Ends (.vredosum c w d a b) s st (u.putElems d td [(0, (u.presentAll c).foldl add seed)]) fl
        (some (oneCheck (u.presentAll c) (elemLane u.ncore ts) fun t => t.putErrors d td [0]))

/-- R59, R170, R171: the other reductions. With no present element the result is the seed; `vredsum` adds the tree of the present elements
to it, integers modulo 2^SEW, and its check items are the tree's additions (R177); the rest combine the seed with every present
element. -/
def Obligations.Reductions : Prop :=
  ∀ (s u : State) (c : Common) (w : Option Ty) (d a b : Fin 32) (st : Strips) (ds : List Nat),
    let td := effTy u.cur.ctl c.ty
    let here := u.presentAll c
    let seed := elem td (st.view.src u b td) 0
    let checkedBy (items : List Nat) (i : Instr) (ts : Ty) (r : Nat × Raised) : Prop := Begins i s st ds u →
      Ends i s st (u.putElems d td [(0, if here.isEmpty then seed else r.1)]) (if here.isEmpty then [] else r.2)
        (some (oneCheck items (elemLane u.ncore ts) fun t => t.putErrors d td [0]))
    let done := checkedBy here
    let each (f : Nat → Nat → Nat) : Nat × Raised := (here.foldl (fun acc e => f acc (elem td (st.view.src u a td) e)) seed, [])
    u.vstart < u.vl →
    checkedBy (treeItems here u.vl) (.vredsum c w d a b) (w.getD td) (sumTree c.rm td (w.getD td) (st.view.src u a (w.getD td)) seed here u.vl) ∧
    done (.vredand c d a b) td (each (· &&& ·)) ∧ done (.vredor c d a b) td (each (· ||| ·)) ∧
    done (.vredxor c d a b) td (each (· ^^^ ·)) ∧
    (td.isInt = true →
      done (.vredmin c d a b) td (each fun x y => if intOf td y < intOf td x then y else x) ∧
      done (.vredmax c d a b) td (each fun x y => if intOf td y < intOf td x then x else y)) ∧
    (td.isInt = false →
      done (.vredmin c d a b) td (foldPresent td (st.view.src u a td) seed here (fMinMax td false)) ∧
      done (.vredmax c d a b) td (foldPresent td (st.view.src u a td) seed here (fMinMax td true)))

/-- R172 to R176: `vconf` marks the first of equal elements, `vconfr` numbers them; `vtopk` writes the indices of the highest elements;
`vunpk`, `vlut` and `vexpm` unpack fields, look elements up, and spread packed elements over the present places. -/
def Obligations.ConflictsAndTransformations : Prop :=
  ∀ (s u : State) (c : Common) (ix : Ty) (lb : BitVec 4) (d a b : Fin 32) (m : Fin 8) (st : Strips) (ds : List Nat),
    let ty := effTy u.cur.ctl c.ty
    let here := u.presentAll c
    let x := st.view.src u a ty
    let earlier (e : Nat) : Nat := here.countP fun k => decide (k < e) && elem ty x k == elem ty x e
    let writes (i : Instr) (t : Ty) (is : List Nat) (f : Nat → Nat) : Prop := Begins i s st ds u →
      Ends i s st (u.putElems d t (is.map fun e => (e, f e))) [] (some (vecCheck u d t is))
    (Begins (.vconf c m a) s st ds u →
      Ends (.vconf c m a) s st (u.putMask m (here.map fun e => (e, earlier e == 0))) []
        (some (maskCheck (elemLane u.ncore ty) m here))) ∧
    writes (.vconfr c d a) .n16 here earlier ∧
    (Begins (.vtopk c d a b) s st ds u →
      let order := here.foldl (fun l e => insertRank (e, elemVal ty x e) l) []
      let top := (order.map fun r => r.1).take (u.gread b).toNat
      ∃ chk, Ends (.vtopk c d a b) s st (u.putElems d .n16 (top.zipIdx.map fun r => (r.2, r.1))) [] chk) ∧
    (st.view = [] → let gb := (u.gread b).toNat
      writes (.vunpk c d a b) ty here fun e =>
        fieldElem ty (gb % 32 + 1) (bitsAt (u.readGroup a 1) (gb / 256 % 64 + e * (gb % 32 + 1)) (gb % 32 + 1))) ∧
    (Begins (.vlut c ix lb d a b) s st ds u →
      let j (e : Nat) : Nat := lutIndex lb.toNat ix.sew ix (st.view.src u a ix) e
      let r (e : Nat) : Nat := if j e < vlmax u.ncore ty (groupFor u.cur.ctl ty) then elem ty (st.view.src u b ty) (j e) else 0
      Ends (.vlut c ix lb d a b) s st (u.putElems d ty ((u.performed c).map fun e => (e, r e))) []
        (some (vecCheck u d ty (u.performed c)))) ∧
    writes (.vexpm c d a) ty here fun e => elem ty x (here.countP fun k => decide (k < e))

/-- R282 to R285, R293, R294: `qld` loads a strip into Q0 to Q7 and `qgetv` moves one to a group of its type; `qcmd` pushes a 64-byte record
with the translation in force, `qres` stores the oldest completion record and removes it; `tspawn` answers 2 at a disabled queue,
else 0 or 1 as the launch unit admits or refuses; `vpub` raises HW and sets END in the chain cell, as one atomic. At bare addresses
(log 8) where nothing stands in the way, each completes. -/
def Obligations.EnginesAndTasks : Prop :=
  ∀ (s u t v w : State) (c : Common) (tc : Ty) (fin : Bool) (st : Strips) (ds : List Nat) (d a b e q : Fin 32)
    (gas : List Nat) (r : Record) (old : Nat),
    (Begins (.qld c tc q a b e) s st ds u → u.qcount q < qdepth q → u.boundHeld = false → t.str.wait = none →
      let n := min (u.gread b).toNat (Machine.vlmax u.ncore tc u.cur.ctl.g)
      let base := u.gread a
      let end_ (x : Nat) : Prop := Ends (.qld c tc q a b e) s st ((((t.moveToContext t.stream).notePush q.val (t.qcount q)).modQ fun y =>
        { y with strips := y.strips.set (qIdx8 q) (y.strips[qIdx8 q] ++ [⟨n, tc, BitVec.ofNat 131072 x⟩]) }).gwrite e
          (BitVec.ofNat 64 n)) [] none
      (∀ got, tc.isScaled = false → (∀ g ∈ got, g.2.bad = false) →
        loadElems (fun j => packedPiece base (j * tc.sew) tc.sew) (List.range n) u = (got, none, t) →
        end_ (got.foldl (fun x g =>
          setElem tc x g.1 ((packedPiece base (g.1 * tc.sew) tc.sew).value g.2.bytes)) 0)) ∧
      (∀ got, tc.isScaled = true → base.toNat % 32 = 0 → (∀ g ∈ got, g.2.bad = false) →
        loadElems (blockPiece base) (List.range ((n + blockLen tc - 1) / blockLen tc)) u = (got, none, t) →
        end_ (got.foldl (fun x g => putBits x (256 * g.1) 256 (leNat g.2.bytes)) 0))) ∧
    (Begins (.qgetv c tc d q e) s st ds u → ∀ x rest, u.cur.q.strips[qIdx8 q] = x :: rest →
      let g := groupFor u.cur.ctl tc
      let y := (u.modQ fun y => { y with strips := y.strips.set (qIdx8 q) rest }).takePosted q.val
      let one (z k : Nat) : Nat := setElem tc
        (if tc.isScaled && k % blockLen tc == 0 then putBits z (256 * (k / blockLen tc)) 8 (scaleAt tc x.data.toNat k) else z) k
        (elem tc x.data.toNat k)
      (x.ty = tc → x.count ≤ u.vlmax →
        Ends (.qgetv c tc d q e) s st ((y.writeGroup d g ((List.range x.count).foldl one (y.readGroup d g))).gwrite e
          (BitVec.ofNat 64 x.count)) [] none) ∧
      (x.ty ≠ tc ∨ u.vlmax < x.count → exec (.qgetv c tc d q e) s = .next (takeTrap u u.pc ⟨causeHandle, evalOf (.qgetv c tc d q e), 0⟩))) ∧
    (Begins (.qcmd c q a) s st ds u → u.readRecord (u.gread a) = .ok (r, [], [], t) →
      (match pushAddr q r with | none => (Except.ok [], t) | some (va, n) => t.xlateN .write va n) = (.ok gas, v) →
      v.qcount q < qdepth q → v.release (pushScope q) = some w → w.str.wait = none →
      ∃ x k, exec (.qcmd c q a) s = .next x ∧ x.commands = w.commands ++ [⟨q, w.cur.work.map (·.task), gas.headD 0, w.cur.loc, none, r,
        w.cur.ctl.atp, w.cur.ctl.asid, w.cur.ctl.sys, false, [], k, false, []⟩] ∧ x.pc = w.pc + 8 ∧ x.str.g = w.str.g ∧ x.mem = w.mem) ∧
    (Begins (.qres c q b) s st ds u → (u.gread b).toNat % 64 = 0 → u.popRecord q = some (r, t) →
      t.store false (u.gread b) (leBytes 64 r.toNat) = (.ok (), v) → v.str.wait = none → Ends (.qres c q b) s st (v.outToPost c) [] none) ∧
    (Begins (.tspawn c d a b) s st ds u → u.releaseVlc = some t → t.readRecord (t.gread a) = .ok (r, [], [], v) →
      v.str.wait = none →
      let k : QueueId := ⟨Fin.ofNat 4 (bitsAt (v.gread b).toNat 6 2), Fin.ofNat 64 (bitsAt (v.gread b).toNat 0 6)⟩
      let len := (v.queueAt k).fifo.length
      ((v.queueAt k).en = false → Ends (.tspawn c d a b) s st (v.gwrite d 2) [] none) ∧
      ∀ bad, (v.queueAt k).en = true → len < 32 →
        (v.modQueue k fun y => { y with fifo := y.fifo ++ [r] }).admitAll k (len + 1) = (bad, w) → bad ≠ some 0 → w.str.wait = none →
        let x := if bad.isNone then w.spawned else w
        Ends (.tspawn c d a b) s st ((if x.stream == .ep then x.disarm else x).gwrite d (if bad.isSome then 1 else 0)) [] none) ∧
    (Begins (.vpub c fin a b) s st ds u → (u.gread a).toNat % 8 = 0 → u.xlateN .write (u.gread a) 8 = (.ok gas, t) →
      (t.bankOf (gas.headD 0)).isSome = true → t.releaseVlc = some v →
      v.atomicAt gas ⟨.publish fin, .n64, .rne, (v.gread b).toNat, 0⟩ = (some ⟨old, 0, false, false, false⟩, w) → w.str.wait = none →
      Ends (.vpub c fin a b) s st (if w.stream == .ep then w.disarm else w) [] none) ∧
    (old < 2 ^ 64 → ∀ hw, publish fin hw old % 2 ^ 48 = max (old % 2 ^ 48) (hw % 2 ^ 48) ∧
      (publish fin hw old).testBit 63 = (old.testBit 63 || fin)) ∧
    (let n := min (s.gread b).toNat (Machine.vlmax s.ncore tc s.cur.ctl.g)
     let bytes := if tc.isScaled then 32 * ((n + blockLen tc - 1) / blockLen tc) else (n * tc.sew + 7) / 8
     Ready (.qld c tc q a b e) s → Quiet s → s.qcount q < qdepth q → (tc.isScaled = true → (s.gread a).toNat % 32 = 0) →
      s.reaches (bareBytes (s.gread a) bytes) → ∃ x, exec (.qld c tc q a b e) s = .next x ∧ x.pc = s.pc + 8 ∧
        x.gread e = (if e = 0 then 0 else BitVec.ofNat 64 n) ∧
        ∃ y, x.cur.q.strips = s.cur.q.strips.set (qIdx8 q) (s.cur.q.strips[qIdx8 q] ++ [y]) ∧ y.count = n ∧ y.ty = tc) ∧
    (∀ x rest, Ready (.qgetv c tc d q e) s → s.cur.q.strips[qIdx8 q] = x :: rest → x.ty = tc → x.count ≤ s.vlmax →
      ∃ y, exec (.qgetv c tc d q e) s = .next y ∧ y.pc = s.pc + 8 ∧ y.cur.q.strips = s.cur.q.strips.set (qIdx8 q) rest ∧
        y.gread e = if e = 0 then 0 else BitVec.ofNat 64 x.count) ∧
    (let x := recordOf ((bareBytes (s.gread a) 64).map s.mem.read)
     Ready (.qcmd c q a) s → Quiet s → (s.gread a).toNat % 64 = 0 → s.reaches (bareBytes (s.gread a) 64) →
      (∀ va n, pushAddr q x = some (va, n) → s.reaches (bareBytes va n)) → s.qcount q < qdepth q →
      ∃ y z, exec (.qcmd c q a) s = .next y ∧ y.pc = s.pc + 8 ∧ y.commands = s.commands ++ [z] ∧ z.queue = q ∧ z.record = x ∧
        z.atp = s.cur.ctl.atp ∧ z.asid = s.cur.ctl.asid) ∧
    (∀ x rest, Ready (.qres c q b) s → Quiet s → (s.gread b).toNat % 64 = 0 → s.reaches (bareBytes (s.gread b) 64) →
      (if q.val = 17 then s.cur.q.q17 else s.cur.q.q19) = x :: rest → ∃ y, exec (.qres c q b) s = .next y ∧ y.pc = s.pc + 8 ∧
        (if q.val = 17 then y.cur.q.q17 else y.cur.q.q19) = rest ∧
        (bareBytes (s.gread b) 64).map (y.byteOn s.path) = leBytes 64 x.toNat) ∧
    (let k : QueueId := ⟨Fin.ofNat 4 (bitsAt (s.gread b).toNat 6 2), Fin.ofNat 64 (bitsAt (s.gread b).toNat 0 6)⟩
     Ready (.tspawn c d a b) s → Quiet s → (s.gread a).toNat % 64 = 0 → s.reaches (bareBytes (s.gread a) 64) →
      ((s.queueAt k).en = false → ∃ y, exec (.tspawn c d a b) s = .next y ∧ y.pc = s.pc + 8 ∧ y.gread d = if d = 0 then 0 else 2) ∧
      ((s.queueAt k).en = true → (s.queueAt k).fifo = [] → ((s.queueAt k).qatp >>> 60) = 0 →
        ∃ y, exec (.tspawn c d a b) s = .next y ∧ y.pc = s.pc + 8 ∧ (y.gread d = 0 ∨ y.gread d = 1))) ∧
    (let bytes := bareBytes (s.gread a) 8
     let was := leNat (bytes.map s.mem.read)
     Ready (.vpub c fin a b) s → Quiet s → MemoryKept s → (s.gread a).toNat % 8 = 0 → s.reaches bytes →
      (s.bankOf ((s.gread a).toNat % 2 ^ 63)).isSome = true → ∃ y, exec (.vpub c fin a b) s = .next y ∧ y.pc = s.pc + 8 ∧
        bytes.map y.mem.read = leBytes 8 (publish fin (s.gread b).toNat was) ∧ ∀ g, g ∉ bytes → y.mem.read g = s.mem.read g)

/-! ## Vector memory -/

/-- R179 to R181, R183 to R188: a vector load whose performed elements all translate completes with the bits of each; the first element's
fault traps, and a later one's trims VL to the elements before it (fault-only-first). -/
def Obligations.VectorLoads : Prop :=
  ∀ (s u t : State) (c : Common) (d a b : Fin 32) (m o : Fin 8) (sc : Fin 4) (ix : IdxTy) (disp : BitVec 14) (st : Strips)
    (ds : List Nat) (got : List (Nat × Got)) (flt : Option (Nat × Flt)), t.str.wait = none → (∀ g ∈ got, g.2.bad = false) →
    let ty := effTy u.cur.ctl c.ty
    let base := u.gread a + disp.signExtend 64
    let elements (i : Instr) (piece : Nat → Piece) : Prop :=
      Begins i s st ds u → loadElems piece (u.performed c) u = (got, flt, t) →
      let put (v : State) : State := v.putElems d ty (got.map fun g => (g.1, (piece g.1).value g.2.bytes % 2 ^ ty.sew))
      (flt = none → Ends i s st (put t) [] none) ∧
      ∀ f e, flt = some (f, e) →
        ((u.performed c).head? = some f → exec i s = .next (takeTrap t t.pc (e.trap .read))) ∧
        ((u.performed c).head? ≠ some f → Ends i s st (put (t.setVl f)) [] none)
    (ty.isScaled = false → elements (.vld c d a disp) fun e => packedPiece base (e * ty.sew) ty.sew) ∧
    elements (.vlds c d a b) (fun e => cellPiece ty (u.gread a + BitVec.ofNat 64 e * u.gread b)) ∧
    elements (.vldb c d a o) (fun e => packedPiece (u.gread a) (o.val + e * ty.sew) ty.sew) ∧
    elements (.vldx c d a b sc ix) (fun e => cellPiece ty (u.gread a + BitVec.ofInt 64
      (intOf (ixTy ix) (elem (ixTy ix) (st.view.src u b (ixTy ix)) e) * (2 ^ sc.val : Nat)))) ∧
    (Begins (.vld c d a disp) s st ds u → ty.isScaled = true → base.toNat % 32 = 0 →
      loadElems (blockPiece base) (blocksOf ty (u.performed c)) u = (got, flt, t) →
      let g := groupFor u.cur.ctl ty
      let put (v : State) : State := v.writeGroup d g
        (got.foldl (fun x r => putBits x (256 * r.1) 256 (leNat r.2.bytes)) (v.readGroup d g))
      (flt = none → Ends (.vld c d a disp) s st (put t) [] none) ∧
      ∀ f e, flt = some (f, e) → (blocksOf ty (u.performed c)).head? ≠ some f →
        Ends (.vld c d a disp) s st (put (t.setVl (f * blockLen ty))) [] none) ∧
    (Begins (.mld c m a disp) s st ds u →
      loadElems (fun e => ⟨base + BitVec.ofNat 64 (e / 8), 1, 0, 8⟩) (u.maskBytes.map (·.1)) u = (got, none, t) →
      Ends (.mld c m a disp) s st (t.putMask m (got.flatMap fun g =>
        ((u.maskBytes.find? (·.1 == g.1)).elim [] (·.2)).map fun k => (k, (leNat g.2.bytes).testBit (k % 8)))) [] none)

/-- R179, R182 to R188, R363: a vector store writes its performed elements in ascending order; a fault leaves the elements below it
stored, VSTART at it, and traps; one that has to wait under ORD for the element before it waits with VSTART at it. -/
def Obligations.VectorStores : Prop :=
  ∀ (s u t : State) (c : Common) (d a b : Fin 32) (m o : Fin 8) (sc : Fin 4) (ix : IdxTy) (disp : BitVec 14) (st : Strips)
    (ds : List Nat) (end_ : StoreEnd), t.str.wait = none →
    let ty := effTy u.cur.ctl c.ty
    let base := u.gread a + disp.signExtend 64
    let x := st.view.src u d ty
    let stores (i : Instr) (is : List Nat) (at_ : Nat → Nat) (ea : Nat → Word) (one : State → Nat → Except Flt Unit × State) : Prop :=
      Begins i s st ds u → storeElems c true one is u = (end_, t) →
      match end_ with
      | .all => Ends i s st (t.outToPost c) [] none
      | .fault f e => exec i s = .next (takeTrap ((t.setVstart (at_ f)).markedBy i u) t.pc (e.trap .write))
      | .held f => exec i s = .next ((((t.setVstart (at_ f)).markedBy i u).countWaits st.used).partly i u.vstart (some (.store (ea f))) [])
    let elements (i : Instr) (piece : Nat → Piece) : Prop :=
      stores i (u.performed c) id (fun e => (piece e).va) fun v e => v.storePiece (piece e) (elem ty x e)
    (ty.isScaled = false → elements (.vst c d a disp) fun e => packedPiece base (e * ty.sew) ty.sew) ∧
    (ty.isScaled = true → base.toNat % 32 = 0 →
      stores (.vst c d a disp) (blocksOf ty (u.performed c)) (· * blockLen ty) (fun j => base + BitVec.ofNat 64 (32 * j))
        fun v j => v.store true (base + BitVec.ofNat 64 (32 * j)) (leBytes 32 (bitsAt x (256 * j) 256))) ∧
    elements (.vsts c d a b) (fun e => cellPiece ty (u.gread a + BitVec.ofNat 64 e * u.gread b)) ∧
    elements (.vstb c d a o) (fun e => packedPiece (u.gread a) (o.val + e * ty.sew) ty.sew) ∧
    elements (.vstx c d a b sc ix) (fun e => cellPiece ty (u.gread a + BitVec.ofInt 64
      (intOf (ixTy ix) (elem (ixTy ix) (st.view.src u b (ixTy ix)) e) * (2 ^ sc.val : Nat)))) ∧
    stores (.mst c m a disp) (u.maskBytes.map (·.1)) id (fun e => base + BitVec.ofNat 64 (e / 8)) (fun v e =>
      let n := ((u.maskBytes.find? (·.1 == e)).elim [] (·.2)).length
      v.storePiece ⟨base + BitVec.ofNat 64 (e / 8), 1, e % 8, n⟩ (bitsAt (u.mread m) e n))

/-- R190 to R192, R397 to R400: a multicast store brings each performed element to every member of its group, and a reducing load combines
the members' values of each, in the state in which the group table has been read; a group that is not configured traps at the
first performed element. At bare addresses (log 8) over quiet memory each completes. -/
def Obligations.FabricAccesses : Prop :=
  ∀ (s u t : State) (c : Common) (d a b : Fin 32) (st : Strips) (ds : List Nat), t.str.wait = none →
    let ty := effTy u.cur.ctl c.ty
    let is := u.performed c
    let v := u.readGroupTable (u.gread b).toNat
    let group := v.group (u.gread b).toNat
    (Begins (.vstm c d a b) s st ds u →
      let ea (e : Nat) : Word := u.gread a + BitVec.ofNat 64 (e * cellBytes ty)
      (is = [] → (c.post = none ∨ u.copiesOut = false) → Ends (.vstm c d a b) s st u [] none) ∧
      (∀ p, is.head? = some p → group = none →
        exec (.vstm c d a b) s = .next (takeTrap v v.pc ⟨causeAccess, ea p, 1⟩)) ∧
      ∀ g, group = some g → is ≠ [] →
        storeElems c false (fun w e => w.multicast g (ea e) (cellBytes ty) (elem ty (st.view.src u d ty) e)) is v = (.all, t) →
        (c.post = none ∨ (t.outToPost c).copiesOut = false) → Ends (.vstm c d a b) s st (t.outToPost c) [] none) ∧
    (∀ (i : Instr) (op : Rop), (i, op) ∈ [(Instr.vldr c d a b, Rop.sum), (.vldrmin c d a b, .min), (.vldrmax c d a b, .max)] →
      Begins i s st ds u →
      let ea (e : Nat) : Word := u.gread a + BitVec.ofNat 64 (e * (ty.sew / 8))
      (is = [] → Ends i s st u [] none) ∧
      (∀ p, is.head? = some p → group = none → exec i s = .next (takeTrap v v.pc ⟨causeAccess, ea p, 0⟩)) ∧
      ∀ g got, group = some g → is ≠ [] → reduceElems op ty g ea is v = (got, none, t) →
        (∀ x ∈ got, x.2.poison = false ∧ x.2.absent = false) →
        Ends i s st (t.putElems d ty (got.map fun x => (x.1, x.2.val))) (raises (got.map fun x => (x.1, x.2.fl))) none) ∧
    ∀ (i : Instr), i ∈ [Instr.vstm c d a b, .vldr c d a b, .vldrmin c d a b, .vldrmax c d a b] → Ready i s → Quiet s →
      c.post = none → c.ord = false → (s.group (s.gread b).toNat).isSome = true → s.groupFull ((s.gread b).toNat % 8192) = false →
      let sty := effTy s.cur.ctl c.ty
      (∀ m : Fin 8192, ∀ h, s.mayNotLeave s.cur.loc.die [atMember m.val h] = false) →
      (∀ e ∈ s.performed c, s.reaches (bareBytes (s.gread a + BitVec.ofNat 64 (e * cellBytes sty)) (cellBytes sty))) →
      ∃ y, exec i s = .next y ∧ y.pc = s.pc + 8 ∧ y.str.g = s.str.g ∧ y.cur.h = s.cur.h ∧ y.mem = s.mem

/-- R128, R179, R360, R361: the bytes of a store read back on the path of the stream that stored them, and every other byte reads there
as it does after the translation, which at a bare address (log 8) changes nothing; a load brings each of its bytes as it reads on
the path of its stream, while no injection is armed; loads change no register and no store on its way, and at bare addresses, with
no injection armed, no byte; memory itself changes only where bytes are performed, byte by byte. -/
def Obligations.StoredBytes : Prop :=
  ∀ (s s1 t : State) (vector : Bool) (va : Word) (n : Nat) (bs : List Byte) (gas : List Nat) (ms : List MByte) (mark : Bool),
    (s.xlateN .write va bs.length = (.ok gas, s1) → gas.Nodup → s.store vector va bs = (.ok (), t) →
      gas.map (t.byteOn s.path) = bs ∧ (∀ ga, ga ∉ gas → t.byteOn s.path ga = s1.byteOn s.path ga) ∧ t.mem = s1.mem ∧
      ((s.cur.ctl.atp >>> 60) = 0 → s1 = s) ∧ t.str.g = s.str.g ∧ t.cur.vec = s.cur.vec ∧ t.cur.tile = s.cur.tile ∧ t.cur.ctl = s.cur.ctl ∧ t.pc = s.pc) ∧
    (∀ r, s.xlateN .read va n = (.ok gas, s1) → s.load va n = (.ok r, t) → (∀ c ∈ s1.cores.toList, c.injb.getLsbD 0 = false) →
      r.held = false → r.bytes = gas.map (s1.byteOn s.path)) ∧
    (∀ piece is got flt, loadElems piece is s = (got, flt, t) →
      t.pend = s.pend ∧ t.str.g = s.str.g ∧ t.cur.h = s.cur.h ∧ t.cur.vec = s.cur.vec ∧ t.cur.tile = s.cur.tile ∧
      t.cur.ctl = s.cur.ctl ∧ t.pc = s.pc ∧
      ((s.cur.ctl.atp >>> 60) = 0 → (∀ c ∈ s.cores.toList, c.injb.getLsbD 0 = false) → (∀ g ∈ got, g.2.absent = false) →
        SameMemory s t ∧ t.mem = s.mem)) ∧
    ((ms.map (·.ga)).Nodup → MemoryKept s →
      (∀ b ∈ ms, (s.performBytes ms mark).mem.read b.ga = mergeByte (s.mem.read b.ga) b) ∧
      (∀ ga, ga ∉ ms.map (·.ga) → (s.performBytes ms mark).mem.read ga = s.mem.read ga) ∧ MemoryKept (s.performBytes ms mark))

/-! ## Streams and sparse registers -/

/-- R193 to R197, R205 to R208: descriptors load and store as 32 bytes and bind to a register whose contents are then undefined, which the
model makes free values (log 4); pair records load and store, and that `sdst` and `psst` do not disarm an open strip is the model's reading
of R434 (log 33); sums and products of sparse registers meet coordinate by coordinate, and dense elements come and go. -/
def Obligations.StreamsAndSparse : Prop :=
  ∀ (s u t : State) (c : Common) (d a b : Fin 32) (x : Fin 8) (p y z : Fin 8) (disp : BitVec 14) (st : Strips) (ds : List Nat)
    (bs : List Byte) (got : List (Nat × Got)) (gas : List Nat),
    let td := effTy u.cur.ctl c.ty
    let cap (ty : Ty) : Nat := sparseCap u.ncore ty
    let base := u.gread a + disp.signExtend 64
    (Begins (.sbind c d x) s st ds u →
      let keep := u.cur.binds.filter fun b => b.1 != d && b.2.sreg != x
      let tables := (({ u.cur with binds := keep } : Vlc) :: (u.onCore u.coreId).filter fun v => v.loc != u.cur.loc).map fun v =>
        v.tableBinds.length
      (((u.cur.s[x]).kind = 1 ∨ (u.cur.s[x]).kind = 2) → tables.sum < 4) →
      Ends (.sbind c d x) s st ((u.modVlc fun v => { v with
        binds := keep ++ [(d, ⟨x, u.cur.s[x], 0, (u.cur.s[x]).count.toNat, 0, 0, [], false⟩)] }).undefGroup d u.cur.ctl.g) [] none) ∧
    (Begins (.sfree c d) s st ds u → Ends (.sfree c d) s st
      ((u.modVlc fun v => { v with binds := v.binds.filter fun b => b.1 != d }).undefGroup d u.cur.ctl.g) [] none) ∧
    (Begins (.sdld c x a) s st ds u → u.load (u.gread a) 32 = (.ok ⟨bs, false, false, false⟩, t) → t.str.wait = none →
      Ends (.sdld c x a) s st (t.putDesc x (descOf (leNat bs))) [] none) ∧
    (Begins (.sdst c x a) s st ds u → u.store false (u.gread a) (u.cur.s[x]).image = (.ok (), t) → t.str.wait = none →
      Ends (.sdst c x a) s st (t.outToPost c) [] none) ∧
    (Begins (.psld c p a b disp) s st ds u → t.str.wait = none → (∀ g ∈ got, g.2.bad = false) →
      let n := recordSize td
      loadElems (fun j => ⟨base + BitVec.ofNat 64 (j * n), n, 0, 8 * n⟩) (List.range (min (u.gread b).toNat (cap td))) u = (got, none, t) →
      let pairs := got.map fun g => pairOf td g.2.bytes
      let len := risingLen pairs
      Ends (.psld c p a b disp) s st ((t.putPreg p ⟨td, pairs.take len⟩).gwrite b (BitVec.ofNat 64 len))
        (if len < pairs.length then [(len, flNV)] else []) none) ∧
    (Begins (.psst c p a b disp) s st ds u →
      let r := u.preg p
      let m := min r.pairs.length (u.gread b).toNat
      xlateRecords .write (recordSize r.ty) ((List.range m).map fun j => base + BitVec.ofNat 64 (j * recordSize r.ty)) u = (.ok gas, t) →
      let v := t.settleOrd c false
      v.mustSettle c false = false → (c.ord = true → ∀ m ∈ v.moves, ∀ ga ∈ gas, gaFrame ga ≠ m.frame) →
      let w := (((r.pairs.take m).map (recordBytes r.ty)).foldl (fun (acc : State × Word) bs =>
        (((acc.1.settleOrd c false).store false acc.2 bs).2, acc.2 + BitVec.ofNat 64 bs.length)) (v, base)).1
      w.str.wait = none →
      Ends (.psst c p a b disp) s st ((w.gwrite b (BitVec.ofNat 64 r.pairs.length)).outToPost c) [] none) ∧
    (let pa := u.preg y
     let pb := u.preg z
     let ty := c.ty.getD pa.ty
     let draws := u.takeDraws (if c.rm == .rsr then cap ty else 0)
     let form (i : Instr) (coords : List (BitVec 32)) (f : BitVec 32 → Nat → Nat × Fl) : Prop := Begins i s st ds u →
       let rs := (coords.take (cap ty)).zipIdx.map fun k => (k.1, f k.1 (drawAt draws.1 k.2))
       ∃ chk, Ends i s st ((draws.2.putPreg p ⟨ty, rs.map fun r => (r.1, BitVec.ofNat 64 r.2.1)⟩).gwrite d
         (BitVec.ofNat 64 coords.length)) (raises (rs.zipIdx.map fun r => (r.2, r.1.2.2))) chk
     form (.psadd c p y z d) (mergeCoords (pa.pairs.map (·.1)) (pb.pairs.map (·.1))) (fun k n =>
       match pa.at k, pb.at k with
       | some v, some w => convSparse ty c.rm (intOf pa.ty v + intOf pb.ty w) (fAdd c.rm (readTy pa.ty v) (readTy pb.ty w)) n
       | some v, none => convOne ty pa.ty c.rm v n
       | none, some w => convOne ty pb.ty c.rm w n
       | none, none => (0, 0)) ∧
     form (.psmul c p y z d) ((pa.pairs.map (·.1)).filter fun k => (pb.at k).isSome) (fun k n =>
       convSparse ty c.rm (intOf pa.ty ((pa.at k).getD 0) * intOf pb.ty ((pb.at k).getD 0))
         (fMul (readTy pa.ty ((pa.at k).getD 0)) (readTy pb.ty ((pb.at k).getD 0))) n)) ∧
    (Begins (.psdense c d y b) s st ds u →
      let draws := u.takeDraws (if c.rm == .rsr then u.vl else 0)
      let r := u.preg y
      let f (k : Nat) : Nat × Fl :=
        match (if (u.gread b).toNat + k < 2 ^ 32 then r.at (BitVec.ofNat 32 ((u.gread b).toNat + k)) else none) with
        | some v => convOne td r.ty c.rm v (drawAt draws.1 k)
        | none => (0, 0)
      (u.vl ≤ u.vstart → Ends (.psdense c d y b) s st draws.2 [] none) ∧
      (u.vstart < u.vl → Ends (.psdense c d y b) s st (draws.2.putElems d td ((List.range u.vl).map fun k => (k, (f k).1)))
        (raises ((List.range u.vl).map fun k => (k, (f k).2))) none)) ∧
    (Begins (.pssparse c p a b d) s st ds u → ∃ pairs fl,
      let ts := wcTy u.cur.ctl.wc
      let ty := c.ty.getD ts
      let x := st.view.src u a ts
      let here := (if u.vl ≤ u.vstart then [] else List.range u.vl).filter fun k =>
        !(if ts.isAnyInt then intOf ts (elem ts x k) == 0 else (elemVal ts x k).isZero) &&
          decide ((u.gread b).toNat + k ≤ 0xFFFFFFFF)
      pairs.map (·.1) = (here.take (cap ty)).map (fun k => BitVec.ofNat 32 ((u.gread b).toNat + k)) ∧
      Ends (.pssparse c p a b d) s st (((u.takeDraws (if c.rm == .rsr then cap ty else 0)).2.putPreg p ⟨ty, pairs⟩).gwrite d
        (BitVec.ofNat 64 here.length)) fl none)

/-! ## Functions and tiles -/

/-- R16, R210, R213 to R215, R217, R220, R225 to R235: function arithmetic and calculus, on operands that pass their checks and with room
in the store, leave F[D] with the descriptor and degree of their rules, the coefficients of each active batch element rounded once, and
those of the others kept; with FL = 0 they do nothing. `fnfree` releases F[D], and `fndeg` reads the descriptor word of R221. -/
def Obligations.Functions : Prop :=
  ∀ (s u : State) (c : Common) (rule : Rule) (axis : Fin 3) (face : Fin 6) (d a b : Fin 16) (g : Fin 32) (e : Src2) (st : Strips)
    (ds : List Nat),
    let fl := u.flNum
    let x := u.fnreg a
    let y := u.fnreg b
    let cap := u.degCap
    let done (i : Instr) (ok : Prop) (r : FnReg) (comp : Nat → Nat → Component) : Prop := Begins i s st ds u →
      (fl = 0 → Ends i s st u [] none) ∧
      let n := r.c * r.per
      let r := { r with nb := fl, coef := [] }
      let draws := u.takeDraws (if c.rm == .rsr then fl * n else 0)
      let kept : List Word := match u.cur.vec.f[d] with
        | some o => if ({ o with coef := [] } : FnReg) = r then o.coef else []
        | none => []
      let co : List Word := (List.range fl).flatMap fun k =>
        if u.active c k then (List.range r.c).flatMap fun j => (comp k j).co.zipIdx.map fun z =>
          BitVec.ofNat 64 (z.1.round r.ty c.rm (drawAt draws.1 (k * n + j * r.per + z.2))).1
        else (List.range n).map fun q => kept.getD (k * n + q) 0
      (fl ≠ 0 → ok → u.allocTrap r.granules = none → ∃ w chk, Ends i s st (draws.2.putFn d (some { r with coef := co })) w chk)
    let steps (p po : Nat) (nod : Bool) := List.replicate x.d (axisSteps .proj p po x.nodal nod)
    let sum (i : Instr) (sub : Bool) : Prop :=
      let deg := min (max x.p y.p) cap
      done i (fl ≤ x.nb ∧ fl ≤ y.nb ∧ x.d = y.d ∧ x.c = y.c ∧ x.nodal = y.nodal ∧ x.f64 = y.f64) { x with p := deg } fun k j =>
        ⟨(Field.zip (fun p q => p.add (if sub then q.neg else q)) ((x.field k j).applyAll (steps x.p deg x.nodal))
          ((y.field k j).applyAll (steps y.p deg x.nodal))).co.toList, false⟩
    let linear (i : Instr) (ok : Prop) (pr dim : Nat) (nodal : Bool) (op : Nat → AxisOp) : Prop :=
      done i (fl ≤ x.nb ∧ ok)
        { x with d := dim, p := min pr cap, nodal := nodal, f64 := (match c.ty with | some ty => ty == .f64 | none => x.f64) }
        fun k j => ⟨((x.field k j).applyAll ((List.range x.d).map fun ax =>
          axisSteps (op ax) x.p (min pr cap) x.nodal nodal)).co.toList, false⟩
    sum (.fnadd c d a b) false ∧ sum (.fnsub c d a b) true ∧
    (let deg := min (x.p + y.p) cap
     let m := if (match rule with | .aliased => true | .dealiased => false | .follow => u.cur.ctl.aliasing)
       then aliasedRule x.p y.p deg x.nodal else dealiasedRule x.p y.p deg ((x.p + y.p + deg + 2) / 2) x.nodal x.nodal
     done (.fnmul c rule d a b)
       (fl ≤ x.nb ∧ fl ≤ y.nb ∧ x.d = y.d ∧ x.nodal = y.nodal ∧ x.f64 = y.f64 ∧ (x.c = y.c ∨ x.c = 1 ∨ y.c = 1))
       { x with p := deg, c := max x.c y.c } fun k j =>
         ⟨(m.run x.d (x.field k (if x.c == 1 then 0 else j)) (y.field k (if y.c == 1 then 0 else j))).co.toList, false⟩) ∧
    (let scale (k : Nat) : FVal := match e with
       | .v v => readTy x.ty (elem x.ty (st.view.src u v x.ty) k)
       | .s h => u.hval x.ty h
     done (.fnscl c d a e) (fl ≤ x.nb ∧ ∀ v, e = .v v → fl ≤ vlmax u.ncore x.ty (groupFor u.cur.ctl x.ty))
       { x with p := min x.p cap } fun k j =>
         ⟨(((x.field k j).applyAll (steps x.p (min x.p cap) x.nodal)).co.map fun z => z.mul (.of (scale k))).toList, false⟩) ∧
    linear (.fndiff c axis d a) (axis.val < x.d) (if x.nodal || 2 ≤ x.d then x.p else x.p - 1) x.d x.nodal (onAxis axis.val .diff) ∧
    linear (.fnint c axis d a) (axis.val < x.d) (x.p + 1) x.d x.nodal (onAxis axis.val .int) ∧
    linear (.fnproj c d a g) True (bitsAt (u.gread g).toNat 0 4) x.d ((u.gread g).getLsbD 6) (fun _ => .proj) ∧
    linear (.fntrace c face d a) (x.d ≠ 1 ∧ face.val < 2 * x.d) x.p (x.d - 1) x.nodal
      (onAxis (face.val / 2) (.trace (face.val % 2 == 1))) ∧
    (Begins (.fnfree c d) s st ds u → Ends (.fnfree c d) s st (u.putFn d none) [] none) ∧
    (Begins (.fndeg c g a) s st ds u → Ends (.fndeg c g a) s st (u.gwrite g (BitVec.ofNat 64
      (x.p + x.d * 2 ^ 4 + (if x.nodal then 2 ^ 6 else 0) + (x.c - 1) * 2 ^ 7 + (if x.f64 then 2 ^ 9 else 0) + x.granules * 2 ^ 16 +
        x.nb * 2 ^ 32))) [] none)

/-- R212, R222 to R224, R236 to R239: function images load and store coefficient by coefficient; `fneval` and `fnquad` write one value for
each element of Vd that stands for an active batch element, below VL and from VSTART on. -/
def Obligations.FunctionMemoryAndValues : Prop :=
  ∀ (s u t v : State) (c : Common) (d : Fin 16) (a b e : Fin 32) (st : Strips) (ds : List Nat) (got : List (Nat × Got)),
    let fl := u.flNum
    let x := u.fnreg d
    let es := u.batch c
    let w := (u.gread b).toNat
    let r : FnReg := ⟨bitsAt w 4 2, bitsAt w 0 4, w.testBit 6, bitsAt w 7 2 + 1, c.ty == some .f64, fl, []⟩
    let idx (n : Nat) : List Nat := es.flatMap fun k => (List.range n).map fun q => k * n + q
    (∀ i ∈ [Instr.fnld c d a b, .fnst c d a, .fneval c a d b e, .fnquad c a d], Begins i s st ds u → fl = 0 → Ends i s st u [] none) ∧
    (Begins (.fnld c d a b) s st ds u → fl ≠ 0 → r.d ≠ 0 → r.p ≤ u.degCap → u.allocTrap r.granules = none →
      let n := r.c * r.per
      checkImages .read (u.gread a) (n * r.bytes) es u = (none, t) →
      loadElems (fun q => ⟨u.gread a + BitVec.ofNat 64 (q * r.bytes), r.bytes, 0, 8 * r.bytes⟩) (idx n) t = (got, none, v) →
      (∀ g ∈ got, g.2.bad = false) → v.str.wait = none →
      let kept : List Word := match u.cur.vec.f[d] with
        | some o => if ({ o with coef := [] } : FnReg) = r then o.coef else []
        | none => []
      let co : List Word := (List.range (fl * n)).map fun q =>
        if u.active c (q / n) then (match got.find? (·.1 == q) with | some g => BitVec.ofNat 64 (leNat g.2.bytes) | none => 0)
        else kept.getD q 0
      Ends (.fnld c d a b) s st (v.putFn d (some { r with coef := co })) [] none) ∧
    (Begins (.fnst c d a) s st ds u → fl ≠ 0 → fl ≤ x.nb →
      let ty := c.ty.getD x.ty
      let n := x.c * x.per
      let draws := u.takeDraws (if c.rm == .rsr then fl * n else 0)
      let f (q : Nat) : Nat × Fl := if ty == x.ty then ((x.coef.getD q 0).toNat, 0)
        else convert ty x.ty c.rm false (x.coef.getD q 0).toNat (drawAt draws.1 q)
      checkImages .write (u.gread a) (n * (ty.sew / 8)) es draws.2 = (none, t) →
      storeCoefs c (u.gread a) (ty.sew / 8) ((idx n).map fun q => (q, (f q).1)) t = (none, v) → v.str.wait = none →
      Ends (.fnst c d a) s st (v.outToPost c) (raises ((idx n).map fun q => (q / n, (f q).2))) none) ∧
    (Begins (.fnquad c a d) s st ds u → fl ≠ 0 → fl ≤ x.nb →
      let is := (List.range (min u.vl (fl * x.c))).filter fun j => decide (u.vstart ≤ j) && u.active c (j / x.c)
      ∃ rs w chk, rs.map (·.1) = is ∧
        (x.nodal = false → x.d % 2 = 0 → ∀ q ∈ rs, q.2 = (((x.field (q.1 / x.c) (q.1 % x.c)).co.getD 0 .empty).scale
          (.num false 1 (x.d / 2 : Nat)) |>.round x.ty c.rm
            (drawAt (u.takeDraws (if c.rm == .rsr then fl * x.c else 0)).1 q.1)).1) ∧
        Ends (.fnquad c a d) s st ((u.takeDraws (if c.rm == .rsr then fl * x.c else 0)).2.putElems a x.ty rs) w chk) ∧
    (Begins (.fneval c a d b e) s st ds u → fl ≠ 0 → fl ≤ x.nb →
      let np := (u.gread e).toNat
      np * x.d ≤ vlmax u.ncore x.ty (groupFor u.cur.ctl x.ty) →
      let is := (List.range (min u.vl (np * fl * x.c))).filter fun j => decide (u.vstart ≤ j) && u.active c (j / x.c % fl)
      let draws := u.takeDraws (if c.rm == .rsr then np * fl * x.c else 0)
      let at_ (j k : Nat) : FVal := readTy x.ty (elem x.ty (st.view.src u b x.ty) (j / (fl * x.c) * x.d + k))
      ∃ rs w chk, rs.map (·.1) = is ∧
        (∀ q ∈ rs, (∀ k < x.d, (at_ q.1 k).isNan = false ∧ (at_ q.1 k).isInf = false) →
          q.2 = ((((x.field (q.1 / x.c % fl) (q.1 % x.c)).applyAll
            ((List.range x.d).map fun k => [[basisNear x.nodal x.p (at_ q.1 k)]])).co.getD 0 .empty).round x.ty c.rm
              (drawAt draws.1 q.1)).1) ∧
        Ends (.fneval c a d b e) s st (draws.2.putElems a x.ty rs) w chk)

/-- R244, R245, R249 to R253, R261: shapes are granted as R250 says; rows of tile registers and accumulators load and store from VSTART
on; and `tcvt` converts an accumulator's rows into a tile register. -/
def Obligations.TileMovement : Prop :=
  ∀ (s u t : State) (c : Common) (ty : Ty) (dbl : Bool) (d : Fin 16) (e : Fin 4) (a b : Fin 32) (st : Strips) (ds : List Nat)
    (rows : List RowGot), t.str.wait = none → (∀ r ∈ rows, ∀ g ∈ r.got, g.2.bad = false) →
    let k := u.cfg d
    let w := k.ty.sew
    let bl := blockLen k.ty
    let base (r : Nat) : Word := u.gread a + BitVec.ofNat 64 r * u.gread b
    let n := u.shapeN
    let ab := if dbl then 8 else 4
    let aligned : Prop := (u.gread a).toNat % 32 = 0 ∧ (u.gread b).toNat % 32 = 0
    let fits (dbl : Bool) : Prop := u.cur.ctl.tvalid = true ∧ (dbl = true → u.shapeM * n * 2 ≤ 65536)
    let req := (u.gread a).toNat
    (Begins (.tshape c ty b) s st ds u → Ends (.tshape c ty b) s st (u.setShape b (grantShape ty 0 0 0)) [] none) ∧
    (Begins (.tshapex c ty b a) s st ds u →
      Ends (.tshapex c ty b a) s st (u.setShape b (grantShape ty (req % 512) (req / 512 % 512) (req / 2 ^ 18 % 1024))) [] none) ∧
    (Begins (.tld c d a b) s st ds u →
      (k.ty.isScaled = false →
        loadRows base k.rowBytes k.cols (fun va q => packedPiece va (q * w) w) (u.rowsFrom k.rows) u = (rows, none, t) →
        Ends (.tld c d a b) s st (t.putRows d (rows.map fun r =>
          ⟨r.row, r.got.map fun g => (packedPiece (base r.row) (g.1 * w) w).value g.2.bytes, []⟩)) [] none) ∧
      (k.ty.isScaled = true → aligned →
        loadRows base (32 * k.rowBlocks) k.rowBlocks (fun va j => ⟨va + BitVec.ofNat 64 (32 * j), 32, 0, 256⟩)
          (u.rowsFrom k.rows) u = (rows, none, t) →
        let blk (r : RowGot) (j : Nat) : Nat := (r.got.find? (·.1 == j)).elim 0 fun g => leNat g.2.bytes
        Ends (.tld c d a b) s st (t.putRows d (rows.map fun r => ⟨r.row,
          (List.range k.cols).map fun q => bitsAt (blk r (q / bl)) (8 + q % bl * w) w,
          (List.range k.rowBlocks).map fun j => blk r j % 256⟩)) [] none)) ∧
    (Begins (.tst c d a b) s st ds u →
      let v := u.viewTile d
      (k.ty.isScaled = false →
        storeRows c base k.rowBytes (fun r =>
          if w < 8 then bytesOf (base r) (k.cols * w) (v.rows.getD r 0)
          else cellsOf (base r) (w / 8) ((List.range k.cols).map (v.raw r))) (u.rowsFrom k.rows) u = (none, t) →
        Ends (.tst c d a b) s st (t.outToPost c) [] none) ∧
      (k.ty.isScaled = true → aligned →
        storeRows c base (32 * k.rowBlocks) (fun r => cellsOf (base r) 32 ((List.range k.rowBlocks).map fun j => v.scale r j +
            ((List.range bl).map fun q => if j * bl + q < k.cols then v.raw r (j * bl + q) else 0).foldr
              (fun y acc => acc * 2 ^ w + y) 0 * 256)) (u.rowsFrom k.rows) u = (none, t) →
        Ends (.tst c d a b) s st (t.outToPost c) [] none)) ∧
    (Begins (.tlda c dbl e a b) s st ds u → fits dbl →
      loadRows base (n * ab) n (fun va q => ⟨va + BitVec.ofNat 64 (q * ab), ab, 0, 8 * ab⟩) (u.rowsFrom u.shapeM) u = (rows, none, t) →
      Ends (.tlda c dbl e a b) s st (t.putAcc e dbl (rows.flatMap fun r => r.got.map fun g => (r.row, g.1, leNat g.2.bytes))) [] none) ∧
    (Begins (.tsta c dbl e a b) s st ds u → fits dbl →
      storeRows c base (n * ab) (fun r => cellsOf (base r) ab ((List.range n).map (u.viewAcc e dbl r))) (u.rowsFrom u.shapeM) u = (none, t) →
      Ends (.tsta c dbl e a b) s st (t.outToPost c) [] none) ∧
    (Begins (.tcvt c d e) s st ds u → fits (k.ty == .f64) → k.rows ≤ u.shapeM → k.cols ≤ n →
      let draws := u.takeDraws (if c.rm == .rsr then k.rows * k.cols else 0)
      let row (r : Nat) : RowData × Fl :=
        cvtRow k c.rm r (u.viewAcc e (k.ty == .f64) r) fun q => draws.1.toArray.getD (r * k.cols + q) 0
      ∃ chk, Ends (.tcvt c d e) s st (draws.2.putRows d ((u.rowsFrom k.rows).map fun r => (row r).1))
        (raises ((u.rowsFrom k.rows).map fun r => (r, (row r).2))) chk)

/-- R254 to R268: the products. Each accumulator element from row VSTART on adds its products in order, with the roundings of R255, to what it
held or to zero; a sparse product takes the kept elements, a grouped one the tile and the tokens of each group. `tbload` makes a
board of three tile registers; `tbeval` writes the leaf that each sample reaches in each tree (the lowest that every cell's mask
leaves live, 255 where none is); `tleaf` adds the leaves' values of a sample, tree by tree. -/
def Obligations.TileProductsAndBoards : Prop :=
  ∀ (s u : State) (c : Common) (z den bt : Bool) (col : BitVec 8) (gc : Fin 8) (d : Fin 4) (a b e : Fin 16) (x : Fin 32) (st : Strips) (ds : List Nat),
    let ka := u.cfg a
    let kb := u.cfg b
    let ke := u.cfg e
    let va := u.viewTile a
    let vb := u.viewTile b
    let cls := matClass ka.ty
    let fits (m n kk : Nat) : Prop :=
      u.shapeFits (cls == 4) = true ∧ m ≤ u.shapeM ∧ n ≤ u.shapeN ∧ kk ≤ u.shapeK
    let product (i : Instr) (m n kk : Nat) (f : Nat → Nat → Nat → Term) (own : Nat → Fl) : Prop :=
      Begins i s st ds u → fits m n kk →
      let draws := u.takeDraws (if c.rm == .rsr then m * n * mmDraws cls kk else 0)
      let r := mmRows c z d cls kk draws.1 ((draws.2.rowsFrom m).map fun r => ⟨r, n, r * n * mmDraws cls kk, f r, own r⟩) draws.2
      ∃ chk, Ends i s st r.1 r.2 chk
    (sameClass ka.ty kb.ty = true → ka.cols = kb.cols → product (.tmma c z d a b) ka.rows kb.rows ka.cols
      (fun m n k => (Term.of (va.at m k)).mul (.of (vb.at n k))) fun _ => 0) ∧
    (sameClass ka.ty kb.ty = true → kb.rows = 1 → ka.cols ≤ kb.cols →
      product (.tmmas c z d a b) ka.rows (kb.cols - ka.cols + 1) ka.cols
        (fun m n k => (Term.of (va.at m k)).mul (.of (vb.at 0 (n + k)))) fun _ => 0) ∧
    (let kap := if den then 32 else 64
     let kept (m : Nat) := keptAt (u.viewTile e) m kap (kb.cols / 128)
     sameClass ka.ty kb.ty = true → cls ≤ 2 → ke.ty = .n8 → kb.cols % 128 = 0 → ka.cols = kb.cols * kap / 128 → ke.rows = ka.rows →
      ke.cols = kb.cols / 8 → Begins (.tspmm c z den d a b e) s st ds u → fits ka.rows kb.rows kb.cols →
      ∃ rows fl chk, rows.map (·.row) = u.rowsFrom ka.rows ∧
        (∀ r ∈ rows, r.cols = kb.rows ∧ r.first = r.row * kb.rows * mmDraws cls kb.cols ∧
          (∀ p ∈ (kept r.row).1, ∀ n, r.product n p.1 = (Term.of (va.at r.row p.2)).mul (.of (vb.at n p.1))) ∧
          (∀ k, k ∉ (kept r.row).1.map (·.1) → ∀ n, r.product n k = .of .zero) ∧
          r.own = if (kept r.row).2 then flNV else 0) ∧
        Ends (.tspmm c z den d a b e) s st
          (mmRows c z d cls kb.cols (u.takeDraws (if c.rm == .rsr then ka.rows * kb.rows * mmDraws cls kb.cols else 0)).1 rows
            (u.takeDraws (if c.rm == .rsr then ka.rows * kb.rows * mmDraws cls kb.cols else 0)).2).1 fl chk) ∧
    (let g := gc.val + 1
     let cfg (j : Nat) := u.cfg (tileAt b j)
     let sizes := (List.range g).map fun j => bitsAt (st.view.read u x 1) (16 * j) 16
     let ne := mmDraws cls ka.cols
     let firsts := (groupRows sizes).foldl (fun (acc : List Nat × Nat) y => (acc.1 ++ [acc.2], acc.2 + y.2.2 * (cfg y.1).rows * ne)) ([], 0)
     let draws := u.takeDraws (if c.rm == .rsr then firsts.2 else 0)
     let one (t : State) (y : Nat × Nat × Nat) : State :=
       if y.2.2 = 0 ∨ y.2.1 < u.vstart then t
       else
         let r := (mmRows c z d cls ka.cols draws.1 ((List.range y.2.2).map fun r => ⟨y.2.1 + r, (cfg y.1).rows,
           firsts.1.getD y.1 0 + r * (cfg y.1).rows * ne,
           fun n k => (Term.of (va.at (y.2.1 + r) k)).mul (.of ((t.viewTile (tileAt b y.1)).at n k)), 0⟩) t).1
         (r.setVstart (y.2.1 + y.2.2)).postOwed c (groupTokens sizes y.1)
     Begins (.tgmm c z gc d a b x) s st ds u → fits ka.rows 0 ka.cols → sizes.foldl (· + ·) 0 ≤ ka.rows →
     (∀ j < g, sameClass ka.ty (cfg j).ty = true ∧ (cfg j).cols = ka.cols ∧ (cfg j).rows ≤ u.shapeN) →
     u.cur.owedPosts = 0 → (∀ k, c.post = some k → (u.cur.k[k]).toNat + g ≤ 63) →
      let r := (groupRows sizes).foldl one (draws.2.postOwed c 0)
      ∃ fl chk, Ends (.tgmm c z gc d a b x) s st (if sizes.foldl (· + ·) 0 = 0 then r.postOwed c g else r) fl chk) ∧
    (Begins (.tbload c bt a) s st ds u → (∀ k < 3, (u.cfg (tileAt a k)).bytes = 65536) →
      let x : Board := ⟨bt, (u.tile (tileAt a 0)).elems, (u.tile (tileAt a 1)).elems, (u.tile (tileAt a 2)).elems⟩
      Ends (.tbload c bt a) s st (u.modTile fun r => { r with board := some x }) [] none) ∧
    (∀ x, Begins (.tbeval c e a) s st ds u → u.cur.tile.board = some x → ka.ty = (if x.s16 then .s16 else .bf16) → ka.rows ≤ 128 →
      ke = ⟨.n8, ka.rows, 128⟩ →
      let feature (r f : Nat) : Option Nat := if f < ka.cols then some ((u.viewTile a).raw r f) else none
      let out : List RowData := (u.rowsFrom ka.rows).map fun r => ⟨r, (List.range 128).map (leafOf x.cells x.s16 (feature r)), []⟩
      ∃ w chk, Ends (.tbeval c e a) s st w [] chk ∧ w.cur.tile = (u.putRows e out).cur.tile ∧ w.cur.vec = u.cur.vec ∧
        w.cur.ctl = u.cur.ctl ∧ w.mem = u.mem) ∧
    (Begins (.tleaf c z col d a b) s st ds u → u.cur.ctl.tvalid = true → ka.ty = .n8 → (kb.ty = .f32 ∨ kb.ty = .f16 ∨ kb.ty = .bf16) →
      ka.cols = 128 → ka.rows ≤ u.shapeM → col.toNat < u.shapeN → kb.rows = 128 → kb.cols = 96 →
      let draws := u.takeDraws (if c.rm == .rsr then ka.rows * 128 else 0)
      let add (r : Nat) (acc n : Nat) : Nat :=
        let l := (u.viewTile a).raw r n
        (writeFloat .f32 c.rm false (fAdd c.rm (readTy .f32 acc) (if l < 96 then (u.viewTile b).at n l else .nan false)).1
          (draws.1.toArray.getD (r * 128 + n) 0)).1
      ∃ fl chk, Ends (.tleaf c z col d a b) s st (draws.2.putAcc d false ((u.rowsFrom ka.rows).map fun r =>
        (r, col.toNat, (List.range 128).foldl (add r) (if z then 0 else u.viewAcc d false r col.toNat)))) fl chk)

/-! ## Events -/

/-- R33, R105, R310 to R316, R333, R371, R420 to R429: what the scheduler does to the context in focus. A wait ends when what it waits for
is there; a stalled stream takes cause 11; tenure and the array pass on; a context is adjourned, moved, or told to migrate, and a record
resumes; a grant decision executes the `vstrip` that waits. A record's header gives its version, VLENB, the instructions in flight, its
size, PC and VL at their offsets, and G0 to G31 follow it. -/
def Obligations.SchedulerEvents : Prop :=
  ∀ (s : State) (c : CoreId) (st : Stream), s.cur.live = true →
    let l := s.cur.loc
    let ep : State := { s with stream := .ep }
    let on : State := { s with stream := st }
    let x := s.cur.str st
    (∀ k, x.wait = some (.token k) → st ∈ s.cur.korder[k] →
      ((s.cur.korder[k]).takeWhile (· != st)).length < (s.cur.k[k]).toNat →
      exec (.tokenGrant l st) s = .next { ((on.setStr { x with granted := true, wait := none }).forget.observe
        (s.cur.brings (32 + k.val) ((s.cur.korder[k]).takeWhile (· != st)).length)) with stream := s.stream }) ∧
    (∀ q, x.wait = some (.queue q) → on.queueReady st (Fin.ofNat 32 q) = true →
      exec (.queueWaitEnd l st) s = .next { s with cur := s.cur.setStr st { x with wait := none } }) ∧
    (∀ w, x.wait = some w → on.runnable = true → s.cur.ctl.sys = false → s.cur.clock ≠ 0 → s.cur.flights = [] → on.requestFirst = false →
      exec (.flagFall l st) s = .next
        { takeTrap ((on.longAt.elim on on.dropBoard).bump.bump) x.pc ⟨causeFlagFall, on.stallEval w, on.stallInfo w⟩ with
          stream := s.stream }) ∧
    (∀ k w i, s.cur.migrate = some k → s.cur.work = some w → s.cur.tenure = true → ep.stripAt = some i → decodeTrap i ep = none →
      ep.runnable = true → w.fold ≠ 0 → s.cur.handler = none → s.cur.flights = [] → ∃ t, exec (.migrationRequest l) s = .next t ∧ t.cur.ep.pc = w.fold &&& ~~~3 ∧ t.cur.ctl.epc = s.cur.ep.pc ∧
        t.cur.ctl.eval = BitVec.ofNat 64 (vlen k.ncore / 8) ∧ t.cur.ctl.sys = true ∧ t.cur.handler = some .ep ∧
        t.cur.ctl.ecause.toNat % 2 ^ 14 = causeMigration ∧ t.cur.vec = s.cur.vec ∧ t.cur.ep.g = s.cur.ep.g ∧ t.mem = s.mem) ∧
    (∀ k r place, s.saved[k]? = some r → s.slotFree place = true → s.fits r place.coreId = true →
      ∃ t v, exec (.resume k place) s = .next t ∧ v ∈ t.cur :: t.parked ∧ v.loc = place ∧ v.ep.g = r.vlc.ep.g ∧ v.ep.pc = r.vlc.ep.pc ∧
        v.h = r.vlc.h ∧ v.vec.p = r.vlc.vec.p ∧ v.vec.f = r.vlc.vec.f ∧ v.tile = r.vlc.tile ∧
        (8 * r.vlenb = vlen place.coreId.ncore → v.vec = r.vlc.vec ∧ v.ctl = r.vlc.ctl) ∧ t.saved = s.saved.filter (·.id != r.id)) ∧
    (s.cur.tenure = true → ep.mayAdjourn = true → ep.requestFirst = false →
      let all := s.onCore s.coreId
      let asking := s.core.tenureQueue.filterMap (ep.waiter s.coreId)
      let since (v : Vlc) : Nat := s.core.holders.idxOf v.loc
      (s.cur.longWait = true ∧ asking ≠ []) ∨ ((∀ v ∈ all, v.tenure = true →
          s.prioOf s.cur < s.prioOf v ∨ s.prioOf v = s.prioOf s.cur ∧ since v ≤ since s.cur) ∧
        ∃ v ∈ asking, s.prioOf s.cur < s.prioOf v) →
      ∃ t r, exec (.schedulerAdjourn l) s = .next t ∧ t.cur.live = false ∧ t.saved = s.saved ++ [r] ∧ r.vlc.vec = s.cur.vec ∧
        r.vlc.ctl = s.cur.ctl ∧ r.vlc.ep.pc = s.cur.ep.pc ∧ r.vlc.ap.pc = s.cur.ap.pc ∧ r.target = none) ∧
    (∀ r : Saved,
      let b := r.record s
      b.take 2 = [1, 0] ∧ (b.drop 4).take 2 = leBytes 2 r.vlenb ∧ (b.drop 6).take 2 = leBytes 2 r.inFlight.length ∧
        (b.drop 8).take 4 = leBytes 4 b.length ∧ (r.vlc.inFlight = [] → (b.drop 0x10).take 8 = leBytes 8 r.vlc.ep.pc.toNat) ∧
        (b.drop 0x18).take 8 = leBytes 8 r.vlc.ctl.vl.toNat ∧
        (b.drop 64).take 256 = r.vlc.ep.g.toList.flatMap fun x => leBytes 8 x.toNat) ∧
    (∀ w place, s.cur.work = some w → ep.mayAdjourn = true →
      let out := !(s.queueAt w.queue).qcmask.getLsbD l.core.val
      (out || s.core.tenureQueue.contains (.vlc l)) = true → ep.moveTarget s.cur w (!out) = some place →
      let narrows := s.cur.tenure && place.coreId.ncore && !s.ncore
      (narrows = true → w.fold ≠ 0 →
        exec (.contextMove l) s = .next { s with cur := { s.cur with migrate := some place.coreId } }) ∧
      (narrows = false → ∃ t v, exec (.contextMove l) s = .next t ∧
        ((t.cur = v ∧ v.loc = place ∧ v.live = true) ∨ (s.cur.tenure = true ∧ t.cur.live = false ∧ ∃ r, t.saved = s.saved ++ [r] ∧ r.vlc = v)) ∧
        v.ep.pc = s.cur.ep.pc ∧ v.ep.g = s.cur.ep.g ∧ v.h = s.cur.h ∧ v.vec.f = s.cur.vec.f ∧ v.vec.p = s.cur.vec.p ∧
        v.tile.t = s.cur.tile.t ∧ v.tile.acc = s.cur.tile.acc)) ∧
    (s.firstAsker c s.cores[c.index].tenureQueue = some (.vlc l) → s.tenured c < tenureLimit c →
      ∃ t, exec (.vectorTenureGrant c) s = .next t ∧ t.cur.tenure = true ∧
        t.cores[c.index].tenureQueue = s.cores[c.index].tenureQueue.filter (· != .vlc l) ∧
        t.cores[c.index].holders = s.cores[c.index].holders.filter (· != l) ++ [l] ∧
        (s.cur.ep.wait = some .tenure → t.cur.ep.wait = none) ∧ t.cur.vec = s.cur.vec ∧ t.cur.ep.pc = s.cur.ep.pc) ∧
    (s.ncore = false → s.core.tileOwner ≠ some l → s.cur.ep.wait = some .unit → s.cur.ctl.tm = true →
      ∃ t, exec (.tileStateExchange l) s = .next t ∧ t.core.tileOwner = some l ∧ t.cur = { s.cur with ep := { s.cur.ep with wait := none } } ∧
        t.parked = s.parked) ∧
    (∀ q r i, s.cores[c.index].arb.head (fun y => s.queues[y.index].prio.toNat) = some q →
      s.cores[c.index].arb.waiting.find? (·.queue == q) = some r → r.loc = l → ep.runnable = true → ep.stripAt = some i →
      ∃ u, exec i ep = .next u ∧ exec (.grantDecision c) s = .next { u with stream := s.stream }) ∧
    (∀ asid val, s.cur.ctl.sys = true → s.tablesBusy (if asid then 0x081 else 0x080) = false → exec (.atpAsidWrite l asid val) s =
      .next { cregWrite ep (if asid then 0x081 else 0x080) val with stream := s.stream })

/-- R300 to R309, R334, R340, R385, R404, R405, R440, R453, R454: launches, admission, the creation of a context and the end of a task;
and writes of registers: what each leaves in the register that it names. -/
def Obligations.TaskAndRegisterEvents : Prop :=
  ∀ (s u : State) (q : QueueId) (task : Nat) (c : CoreId) (die : Fin 4) (data : List Byte) (val : Word),
    let tq := s.queueAt q
    (s.host.up = true → data.length = 64 → tq.en = true → tq.fifo.length < 32 →
      exec (.launch q 0 data) s = .next (s.modQueue q fun x => { x with fifo := x.fifo ++ [recordOf data] })) ∧
    (s.host.up = true → ∀ off < 64, off ≠ 0 ∨ data.length ≠ 64 ∨ tq.en = false ∨ 32 ≤ tq.fifo.length →
      exec (.launch q off data) s = .next (s.modQueue q fun x => { x with dropped := x.dropped + 1 })) ∧
    (∀ r rest, tq.en = true → tq.fifo = r :: rest →
      let t := s.modQueue q fun x => { x with fifo := rest }
      (∀ k chain, t.checkLaunch q r = (.ok (k, chain), u) →
        ∃ v n, exec (.admission q) s = .next v ∧ v.tasks = u.tasks ++ [n] ∧ n.id = u.nextTask ∧ n.queue = q ∧ n.running = 0 ∧
          n.pending = u.deal q u.nextTask r k chain ∧ v.nextTask = u.nextTask + 1 ∧ v.queues = u.queues) ∧
      (t.checkLaunch q r = (.error 0, u) → exec (.admission q) s = .next s) ∧
      ∀ n, n ≠ 0 → t.checkLaunch q r = (.error n, u) →
        ∃ v, exec (.admission q) s = .next v ∧ v.tasks = u.tasks ∧ v.queueAt q = { u.queueAt q with refusedCnt := (u.queueAt q).refusedCnt + 1 }) ∧
    (∀ t l k w x rest, s.tasks.find? (·.id == task) = some t →
      t.pending.find? (fun p => s.placeFor p.1 p.2 == some l.coreId) = some (k, w) → w.todo = x :: rest →
      s.slotFree l = true → (∀ v ∈ s.onCore l.coreId, ∀ y, v.work = some y → y.task ≠ task) →
      ∃ n v, exec (.vlcCreate task l) s = .next n ∧ v ∈ n.cur :: n.parked ∧ v.live = true ∧ v.loc = l ∧ v.ep.pc = w.entry &&& ~~~3 ∧
        v.ep.run = .running ∧ v.ctl = Ctl.reset l.coreId.ncore w.qatp w.qasid w.qtvec ∧ v.work = some { w with current := x, todo := rest }) ∧
    (∀ t, s.tasks.find? (·.id == task) = some t → t.pending = [] → t.running = 0 → s.drainAll.settled task = true → t.counted = true →
      t.note.getLsbD 0 = false → ∃ n, exec (.taskComplete task) s = .next n ∧ n.tasks = s.tasks.filter (·.id != task) ∧
        (n.queueAt t.queue).done = (s.queueAt t.queue).done + 1 ∧ n.mem = s.drainAll.mem) ∧
    (s.sidebandUp 2 = true → ∃ t, exec (.qctlWrite q val) s = .next t ∧ t.queueAt q = { tq with
      en := val.getLsbD 16, prio := val.extractLsb' 0 3,
      weight := if val.extractLsb' 8 8 = 0#8 then 1 else val.extractLsb' 8 8 } ∧ t.tasks = s.tasks) ∧
    (s.sidebandUp 2 = true → exec (.qcmaskWrite q val) s = .next (s.modQueue q fun x => { x with qcmask := val.setWidth 12 })) ∧
    (∀ bar off, s.barUp bar = true → exec (.registerWrite bar off val) s = .next (s.writeReg bar off val)) ∧
    (let trip := min 110 (max 90 (val.toNat / 256 % 256))
     (s.mgmt.hot.toNat < trip → (s.writeReg 0 0x028 val) = { s with mgmt := { s.mgmt with trip := BitVec.ofNat 8 trip } }) ∧
     (trip ≤ s.mgmt.hot.toNat → (s.writeReg 0 0x028 val).powered = false)) ∧
    (s.writeReg 0 0x030 val).mgmt.evstat = s.mgmt.evstat &&& ~~~(val.setWidth 7) ∧
    (s.writeReg 0 0x018 val).mgmt.pwrcap.toNat = min 3200 (max 800 (val.toNat % 65536)) ∧
    (s.writeReg 4 0x008 val).fabric.fgtbase = val &&& 0x3FFFFFFFE0001 ∧
    (s.sidebandUp 0 = true → (s.dies[die]).visitors = [] → ∃ t, exec (.vpoolWrite die val) s = .next t ∧ (t.dies[die]).poolCount = val.extractLsb' 48 16 ∧
      (t.dies[die]).poolBase = val.setWidth 34) ∧
    (s.sidebandUp 0 = true → exec (.tlbInvalidate val) s = .next { s with mgmt := { s.mgmt with
      tinvAsid := val.setWidth 16
      tinvGo := if s.mgmt.tinvGo = none ∧ val.getLsbD 16 = true then some (val.setWidth 16, s.mgmt.tinvva, s.mgmt.tinvlen)
        else s.mgmt.tinvGo } }) ∧
    (∀ asid va len, s.mgmt.tinvGo = some (asid, va, len) → (∀ e ∈ s.pend, e.strip = false) → (∀ m ∈ s.moves, m.held = []) →
      (∀ v ∈ s.cur :: s.parked, v.flights = []) → ∃ t, exec .tlbInvalidateDone s = .next t ∧ t.mgmt = { s.mgmt with tinvGo := none } ∧ (∀ e ∈ t.pend, e.level = 4) ∧
        (∀ k : Fin 48, ∀ e ∈ (t.cores[k]).tlb, invalidates asid va len e = false) ∧
        (∀ d : Fin 4, ∀ e ∈ (t.dies[d]).tlb, invalidates asid va len e = false) ∧ t.mem = s.mem) ∧
    (∃ t, exec (.lmclr c) s = .next t ∧ t.cores[c.index].cnt = { s.cores[c.index].cnt with lquar := 0, lmis := .replicate 64 0 }) ∧
    (s.powered = true → s.mgmt.err = false →
      ((∀ k : Fin 16, (s.fabric.ports[k]).up = false) → ∃ t, exec (.fendpWrite val) s = .next t ∧ t.fabric = { s.fabric with
        fendp := val.setWidth 13
        ports := if s.mgmt.stage = 7 then s.fabric.ports.map fun p => { p with train := true } else s.fabric.ports }) ∧
      ((∃ k : Fin 16, (s.fabric.ports[k]).up = true) → exec (.fendpWrite val) s = .next s))

/-- R201, R285 to R290, R402, R411, R461: the engines take the commands of a context in push order. A COPY or GATHER moves its bytes or
rows into the store buffers of its level and owes its tokens and completion record; a record that fails its checks moves nothing and owes
BADCMD; tokens and records reach the context one by one. -/
def Obligations.EngineEvents : Prop :=
  ∀ (s : State) (l : Loc) (q : Fin 32) (v : Fin 32) (c : Command),
    let r := c.record
    (s.nextCommand l 16 = some c → r.opc = 1 → r.tdst = false → r.zeroOutside [(8, 16), (32, 4)] = true →
      let n := r.field 32 4
      ∀ gs gd t u got w, s.cmdPrefix c .read (BitVec.ofNat 64 (r.field 8 8)) n = (gs, none, t) →
        t.cmdPrefix c .write (BitVec.ofNat 64 (r.field 16 8)) n = (gd, none, u) → gs.length = n → gd.length = n →
        u.engineRead c.vlc 2 gs = (got, w) → got.held = false → w.badLines ⟨c.vlc, none, 2⟩ gs gd = [] →
        exec (.copy l) s = .next ((w.engineWrite c.vlc 2 (mbytes gd got.bytes) []).bump.finishCommand c (owes r 1 0 n 0))) ∧
    (s.nextCommand l 16 = some c → r.opc ≠ 1 → r.opc ≠ 2 → exec (.copy l) s = .next (s.finishCommand c (owes r 0 3 0 0))) ∧
    (s.nextCommand l 16 = some c → r.opc = 2 → r.tdst = false → r.zeroOutside [(8, 43)] = true → r.field 50 1 ≤ 3 →
      ∀ t, s.gatherRows c (fun _ => none) true (r.field 32 4) = (⟨none, false, false⟩, t) →
        ∃ n, exec (.gather l) s = .next (t.finishCommand c (owes r n 0 (r.field 32 4) 0))) ∧
    (∀ k rest, c ∈ s.commands → c.vlc = l → c.queue = q → c.started = true → c.owed = .token k :: rest → c.saved = none →
      (∀ d ∈ s.commands, d.vlc = l → d.queue = q → d = c) → s.cur.live = true → s.cur.loc = l → s.cur.ep.run ≠ .ended →
      s.cur.k[k] ≠ 63 →
      ∃ t, exec (.engineTokenPost l q) s = .next t ∧ t.cur.k = s.cur.k.set k (s.cur.k[k] + 1) ∧ t.cur.vec = s.cur.vec ∧ t.mem = s.mem) ∧
    (∀ x rest, c ∈ s.commands → c.vlc = l → c.queue = 16 → c.started = true → c.owed = .record x :: rest → c.saved = none →
      (∀ d ∈ s.commands, d.vlc = l → d.queue = 16 → d = c) → s.cur.live = true → s.cur.loc = l → s.cur.ep.run ≠ .ended →
      s.cur.q.q17.length < 8 →
      ∃ t, exec (.engineCompletion l 16) s = .next t ∧ t.cur.q.q17 = s.cur.q.q17 ++ [x] ∧ t.cur.vec = s.cur.vec ∧ t.mem = s.mem) ∧
    (∀ g, s.nextCommand l 18 = some c → s.collectives < 64 → r.collOk = true → c.group = some g → g.member = true →
      let grp := r.field 32 2
      let k := (s.fabric.collSeq.find? (·.1.toNat == grp)).elim 0 (·.2.toNat)
      let numbered : State := { s with fabric := { s.fabric with
        collSeq := (BitVec.ofNat 13 grp, BitVec.ofNat 32 (k + 1)) :: s.fabric.collSeq.filter (·.1.toNat != grp) } }
      let met := (s.fabric.collIn.filter fun p => p.dst.toNat == grp && p.oseq.toNat == k).foldl (fun y p => y.respond p 0 []) numbered
      let told := if g.list.all (· == met.here) then met else met.sendRequest hubDie (met.collPacket grp k r)
      let begun (t : State) (bad : Bool) : State := ({ t with
        commands := replaceCommand t.commands c (some { c with started := true, dst := k, bad := bad }) } : State).settleAll
      (r.opc = 0x11 → exec (.redscatter l) s = .next (begun told false)) ∧
      ∀ t bad, r.opc = 0x10 → told.sendBlock c g = (.ok bad, t) → exec (.allgather l) s = .next (begun t bad)) ∧
    (s.nextCommand l 18 = some c → s.collectives < 64 → r.collOk = true → c.group = none →
      let ended := s.finishCommand c (owes r 0 2 0 (BitVec.ofNat 64 (r.field 8 8)))
      (r.opc = 0x10 → exec (.allgather l) s = .next ended) ∧ (r.opc = 0x11 → exec (.redscatter l) s = .next ended)) ∧
    (∀ g, s.commands.find? (fun d => d.vlc == l && d.queue == 18 && d.started && d.owed.isEmpty) = some c → r.opc = 0x10 →
      c.group = some g →
      let grp := r.field 32 2
      s.collNext grp = some c → s.blockHeld grp = false → s.blocksAnswered grp = true →
      (∀ m ∈ g.list, m ≠ s.here → ∃ h, s.headerOf c (BitVec.ofNat 13 m) = some h ∧ h.collKey = r.collKey ∧
        blockBytes h ≤ c.gotOf (BitVec.ofNat 13 m)) →
      exec (.collectiveComplete l) s = .next (({ s with fabric := { s.fabric with
        collIn := s.fabric.collIn.filter fun p => !(p.dst.toNat == grp && p.oseq.toNat == c.dst) } } : State).finishCommand c
          (owes r 1 (if c.bad then 5 else 0) g.list.length 0)).settleAll) ∧
    (s.nextCommand l 20 = some c → r.unitOk = true → r.opc = 0x20 →
      let b := (s.ownerOfCommand c).bind fun y => y.binds.find? (·.1.val == r.field 16 1)
      exec (.status l) s = .next (s.endUnit c (some
        (leBytes 8 (b.elim 0 (·.2.waited.toNat)) ++ leBytes 8 (b.elim 0 (·.2.strips.toNat)))))) ∧
    (s.nextCommand l 20 = some c → r.unitOk = false → exec (.status l) s = .next (s.endUnit c (some (List.replicate 16 0xFF)))) ∧
    (s.nextCommand l 20 = some c → r.unitOk = true → r.opc = 0x21 → exec (.clear l) s = .next ((s.modOwner c fun y =>
      { y with binds := y.binds.map fun b => if b.1.val == r.field 16 1 then (b.1, { b.2 with waited := 0, strips := 0 }) else b }
      ).endUnit c none)) ∧
    (s.cur.live = true → s.cur.loc = l → ∀ b, s.cur.binds = [(v, b)] →
      ∃ t pre, exec (.streamPrefetch l v) s = .next t ∧ t.cur.binds = [(v, { b with pre := pre, ready := b.desc.kind == 2 })] ∧ t.cur.vec = s.cur.vec ∧
        t.pend = s.pend)

/-- R291, R296, R297, R341 to R349, R352 to R356, R423, R424, R445, R446: `pgmove` refused answers at once, and begun waits for its
answer; `pgstat` answers where the frame's home does; `adjourn` makes a record of the context. The transfer event gives a frame its new
owner and answers who asked; the coordinator's commands, stubs, hot frames, retirement and errors found in memory. -/
def Obligations.MovesAndMemoryHealth : Prop :=
  ∀ (s : State) (d a b : Fin 32) (l : Loc) (c : Command) (die : Fin 4) (frame line : Nat),
    let h := frameNamed (s.gread a)
    let me : Asker := .pgmove s.cur.loc .ep d
    let own := s.awake.takeMove h (bitsAt (s.gread b).toNat 0 13) me
    let ask := own.requestMove h (bitsAt (s.gread b).toNat 0 13) me
    let r := c.record
    let next := s.nextCommand l 21 = some c
    let good (opc : Nat) : Prop := next ∧ r.migrationOk = true ∧ r.opc = opc
    (s.stream = .ep → s.cur.ctl.sys = true → own.moves.any (·.asker == me) = false → own.coord.waiting.any (·.asker == me) = false →
      (∀ k t, ask = .refused k t → t.str.wait = none →
        Completes (.pgmove d a b) s (t.gwrite d (BitVec.ofNat 64 (moveAnswer k (t.ownerOf h)))) []) ∧
      (∀ t, ask = .begun t ∨ ask = .waits t → exec (.pgmove d a b) s = .next (t.waitIn (.pgmove d a b) .unit))) ∧
    (s.stream = .ep → s.cur.ctl.sys = true → s.answers (h / 2 ^ 34) = true →
      ∃ x, Completes (.pgstat d a) s (s.awake.gwrite d (BitVec.ofNat 64 x)) [] ∧
        x / 2 ^ 8 % 2 ^ 13 = s.ownerOf h % 2 ^ 13 ∧ x % 2 ^ 8 ≤ 5) ∧
    (s.mayAdjourn = true → ∃ t x, exec .adjourn s = .next t ∧ t.cur.live = false ∧ t.saved = s.saved ++ [x] ∧
      (x.vlc.str s.stream).pc = s.pc + 4 ∧ (∀ y, y ≠ s.stream → (x.vlc.str y).pc = (s.cur.str y).pc) ∧
      (∀ y, (x.vlc.str y).g = (s.cur.str y).g) ∧ x.vlc.h = s.cur.h ∧ x.vlc.vec = s.cur.vec ∧
      x.vlc.tile.t = s.cur.tile.t ∧ x.vlc.tile.acc = s.cur.tile.acc ∧ x.vlc.ctl = s.cur.ctl ∧ x.vlc.s = s.cur.s ∧ x.vlc.q = s.cur.q ∧ x.vlc.k = s.cur.k ∧
      x.vlenb = vlen s.ncore / 8) ∧
    (∀ m, s.moves.find? (·.frame == frame) = some m → m.held = [] → s.coord.due = [] → s.coord.waiting = [] →
      s.coord.invs = [] → (∀ x ∈ s.cores.toList, x.injb.getLsbD 0 = false) → ∃ t, exec (.transferEvent frame) s = .next t ∧ t.ownerOf frame = m.dst.toNat ∧ t.moves = s.moves.filter (·.frame != frame) ∧
        t.mem = s.mem ∧ ∀ st k, m.asker = .pgmove s.cur.loc st k → s.cur.live = true → (s.cur.str st).wait = some .unit →
          (t.cur.str st).pc = (s.cur.str st).pc + 4 ∧ (k ≠ 0 → (t.cur.str st).g[k] = BitVec.ofNat 64 (moveAnswer 0 m.dst.toNat))) ∧
    (next → r.migrationOk = false → exec (.move l) s = .next (s.endMigration c 7 0)) ∧
    (good 0x30 →
      let f := frameNamed (BitVec.ofNat 64 (r.field 8 8))
      (∀ k t, s.requestMove f (r.field 16 2 % 2 ^ 13) (.record c.dst) = .refused k t →
        exec (.move l) s = .next (t.endMigration c k (t.ownerOf f))) ∧
      ∀ t, s.requestMove f (r.field 16 2 % 2 ^ 13) (.record c.dst) = .begun t ∨
          s.requestMove f (r.field 16 2 % 2 ^ 13) (.record c.dst) = .waits t → exec (.move l) s =
        .next { t with commands := replaceCommand t.commands c (some { c with started := true }) }) ∧
    (good 0x31 →
      let f := r.field 8 8 / 2 ^ 16
      regionOf (f * 2 ^ 16) = .dram die → s.moving f = false → (∀ e ∈ s.flash.badFrames, badFrame e ≠ f) → s.flash.badFrames.length < 1024 →
      ∃ t x, exec (.retire l) s = .next t ∧ t.flash.badFrames = s.flash.badFrames ++ [x] ∧ badFrame x = f ∧
        (t.dies[die]).retired = (s.dies[die]).retired + 1) ∧
    (good 0x32 → exec (.ceThreshold l) s = .next
      (({ s with coord := { s.coord with threshold := BitVec.ofNat 32 (r.field 8 4) } } : State).endMigration c 0 s.here)) ∧
    (good 0x33 → exec (.stubmin l) s = .next
      (({ s with coord := { s.coord with stubmin := BitVec.ofNat 32 (max 100 (r.field 8 4)) } } : State).endMigration c 0 s.here)) ∧
    (good 0x34 → exec (.hotFrameMigration l) s = .next
      (({ s with coord := { s.coord with auto := r.field 8 1 == 1 } } : State).endMigration c 0 s.here)) ∧
    (∀ x, s.stubOf die frame = some x →
      let asked := (if x.everyone then (s.fabric.known ++ s.fabric.answering).eraseDups else x.sharers).filter (· != s.fabric.fendp)
      let begun := (s.modStub die frame fun y => { y with reclaiming := true, sharers := asked, replies := [] }).dropOwner frame s.fabric.fendp
      (x.reclaiming = false → ∃ t, exec (.stubReclaim die frame) s = .next t ∧
        t.stubOf die frame = some { x with reclaiming := true, sharers := asked, replies := [] } ∧
        t = asked.foldl (fun y e => y.sendRequest die (begun.owninvPacket frame e)) begun ∧ t.mem = s.mem) ∧
      (x.reclaiming = true → (∀ e ∈ x.sharers, e ∈ x.replies) →
        let o := s.ownerOf frame
        let freed : State := { s with frames := (s.frames.map fun y =>
          if y.frame == frame then { y with stubs := y.stubs.filter (· != x) } else y).filter FrameRec.kept }
        exec (.stubFree die frame) s = .next (if o = s.here then freed else freed.sendRequest die (freed.migratePacket frame o 3 []))) ∧
      (x.reclaiming = true → ∃ t, exec (.owninvRetry die frame) s = .next t ∧ t.frames = s.frames ∧ t.mem = s.mem ∧
        t.fabric.outbox = s.fabric.outbox ++ s.fabric.send.flatMap fun p => (p.unanswered.filter fun u => u.packet.kind == 0x21 &&
          u.packet.home.toNat * 2 ^ 34 + u.packet.addr.toNat / 2 ^ 16 == frame).map (·.packet))) ∧
    (s.coord.auto = true → ∃ t, exec .hotFrameWindow s = .next t ∧ t.coord.samples = [] ∧ t.cur = s.cur) ∧
    (s.coord.auto = false → exec .hotFrameWindow s = .next s) ∧
    (∀ dram, localDie (line * 64) = some (die, dram) →
      let was := s.dies[die]
      (∀ i ∈ [Instr.eccCorrectedRead line, .scrubRead line .correctable], ∃ t, exec i s = .next t ∧
        (t.dies[die]).dramce = was.dramce + (if dram then 1 else 0) ∧ (t.dies[die]).comce = was.comce + (if dram then 0 else 1)) ∧
      (∃ t, exec (.scrubRead line .uncorrectable) s = .next t ∧
        (t.dies[die]).dramue = was.dramue + (if dram then 1 else 0) ∧ (t.dies[die]).comue = was.comue + (if dram then 0 else 1) ∧
        (dram = false → gaLine (s.gaOf (line * 64)) ∈ t.poison))) ∧
    (2 ^ 44 ≤ line → ∃ t, exec (.eccCorrectedRead line) s = .next t ∧
      (t.dies[Fin.ofNat 4 line]).comce = (s.dies[Fin.ofNat 4 line]).comce + 1 ∧ t.mem = s.mem) ∧
    exec (.scrubRead line .clean) s = .next s

/-- R337, R359, R379 to R381, R388 to R397, R402: a request that is no duplicate and in order is accepted and performed where it arrives;
a duplicate is counted, and changes nothing in memory; responses settle requests; links replay, train and go down; requests are resent;
and stores move outward in order. -/
def Obligations.PacketAndLinkEvents : Prop :=
  ∀ (s : State) (port : Fin 16) (p : Packet) (dst : BitVec 13) (seq : BitVec 32) (k : Nat) (e : Entry),
    let pair := (s.fabric.recv.find? (·.of p)).getD (.fresh p)
    let taken : State := { s with fabric := { s.fabric with
      recv := pair.accept p.seq :: s.fabric.recv.filter (!·.of p) } }
    let here (kind : Nat) : Prop := s.powered = true ∧ (s.fabric.ports[port]).up = true ∧ p.kind.toNat = kind ∧ p.mbz = 0 ∧
      s.addressed p = true
    let fresh (kind : Nat) : Prop := here kind ∧ pair.duplicate p.seq = false ∧ pair.inOrder p = true ∧ s.fabric.waiting = []
    (∀ x ∈ [(Instr.read port p, 0x01), (.write port p, 0x02), (.atomic port p, 0x03), (.rdstride port p, 0x04),
        (.mcwrite port p, 0x08), (.redread port p, 0x09)],
      (here x.2 → exec x.1 s = .next ((s.receive port p).pumpWaiting s.fabric.waiting.length)) ∧
      (fresh x.2 → s.holdRoom p = true → (x.2 = 0x09 ∨ (x.2 = 0x08 ∧ p.op = 1) → exec x.1 s = .next (taken.blockArrives p)) ∧
        (x.2 ≠ 0x09 → (x.2 = 0x08 → p.op ≠ 1) →
          (taken.holdsPacket p = false → exec x.1 s = .next (taken.performPacket p)) ∧
          (taken.holdsPacket p = true → exec x.1 s = .next { taken with
            moves := taken.moves.map fun m => if m.frame == gaFrame (taken.packetGa p) then { m with held := m.held ++ [.packet p] } else m }))) ∧
      (fresh x.2 → s.holdRoom p = false → exec x.1 s = .next s) ∧
      (here x.2 → pair.duplicate p.seq = false → pair.inOrder p = false → s.fabric.waiting = [] →
        exec x.1 s = .next { s with fabric := { s.fabric with waiting := [(port, p)] } }) ∧
      (here x.2 → pair.duplicate p.seq = true → s.fabric.waiting = [] → ∃ t, exec x.1 s = .next t ∧ t.mem = s.mem ∧ t.cur = s.cur ∧
        (t.fabric.ports[port]).pdup = (s.fabric.ports[port]).pdup + 1)) ∧
    (let ga := s.packetGa p
     let gas := (List.range p.len.toNat).map (ga + ·)
     let served := taken.performPacket p
     MemoryKept s → s.gaFaults ga = false → gaFrame ga ∉ s.unreachable → (∃ d, regionOf (gaLocal ga) = .dram d) → s.ownerOf (gaFrame ga) = s.here →
      (∀ c : Fin 48, (s.cores[c]).injb.getLsbD 0 = false) →
      ((p.kind = 0x02 ∨ p.kind = 0x08) → p.data.length = p.len.toNat →
        gas.map served.mem.read = p.data ∧ ∀ x, x ∉ gas → served.mem.read x = s.mem.read x) ∧
      ((p.kind = 0x01 ∨ p.kind = 0x04 ∨ p.kind = 0x09) → served.mem = s.mem ∧
        ∃ q, served.fabric.outbox = s.fabric.outbox ++ [q] ∧ q.kind = 0x10 ∧ q.dst = p.orig ∧ q.data = gas.map s.mem.read)) ∧
    (here 0x10 →
      let found := s.fabric.send.findSome? fun x => (x.unanswered.find? fun u => s.answeredBy x u p).map fun u => (x, u)
      (found = none → ∃ t, exec (.resp port p) s = .next t ∧ (t.fabric.ports[port]).pdup = (s.fabric.ports[port]).pdup + 1 ∧ t.mem = s.mem) ∧
      ∀ x u, found = some (x, u) → exec (.resp port p) s = .next (((({ s with fabric := { s.fabric with
          send := s.fabric.send.map fun y => if y == x then s.settleRequests y p else y } } : State).modPort
            (s.portFor u.packet.route.toNat) fun y => { y with replay := 0 }).answered (s.accessFrame x u p) u p).sendQueued u.packet)) ∧
    (fresh 0x20 → exec (.migrate port p) s = .next (taken.migration p)) ∧
    (fresh 0x21 →
      let marked := taken.modStubsOf p fun x => some { x with reclaiming := true }
      (marked.sentTo (packetFrame p) p.src = false →
        exec (.owninv port p) s = .next ((marked.dropOwner (packetFrame p) p.src).respond p 0 [])) ∧
      (marked.sentTo (packetFrame p) p.src = true → exec (.owninv port p) s =
        .next { marked with coord := { marked.coord with invs := marked.coord.invs ++ [p] } })) ∧
    (fresh 0x30 → exec (.coll port p) s = .next (taken.collective p) ∧ (s.fabric.blocks = [] →
      (taken.collective p).fabric.collIn = s.fabric.collIn ++ [p] ∧ (taken.collective p).mem = s.mem)) ∧
    (let x := s.fabric.ports[port]
     x.up = true → ∃ t, exec (.linkReplay port) s = .next t ∧ (t.fabric.ports[port]).preplay = x.preplay + 1 ∧
      (t.fabric.ports[port]).up = decide (x.replay + 1 < 16) ∧ (16 ≤ x.replay + 1 → (t.fabric.ports[port]).downev = true)) ∧
    (s.powered = true → (s.fabric.ports[port]).train = true → ∃ t, exec (.portTrain port) s = .next t ∧
      (t.fabric.ports[port]).up = true ∧ (t.fabric.ports[port]).train = false ∧
      (s.mgmt.stage = 7 → (∀ k : Fin 16, k ≠ port → (s.fabric.ports[k]).up = true) → t.mgmt.ready = true ∧ t.mgmt.stage = 8) ∧
      (s.mgmt.stage ≠ 7 ∨ (∃ k : Fin 16, k ≠ port ∧ (s.fabric.ports[k]).up = false) → t.mgmt = s.mgmt)) ∧
    (∀ x u, s.fabric.send.findSome? (fun x => if x.dst == dst then (x.unanswered.find? (·.packet.seq == seq)).map fun u => (x, u) else none) =
        some (x, u) → x.inTurn u = true →
      (u.resends < s.fabric.limit.toNat ∨ u.packet.kind = 0x21 → ∃ t, exec (.e2eResend dst seq) s = .next t ∧
        t.fabric.outbox = s.fabric.outbox ++ [u.packet] ∧ t.mem = s.mem) ∧
      (s.fabric.limit.toNat ≤ u.resends → u.packet.kind ≠ 0x21 → exec (.e2eResend dst seq) s = .next
        (({ s with fabric := { s.fabric with send := s.fabric.send.map fun y =>
          if y == x then { y with unanswered := x.unanswered.filter (· != u) } else y } } : State).requestLost u.packet
            |>.sendQueued u.packet))) ∧
    exec (.peerEndpointReset dst) s = .next { s with fabric := { s.fabric with
      recv := s.fabric.recv.filter (·.src != dst)
      waiting := s.fabric.waiting.filter (·.2.src != dst)
      send := s.fabric.send.map fun x => if x.dst == dst && !x.grp then { x with next := 0, routes := [] } else x } } ∧
    (s.pend[k]? = some e → e.strip = false → e.sent = false →
      (∀ x ∈ s.pend.take k, e.sameBuffer x = true → x.sent = false → ∀ b ∈ e.bytes, x.covers b.ga = false) →
      (e.level < 4 → exec (.storeEntryMove k) s = .next { s with pend := s.pend.eraseIdx k ++ [{ e with level := e.level + 1 }] }) ∧
      (4 ≤ e.level → s.mayNotLeave e.loc.die ((e.bytes.take 1).map (·.ga)) = false → (∀ m ∈ s.moves, ∀ b ∈ e.bytes.head?, gaFrame b.ga = m.frame → s.mayHold m e = true) → exec (.storeEntryMove k) s = .next (({ s with pend := s.pend.eraseIdx k } : State).performEntry e)))

/-- R327, R355, R376, R406 to R410, R448 to R452, R456, R457: host accesses to device memory, the host link, power, boot, firmware, the
sideband, attestation, and the clock. A module reset or the loss of power loses the state of this module and what its DRAM and Commons
held, which reads as zero after it (log 1), and keeps flash, and the memory of the host and of other endpoints, where it lies under the
endpoint number 0 that the module comes up with (log 42). -/
def Obligations.ModuleEvents : Prop :=
  ∀ (s : State) (off n base size bar line : Nat) (data : List Byte) (given : Option (List Byte)) (mark own : Bool) (power : BitVec 16)
    (hot : Byte),
    let gas (n : Nat) := (List.range n).map fun k => s.gaOf (off + k)
    let calm : Prop := ∀ c : Fin 48, (s.cores[c]).injb.getLsbD 0 = false
    (s.hdmHolds off n = true → s.holdFull (gas n) = false →
      (s.hole off n = false → (∀ g ∈ gas n, s.reachable hubDie g = true) → calm → ∃ t, exec (.hostMemRead off n) s = .next t ∧
        t.mem = s.mem ∧ t.host.answers = s.host.answers ++ [((gas n).map s.mem.read, (gas n).any fun g => s.poison.contains (gaLine g))]) ∧
      (s.hole off n = true → ∃ t bs, exec (.hostMemRead off n) s = .next t ∧ t.host.answers = s.host.answers ++ [(bs, true)] ∧
        t.host.holes = s.host.holes + 1)) ∧
    (s.hdmHolds off data.length = true →
      (s.hole off data.length = false → (∀ g ∈ gas data.length, s.reachable hubDie g = true) →
        (∀ g ∈ gas data.length, ∀ m ∈ s.moves, m.frame ≠ gaFrame g) → MemoryKept s →
        ∃ t, exec (.hostMemWrite off data mark) s = .next t ∧ (gas data.length).map t.mem.read = data ∧
          (∀ g, g ∉ gas data.length → t.mem.read g = s.mem.read g) ∧ t.pend = s.pend) ∧
      (s.hole off data.length = true → ∃ t, exec (.hostMemWrite off data mark) s = .next t ∧ t.host.holes = s.host.holes + 1)) ∧
    (s.powered = true → s.host.up = true →
      let first := s.gaOf (0x2000000000000 + line * 64 % 2 ^ 48)
      let x := gaLine first
      ∃ t, exec (.hostSnoop line own given) s = .next t ∧ (own = true → t.host.lines = s.host.lines.filter (·.1 != x)) ∧
        (own = false → ∀ y ∈ t.host.lines, y.1 = x → y.2 = false) ∧
        t.host.answers = s.host.answers ++ [if s.host.lines.any (·.1 == x)
          then ((List.range 64).map fun k => s.mem.read (first + k), s.poison.contains x) else ([], false)] ∧
        (own = false ∨ given = none → t.mem = s.mem) ∧
        ∀ bs, own = true → given = some bs → bs.length = 64 → MemoryKept s →
          ((List.range 64).map fun k => t.mem.read (first + k)) = bs ∧ ∀ g, gaLine g ≠ x → t.mem.read g = s.mem.read g) ∧
    (s.powered = true → exec (.cxlLinkRetrain .down) s = .next { s with host := { s.host with up := false } } ∧
      (s.host.up = true → exec (.cxlLinkRetrain .error) s = .next (s.raiseEvent 6)) ∧
      (6 ≤ s.mgmt.stage.toNat → s.host.up = false → ∃ t, exec (.cxlLinkRetrain .trained) s = .next t ∧ t.host.up = true ∧
        (s.mgmt.stage = 6 → t.mgmt.stage = 7) ∧ (s.mgmt.stage ≠ 6 → t.mgmt.evstat.getLsbD 6 = true))) ∧
    (s.powered = true → s.host.up = true →
      (s.mgmt.memUp = true → size ≤ 0x4000000000 → exec (.hdmDecoderCommit base size) s =
        .next { s with host := { s.host with hdm := some (base, size), commitError := false } }) ∧
      (s.mgmt.memUp = false ∨ 0x4000000000 < size →
        exec (.hdmDecoderCommit base size) s = .next { s with host := { s.host with commitError := true } })) ∧
    (s.powered = false ∨ s.mgmt.stage = 1 → exec .powerGood s = .next ({ s.lost with powered := true } : State).boot) ∧
    (s.powered = true → exec .mrst s = .next s.lost.boot) ∧
    (∃ t, exec .powerLoss s = .next t ∧ t.powered = false ∧ t.flash = s.flash ∧ t.cur.live = false ∧ t.queues = State.reset.queues ∧
      (MemoryKept s → let u := s.setEndpoint 0
        ∀ g, t.mem.read g = if u.inModule g = true then 0 else u.mem.read g)) ∧
    (s.powered = true → (s.mgmt.trip ≤ hot → exec (.thermalTrip hot) s = exec .powerLoss s) ∧
      (hot < s.mgmt.trip → exec (.thermalTrip hot) s = .next { s with mgmt := { s.mgmt with hot := hot } })) ∧
    (s.lost.boot.flash.bootcnt = s.flash.bootcnt + 1) ∧
    (s.powered = true → data.length = 256 →
      (s.flash.runsB = true → exec (.fwWrite off data) s = .next { s with flash := { s.flash with
        slotA := writeCells s.flash.slotA off data } }) ∧
      (s.flash.runsB = false → exec (.fwWrite off data) s = .next { s with flash := { s.flash with
        slotB := writeCells s.flash.slotB off data } })) ∧
    (s.powered = true → exec .fwCommit s = .next { s with flash := { s.flash with
      firstB := if verifies (imageOf (if s.flash.runsB then s.flash.slotA else s.flash.slotB)) = true then !s.flash.runsB
        else s.flash.firstB } }) ∧
    (s.sidebandUp bar = true →
      (data.length = 8 → exec (.sidebandWrite bar off data) s = .next (s.writeReg bar off (BitVec.ofNat 64 (leNat data)))) ∧
      (bar = 2 → data.length = 64 → off < 0x100000 → off % 0x1000 = 0 →
        exec (.sidebandWrite bar off data) s = .next (s.launchWrite (queueOfOffset off) 0 data)) ∧
      exec (.sidebandRead bar off) s = .next { s with host := { s.host with
        answers := s.host.answers ++ [(leBytes 8 (s.readReg bar off).toNat, false)] } }) ∧
    (s.powered = true → ∃ t, exec (.debugToken data) s = .next t ∧ t.debug = (s.debug || verifies data) ∧ t.mem = s.mem) ∧
    (∀ r, s.mgmt.attGo = some r →
      let at_ (k : Nat) := s.gaOf (r.buf.toNat + k)
      (r.op = 0 → MemoryKept s → ∃ t, exec .attestReport s = .next t ∧ t.mgmt = { s.mgmt with attGo := none } ∧
        ((List.range (s.report r.nonce).length).map fun k => t.mem.read (at_ k)) = s.report r.nonce ∧
        ∀ g, (∀ k < (s.report r.nonce).length, g ≠ at_ k) → t.mem.read g = s.mem.read g) ∧
      (r.op = 1 → calm → gaLine (at_ 0) ∉ s.poison → ∃ t, exec .measExtend s = .next t ∧ t.mgmt.attGo = none ∧ t.mem = s.mem ∧
        let k : Fin 8 := Fin.ofNat 8 r.slot.toNat
        t.mgmt.meas[k] = if r.slot.toNat < 4 then s.mgmt.meas[k] else
          shake256 (leBytes 64 (s.mgmt.meas[k]).toNat ++ leBytes 64
            (recordOf ((List.range 64).map fun j => s.mem.read (at_ j))).toNat))) ∧
    (s.powered = true → hot < s.mgmt.trip → ∃ t, exec (.clockStep power hot) s = .next t ∧ t.mgmt.power = power ∧ t.mgmt.hot = hot ∧
      t.mgmt.fmhz = BitVec.ofNat 13 (min (capStep s.mgmt.fmhz.toNat power.toNat s.mgmt.pwrcap.toNat) (heatStep hot.toNat)) ∧
      t.cur = s.cur ∧ t.mem = s.mem) ∧
    (s.powered = true → s.mgmt.trip ≤ hot → ∃ t, exec (.clockStep power hot) s = .next t ∧ t.powered = false)
end

