-- ==== Sys2Proof/Laws/Crypto.lean ====
section
/-! SUPPORT. How many bytes the hash, a signature and the attestation report have (R450 to R452). -/

namespace Sys2Proof.Machine

theorem leBytes_length (n x : Nat) : (leBytes n x).length = n := by
  induction n generalizing x with
  | zero => rfl
  | succ n ih => simp [leBytes, ih]

theorem lanes_length (f : Nat → Nat → Word) : (lanes f).length = 25 := by simp [lanes]

theorem keccakRound_length (a : List Word) (rc : Word) : (keccakRound a rc).length = 25 := by
  simp only [keccakRound, lanes_length]

theorem keccakF_length (a : List Word) : (keccakF a).length = 25 := by
  simp only [keccakF, keccakRounds, List.foldl, keccakRound_length]

theorem absorbAll_length (bs : List (List Byte)) (a : List Word) (h : a.length = 25) : (bs.foldl absorb a).length = 25 := by
  induction bs generalizing a with
  | nil => exact h
  | cons b bs ih => exact ih _ (keccakF_length _)

theorem wordBytes_length (l : List Word) : (l.flatMap fun x => leBytes 8 x.toNat).length = 8 * l.length := by
  induction l with
  | nil => rfl
  | cons x l ih => simp [List.flatMap_cons, leBytes_length, ih]; omega

theorem squeeze_length (k : Nat) (a : List Word) (h : a.length = 25) : (squeeze k a).length = 136 * k := by
  induction k generalizing a with
  | zero => rfl
  | succ k ih =>
    have := wordBytes_length (a.take 17)
    simp only [squeeze, List.length_append, ih _ (keccakF_length a), this, List.length_take, h]
    omega

/-- SHAKE256 gives as many bytes as are asked of it. -/
theorem shake_length (m : List Byte) (n : Nat) : (shake m n).length = n := by
  rw [shake, List.length_take, squeeze_length _ _ (absorbAll_length _ _ (by simp))]
  omega

theorem wotsDigits_length (m : List Byte) : (wotsDigits m).length = 2 * m.length + 3 := by
  have h : (m.flatMap fun b => [b.toNat / 16, b.toNat % 16]).length = 2 * m.length := by
    induction m with
    | nil => rfl
    | cons b m ih => simp only [List.flatMap_cons, List.length_append, ih, List.length_cons, List.length_nil]; omega
  simp [wotsDigits, h]

/-- Whether every part has 32 bytes. -/
def Parts32 (l : List (List Byte)) : Prop := ∀ x ∈ l, x.length = 32

theorem Parts32.append {a b : List (List Byte)} (ha : Parts32 a) (hb : Parts32 b) : Parts32 (a ++ b) := by
  intro x hx
  rcases List.mem_append.mp hx with h | h
  · exact ha x h
  · exact hb x h

theorem Parts32.flatten {l : List (List Byte)} (h : Parts32 l) : l.flatten.length = 32 * l.length := by
  induction l with
  | nil => rfl
  | cons x l ih =>
    have hx : x.length = 32 := h x (by simp)
    have hl := ih fun y hy => h y (by simp [hy])
    simp [List.flatten_cons, hx, hl]; omega

theorem slhHash_length (seed : List Byte) (a : Adrs) (m : List Byte) : (slhHash seed a m).length = 32 := shake_length _ _

theorem slhPrf_length (seed secret : List Byte) (a : Adrs) : (slhPrf seed secret a).length = 32 := shake_length _ _

theorem slhChain_length (seed : List Byte) (a : Adrs) (x : List Byte) (i s : Nat) (h : x.length = 32) :
    (slhChain seed a x i s).length = 32 := by
  have : ∀ (l : List Nat) (y : List Byte), y.length = 32 →
      (l.foldl (fun y j => slhHash seed { a with w3 := i + j } y) y).length = 32 := by
    intro l
    induction l with
    | nil => exact fun y hy => hy
    | cons j l ih => exact fun y _ => ih _ (slhHash_length _ _ _)
  exact this _ _ h

theorem xmssNode_length (seed secret : List Byte) (layer tree z i : Nat) : (xmssNode seed secret layer tree z i).length = 32 := by
  cases z <;> exact slhHash_length _ _ _

theorem forsNode_length (seed secret : List Byte) (a : Adrs) (z i : Nat) : (forsNode seed secret a z i).length = 32 := by
  cases z <;> exact slhHash_length _ _ _

theorem climb_length (seed : List Byte) (a : Adrs) (idx : Nat) (auth : List (List Byte)) (leaf : List Byte) (h : leaf.length = 32) :
    (climb seed a idx auth leaf).length = 32 := by
  unfold climb
  have : ∀ (l : List (List Byte × Nat)) (y : List Byte), y.length = 32 →
      (l.foldl (fun node x => if idx / 2 ^ x.2 % 2 == 0 then slhHash seed { a with w2 := x.2 + 1, w3 := idx / 2 ^ (x.2 + 1) } (node ++ x.1)
        else slhHash seed { a with w2 := x.2 + 1, w3 := idx / 2 ^ (x.2 + 1) } (x.1 ++ node)) y).length = 32 := by
    intro l
    induction l with
    | nil => exact fun y hy => hy
    | cons j l ih =>
      intro y _
      refine ih _ ?_
      dsimp only
      split <;> exact slhHash_length _ _ _
  exact this _ _ h

theorem xmssFromSig_length (seed : List Byte) (layer tree idx : Nat) (sig : List (List Byte)) (m : List Byte) :
    (xmssFromSig seed layer tree idx sig m).length = 32 := climb_length _ _ _ _ _ (slhHash_length _ _ _)

theorem xmssSign_parts (seed secret : List Byte) (layer tree idx : Nat) (m : List Byte) :
    Parts32 (xmssSign seed secret layer tree idx m) := by
  refine Parts32.append ?_ ?_
  · intro x hx
    simp only [List.mem_map] at hx
    obtain ⟨y, -, rfl⟩ := hx
    exact slhChain_length _ _ _ _ _ (slhPrf_length _ _ _)
  · intro x hx
    simp only [List.mem_map] at hx
    obtain ⟨y, -, rfl⟩ := hx
    exact xmssNode_length _ _ _ _ _ _

theorem xmssSign_length (seed secret : List Byte) (layer tree idx : Nat) (m : List Byte) (h : m.length = 32) :
    (xmssSign seed secret layer tree idx m).length = 75 := by
  simp [xmssSign, wotsDigits_length, h]

theorem forsSign_parts (seed secret : List Byte) (tree leaf : Nat) (md : List Byte) : Parts32 (forsSign seed secret tree leaf md) := by
  intro x hx
  simp only [forsSign, List.mem_flatMap, List.mem_cons, List.mem_map] at hx
  obtain ⟨y, -, rfl | ⟨j, -, rfl⟩⟩ := hx
  · exact slhPrf_length _ _ _
  · exact forsNode_length _ _ _ _ _

theorem forsSign_length (seed secret : List Byte) (tree leaf : Nat) (md : List Byte) :
    (forsSign seed secret tree leaf md).length = 330 := by
  have : ∀ l : List (Nat × Nat), (l.flatMap fun x => slhPrf seed secret { (⟨0, tree, 3, leaf, 0, 0⟩ : Adrs) with kind := 6, w3 := x.2 * 2 ^ 14 + x.1 } ::
      (List.range 14).map fun j => forsNode seed secret ⟨0, tree, 3, leaf, 0, 0⟩ j (x.2 * 2 ^ (14 - j) + ((x.1 / 2 ^ j) ^^^ 1))).length =
      15 * l.length := by
    intro l
    induction l with
    | nil => rfl
    | cons y l ih => simp only [List.flatMap_cons, List.length_append, List.length_cons, List.length_map, List.length_range, ih]; omega
  rw [forsSign, this]
  simp [forsIndices]

/-- A signature has 29,792 bytes (R450). -/
theorem SlhKey.sign_length (k : SlhKey) (m rand : List Byte) : (k.sign m rand).length = 29792 := by
  unfold SlhKey.sign
  extract_lets m' r q fors first hyper
  have hf : Parts32 fors ∧ fors.length = 330 := ⟨forsSign_parts _ _ _ _ _, forsSign_length _ _ _ _ _⟩
  have key : ∀ (l : List Nat) (acc : List (List Byte) × List Byte × Nat × Nat), Parts32 acc.1 → acc.2.1.length = 32 →
      let out := l.foldl (fun (acc : List (List Byte) × List Byte × Nat × Nat) j =>
        let x := xmssSign k.seed k.secret j acc.2.2.1 acc.2.2.2 acc.2.1
        (acc.1 ++ x, xmssFromSig k.seed j acc.2.2.1 acc.2.2.2 x acc.2.1, acc.2.2.1 / 256, acc.2.2.1 % 256)) acc
      Parts32 out.1 ∧ out.1.length = acc.1.length + 75 * l.length := by
    intro l
    induction l with
    | nil => exact fun acc h _ => ⟨h, by simp⟩
    | cons j l ih =>
      intro acc h hm
      have := ih (acc.1 ++ xmssSign k.seed k.secret j acc.2.2.1 acc.2.2.2 acc.2.1,
        xmssFromSig k.seed j acc.2.2.1 acc.2.2.2 (xmssSign k.seed k.secret j acc.2.2.1 acc.2.2.2 acc.2.1) acc.2.1,
        acc.2.2.1 / 256, acc.2.2.1 % 256) (h.append (xmssSign_parts _ _ _ _ _ _)) (xmssFromSig_length _ _ _ _ _ _)
      refine ⟨this.1, this.2.trans ?_⟩
      simp only [List.length_append, xmssSign_length _ _ _ _ _ _ hm, List.length_cons]
      omega
  have hh := key (List.range 8) ([], first, q.2.1, q.2.2) (by intro x hx; cases hx) (slhHash_length _ _ _)
  have hr : Parts32 [r] := by intro x hx; simp only [List.mem_singleton] at hx; subst hx; exact shake_length _ _
  have : Parts32 (r :: fors ++ hyper.1) := (hr.append hf.1).append hh.1
  rw [this.flatten]
  have h2 : hyper.1.length = 600 := hh.2
  simp [hf.2, h2]

/-- A report has 30,432 bytes (R452). -/
theorem State.report_length (s : State) (nonce : BitVec 256) : (s.report nonce).length = 30432 := by
  have hp : identity.pub.length = 64 := by simp [SlhKey.pub, identity, xmssNode_length]
  have hm : (s.mgmt.meas.toList.flatMap fun m => leBytes 64 m.toNat).length = 512 := by
    have : ∀ l : List (BitVec 512), (l.flatMap fun m => leBytes 64 m.toNat).length = 64 * l.length := by
      intro l
      induction l with
      | nil => rfl
      | cons x l ih => simp only [List.flatMap_cons, List.length_append, leBytes_length, ih, List.length_cons]; omega
    rw [this]; simp
  simp only [State.report, List.length_append, SlhKey.sign_length, hp, hm, leBytes_length]

end Sys2Proof.Machine
end

