-- ==== Sys2Proof/Laws/Decode.lean ====
section
/-! SUPPORT. The encoder's words give the decoder back the fields that went in: parcels, common fields, immediates. -/

namespace Sys2Proof

/-! ## Parts of a concatenation -/

theorem extractLsb_append_low {m n : Nat} (x : BitVec m) (y : BitVec n) (s k : Nat) (h : s + k ≤ n) :
    (x ++ y).extractLsb' s k = y.extractLsb' s k := by
  ext i hi
  simp only [BitVec.getElem_extractLsb', BitVec.getLsbD_append]
  rw [if_pos (by omega)]

theorem extractLsb_append_high {m n : Nat} (x : BitVec m) (y : BitVec n) (s k : Nat) (h : n ≤ s) :
    (x ++ y).extractLsb' s k = x.extractLsb' (s - n) k := by
  ext i hi
  simp only [BitVec.getElem_extractLsb', BitVec.getLsbD_append]
  rw [if_neg (by omega)]
  congr 1; omega

theorem extractLsb_whole {n : Nat} (x : BitVec n) : x.extractLsb' 0 n = x := by
  ext i hi; simp

/-- The fields of a 32-bit parcel are read back as they were laid out (R95). -/
theorem fields32_ofParcel_parcel (f : Fields32) : Fields32.ofParcel f.parcel = f := by
  obtain ⟨hi, b, a, d, op⟩ := f
  simp only [Fields32.ofParcel, Fields32.parcel, Fields32.mk.injEq]
  refine ⟨?_, ?_, ?_, ?_, ?_⟩ <;>
  repeat' first
    | exact extractLsb_whole _
    | rw [extractLsb_append_high _ _ _ _ (by decide)]
    | rw [extractLsb_append_low _ _ _ _ (by decide)]

/-- A parcel of the 32-bit formats has bit 0 clear (R93). -/
theorem isLong_parcel (f : Fields32) : isLong f.parcel = false := by
  unfold isLong Fields32.parcel
  rw [BitVec.getLsbD_append, if_pos (by decide)]; rfl

/-- The fields of a 64-bit instruction are read back as they were laid out (R98). -/
theorem fields64_ofParcels (f : Fields64) : Fields64.ofParcels f.lo f.hi = f := by
  obtain ⟨x1,x2,x3,x4,x5,x6,x7,x8,x9,x10,x11,x12,x13,x14,x15,x16,x17,x18⟩ := f
  simp only [Fields64.ofParcels, Fields64.lo, Fields64.hi, Fields64.mk.injEq]
  refine ⟨?_, ?_, ?_, ?_, ?_,?_, ?_, ?_, ?_, ?_,?_, ?_, ?_, ?_, ?_,?_, ?_, ?_⟩ <;>
  repeat' first
    | exact extractLsb_whole _
    | rw [extractLsb_append_high _ _ _ _ (by decide)]
    | rw [extractLsb_append_low _ _ _ _ (by decide)]

/-- The first parcel of a 64-bit instruction has bit 0 set (R93). -/
theorem isLong_lo (f : Fields64) : isLong f.lo = true := by
  unfold isLong Fields64.lo
  rw [BitVec.getLsbD_append, if_pos (by decide)]; rfl

theorem tyOf_code (t : Ty) : tyOfCode (tyCode t) = some t := by cases t <;> rfl

theorem rmOf_code (r : Rm) : rmOf (rmCode r) = some r := by cases r <;> rfl
/-! ## The common fields of a 64-bit instruction (R98) -/

section
variable (k : Common) (op : BitVec 7) (fn : BitVec 12) (c b a d : BitVec 5)

theorem tyOf_fields64 (go : Option Ty → Decoded) : tyOf (fields64 k op fn c b a d).ty go = go k.ty := by
  obtain ⟨rm, w, p, ovt, ord, ty, g⟩ := k
  rcases ty with _ | t
  · rfl
  · cases t <;> rfl

theorem wait_fields64 (go : Option (Fin 8) → Decoded) :
    tokenOf (fields64 k op fn c b a d).we (fields64 k op fn c b a d).wk go = go k.wait := by
  obtain ⟨rm, w, p, ovt, ord, ty, g⟩ := k
  rcases w with _ | t <;> rfl

theorem post_fields64 (go : Option (Fin 8) → Decoded) :
    tokenOf (fields64 k op fn c b a d).pe (fields64 k op fn c b a d).pk go = go k.post := by
  obtain ⟨rm, w, p, ovt, ord, ty, g⟩ := k
  rcases p with _ | t <;> rfl

theorem guardOf_fields64 (go : Option Guard → Decoded) : guardOf (fields64 k op fn c b a d) go = go k.guard := by
  obtain ⟨rm, w, p, ovt, ord, ty, g⟩ := k
  rcases g with _ | ⟨r, pol⟩
  · rfl
  · cases pol <;> rfl

theorem rmOf_fields64 (r : Reject) (go : Rm → Decoded) : have? (rmOf (fields64 k op fn c b a d).rm) r go = go k.rm := by
  obtain ⟨rm, w, p, ovt, ord, ty, g⟩ := k
  cases rm <;> rfl

/-- The common fields are read back as they were laid out. -/
theorem commonOf_fields64 (go : Common → Decoded) : commonOf (fields64 k op fn c b a d) go = go k := by
  unfold commonOf
  simp only [rmOf_fields64, wait_fields64, post_fields64, tyOf_fields64, guardOf_fields64]
  obtain ⟨rm, w, p, ovt, ord, ty, g⟩ := k
  cases ovt <;> cases ord <;> rfl
end

/-! ## Immediates are read back as they were laid out -/

theorem extractLsb_join {n : Nat} (x : BitVec n) (s a b : Nat) :
    x.extractLsb' (s + b) a ++ x.extractLsb' s b = x.extractLsb' s (a + b) := by
  ext i hi
  simp only [BitVec.getElem_append, BitVec.getElem_extractLsb']
  split
  · rfl
  · congr 1; omega

theorem immF_imm (op : BitVec 6) (f3 : BitVec 3) (d a : BitVec 5) (imm : BitVec 12) : (immF op f3 d a imm).imm = imm := by
  unfold immF Fields32.imm
  rw [extractLsb_append_high _ _ _ _ (by decide), extractLsb_whole]
  exact (extractLsb_join imm 0 10 2).trans (extractLsb_whole imm)

theorem immF_f3 (op : BitVec 6) (f3 : BitVec 3) (d a : BitVec 5) (imm : BitVec 12) : (immF op f3 d a imm).f3 = f3 := by
  unfold immF Fields32.f3
  rw [extractLsb_append_low _ _ _ _ (by decide), extractLsb_whole]

theorem upperF_imm20 (op : BitVec 6) (d : BitVec 5) (imm : BitVec 20) : (upperF op d imm).imm20 = imm := by
  unfold upperF Fields32.imm20
  simp only [extractLsb_join imm 5 10 5]
  exact (extractLsb_join imm 0 15 5).trans (extractLsb_whole imm)

theorem jumpF_off25 (op : BitVec 6) (off : BitVec 25) : (jumpF op off).off25 = off := by
  unfold jumpF Fields32.off25
  simp only [extractLsb_join off 10 10 5, extractLsb_join off 5 15 5]
  exact (extractLsb_join off 0 20 5).trans (extractLsb_whole off)

/-- A register number below `n` is read back (R97). -/
theorem inFile_ofNat {n : Nat} (hn : n ≤ 32) (m : Fin n) (go : Fin n → Decoded) : inFile n (BitVec.ofNat 5 m.val) go = go m := by
  unfold inFile
  have h : (BitVec.ofNat 5 m.val).toNat = m.val := by simp; omega
  simp [h]

/-! ## Whole instructions -/

/-- A 64-bit instruction decodes to `i` where its cell reads `i` from its fields and `i` passes the checks. -/
theorem decode_encUR {k : Common} {op : BitVec 7} {fn : BitVec 12} {c b a d : BitVec 5} {i : Instr}
    (h : decCell64 (fields64 k op fn c b a d) k = .ok i) (hw : i.WellFormed) (hop : (op == 0x7E) = false) (rest : List Parcel) :
    decode (encUR k op fn c b a d ++ rest) = .ok (i, rest) := by
  unfold encUR decode
  simp only [List.cons_append, List.nil_append, isLong_lo, if_true, decode64, fields64_ofParcels]
  have : (fields64 k op fn c b a d).op = op := rfl
  simp only [this, hop, commonOf_fields64, h, checked]
  unfold Instr.WellFormed at hw
  simp [hw]

/-- A 32-bit instruction decodes to `i` where its cell reads `i` from its fields and `i` passes the checks. -/
theorem decode_enc32 {f : Fields32} {i : Instr} (h : decFields32 f = .ok i) (hw : i.WellFormed) (rest : List Parcel) :
    decode (enc32 f ++ rest) = .ok (i, rest) := by
  unfold enc32 decode
  unfold Instr.WellFormed at hw
  simp [isLong_parcel, decode32, fields32_ofParcel_parcel, h, checked, hw]

end Sys2Proof
end

