-- ==== Sys2Proof/Laws/State.lean ====
section
/-! SUPPORT. One lemma per field per update of `State`. Every update of the context in focus is a `modVlc`, every update of a
core a `modCoreAt`: the lemmas of section 1 bring the named updates to those forms, the rest say what each form leaves. -/

namespace Sys2Proof.Machine

/-! ## The named updates in two forms -/

@[simp] theorem State.modCtl_eq (s : State) (f : Ctl → Ctl) : s.modCtl f = s.modVlc fun v => { v with ctl := f v.ctl } := rfl
@[simp] theorem State.modVec_eq (s : State) (f : VecRegs → VecRegs) : s.modVec f = s.modVlc fun v => { v with vec := f v.vec } := rfl
@[simp] theorem State.modTile_eq (s : State) (f : TileRegs → TileRegs) :
    s.modTile f = s.modVlc fun v => { v with tile := f v.tile } := rfl
@[simp] theorem State.modQ_eq (s : State) (f : Queues → Queues) : s.modQ f = s.modVlc fun v => { v with q := f v.q } := rfl
@[simp] theorem State.setStr_eq (s : State) (x : StreamState) : s.setStr x = s.modVlc fun v => v.setStr s.stream x := rfl
@[simp] theorem State.setPc_eq (s : State) (pc : Word) :
    s.setPc pc = s.modVlc fun v => v.setStr s.stream { s.str with pc := pc } := rfl
@[simp] theorem State.hwrite_eq (s : State) (n : Fin 32) (x : Word) :
    s.hwrite n x = s.modVlc fun v => { v with h := v.h.set n x } := rfl
@[simp] theorem State.setVl_eq (s : State) (n : Nat) :
    s.setVl n = s.modVlc fun v => { v with ctl := { v.ctl with vl := BitVec.ofNat 15 n } } := rfl
@[simp] theorem State.setVstart_eq (s : State) (n : Nat) :
    s.setVstart n = s.modVlc fun v => { v with ctl := { v.ctl with vstart := BitVec.ofNat 15 n } } := rfl
@[simp] theorem State.modCore_eq (s : State) (f : CoreState → CoreState) : s.modCore f = s.modCoreAt s.coreId f := rfl
@[simp] theorem State.modCnt_eq (s : State) (f : CoreCounters → CoreCounters) :
    s.modCnt f = s.modCoreAt s.coreId fun c => { c with cnt := f c.cnt } := rfl
/-- `gwrite` as one update of the context: register 0 discards the write (R41). -/
theorem State.gwrite_eq (s : State) (n : Fin 32) (x : Word) :
    s.gwrite n x = s.modVlc fun v => if n = 0 then v else v.setStr s.stream { s.str with g := s.str.g.set n x } := by
  unfold State.gwrite State.modVlc; split <;> rfl
@[simp] theorem State.modVlc_modVlc (s : State) (f g : Vlc → Vlc) : (s.modVlc f).modVlc g = s.modVlc fun v => g (f v) := rfl
@[simp] theorem State.str_eq (s : State) : s.str = s.cur.str s.stream := rfl

/-! ## A stream's record within its context -/

@[simp] theorem Vlc.str_setStr (v : Vlc) (st : Stream) (x : StreamState) : (v.setStr st x).str st = x := by cases st <;> rfl
theorem Vlc.str_setStr_other (v : Vlc) (st st' : Stream) (x : StreamState) (h : st' ≠ st) :
    (v.setStr st x).str st' = v.str st' := by cases st <;> cases st' <;> first | rfl | exact absurd rfl h

@[simp] theorem Vlc.setStr_live (v : Vlc) (st : Stream) (x : StreamState) : (v.setStr st x).live = v.live := by cases st <;> rfl
@[simp] theorem Vlc.setStr_loc (v : Vlc) (st : Stream) (x : StreamState) : (v.setStr st x).loc = v.loc := by cases st <;> rfl
@[simp] theorem Vlc.setStr_h (v : Vlc) (st : Stream) (x : StreamState) : (v.setStr st x).h = v.h := by cases st <;> rfl
@[simp] theorem Vlc.setStr_ctl (v : Vlc) (st : Stream) (x : StreamState) : (v.setStr st x).ctl = v.ctl := by cases st <;> rfl
@[simp] theorem Vlc.setStr_vec (v : Vlc) (st : Stream) (x : StreamState) : (v.setStr st x).vec = v.vec := by cases st <;> rfl
@[simp] theorem Vlc.setStr_tile (v : Vlc) (st : Stream) (x : StreamState) : (v.setStr st x).tile = v.tile := by cases st <;> rfl
@[simp] theorem Vlc.setStr_s (v : Vlc) (st : Stream) (x : StreamState) : (v.setStr st x).s = v.s := by cases st <;> rfl
@[simp] theorem Vlc.setStr_binds (v : Vlc) (st : Stream) (x : StreamState) : (v.setStr st x).binds = v.binds := by cases st <;> rfl
@[simp] theorem Vlc.setStr_q (v : Vlc) (st : Stream) (x : StreamState) : (v.setStr st x).q = v.q := by cases st <;> rfl
@[simp] theorem Vlc.setStr_k (v : Vlc) (st : Stream) (x : StreamState) : (v.setStr st x).k = v.k := by cases st <;> rfl
@[simp] theorem Vlc.setStr_korder (v : Vlc) (st : Stream) (x : StreamState) : (v.setStr st x).korder = v.korder := by cases st <;> rfl
@[simp] theorem Vlc.setStr_handler (v : Vlc) (st : Stream) (x : StreamState) : (v.setStr st x).handler = v.handler := by cases st <;> rfl
@[simp] theorem Vlc.setStr_clock (v : Vlc) (st : Stream) (x : StreamState) : (v.setStr st x).clock = v.clock := by cases st <;> rfl
@[simp] theorem Vlc.setStr_strip (v : Vlc) (st : Stream) (x : StreamState) : (v.setStr st x).strip = v.strip := by cases st <;> rfl
@[simp] theorem Vlc.setStr_tenure (v : Vlc) (st : Stream) (x : StreamState) : (v.setStr st x).tenure = v.tenure := by cases st <;> rfl
@[simp] theorem Vlc.setStr_migrate (v : Vlc) (st : Stream) (x : StreamState) : (v.setStr st x).migrate = v.migrate := by cases st <;> rfl
@[simp] theorem Vlc.setStr_fetched (v : Vlc) (st : Stream) (x : StreamState) : (v.setStr st x).fetched = v.fetched := by cases st <;> rfl
@[simp] theorem Vlc.setStr_inFlight (v : Vlc) (st : Stream) (x : StreamState) : (v.setStr st x).inFlight = v.inFlight := by cases st <;> rfl
@[simp] theorem Vlc.setStr_flights (v : Vlc) (st : Stream) (x : StreamState) : (v.setStr st x).flights = v.flights := by cases st <;> rfl
@[simp] theorem Vlc.setStr_owedFlags (v : Vlc) (st : Stream) (x : StreamState) : (v.setStr st x).owedFlags = v.owedFlags := by cases st <;> rfl
@[simp] theorem Vlc.setStr_owedPosts (v : Vlc) (st : Stream) (x : StreamState) : (v.setStr st x).owedPosts = v.owedPosts := by cases st <;> rfl
@[simp] theorem Vlc.setStr_work (v : Vlc) (st : Stream) (x : StreamState) : (v.setStr st x).work = v.work := by cases st <;> rfl

/-! ## What an update leaves -/

@[simp] theorem State.modVlc_agenda (s : State) (f : Vlc → Vlc) : (s.modVlc f).agenda = s.agenda := rfl
@[simp] theorem State.modVlc_stream (s : State) (f : Vlc → Vlc) : (s.modVlc f).stream = s.stream := rfl
@[simp] theorem State.modVlc_cur (s : State) (f : Vlc → Vlc) : (s.modVlc f).cur = f s.cur := rfl
@[simp] theorem State.modVlc_parked (s : State) (f : Vlc → Vlc) : (s.modVlc f).parked = s.parked := rfl
@[simp] theorem State.modVlc_saved (s : State) (f : Vlc → Vlc) : (s.modVlc f).saved = s.saved := rfl
@[simp] theorem State.modVlc_cores (s : State) (f : Vlc → Vlc) : (s.modVlc f).cores = s.cores := rfl
@[simp] theorem State.modVlc_dies (s : State) (f : Vlc → Vlc) : (s.modVlc f).dies = s.dies := rfl
@[simp] theorem State.modVlc_queues (s : State) (f : Vlc → Vlc) : (s.modVlc f).queues = s.queues := rfl
@[simp] theorem State.modVlc_tasks (s : State) (f : Vlc → Vlc) : (s.modVlc f).tasks = s.tasks := rfl
@[simp] theorem State.modVlc_nextTask (s : State) (f : Vlc → Vlc) : (s.modVlc f).nextTask = s.nextTask := rfl
@[simp] theorem State.modVlc_mem (s : State) (f : Vlc → Vlc) : (s.modVlc f).mem = s.mem := rfl
@[simp] theorem State.modVlc_poison (s : State) (f : Vlc → Vlc) : (s.modVlc f).poison = s.poison := rfl
@[simp] theorem State.modVlc_pend (s : State) (f : Vlc → Vlc) : (s.modVlc f).pend = s.pend := rfl
@[simp] theorem State.modVlc_frames (s : State) (f : Vlc → Vlc) : (s.modVlc f).frames = s.frames := rfl
@[simp] theorem State.modVlc_moves (s : State) (f : Vlc → Vlc) : (s.modVlc f).moves = s.moves := rfl
@[simp] theorem State.modVlc_commands (s : State) (f : Vlc → Vlc) : (s.modVlc f).commands = s.commands := rfl
@[simp] theorem State.modVlc_coord (s : State) (f : Vlc → Vlc) : (s.modVlc f).coord = s.coord := rfl
@[simp] theorem State.modVlc_fabric (s : State) (f : Vlc → Vlc) : (s.modVlc f).fabric = s.fabric := rfl
@[simp] theorem State.modVlc_host (s : State) (f : Vlc → Vlc) : (s.modVlc f).host = s.host := rfl
@[simp] theorem State.modVlc_mgmt (s : State) (f : Vlc → Vlc) : (s.modVlc f).mgmt = s.mgmt := rfl
@[simp] theorem State.modVlc_log (s : State) (f : Vlc → Vlc) : (s.modVlc f).log = s.log := rfl
@[simp] theorem State.modVlc_flash (s : State) (f : Vlc → Vlc) : (s.modVlc f).flash = s.flash := rfl
@[simp] theorem State.modVlc_reserved (s : State) (f : Vlc → Vlc) : (s.modVlc f).reserved = s.reserved := rfl
@[simp] theorem State.modVlc_powered (s : State) (f : Vlc → Vlc) : (s.modVlc f).powered = s.powered := rfl
@[simp] theorem State.modVlc_debug (s : State) (f : Vlc → Vlc) : (s.modVlc f).debug = s.debug := rfl
@[simp] theorem State.modVlc_upsets (s : State) (f : Vlc → Vlc) : (s.modVlc f).upsets = s.upsets := rfl
@[simp] theorem State.modVlc_fresh (s : State) (f : Vlc → Vlc) : (s.modVlc f).fresh = s.fresh := rfl
@[simp] theorem State.modVlc_limit (s : State) (f : Vlc → Vlc) : (s.modVlc f).limit = s.limit := rfl

@[simp] theorem State.modCoreAt_agenda (s : State) (c : CoreId) (f : CoreState → CoreState) : (s.modCoreAt c f).agenda = s.agenda := rfl
@[simp] theorem State.modCoreAt_stream (s : State) (c : CoreId) (f : CoreState → CoreState) : (s.modCoreAt c f).stream = s.stream := rfl
@[simp] theorem State.modCoreAt_cur (s : State) (c : CoreId) (f : CoreState → CoreState) : (s.modCoreAt c f).cur = s.cur := rfl
@[simp] theorem State.modCoreAt_parked (s : State) (c : CoreId) (f : CoreState → CoreState) : (s.modCoreAt c f).parked = s.parked := rfl
@[simp] theorem State.modCoreAt_saved (s : State) (c : CoreId) (f : CoreState → CoreState) : (s.modCoreAt c f).saved = s.saved := rfl
@[simp] theorem State.modCoreAt_cores (s : State) (c : CoreId) (f : CoreState → CoreState) : (s.modCoreAt c f).cores = s.cores.set c.index (f s.cores[c.index]) := rfl
@[simp] theorem State.modCoreAt_dies (s : State) (c : CoreId) (f : CoreState → CoreState) : (s.modCoreAt c f).dies = s.dies := rfl
@[simp] theorem State.modCoreAt_queues (s : State) (c : CoreId) (f : CoreState → CoreState) : (s.modCoreAt c f).queues = s.queues := rfl
@[simp] theorem State.modCoreAt_tasks (s : State) (c : CoreId) (f : CoreState → CoreState) : (s.modCoreAt c f).tasks = s.tasks := rfl
@[simp] theorem State.modCoreAt_nextTask (s : State) (c : CoreId) (f : CoreState → CoreState) : (s.modCoreAt c f).nextTask = s.nextTask := rfl
@[simp] theorem State.modCoreAt_mem (s : State) (c : CoreId) (f : CoreState → CoreState) : (s.modCoreAt c f).mem = s.mem := rfl
@[simp] theorem State.modCoreAt_poison (s : State) (c : CoreId) (f : CoreState → CoreState) : (s.modCoreAt c f).poison = s.poison := rfl
@[simp] theorem State.modCoreAt_pend (s : State) (c : CoreId) (f : CoreState → CoreState) : (s.modCoreAt c f).pend = s.pend := rfl
@[simp] theorem State.modCoreAt_frames (s : State) (c : CoreId) (f : CoreState → CoreState) : (s.modCoreAt c f).frames = s.frames := rfl
@[simp] theorem State.modCoreAt_moves (s : State) (c : CoreId) (f : CoreState → CoreState) : (s.modCoreAt c f).moves = s.moves := rfl
@[simp] theorem State.modCoreAt_commands (s : State) (c : CoreId) (f : CoreState → CoreState) : (s.modCoreAt c f).commands = s.commands := rfl
@[simp] theorem State.modCoreAt_coord (s : State) (c : CoreId) (f : CoreState → CoreState) : (s.modCoreAt c f).coord = s.coord := rfl
@[simp] theorem State.modCoreAt_fabric (s : State) (c : CoreId) (f : CoreState → CoreState) : (s.modCoreAt c f).fabric = s.fabric := rfl
@[simp] theorem State.modCoreAt_host (s : State) (c : CoreId) (f : CoreState → CoreState) : (s.modCoreAt c f).host = s.host := rfl
@[simp] theorem State.modCoreAt_mgmt (s : State) (c : CoreId) (f : CoreState → CoreState) : (s.modCoreAt c f).mgmt = s.mgmt := rfl
@[simp] theorem State.modCoreAt_log (s : State) (c : CoreId) (f : CoreState → CoreState) : (s.modCoreAt c f).log = s.log := rfl
@[simp] theorem State.modCoreAt_flash (s : State) (c : CoreId) (f : CoreState → CoreState) : (s.modCoreAt c f).flash = s.flash := rfl
@[simp] theorem State.modCoreAt_reserved (s : State) (c : CoreId) (f : CoreState → CoreState) : (s.modCoreAt c f).reserved = s.reserved := rfl
@[simp] theorem State.modCoreAt_powered (s : State) (c : CoreId) (f : CoreState → CoreState) : (s.modCoreAt c f).powered = s.powered := rfl
@[simp] theorem State.modCoreAt_debug (s : State) (c : CoreId) (f : CoreState → CoreState) : (s.modCoreAt c f).debug = s.debug := rfl
@[simp] theorem State.modCoreAt_upsets (s : State) (c : CoreId) (f : CoreState → CoreState) : (s.modCoreAt c f).upsets = s.upsets := rfl
@[simp] theorem State.modCoreAt_fresh (s : State) (c : CoreId) (f : CoreState → CoreState) : (s.modCoreAt c f).fresh = s.fresh := rfl
@[simp] theorem State.modCoreAt_limit (s : State) (c : CoreId) (f : CoreState → CoreState) : (s.modCoreAt c f).limit = s.limit := rfl

@[simp] theorem State.modDie_agenda (s : State) (d : Fin 4) (f : DieState → DieState) : (s.modDie d f).agenda = s.agenda := rfl
@[simp] theorem State.modDie_stream (s : State) (d : Fin 4) (f : DieState → DieState) : (s.modDie d f).stream = s.stream := rfl
@[simp] theorem State.modDie_cur (s : State) (d : Fin 4) (f : DieState → DieState) : (s.modDie d f).cur = s.cur := rfl
@[simp] theorem State.modDie_parked (s : State) (d : Fin 4) (f : DieState → DieState) : (s.modDie d f).parked = s.parked := rfl
@[simp] theorem State.modDie_saved (s : State) (d : Fin 4) (f : DieState → DieState) : (s.modDie d f).saved = s.saved := rfl
@[simp] theorem State.modDie_cores (s : State) (d : Fin 4) (f : DieState → DieState) : (s.modDie d f).cores = s.cores := rfl
@[simp] theorem State.modDie_dies (s : State) (d : Fin 4) (f : DieState → DieState) : (s.modDie d f).dies = s.dies.set d (f s.dies[d]) := rfl
@[simp] theorem State.modDie_queues (s : State) (d : Fin 4) (f : DieState → DieState) : (s.modDie d f).queues = s.queues := rfl
@[simp] theorem State.modDie_tasks (s : State) (d : Fin 4) (f : DieState → DieState) : (s.modDie d f).tasks = s.tasks := rfl
@[simp] theorem State.modDie_nextTask (s : State) (d : Fin 4) (f : DieState → DieState) : (s.modDie d f).nextTask = s.nextTask := rfl
@[simp] theorem State.modDie_mem (s : State) (d : Fin 4) (f : DieState → DieState) : (s.modDie d f).mem = s.mem := rfl
@[simp] theorem State.modDie_poison (s : State) (d : Fin 4) (f : DieState → DieState) : (s.modDie d f).poison = s.poison := rfl
@[simp] theorem State.modDie_pend (s : State) (d : Fin 4) (f : DieState → DieState) : (s.modDie d f).pend = s.pend := rfl
@[simp] theorem State.modDie_frames (s : State) (d : Fin 4) (f : DieState → DieState) : (s.modDie d f).frames = s.frames := rfl
@[simp] theorem State.modDie_moves (s : State) (d : Fin 4) (f : DieState → DieState) : (s.modDie d f).moves = s.moves := rfl
@[simp] theorem State.modDie_commands (s : State) (d : Fin 4) (f : DieState → DieState) : (s.modDie d f).commands = s.commands := rfl
@[simp] theorem State.modDie_coord (s : State) (d : Fin 4) (f : DieState → DieState) : (s.modDie d f).coord = s.coord := rfl
@[simp] theorem State.modDie_fabric (s : State) (d : Fin 4) (f : DieState → DieState) : (s.modDie d f).fabric = s.fabric := rfl
@[simp] theorem State.modDie_host (s : State) (d : Fin 4) (f : DieState → DieState) : (s.modDie d f).host = s.host := rfl
@[simp] theorem State.modDie_mgmt (s : State) (d : Fin 4) (f : DieState → DieState) : (s.modDie d f).mgmt = s.mgmt := rfl
@[simp] theorem State.modDie_log (s : State) (d : Fin 4) (f : DieState → DieState) : (s.modDie d f).log = s.log := rfl
@[simp] theorem State.modDie_flash (s : State) (d : Fin 4) (f : DieState → DieState) : (s.modDie d f).flash = s.flash := rfl
@[simp] theorem State.modDie_reserved (s : State) (d : Fin 4) (f : DieState → DieState) : (s.modDie d f).reserved = s.reserved := rfl
@[simp] theorem State.modDie_powered (s : State) (d : Fin 4) (f : DieState → DieState) : (s.modDie d f).powered = s.powered := rfl
@[simp] theorem State.modDie_debug (s : State) (d : Fin 4) (f : DieState → DieState) : (s.modDie d f).debug = s.debug := rfl
@[simp] theorem State.modDie_upsets (s : State) (d : Fin 4) (f : DieState → DieState) : (s.modDie d f).upsets = s.upsets := rfl
@[simp] theorem State.modDie_fresh (s : State) (d : Fin 4) (f : DieState → DieState) : (s.modDie d f).fresh = s.fresh := rfl
@[simp] theorem State.modDie_limit (s : State) (d : Fin 4) (f : DieState → DieState) : (s.modDie d f).limit = s.limit := rfl

@[simp] theorem State.bump_agenda (s : State) : (s.bump).agenda = s.agenda := rfl
@[simp] theorem State.bump_stream (s : State) : (s.bump).stream = s.stream := rfl
@[simp] theorem State.bump_cur (s : State) : (s.bump).cur = s.cur := rfl
@[simp] theorem State.bump_parked (s : State) : (s.bump).parked = s.parked := rfl
@[simp] theorem State.bump_saved (s : State) : (s.bump).saved = s.saved := rfl
@[simp] theorem State.bump_cores (s : State) : (s.bump).cores = s.cores := rfl
@[simp] theorem State.bump_dies (s : State) : (s.bump).dies = s.dies := rfl
@[simp] theorem State.bump_queues (s : State) : (s.bump).queues = s.queues := rfl
@[simp] theorem State.bump_tasks (s : State) : (s.bump).tasks = s.tasks := rfl
@[simp] theorem State.bump_nextTask (s : State) : (s.bump).nextTask = s.nextTask := rfl
@[simp] theorem State.bump_mem (s : State) : (s.bump).mem = s.mem := rfl
@[simp] theorem State.bump_poison (s : State) : (s.bump).poison = s.poison := rfl
@[simp] theorem State.bump_pend (s : State) : (s.bump).pend = s.pend := rfl
@[simp] theorem State.bump_frames (s : State) : (s.bump).frames = s.frames := rfl
@[simp] theorem State.bump_moves (s : State) : (s.bump).moves = s.moves := rfl
@[simp] theorem State.bump_commands (s : State) : (s.bump).commands = s.commands := rfl
@[simp] theorem State.bump_coord (s : State) : (s.bump).coord = s.coord := rfl
@[simp] theorem State.bump_fabric (s : State) : (s.bump).fabric = s.fabric := rfl
@[simp] theorem State.bump_host (s : State) : (s.bump).host = s.host := rfl
@[simp] theorem State.bump_mgmt (s : State) : (s.bump).mgmt = s.mgmt := rfl
@[simp] theorem State.bump_log (s : State) : (s.bump).log = s.log := rfl
@[simp] theorem State.bump_flash (s : State) : (s.bump).flash = s.flash := rfl
@[simp] theorem State.bump_reserved (s : State) : (s.bump).reserved = s.reserved := rfl
@[simp] theorem State.bump_powered (s : State) : (s.bump).powered = s.powered := rfl
@[simp] theorem State.bump_debug (s : State) : (s.bump).debug = s.debug := rfl
@[simp] theorem State.bump_upsets (s : State) : (s.bump).upsets = s.upsets := rfl
@[simp] theorem State.bump_fresh (s : State) : (s.bump).fresh = s.fresh + 1 := rfl
@[simp] theorem State.bump_limit (s : State) : (s.bump).limit = s.limit := rfl

end Sys2Proof.Machine
end

