-- ==== Sys2Proof/Laws/Flight.lean ====
section
/-! SUPPORT. What issuing an instruction and going past it can do, and which instructions may be gone past. -/

namespace Sys2Proof.Machine

/-- An instruction that may be gone past waits for no token and posts none. -/
theorem mayFly_tokens (i : Instr) (c : Common) (h : mayFly i = true) (hc : i.common = some c) : c.wait = none ∧ c.post = none := by
  simp only [mayFly, hc, Option.all_some, Bool.and_eq_true, Option.isNone_iff_eq_none] at h
  exact h.1

/-- Issuing the next instruction does nothing, or takes the stream past an instruction that may be gone past, which is then the youngest of
those in flight. -/
theorem State.issueNext_cases (s : State) :
    s.issueNext = s ∨ ∃ (i : Instr) (x : InFlight) (v : State), s.nextInstr = some i ∧ mayFly i = true ∧ x.pc = s.pc ∧
      v = (s.modVlc fun v => { v with flights := v.flights ++ [⟨s.stream, i, x, [], false⟩] }) ∧
      s.issueNext = (if clearsVstart i then v.setVstart 0 else v).setPc (s.nextPc i) := by
  unfold State.issueNext
  split
  · exact .inl rfl
  · rename_i i hi
    split
    · rename_i hc
      simp only [State.mayIssue, Bool.and_eq_true] at hc
      exact .inr ⟨i, _, _, hi, hc.1.1.1.1, rfl, rfl, rfl⟩
    · exact .inl rfl

/-- Issuing an instruction performs no part of it: memory, the stores on their way and the registers of the context stay. -/
theorem State.issueNext_frame (s : State) :
    s.issueNext.mem = s.mem ∧ s.issueNext.pend = s.pend ∧ s.issueNext.str.g = s.str.g ∧ s.issueNext.cur.h = s.cur.h ∧
      s.issueNext.cur.vec = s.cur.vec ∧ s.issueNext.cur.tile = s.cur.tile := by
  rcases s.issueNext_cases with h | ⟨i, x, v, -, -, -, rfl, h⟩
  · simp [h]
  · rw [h]
    split <;> cases hs : s.stream <;>
      simp [State.setPc, State.setVstart, State.setStr, State.str, Vlc.setStr, Vlc.str, State.modVlc, State.modCtl, hs]

/-- With no instruction in flight at that place, performing one changes nothing. -/
theorem State.performNth_none (s : State) (k : Nat) (n : Option Nat) (h : s.cur.flights[k]? = none) : s.performNth k n = s := by
  simp [State.performNth, h]

/-- With no instruction of a stream in flight nothing comes before its next one. -/
theorem State.oldestFirst_none (s : State) (st : Stream) (h : s.cur.flights.filter (·.stream == st) = []) : s.oldestFirst st = s := by
  simp [State.oldestFirst, h]

end Sys2Proof.Machine
end

