-- ==== Sys2Proof/Laws/Memory.lean ====
section
/-! SUPPORT. The laws of memory: what a write does to a read, that the canonical form is kept by every operation that writes
memory, and that memories in that form which read alike are equal. -/

namespace Sys2Proof.Machine

/-! ## Lists of cells -/

theorem Memory.wfFrom_mono {lo hi : Nat} (h : lo ≤ hi) : ∀ {m : Memory}, Memory.wfFrom hi m = true → Memory.wfFrom lo m = true
  | [], _ => rfl
  | (a, b) :: rest, w => by
    simp only [Memory.wfFrom, Bool.and_eq_true, decide_eq_true_eq] at w ⊢
    exact ⟨⟨by omega, w.1.2⟩, w.2⟩

/-- A write keeps the form. -/
theorem Memory.write_wfFrom {lo x : Nat} (v : Byte) (hx : lo ≤ x) :
    ∀ {m : Memory}, Memory.wfFrom lo m = true → Memory.wfFrom lo (Memory.write m x v) = true
  | [], _ => by
    unfold Memory.write
    split <;> simp_all [Memory.wfFrom]
  | (a, b) :: rest, w => by
    have w' := w
    simp only [Memory.wfFrom, Bool.and_eq_true, decide_eq_true_eq] at w
    unfold Memory.write
    split
    · rename_i h0
      split
      · exact w'
      · have h1 : x + 1 ≤ a := h0
        simp_all [Memory.wfFrom]
    · rename_i h0
      split
      · split
        · exact Memory.wfFrom_mono (by omega) w.2
        · simp_all [Memory.wfFrom]
      · rename_i h1
        have h2 : a + 1 ≤ x := by omega
        have := Memory.write_wfFrom v h2 w.2
        simp_all [Memory.wfFrom]

theorem Memory.write_wf {m : Memory} (x : Nat) (v : Byte) (w : m.wf = true) : (Memory.write m x v).wf = true :=
  Memory.write_wfFrom v (Nat.zero_le x) w

/-- Nothing is listed below the bound of the form. -/
theorem Memory.read_below {lo x : Nat} (hx : x < lo) : ∀ {m : Memory}, Memory.wfFrom lo m = true → Memory.read m x = 0
  | [], _ => rfl
  | (a, b) :: rest, w => by
    simp only [Memory.wfFrom, Bool.and_eq_true, decide_eq_true_eq] at w
    simp [Memory.read, show x < a by omega]

/-- What every address reads as after a write. -/
theorem Memory.read_writeFrom {lo : Nat} (x y : Nat) (v : Byte) :
    ∀ {m : Memory}, Memory.wfFrom lo m = true → Memory.read (Memory.write m x v) y = if y = x then v else Memory.read m y
  | [], _ => by
    unfold Memory.write
    split
    · split <;> simp_all [Memory.read]
    · simp only [Memory.read]
      split <;> split <;> simp_all
  | (a, b) :: rest, w => by
    simp only [Memory.wfFrom, Bool.and_eq_true, decide_eq_true_eq] at w
    have ih := Memory.read_writeFrom x y v w.2
    unfold Memory.write
    split
    · split
      · rename_i hx h0
        subst h0
        by_cases h2 : y = x
        · subst h2
          simp [Memory.read, hx]
        · simp [h2]
      · simp only [Memory.read]
        by_cases h1 : y < x <;> by_cases h2 : y = x <;> simp_all <;> omega
    · split
      · rename_i h0
        subst h0
        split
        · rename_i hv
          subst hv
          by_cases h2 : y = x
          · subst h2
            simp [Memory.read_below (Nat.lt_succ_self y) w.2]
          · by_cases h1 : y < x
            · simp [Memory.read, h1, h2, Memory.read_below (show y < x + 1 by omega) w.2]
            · simp [Memory.read, h1, h2]
        · simp only [Memory.read]
          by_cases h1 : y < x <;> by_cases h2 : y = x <;> simp_all
      · simp only [Memory.read]
        by_cases h1 : y < a
        · have : y ≠ x := by omega
          simp [h1, this]
        · by_cases h2 : y = a
          · have : y ≠ x := by omega
            subst h2
            simp [this]
          · simp [h1, h2, ih]

theorem Memory.read_write {m : Memory} (w : m.wf = true) (x y : Nat) (v : Byte) :
    Memory.read (Memory.write m x v) y = if y = x then v else Memory.read m y := Memory.read_writeFrom x y v w

theorem Memory.read_write_same {m : Memory} (w : m.wf = true) (x : Nat) (v : Byte) :
    Memory.read (Memory.write m x v) x = v := by simp [Memory.read_write w]

theorem Memory.read_write_other {m : Memory} (w : m.wf = true) {x y : Nat} (h : y ≠ x) (v : Byte) :
    Memory.read (Memory.write m x v) y = Memory.read m y := by simp [Memory.read_write w, h]

/-- Memories in canonical form that read alike are the same data. -/
theorem Memory.ext_read {lo : Nat} : ∀ {m n : Memory}, Memory.wfFrom lo m = true → Memory.wfFrom lo n = true →
    (∀ x, Memory.read m x = Memory.read n x) → m = n
  | [], [], _, _, _ => rfl
  | [], (a, b) :: rest, _, wn, h => by
    simp only [Memory.wfFrom, Bool.and_eq_true, decide_eq_true_eq] at wn
    have := h a
    simp_all [Memory.read]
  | (a, b) :: rest, [], wm, _, h => by
    simp only [Memory.wfFrom, Bool.and_eq_true, decide_eq_true_eq] at wm
    have := h a
    simp_all [Memory.read]
  | (a, b) :: m, (c, d) :: n, wm, wn, h => by
    simp only [Memory.wfFrom, Bool.and_eq_true, decide_eq_true_eq, bne_iff_ne, ne_eq] at wm wn
    have ha := h a
    have hc := h c
    simp only [Memory.read, Nat.lt_irrefl, if_false, if_true] at ha hc
    have hac : a = c := by
      rcases Nat.lt_trichotomy a c with l | l | l
      · simp [l] at ha; exact absurd ha wm.1.2
      · exact l
      · simp [l] at hc; exact absurd hc.symm wn.1.2
    subst hac
    have hbd : b = d := by simpa using ha
    subst hbd
    have := Memory.ext_read wm.2 wn.2 fun x => by
      by_cases hx : x < a + 1
      · rw [Memory.read_below hx wm.2, Memory.read_below hx wn.2]
      · have := h x
        simpa [Memory.read, show ¬ x < a by omega, show x ≠ a by omega] using this
    rw [this]

/-! ## Runs of bytes -/

/-- A fold of writes keeps the form, whatever it writes. -/
theorem Memory.foldl_wf {α : Type} (at_ : α → Nat) (val : Memory → α → Byte) :
    ∀ (l : List α) {m : Memory}, m.wf = true → (l.foldl (fun m x => Memory.write m (at_ x) (val m x)) m).wf = true
  | [], _, w => w
  | _ :: l, _, w => Memory.foldl_wf at_ val l (Memory.write_wf _ _ w)

theorem writeMem_wf (ga : Nat) (bs : List Byte) {m : Memory} (w : m.wf = true) : (writeMem m ga bs).wf = true := by
  unfold writeMem
  suffices h : ∀ (bs : List Byte) (acc : Memory × Nat), acc.1.wf = true →
      (bs.foldl (fun (acc : Memory × Nat) b => (Memory.write acc.1 acc.2 b, acc.2 + 1)) acc).1.wf = true from h bs (m, ga) w
  intro bs
  induction bs with
  | nil => exact fun _ h => h
  | cons b bs ih => exact fun acc h => ih _ (Memory.write_wf _ _ h)

/-! ## Operations on the machine's memory -/

@[simp] theorem raiseEvent_mem (s : State) (k : Nat) : (s.raiseEvent k).mem = s.mem := rfl
@[simp] theorem bump_mem (s : State) : s.bump.mem = s.mem := rfl
@[simp] theorem modPort_mem (s : State) (p : Fin 16) (f : Port → Port) : (s.modPort p f).mem = s.mem := rfl
@[simp] theorem countDrop_mem (s : State) (r : Nat) : (s.countDrop r).mem = s.mem := rfl
@[simp] theorem touchHost_mem (s : State) (ga : Nat) (own : Bool) : (s.touchHost ga own).mem = s.mem := by
  unfold State.touchHost; split <;> rfl
@[simp] theorem sample_mem (s : State) (h : Nat) (e : BitVec 13) : (s.sample h e).mem = s.mem := by
  unfold State.sample; split <;> rfl
@[simp] theorem putOwner_mem (s : State) (d : Fin 4) (h : Nat) (e : BitVec 13) : (s.putOwner d h e).mem = s.mem := rfl
@[simp] theorem redirect_mem (s : State) (d : Fin 4) (h : Nat) : (s.redirect d h).mem = s.mem := by
  unfold State.redirect
  split
  · rfl
  · split <;> rfl
@[simp] theorem sendAnswered_mem (s : State) (p : Packet) : (s.sendAnswered p).mem = s.mem := rfl
@[simp] theorem groupRequest_mem (s : State) (k g ga : Nat) (bs : List Byte) (n : Nat) :
    (s.groupRequest k g ga bs n).mem = s.mem := rfl
@[simp] theorem ownRequest_mem (s : State) (d : Fin 4) (a : Ask) (h : Nat) (gas : List Nat) : (s.ownRequest d a h gas).mem = s.mem := by
  unfold State.ownRequest
  dsimp only
  split <;> rfl

/-- A fold of operations that leave memory alone leaves it alone. -/
theorem foldl_mem {α : Type} {f : State → α → State} (hf : ∀ s x, (f s x).mem = s.mem) :
    ∀ (l : List α) (s : State), (l.foldl f s).mem = s.mem
  | [], _ => rfl
  | x :: l, s => by rw [List.foldl_cons, foldl_mem hf l, hf]

@[simp] theorem touchLines_mem (s : State) (gas : List Nat) (own : Bool) : (s.touchLines gas own).mem = s.mem :=
  foldl_mem (fun s x => touchHost_mem s (64 * x) own) _ s

/-- What performing an access does besides leaves memory alone (R327, R344, R352, R379). -/
@[simp] theorem noteAccess_mem (s : State) (d : Fin 4) (gas : List Nat) (a : Ask) : (s.noteAccess d gas a).mem = s.mem := by
  unfold State.noteAccess
  rw [touchLines_mem]
  exact foldl_mem (fun s h => by rw [sample_mem, redirect_mem, ownRequest_mem]) _ s

/-- A log record is written to the ring, or nothing is (R442). -/
theorem logEvent_kept {s : State} (k l : Nat) (a b c d : Word) (w : MemoryKept s) : MemoryKept (s.logEvent k l a b c d) := by
  unfold MemoryKept State.logEvent
  split
  · simp only [raiseEvent_mem, bump_mem]
    exact writeMem_wf _ _ w
  · exact w

theorem performBytes_kept {s : State} (bs : List MByte) (p : Bool) (w : MemoryKept s) : MemoryKept (s.performBytes bs p) :=
  Memory.foldl_wf (m := s.mem) (fun b : MByte => b.ga) (fun m b => mergeByte (Memory.read m b.ga) b) bs w

theorem requestFailed_kept {s : State} (l : Nat) (pc : Word) (k d r : Nat) (st : Bool) (w : MemoryKept s) :
    MemoryKept (s.requestFailed l pc k d r st) := by
  unfold State.requestFailed
  apply logEvent_kept
  repeat' split
  all_goals exact w

theorem noteAccess_kept {s : State} (d : Fin 4) (gas : List Nat) (a : Ask) (w : MemoryKept s) : MemoryKept (s.noteAccess d gas a) := by
  unfold MemoryKept; rw [noteAccess_mem]; exact w

/-! What a stream has observed and released is no memory (R366 to R368). -/

@[simp] theorem traced_mem (s : State) (gas : List Nat) (l : Loc) (ids : List Nat) : (s.traced gas l ids).mem = s.mem := by
  unfold State.traced; split <;> rfl
@[simp] theorem markReleased_mem (s : State) (ids : List Nat) : (s.markReleased ids).mem = s.mem := by
  unfold State.markReleased; split <;> rfl
@[simp] theorem observe_mem (s : State) (ids : List Nat) : (s.observe ids).mem = s.mem := by
  unfold State.observe; split <;> rfl
@[simp] theorem noteTold_mem (s : State) (x : List Nat × List (Loc × List Nat)) : (s.noteTold x).mem = s.mem := by
  unfold State.noteTold
  dsimp only
  split
  · exact observe_mem _ _
  · exact observe_mem _ _
@[simp] theorem noteSeen_mem (s : State) (p : Path) (gas : List Nat) : (s.noteSeen p gas).mem = s.mem := noteTold_mem _ _
@[simp] theorem touch_mem (s : State) (gas : List Nat) : (s.touch gas).mem = s.mem := by
  unfold State.touch; split <;> rfl
@[simp] theorem forget_mem (s : State) : s.forget.mem = s.mem := by
  unfold State.forget; split <;> rfl
@[simp] theorem writes_mem (s : State) (gas : List Nat) : (s.writes gas).mem = s.mem := by
  unfold State.writes
  dsimp only
  split
  · exact touch_mem _ _
  · exact touch_mem _ _
@[simp] theorem acquire_mem (s : State) (sc : Scope) (n : Nat) : (s.acquire sc n).mem = s.mem := by
  unfold State.acquire
  dsimp only
  split
  · exact forget_mem _
  · exact (observe_mem _ _).trans (forget_mem _)
@[simp] theorem notePosted_mem (s : State) (line place : Nat) (ids : List Nat) : (s.notePosted line place ids).mem = s.mem := by
  unfold State.notePosted; split <;> rfl
@[simp] theorem shiftPosted_mem (s : State) (line : Nat) : (s.shiftPosted line).mem = s.mem := by
  unfold State.shiftPosted; split <;> rfl
@[simp] theorem takePosted_mem (s : State) (line : Nat) : (s.takePosted line).mem = s.mem := by
  unfold State.takePosted; simp

/-- What a store does at the end of its path (R342, R359, R395) keeps the form. -/
theorem performEntry_kept {s : State} (e : Entry) (w : MemoryKept s) : MemoryKept (s.performEntry e) := by
  unfold State.performEntry
  split
  · exact w
  · dsimp only
    split
    · split
      · exact w
      · split <;> exact w
    · split
      · exact w
      · split
        · apply noteAccess_kept
          unfold MemoryKept
          rw [traced_mem]
          exact performBytes_kept _ _ w
        · exact requestFailed_kept _ _ _ _ _ _ w

theorem performAll_kept (l : List Entry) : ∀ {s : State}, MemoryKept s → MemoryKept (l.foldl State.performEntry s) := by
  induction l with
  | nil => exact fun w => w
  | cons e l ih => exact fun w => ih (performEntry_kept e w)

theorem drain_kept {s : State} (p : Path) (n : Nat) (w : MemoryKept s) : MemoryKept (s.drain p n) := by
  unfold State.drain
  dsimp only
  split
  · exact performAll_kept _ w
  · exact w

/-- Below the ownership point a drain writes no memory. -/
theorem drain_mem (s : State) (p : Path) {n : Nat} (h : n < 5) : (s.drain p n).mem = s.mem := by
  unfold State.drain
  simp [show ¬ n ≥ 5 by omega]

@[simp] theorem closeStrip_mem (s : State) : s.closeStrip.mem = s.mem := rfl
@[simp] theorem closing_mem (s : State) (sc : Scope) : (s.closing sc).mem = s.mem := by
  unfold State.closing; split <;> rfl
@[simp] theorem moveToContext_mem (s : State) (st : Stream) : (s.moveToContext st).mem = s.mem := rfl
@[simp] theorem disarm_mem (s : State) : s.disarm.mem = s.mem := by
  unfold State.disarm; split <;> rfl

/-- A store that enters its path leaves memory alone (R359). -/
theorem storeEntry_mem (s : State) (v : Bool) (bs : List MByte) : (s.storeEntry v bs).mem = s.mem := by
  unfold State.storeEntry
  split
  · rfl
  · dsimp only
    split
    · exact writes_mem _ _
    · split
      · split <;> exact writes_mem _ _
      · exact writes_mem _ _

theorem release_kept {s t : State} {sc : Scope} (h : s.release sc = some t) (w : MemoryKept s) : MemoryKept t := by
  have wc : MemoryKept (s.closing sc) := by unfold MemoryKept; rw [closing_mem]; exact w
  unfold State.release at h
  dsimp only at h
  split at h
  · exact absurd h (by simp)
  · rw [← Option.some.inj h]
    unfold MemoryKept
    rw [markReleased_mem]
    exact drain_kept _ _ wc

/-- A release of a whole context writes no memory: device scope lies before the ownership point (R293). -/
theorem releaseVlc_mem {s t : State} (h : s.releaseVlc = some t) : t.mem = s.mem := by
  unfold State.releaseVlc at h
  dsimp only at h
  split at h
  · exact absurd h (by simp)
  · rw [← Option.some.inj h, markReleased_mem, drain_mem _ _ (by decide), drain_mem _ _ (by decide), closing_mem]

theorem drainAll_kept {s : State} (w : MemoryKept s) : MemoryKept s.drainAll := performAll_kept _ w

/-- A fold of operations that keep the form keeps it. -/
theorem foldl_kept {α : Type} {f : State → α → State} (hf : ∀ s x, MemoryKept s → MemoryKept (f s x)) :
    ∀ (l : List α) {s : State}, MemoryKept s → MemoryKept (l.foldl f s)
  | [], _, w => w
  | x :: l, _, w => foldl_kept hf l (hf _ x w)

theorem pointWrite_kept {s : State} (gas : List Nat) (bs : List Byte) (p : Bool) (w : MemoryKept s) :
    MemoryKept (s.pointWrite gas bs p) := by
  unfold State.pointWrite MemoryKept
  dsimp only
  rw [touchLines_mem]
  exact foldl_kept (f := fun (s : State) x => s.performBytes ((mbytes gas bs).filter fun b => gaLine b.ga == x) p)
    (fun s x => performBytes_kept _ _) (linesOf (mbytes gas bs)) w

theorem storeEntry_kept {s : State} (v : Bool) (bs : List MByte) (w : MemoryKept s) : MemoryKept (s.storeEntry v bs) := by
  unfold MemoryKept; rw [storeEntry_mem]; exact w

theorem storeAtMember_kept {s : State} (ms : List MByte) (w : MemoryKept s) : MemoryKept (s.storeAtMember ms) := by
  unfold State.storeAtMember
  dsimp only
  split
  · exact storeEntry_kept _ _ w
  · split
    · exact drain_kept s.path 4 w
    · exact w

theorem copyToMember_kept {s : State} (ea : Word) (bs : List MByte) (m : Nat) (w : MemoryKept s) :
    MemoryKept (s.copyToMember ea bs m) := by
  unfold State.copyToMember
  dsimp only
  split
  · exact w
  · split
    · exact requestFailed_kept _ _ _ _ _ _ w
    · exact foldl_kept (fun _ _ => storeAtMember_kept _) _ w

theorem writeAtMember_kept {s : State} (l : Loc) (m : Nat) (gas : List Nat) (bs : List Byte) (bad : Bool) (w : MemoryKept s) :
    MemoryKept (s.writeAtMember l m gas bs bad) := by
  unfold State.writeAtMember
  dsimp only
  split
  · unfold State.engineWrite
    refine foldl_kept ?_ _ w
    exact fun _ _ h => h
  · split
    · exact w
    · exact foldl_kept (fun _ _ => performBytes_kept _ _) _ w

theorem setEndpoint_kept {s : State} (e : BitVec 13) (w : MemoryKept s) : MemoryKept (s.setEndpoint e) := by
  unfold State.setEndpoint
  dsimp only
  split
  · exact w
  · exact Memory.foldl_wf (fun c : Host.Cell => renumber s.here e.toNat c.1) (fun _ c => c.2)
      (s.mem.filter fun c => gaEndpoint c.1 != e.toNat) (m := []) rfl

/-! ## Reads and translations keep the form -/

theorem countCorrected_kept {s : State} (l : Nat) (w : MemoryKept s) : MemoryKept (s.countCorrected l) := by
  unfold State.countCorrected
  split <;> exact w

theorem markUncorrectable_kept {s : State} (g : Option Nat) (l : Nat) (w : MemoryKept s) : MemoryKept (s.markUncorrectable g l) := by
  unfold State.markUncorrectable
  split
  · exact w
  · apply logEvent_kept
    split <;> exact w

theorem fireWith_kept {f : State → Nat → State} (hf : ∀ s l, MemoryKept s → MemoryKept (f s l)) {s : State} (ga : Nat)
    (w : MemoryKept s) : MemoryKept (State.fireWith f s ga) := by
  unfold State.fireWith
  split
  · dsimp only
    unfold State.modCoreAt
    show MemoryKept (State.logEvent _ _ _ _ _ _ _)
    apply logEvent_kept
    split
    · exact hf _ _ w
    · exact markUncorrectable_kept _ _ w
    · exact w
  · exact w

theorem copyLines_kept {s : State} (h : Nat) (w : MemoryKept s) : MemoryKept (s.copyLines h) := by
  unfold State.copyLines
  split
  · exact foldl_kept (fun _ ga => fireWith_kept (fun _ l => countCorrected_kept l) ga) (frameLines h) w
  · exact w

theorem retire_kept {s : State} (f c : Nat) (w : MemoryKept s) : MemoryKept (s.retire f c) := by
  unfold State.retire
  split
  · dsimp only
    split
    · exact w
    · split
      · exact logEvent_kept _ _ _ _ _ _ w
      · apply logEvent_kept
        split
        · exact copyLines_kept _ w
        · exact w
        · exact w
  · exact w

theorem retireDue_kept {s : State} (f c : Nat) (w : MemoryKept s) : MemoryKept (s.retireDue f c) := by
  unfold State.retireDue
  split
  · split <;> exact w
  · exact retire_kept _ _ w

theorem correctedError_kept {s : State} (l : Nat) (w : MemoryKept s) : MemoryKept (s.correctedError l) := by
  unfold State.correctedError
  dsimp only
  split
  · exact retireDue_kept _ _ (countCorrected_kept _ w)
  · exact countCorrected_kept _ w

theorem fireInjection_kept {s : State} (ga : Nat) (w : MemoryKept s) : MemoryKept (s.fireInjection ga) :=
  fireWith_kept (fun _ l => correctedError_kept l) ga w

theorem fireInjections_kept {s : State} (gas : List Nat) (w : MemoryKept s) : MemoryKept (s.fireInjections gas) := by
  unfold State.fireInjections
  split
  · exact foldl_kept (fun s ga => fireInjection_kept ga) gas w
  · exact w

theorem readNode_kept {s : State} (l : Loc) (x : Nat) (w : MemoryKept s) : MemoryKept (s.readNode l x).2 := by
  unfold State.readNode
  split
  · exact w
  · dsimp only
    repeat' split
    all_goals first
      | exact w
      | exact fireInjections_kept _ w
      | exact requestFailed_kept _ _ _ _ _ _ (fireInjections_kept _ w)
      | exact noteAccess_kept _ _ _ (fireInjections_kept _ w)

theorem walk_kept (l : Loc) (asid : BitVec 16) (root : BitVec 44) (va : Word) :
    ∀ (n : Nat) (keep : Bool) (base : Nat) {s : State}, MemoryKept s → MemoryKept (s.walk l asid root va keep n base).2 := by
  have node : ∀ {s t : State} {x : Nat} {r : NodeRead}, MemoryKept s → s.readNode l x = (r, t) → MemoryKept t := by
    intro s t x r w h
    have := readNode_kept l x w
    rwa [h] at this
  intro n
  induction n with
  | zero =>
    intro keep base s w
    unfold State.walk
    dsimp only
    split
    · exact node w ‹_›
    · exact node w ‹_›
    · repeat' split
      all_goals exact node w ‹_›
  | succ n ih =>
    intro keep base s w
    unfold State.walk
    dsimp only
    split
    · exact node w ‹_›
    · exact node w ‹_›
    · repeat' split
      all_goals first
        | exact node w ‹_›
        | exact ih _ _ (node w ‹_›)

theorem translate_kept {s : State} (l : Loc) (atp : Word) (asid : BitVec 16) (sys : Bool) (acc : Acc) (va : Word)
    (w : MemoryKept s) : MemoryKept (s.translate l atp asid sys acc va).2 := by
  have leaf : ∀ {t : State} {r}, s.findLeaf l atp asid va = (r, t) → MemoryKept t := by
    intro t r h
    have : MemoryKept (s.findLeaf l atp asid va).2 := by
      unfold State.findLeaf
      dsimp only
      split
      · exact w
      · split
        · exact w
        · exact walk_kept _ _ _ _ _ _ _ w
    rwa [h] at this
  unfold State.translate
  dsimp only
  split
  · exact w
  · split
    · exact w
    · split
      · exact leaf ‹_›
      · have fill : ∀ {t : State} {r} {e : TlbEntry}, s.findLeaf l atp asid va = (r, t) → MemoryKept (t.fillTlbs l e) := leaf
        repeat' split
        all_goals first | exact leaf ‹_› | exact fill ‹_›

theorem xlate_kept {s : State} (acc : Acc) (va : Word) (w : MemoryKept s) : MemoryKept (s.xlate acc va).2 := by
  have key := translate_kept s.cur.loc s.cur.ctl.atp s.cur.ctl.asid s.cur.ctl.sys acc va w
  unfold State.xlate
  split
  · rename_i h; rw [h] at key; dsimp only; split <;> exact key
  · rename_i h; rw [h] at key; exact key

theorem xlateBytes_kept {x : Xlate} (hx : ∀ s va, MemoryKept s → MemoryKept (x s va).2) :
    ∀ (n : Nat) (va : Word) (k : Option (Nat × Nat)) {s : State}, MemoryKept s → MemoryKept (xlateBytes x n va k s).2
  | 0, _, _, _, w => w
  | n + 1, va, k, s, w => by
    have rest : ∀ (y : Except Flt Nat × State), MemoryKept y.2 → MemoryKept (match y.1 with
          | .error f => ((.error f, y.2) : Except Flt (List Nat) × State)
          | .ok ga =>
            if y.2.gaFaults ga then (.error (.accessAt va), y.2)
            else
              match (xlateBytes x n (va + 1) (some (va.toNat / 4096, ga - va.toNat % 4096)) y.2).1 with
              | .error f => (.error f, (xlateBytes x n (va + 1) (some (va.toNat / 4096, ga - va.toNat % 4096)) y.2).2)
              | .ok rest =>
                (.ok (ga :: rest), (xlateBytes x n (va + 1) (some (va.toNat / 4096, ga - va.toNat % 4096)) y.2).2)).2 := by
      intro y h
      split
      · exact h
      · split
        · exact h
        · have := xlateBytes_kept hx n (va + 1) (some (va.toNat / 4096, ‹Nat› - va.toNat % 4096)) h
          split <;> exact this
    unfold xlateBytes
    cases k with
    | none => exact rest (x s va) (hx s va w)
    | some p =>
      obtain ⟨p, g⟩ := p
      dsimp only
      by_cases hp : (p == va.toNat / 4096) = true
      · rw [if_pos hp]; exact rest (.ok (g + va.toNat % 4096), s) w
      · rw [if_neg hp]; exact rest (x s va) (hx s va w)

theorem xlateRow_kept {s : State} (acc : Acc) (va : Word) (n : Nat) (w : MemoryKept s) : MemoryKept (s.xlateRow acc va n).2 :=
  xlateBytes_kept (fun _ va => xlate_kept acc va) n va none w

theorem xlateN_kept {s : State} (acc : Acc) (va : Word) (n : Nat) (w : MemoryKept s) : MemoryKept (s.xlateN acc va n).2 := by
  have key := xlateRow_kept acc va n w
  unfold State.xlateN
  split
  · rename_i h
    rw [h] at key
    dsimp only
    split
    · exact key
    · split
      all_goals
        rename_i h
        have := xlate_kept acc ((va + BitVec.ofNat 64 (n - 1)) &&& ~~~(0xFFF : Word)) key
        rw [h] at this
        exact this
  · exact key

theorem readAs_kept {s : State} (a : Ask) (p : Path) (gas : List Nat) (w : MemoryKept s) : MemoryKept (s.readAs a p gas).2 := by
  unfold State.readAs
  dsimp only
  split
  · exact w
  · apply noteAccess_kept
    split
    · exact requestFailed_kept _ _ _ _ _ _ (fireInjections_kept _ w)
    · exact fireInjections_kept _ w

theorem readBytes_kept {s : State} (p : Path) (gas : List Nat) (w : MemoryKept s) : MemoryKept (s.readBytes p gas).2 :=
  readAs_kept .load p gas w

/-- A load of a stream, bound ahead or not (R362), keeps the form. -/
theorem readOwn_kept {s : State} (a : Ask) (p : Path) (gas : List Nat) (w : MemoryKept s) : MemoryKept (s.readOwn a p gas).2 := by
  have wt : MemoryKept (s.touch gas) := by unfold MemoryKept; rw [touch_mem]; exact w
  unfold State.readOwn
  dsimp only
  split
  · dsimp only
    split
    · exact readAs_kept _ _ _ wt
    · unfold MemoryKept; rw [noteSeen_mem]; exact readAs_kept _ _ _ wt
  · split
    · split
      · exact wt
      · unfold MemoryKept
        change ((State.noteTold _ _).mem).wf = true
        rw [noteTold_mem, noteSeen_mem]
        exact wt
    · have := readAs_kept a p (gas.filter fun ga =>
        ((s.touch gas).str.early.filter fun x => x.level == p.level && gas.contains x.ga).all (·.ga != ga)) wt
      split
      · exact this
      · unfold MemoryKept
        change ((State.noteTold _ _).mem).wf = true
        rw [noteTold_mem, noteSeen_mem]
        exact this

theorem load_kept {s : State} (va : Word) (n : Nat) (w : MemoryKept s) : MemoryKept (s.load va n).2 := by
  have key := xlateN_kept .read va n w
  unfold State.load
  split
  · rename_i h; rw [h] at key; exact key
  · rename_i h; rw [h] at key
    have := readOwn_kept .load ‹State›.path ‹List Nat› key
    dsimp only
    split <;> exact this

/-- A store keeps the form: its translation may write a log record, the store itself enters its path (R359). -/
theorem storeAt_kept {s : State} (v : Bool) (va : Word) (bs : List Byte) (w : MemoryKept s) :
    MemoryKept (s.storeAt v va bs).2 ∧ ∀ t, (s.storeAt v va bs).1 = .ok t → MemoryKept t := by
  have key := xlateN_kept .write va bs.length w
  unfold State.storeAt
  split
  · rename_i h; rw [h] at key; exact ⟨key, fun _ h => by simp at h⟩
  · rename_i h; rw [h] at key
    dsimp only
    split
    · exact ⟨key, fun t h => by rw [← Except.ok.inj h]; exact storeEntry_kept _ _ key⟩
    · exact ⟨key, fun t h => by rw [← Except.ok.inj h]; exact foldl_kept (fun _ _ => storeEntry_kept _ _) _ key⟩

theorem store_kept {s : State} (v : Bool) (va : Word) (bs : List Byte) (w : MemoryKept s) : MemoryKept (s.store v va bs).2 := by
  obtain ⟨h1, h2⟩ := storeAt_kept v va bs w
  unfold State.store
  split
  · rename_i h; rw [h] at h2; exact h2 _ rfl
  · rename_i h; rw [h] at h1; exact h1

end Sys2Proof.Machine
end

