-- ==== Sys2Proof/Laws/Ops.lean ====
section
/-! SUPPORT. What the shared operations can do, once for each: registers, translation, loads and stores, and traps. -/

namespace Sys2Proof.Machine

/-! ## Registers -/

theorem setStr_str (s : State) (x : StreamState) : (s.setStr x).str = x := by
  show ((s.cur.setStr s.stream x).str s.stream) = x
  cases s.stream <;> rfl

theorem gread_zero (s : State) : s.gread 0 = 0 := rfl
theorem gwrite_zero (s : State) (x : Word) : s.gwrite 0 x = s := rfl

theorem gread_gwrite (s : State) (n m : Fin 32) (x : Word) :
    (s.gwrite n x).gread m = if m = 0 then 0 else if m = n then x else s.gread m := by
  by_cases hm : m = 0
  · simp [State.gread, hm]
  · by_cases hn : n = 0
    · subst hn
      simp [hm, gwrite_zero]
    · unfold State.gread State.gwrite
      simp only [hm, hn, if_false, setStr_str]
      by_cases h : m = n
      · subst h; simp
      · have : ¬ n.val = m.val := fun e => h (Fin.ext e.symm)
        simp [h, this]

theorem gwrite_pc (s : State) (n : Fin 32) (x : Word) : (s.gwrite n x).pc = s.pc := by
  unfold State.gwrite
  split
  · rfl
  · simp [State.pc]

/-! ## What an access leaves alone -/

/-- `s` with the parts of the machine behind its contexts taken from `t`: cores, dies, memory and its marks, and the units of the module. -/
def State.putDevice (s t : State) : State :=
  { s with
    cores := t.cores, dies := t.dies, mem := t.mem, poison := t.poison, coord := t.coord, fabric := t.fabric, host := t.host,
    mgmt := t.mgmt, log := t.log, flash := t.flash, fresh := t.fresh }

/-- Two states that differ at most behind the contexts: in no register, no store on its way, no move and no task. -/
def OnlyDevice (s t : State) : Prop := t = s.putDevice t

theorem OnlyDevice.refl (s : State) : OnlyDevice s s := rfl
theorem OnlyDevice.trans {s t u : State} (h : OnlyDevice s t) (k : OnlyDevice t u) : OnlyDevice s u := by
  unfold OnlyDevice at *
  rw [h] at k
  exact k
theorem OnlyDevice.cur {s t : State} (h : OnlyDevice s t) : t.cur = s.cur := by rw [h]; rfl
theorem OnlyDevice.stream {s t : State} (h : OnlyDevice s t) : t.stream = s.stream := by rw [h]; rfl
theorem OnlyDevice.pend {s t : State} (h : OnlyDevice s t) : t.pend = s.pend := by rw [h]; rfl
theorem OnlyDevice.moves {s t : State} (h : OnlyDevice s t) : t.moves = s.moves := by rw [h]; rfl
theorem OnlyDevice.frames {s t : State} (h : OnlyDevice s t) : t.frames = s.frames := by rw [h]; rfl
theorem OnlyDevice.upsets {s t : State} (h : OnlyDevice s t) : t.upsets = s.upsets := by rw [h]; rfl
theorem OnlyDevice.limit {s t : State} (h : OnlyDevice s t) : t.limit = s.limit := by rw [h]; rfl
theorem OnlyDevice.str {s t : State} (h : OnlyDevice s t) : t.str = s.str := by unfold State.str; rw [h.cur, h.stream]
theorem OnlyDevice.path {s t : State} (h : OnlyDevice s t) : t.path = s.path := by unfold State.path; rw [h.cur, h.stream]

theorem foldl_device {α : Type} {f : State → α → State} (hf : ∀ s x, OnlyDevice s (f s x)) :
    ∀ (l : List α) (s : State), OnlyDevice s (l.foldl f s)
  | [], s => .refl s
  | x :: l, s => (hf s x).trans (foldl_device hf l _)

theorem logEvent_device (s : State) (k l : Nat) (a b c d : Word) : OnlyDevice s (s.logEvent k l a b c d) := by
  unfold State.logEvent
  split
  · generalize leBytes 4 _ ++ _ ++ _ ++ _ ++ _ ++ _ ++ _ ++ _ ++ _ = bs
    generalize hm : writeMem _ _ _ = m
    unfold State.raiseEvent State.bump
    dsimp only
    rw [hm]
    rfl
  · rfl

theorem requestFailed_device (s : State) (l : Nat) (pc : Word) (k d r : Nat) (st : Bool) :
    OnlyDevice s (s.requestFailed l pc k d r st) := by
  unfold State.requestFailed
  dsimp only
  refine OnlyDevice.trans ?_ (logEvent_device _ _ _ _ _ _ _)
  repeat' split
  all_goals rfl

theorem noteAccess_device (s : State) (d : Fin 4) (gas : List Nat) (a : Ask) : OnlyDevice s (s.noteAccess d gas a) := by
  have touch : ∀ (s : State) (x : Nat), OnlyDevice s (s.touchHost x a.owns) := by
    intro s x; unfold State.touchHost; split <;> rfl
  have note : ∀ (s : State) (h : Nat), OnlyDevice s (((s.ownRequest d a h gas).redirect d h).sample h s.fabric.fendp) := by
    intro s h
    have h1 : OnlyDevice s (s.ownRequest d a h gas) := by unfold State.ownRequest; dsimp only; split <;> rfl
    have h2 : ∀ t : State, OnlyDevice t (t.redirect d h) := by
      intro t; unfold State.redirect; split
      · rfl
      · split <;> rfl
    have h3 : ∀ (t : State) (e : BitVec 13), OnlyDevice t (t.sample h e) := by
      intro t e; unfold State.sample; split <;> rfl
    exact (h1.trans (h2 _)).trans (h3 _ _)
  unfold State.noteAccess State.touchLines
  exact (foldl_device note _ s).trans (foldl_device (fun s x => touch s (64 * x)) _ _)

theorem countCorrected_device (s : State) (l : Nat) : OnlyDevice s (s.countCorrected l) := by
  unfold State.countCorrected
  split <;> rfl

theorem markUncorrectable_device (s : State) (g : Option Nat) (l : Nat) : OnlyDevice s (s.markUncorrectable g l) := by
  unfold State.markUncorrectable
  split
  · rfl
  · refine OnlyDevice.trans ?_ (logEvent_device _ _ _ _ _ _ _)
    split <;> rfl

theorem fireWith_device {f : State → Nat → State} (hf : ∀ s l, OnlyDevice s (f s l)) (s : State) (ga : Nat) :
    OnlyDevice s (State.fireWith f s ga) := by
  unfold State.fireWith
  split
  · dsimp only
    refine OnlyDevice.trans (OnlyDevice.trans ?_ (logEvent_device _ _ _ _ _ _ _)) (by rfl)
    split
    · exact hf _ _
    · exact markUncorrectable_device _ _ _
    · rfl
  · rfl

theorem copyLines_device (s : State) (h : Nat) : OnlyDevice s (s.copyLines h) := by
  unfold State.copyLines
  split
  · exact foldl_device (fireWith_device countCorrected_device) _ s
  · rfl

theorem retireDue_device (s : State) (f c : Nat) : OnlyDevice s (s.retireDue f c) := by
  unfold State.retireDue
  split
  · split <;> rfl
  · unfold State.retire
    split
    · dsimp only
      split
      · rfl
      · split
        · exact logEvent_device _ _ _ _ _ _ _
        · refine OnlyDevice.trans ?_ (logEvent_device _ _ _ _ _ _ _)
          split
          · exact (copyLines_device _ _).trans rfl
          · rfl
          · rfl
    · rfl

theorem fireInjection_device (s : State) (ga : Nat) : OnlyDevice s (s.fireInjection ga) := by
  refine fireWith_device ?_ s ga
  intro s l
  unfold State.correctedError
  dsimp only
  split
  · exact (countCorrected_device _ _).trans (retireDue_device _ _ _)
  · exact countCorrected_device _ _

theorem fireInjections_device (s : State) (gas : List Nat) : OnlyDevice s (s.fireInjections gas) := by
  unfold State.fireInjections
  split
  · exact foldl_device fireInjection_device gas s
  · rfl

theorem readAs_device (s : State) (a : Ask) (p : Path) (gas : List Nat) : OnlyDevice s (s.readAs a p gas).2 := by
  unfold State.readAs
  dsimp only
  split
  · rfl
  · refine OnlyDevice.trans ?_ (noteAccess_device _ _ _ _)
    split
    · exact (fireInjections_device _ _).trans (requestFailed_device _ _ _ _ _ _ _)
    · exact fireInjections_device _ _

theorem readNode_device (s : State) (l : Loc) (x : Nat) : OnlyDevice s (s.readNode l x).2 := by
  unfold State.readNode
  split
  · rfl
  · dsimp only
    repeat' split
    all_goals first
      | rfl
      | exact fireInjections_device _ _
      | exact (fireInjections_device _ _).trans (requestFailed_device _ _ _ _ _ _ _)
      | exact (fireInjections_device _ _).trans (noteAccess_device _ _ _ _)

theorem walk_device (l : Loc) (asid : BitVec 16) (root : BitVec 44) (va : Word) :
    ∀ (n : Nat) (keep : Bool) (base : Nat) (s : State), OnlyDevice s (s.walk l asid root va keep n base).2 := by
  have node : ∀ {s t : State} {x : Nat} {r : NodeRead}, s.readNode l x = (r, t) → OnlyDevice s t := by
    intro s t x r h
    have := readNode_device s l x
    rwa [h] at this
  intro n
  induction n with
  | zero =>
    intro keep base s
    unfold State.walk
    dsimp only
    split
    · exact node ‹_›
    · exact node ‹_›
    · repeat' split
      all_goals exact node ‹_›
  | succ n ih =>
    intro keep base s
    unfold State.walk
    dsimp only
    split
    · exact node ‹_›
    · exact node ‹_›
    · repeat' split
      all_goals first
        | exact node ‹_›
        | exact (node ‹_›).trans (ih _ _ _)

/-- A translation changes no register and no store (R330 to R336): its walk reads memory as a load does. -/
theorem translate_device (s : State) (l : Loc) (atp : Word) (asid : BitVec 16) (sys : Bool) (acc : Acc) (va : Word) :
    OnlyDevice s (s.translate l atp asid sys acc va).2 := by
  have leaf : ∀ {t : State} {r}, s.findLeaf l atp asid va = (r, t) → OnlyDevice s t := by
    intro t r h
    have : OnlyDevice s (s.findLeaf l atp asid va).2 := by
      unfold State.findLeaf
      dsimp only
      split
      · rfl
      · split
        · rfl
        · exact walk_device _ _ _ _ _ _ _ _
    rwa [h] at this
  have fill : ∀ {t : State} {r} {e : TlbEntry}, s.findLeaf l atp asid va = (r, t) → OnlyDevice s (t.fillTlbs l e) :=
    fun h => (leaf h).trans (by rfl)
  unfold State.translate
  dsimp only
  split
  · rfl
  · split
    · rfl
    · split
      · exact leaf ‹_›
      · repeat' split
        all_goals first | exact leaf ‹_› | exact fill ‹_›

/-- A translation of the stream in focus that succeeds leaves every register and store alone. -/
theorem xlate_ok_device {s t : State} {acc : Acc} {va : Word} {ga : Nat} (h : s.xlate acc va = (.ok ga, t)) : OnlyDevice s t := by
  have key := translate_device s s.cur.loc s.cur.ctl.atp s.cur.ctl.asid s.cur.ctl.sys acc va
  unfold State.xlate at h
  split at h
  · exact absurd (Prod.mk.inj h).1 (by simp)
  · rename_i hh
    rw [hh] at key
    rw [← (Prod.mk.inj h).2]
    exact key

theorem xlateBytes_ok_device {x : Xlate} (hx : ∀ s t va ga, x s va = (.ok ga, t) → OnlyDevice s t) :
    ∀ (n : Nat) (va : Word) (k : Option (Nat × Nat)) (s t : State) (gas : List Nat),
      xlateBytes x n va k s = (.ok gas, t) → OnlyDevice s t
  | 0, _, _, s, t, gas, h => by rw [← (Prod.mk.inj h).2]; rfl
  | n + 1, va, k, s, t, gas, h => by
    have rest : ∀ (y : Except Flt Nat × State), (∀ ga, y.1 = .ok ga → OnlyDevice s y.2) → (match y.1 with
          | .error f => ((.error f, y.2) : Except Flt (List Nat) × State)
          | .ok ga =>
            if y.2.gaFaults ga then (.error (.accessAt va), y.2)
            else
              match (xlateBytes x n (va + 1) (some (va.toNat / 4096, ga - va.toNat % 4096)) y.2).1 with
              | .error f => (.error f, (xlateBytes x n (va + 1) (some (va.toNat / 4096, ga - va.toNat % 4096)) y.2).2)
              | .ok rest =>
                (.ok (ga :: rest), (xlateBytes x n (va + 1) (some (va.toNat / 4096, ga - va.toNat % 4096)) y.2).2)) = (.ok gas, t) →
        OnlyDevice s t := by
      intro y hy h
      obtain ⟨r, u⟩ := y
      cases r with
      | error f => exact absurd (Prod.mk.inj h).1 (by simp)
      | ok ga =>
        dsimp only at h
        split at h
        · exact absurd (Prod.mk.inj h).1 (by simp)
        · split at h
          · exact absurd (Prod.mk.inj h).1 (by simp)
          · rename_i hr
            have := xlateBytes_ok_device hx n _ _ u _ _ (Prod.ext hr (Prod.mk.inj h).2)
            exact (hy ga rfl).trans this
    unfold xlateBytes at h
    cases k with
    | none => exact rest (x s va) (fun ga hg => hx s _ va ga (Prod.ext hg rfl)) h
    | some p =>
      obtain ⟨p, g⟩ := p
      dsimp only at h
      by_cases hp : (p == va.toNat / 4096) = true
      · rw [if_pos hp] at h; exact rest (.ok (g + va.toNat % 4096), s) (fun _ _ => rfl) h
      · rw [if_neg hp] at h; exact rest (x s va) (fun ga hg => hx s _ va ga (Prod.ext hg rfl)) h

theorem xlateN_ok_device {s t : State} {acc : Acc} {va : Word} {n : Nat} {gas : List Nat}
    (h : s.xlateN acc va n = (.ok gas, t)) : OnlyDevice s t := by
  unfold State.xlateN at h
  split at h
  · dsimp only at h
    split at h
    · exact absurd (Prod.mk.inj h).1 (by simp)
    · split at h <;> exact absurd (Prod.mk.inj h).1 (by simp)
  · exact xlateBytes_ok_device (fun _ _ _ _ h => xlate_ok_device h) n va none s t gas h

/-! ## Bare mode (log 8) -/

/-- In bare mode a translation changes nothing at all. -/
theorem xlate_bare {s : State} (h : (s.cur.ctl.atp >>> 60) = 0) (acc : Acc) (va : Word) :
    s.xlate acc va = (if s.gaFaults (va.toNat % 2 ^ 63) then .error (.accessAt va) else .ok (va.toNat % 2 ^ 63), s) := by
  unfold State.xlate State.translate
  simp only [h, BEq.rfl, if_true]
  split <;> rename_i hh <;> split at hh <;> simp_all [Flt.accessAt]
  obtain ⟨rfl, rfl⟩ := hh
  simp

/-! ## Reads that no injection disturbs -/

/-- No core has an injection armed (R447). -/
def State.calm (s : State) : Prop := ∀ c ∈ s.cores.toList, c.injb.getLsbD 0 = false

theorem fireInjections_calm {s : State} (h : s.calm) (gas : List Nat) : s.fireInjections gas = s := by
  unfold State.fireInjections
  rw [if_neg]
  simp only [State.injects, List.any_eq_true, not_exists, not_and, Bool.not_eq_true]
  exact h

/-- A store writes no memory when it is issued: it enters its path (R359). -/
theorem storeEntries_mem (v : Bool) (ms : List MByte) (t : State) :
    (ms.foldl (fun s m => s.storeEntry v [m]) t).mem = t.mem :=
  foldl_mem (fun s m => storeEntry_mem s v [m]) ms t

/-- What a store that can be made does: its bytes enter the path of the stream, after their translation (R179). -/
theorem store_ok {s t : State} {v : Bool} {va : Word} {bs : List Byte} (h : s.store v va bs = (.ok (), t)) :
    ∃ gas u, s.xlateN .write va bs.length = (.ok gas, u) ∧
      t = if va.toNat % bs.length == 0 then u.storeEntry v (mbytes gas bs)
        else (mbytes gas bs).foldl (fun s m => s.storeEntry v [m]) u := by
  unfold State.store State.storeAt at h
  split at h
  · rename_i hh
    split at hh
    · exact absurd (Prod.mk.inj hh).1 (by simp)
    · rename_i gas u hx
      refine ⟨gas, u, hx, ?_⟩
      dsimp only at hh
      split at hh
      · rename_i hd
        rw [if_pos hd, ← (Prod.mk.inj h).2]
        exact (Except.ok.inj (Prod.mk.inj hh).1).symm
      · rename_i hd
        rw [if_neg hd, ← (Prod.mk.inj h).2]
        exact (Except.ok.inj (Prod.mk.inj hh).1).symm
  · exact absurd (Prod.mk.inj h).1 (by simp)

/-! ## Traps (R413, R416) -/

/-- What the giving up of waits leaves (R52, R105, R421): every register, and every byte. -/
theorem leaveTokens_kept (s : State) : s.leaveTokens.cur.ctl = s.cur.ctl ∧ s.leaveTokens.cur.vec = s.cur.vec ∧
    s.leaveTokens.stream = s.stream ∧ s.leaveTokens.mem = s.mem := by
  unfold State.leaveTokens State.freeMoves State.freeAtomics State.setStr State.modVlc
  cases hs : s.stream <;> exact ⟨rfl, rfl, hs ▸ rfl, rfl⟩

theorem leaveWaits_kept (s : State) : s.leaveWaits.cur = s.cur ∧ s.leaveWaits.stream = s.stream ∧ s.leaveWaits.mem = s.mem :=
  ⟨rfl, rfl, rfl⟩

/-- The registers of a trap entry whose context has a handler. -/
theorem takeTrap_registers (s : State) (epc : Word) (q : TrapReq) (h : s.cur.ctl.etvec ≠ 0) :
    (takeTrap s epc q).cur.ctl = { s.cur.ctl with epc := epc, ecause := ecauseOf q s.cur.ctl.sys s.stream, eval := q.val, sys := true } ∧
    (takeTrap s epc q).pc = s.cur.ctl.etvec + BitVec.ofNat 64 (4 * q.code) ∧ (takeTrap s epc q).mem = s.mem ∧
    (takeTrap s epc q).cur.vec = s.cur.vec ∧ (takeTrap s epc q).cur.handler = some s.stream := by
  have hd : s.disarm.cur.ctl = s.cur.ctl ∧ s.disarm.stream = s.stream ∧ s.disarm.cur.vec = s.cur.vec := by
    unfold State.disarm; split <;> exact ⟨rfl, rfl, rfl⟩
  obtain ⟨h1, h2, h3⟩ := hd
  have hm := disarm_mem s
  obtain ⟨k1, k2, k3, k4⟩ := leaveTokens_kept s.disarm
  obtain ⟨l1, l2, l3⟩ := leaveWaits_kept s.disarm.leaveTokens
  unfold takeTrap
  have a1 : s.disarm.leaveTokens.leaveWaits.cur.ctl = s.cur.ctl := by rw [l1, k1, h1]
  have a2 : s.disarm.leaveTokens.leaveWaits.stream = s.stream := by rw [l2, k3, h2]
  have a3 : s.disarm.leaveTokens.leaveWaits.cur.vec = s.cur.vec := by rw [l1, k2, h3]
  have a4 : s.disarm.leaveTokens.leaveWaits.mem = s.mem := by rw [l3, k4, hm]
  revert a1 a2 a3 a4
  generalize s.disarm.leaveTokens.leaveWaits = u
  intro a1 a2 a3 a4
  rw [← a1, ← a2, ← a3, ← a4]
  have hu : u.cur.ctl.etvec ≠ 0 := by rw [a1]; exact h
  dsimp only [State.modCtl, State.modVlc]
  rw [if_neg hu]
  unfold State.setPc State.pc State.str State.setStr
  cases u.stream <;> exact ⟨rfl, rfl, rfl, rfl, rfl⟩

end Sys2Proof.Machine
end

