-- ==== Sys2Proof/Laws/Run.lean ====
section
/-! SUPPORT. How an instruction ends, once for all instructions: a body that completes, jumps, traps or waits. -/

namespace Sys2Proof.Machine

variable {i : Instr} {s u : State} {st : Strips} {ds : List Nat} {body : View → List Nat → State → Eff}

/-! ## Stores under OVT (R103, R366) -/

/-- The mark depends only on the stores that stood before and on the stream. -/
theorem State.markedBy_from (w : State) (i : Instr) {s u : State} (h : u.pend = s.pend ∧ u.stream = s.stream) :
    w.markedBy i u = w.markedBy i s := by
  unfold State.markedBy State.markOvt
  rw [h.1, h.2]

/-- The mark touches nothing but `pend`. -/
theorem State.markedBy_pend (w : State) (i : Instr) (s : State) : w.markedBy i s = { w with pend := (w.markedBy i s).pend } := by
  unfold State.markedBy; split <;> rfl

@[simp] theorem State.markedBy_cur (w : State) (i : Instr) (s : State) : (w.markedBy i s).cur = w.cur := by rw [State.markedBy_pend]
@[simp] theorem State.markedBy_mem (w : State) (i : Instr) (s : State) : (w.markedBy i s).mem = w.mem := by rw [State.markedBy_pend]
@[simp] theorem State.markedBy_stream (w : State) (i : Instr) (s : State) : (w.markedBy i s).stream = w.stream := by
  rw [State.markedBy_pend]
@[simp] theorem State.markedBy_cores (w : State) (i : Instr) (s : State) : (w.markedBy i s).cores = w.cores := by
  rw [State.markedBy_pend]
@[simp] theorem State.markedBy_upsets (w : State) (i : Instr) (s : State) : (w.markedBy i s).upsets = w.upsets := by
  rw [State.markedBy_pend]
@[simp] theorem State.markedBy_str (w : State) (i : Instr) (s : State) : (w.markedBy i s).str = w.str := by rw [State.markedBy_pend]; rfl
@[simp] theorem State.markedBy_pc (w : State) (i : Instr) (s : State) : (w.markedBy i s).pc = w.pc := by rw [State.markedBy_pend]; rfl
@[simp] theorem State.markedBy_gread (w : State) (i : Instr) (s : State) (n : Fin 32) : (w.markedBy i s).gread n = w.gread n := by
  rw [State.markedBy_pend]; rfl

/-- An instruction that stores nothing marks nothing. -/
theorem State.markedBy_same (w : State) (i : Instr) {s : State} (h : ∀ e ∈ w.pend, e ∈ s.pend) : w.markedBy i s = w := by
  unfold State.markedBy
  split
  · unfold State.markOvt
    have key : ∀ l : List Entry, (∀ e ∈ l, e ∈ s.pend) → l.map (fun e => if (e.loc == w.cur.loc && e.stream == .ep &&
        !s.pend.any fun x => x.loc == e.loc && x.stream == e.stream && x.bytes == e.bytes) = true then { e with ovt := true } else e)
        = l := by
      intro l hl
      induction l with
      | nil => rfl
      | cons e l ih =>
        have he : (s.pend.any fun x => x.loc == e.loc && x.stream == e.stream && x.bytes == e.bytes) = true :=
          List.any_eq_true.2 ⟨e, hl e (by simp), by simp⟩
        rw [List.map_cons, ih fun x hx => hl x (by simp [hx]), he]
        simp
    show { w with pend := _ } = w
    rw [key w.pend h]
  · rfl

/-- An instruction without the common fields has no OVT. -/
theorem State.markedBy_plain (w : State) {i : Instr} (s : State) (h : i.common = none) : w.markedBy i s = w := by
  unfold State.markedBy; rw [h]; rfl

/-! ## The ends of a body -/

/-- An instruction that its first execution settles. -/
theorem runInstr_first {t w : State} (hg : gate i s = .ok t) (ha : attempt i t body false = .inl w) :
    runInstr i s body = .next w := by
  unfold runInstr settle; rw [hg]; show Host.Outcome.next _ = _; rw [ha]

/-- A body that is not interrupted comes to what it answers. -/
theorem Eff.upTo_none (e : Eff) {i : Instr} {l : Option Nat} {w : Option Wait} (h : i.common.isSome = true → l = none) :
    e.upTo i l w = e := by
  have : cutAt i l = none := by
    unfold cutAt
    split
    · rfl
    · split
      · exact h ‹_›
      · rfl
  unfold Eff.upTo
  rw [this]
  cases e <;> rfl

/-- The first execution of an instruction that gets to its own effect, of which no access has to be held. -/
theorem runInstr_begins {w : State} (h : Begins i s st ds u) (hh : ((body st.view ds u).map (·.markedBy i s)).held = none)
    (hc : ∀ t, conclude i t st false ((body st.view ds u).map (·.markedBy i s)) = .inl w) : runInstr i s body = .next w := by
  obtain ⟨⟨t, hg, hp⟩, -, -, -, hcut, hsame⟩ := h
  refine runInstr_first hg ?_
  have key : attemptTo i t body false t.limit none = (.inl w, none) := by
    unfold attemptTo
    rw [hp]
    dsimp only
    rw [Eff.upTo_none _ hcut]
    have : (fun x : State => x.markedBy i u) = fun x => x.markedBy i s := funext fun x => x.markedBy_from i hsame
    rw [this, hc t, hh]
  unfold attempt
  rw [key]

/-- The mark of the stores touches nothing that the checkers look at. -/
theorem State.markedBy_spot_upset (w : State) (i : Instr) (s : State) (chk : Option Check) :
    ((w.markedBy i s).spot chk).upset = (w.spot chk).upset := by
  rw [State.markedBy_pend]
  cases chk with
  | none => rfl
  | some ck => unfold State.spot; dsimp only; split <;> (try rfl); unfold State.pickItem; split <;> rfl

/-- A body that neither wait nor trap nor mismatch concerns completes with its own effect. -/
theorem runInstr_done {w : State} {r : Raised} {chk : Option Check} (h : Begins i s st ds u)
    (hb : body st.view ds u = .done w r [] chk) (hw : w.str.wait = none) (hu : (w.spot chk).upset = none) :
    runInstr i s body = .next (finish i st ((w.markedBy i s).spot chk) r) := by
  obtain ⟨hpsn, habs⟩ := h.whole
  have hheld : Eff.held (.done (w.markedBy i s) r [] chk) = none := by
    show (w.markedBy i s).str.wait = none; rw [State.markedBy_str]; exact hw
  refine runInstr_begins h (by rw [hb]; exact hheld) fun t => ?_
  rw [← State.markedBy_spot_upset w i s] at hu
  unfold conclude
  rw [hb]
  show (match Eff.held (.done (w.markedBy i s) r [] chk) with | some _ => _ | none => _) = _
  rw [hheld]
  show judged t st false (finish i st) (w.markedBy i s) r [] chk = _
  unfold judged
  rw [hpsn, habs]
  show checked t false (finish i st) (w.markedBy i s) r chk = _
  cases chk with
  | none => rfl
  | some ck =>
    unfold checked
    simp only [State.spot] at hu ⊢
    by_cases hi : ck.items.isEmpty
    · simp [hi]
    · simp only [hi, Bool.false_eq_true, if_false] at hu ⊢
      rw [hu]

/-- A body that jumps completes at its target. -/
theorem runInstr_jump {w : State} {pc : Word} (h : Begins i s st ds u)
    (hb : body st.view ds u = .jump w pc) (hw : w.str.wait = none) :
    runInstr i s body = .next (((w.markedBy i s).consume st.used).complete i [] pc) := by
  have hheld : Eff.held (.jump (w.markedBy i s) pc) = none := by
    show (w.markedBy i s).str.wait = none; rw [State.markedBy_str]; exact hw
  refine runInstr_begins h (by rw [hb]; exact hheld) fun t => ?_
  unfold conclude
  rw [hb]
  show (match Eff.held (.jump (w.markedBy i s) pc) with | some _ => _ | none => _) = _
  rw [hheld]
  rfl

/-- A body that traps takes its trap, with what it has stored. -/
theorem runInstr_trap {w : State} {t : TrapReq} (h : Begins i s st ds u)
    (hb : body st.view ds u = .trap w t) (hw : w.str.wait = none) :
    runInstr i s body = .next (takeTrap (w.markedBy i s) w.pc t) := by
  have hheld : Eff.held (.trap (w.markedBy i s) t) = none := by
    show (w.markedBy i s).str.wait = none; rw [State.markedBy_str]; exact hw
  refine runInstr_begins h (by rw [hb]; exact hheld) fun t' => ?_
  unfold conclude
  rw [hb]
  show (match Eff.held (.trap (w.markedBy i s) t) with | some _ => _ | none => _) = _
  rw [hheld]
  show Sum.inl (takeTrap (w.markedBy i s) (w.markedBy i s).pc t) = _
  rw [State.markedBy_pc]

/-- A body that ends without the bookkeeping of completion. -/
theorem runInstr_stop {w : State} (h : Begins i s st ds u) (hb : body st.view ds u = .stop w) :
    runInstr i s body = .next (w.markedBy i s) := by
  refine runInstr_begins h (by rw [hb]; rfl) fun t => ?_
  rw [hb]; rfl

/-- A body that waits. -/
theorem runInstr_wait {w : State} {x : Wait} (h : Begins i s st ds u) (hb : body st.view ds u = .wait w x) :
    runInstr i s body = .next ((w.markedBy i s).waitIn i x) := by
  refine runInstr_begins h (by rw [hb]; rfl) fun t => ?_
  rw [hb]; rfl

/-- The first decode-time trap ends the instruction (R118). -/
theorem runInstr_decodeTrap {t : TrapReq} (h : decodeTrap i s = some t) :
    runInstr i s body = .next (takeTrap (s.dropBoard i) s.pc t) := by
  unfold runInstr gate; rw [h]

/-- Completion with no flag raised leaves the control registers to the rest of completion. -/
@[simp] theorem commitFlags_nil (s : State) : commitFlags s [] = s := rfl

/-- With nothing consumed, no strip is. -/
@[simp] theorem State.consume_nil (s : State) : s.consume [] = s := rfl

/-- An integer instruction that every state lets through (R107): its body's result, then completion. -/
theorem runScalar_done {b : State → Eff} {w : State}
    (hb : b s.awake = .ok w) (hw : w.str.wait = none) :
    runScalar s b = .next (w.complete .nop [] (w.nextPc .nop)) := by
  have hp : prepare .nop s = .ok (⟨[], [], [], [], none⟩, [], s.awake) := by
    have hd : drawn .nop s = ([], s.awake) := rfl
    unfold prepare; rw [hd]; simp only
    have hf : fetchStrips .nop s.awake = .ok (⟨[], [], [], [], none⟩, s.awake) := rfl
    rw [hf, ite_self]
  have key : attempt .nop s (fun _ _ t => b t) false = .inl (w.complete .nop [] (w.nextPc .nop)) := by
    have one : attemptTo .nop s (fun _ _ t => b t) false s.limit none = (.inl (w.complete .nop [] (w.nextPc .nop)), none) := by
      unfold attemptTo
      rw [hp]
      dsimp only
      rw [hb, Eff.upTo_none _ fun h => absurd h (by decide)]
      have hh : (Eff.ok w).held = none := hw
      unfold conclude
      show ((match (Eff.ok w).held with | some _ => _ | none => _), (Eff.ok w).held) = _
      rw [hh]
      rfl
    unfold attempt
    rw [one]
  unfold runScalar settle; rw [key]

end Sys2Proof.Machine
end

