-- ==== Sys2Proof/Tests/Slice0.lean ====
section
/-! SUPPORT. Tests: ill-formed terms that WellFormed refuses, words written out from the encoding tables of the spec, worked examples
of the spec, and for each statement with hypotheses a witness that meets them. -/

open Sys2Proof Sys2Proof.Machine

namespace Sys2Proof.Tests

set_option Elab.async false

/-! ## Small states -/

/-- The first W-core's first slot, and the first N-core's. -/
def at0 : Loc := ⟨0, 0, 0⟩
def at8 : Loc := ⟨0, 8, 0⟩

/-- DRAM of die 0, at a line. -/
def home : Word := BitVec.ofNat 64 (State.reset.gaOf 0x10000)

/-- A context that runs at `home + 0x1000`, with tenure: element type s32, LG 0, VL 8; G1 = `home`, G2 = 3, G3 = −3, H1 = 1.0 in f32. -/
def ctx : Vlc :=
  let v := Vlc.create at0 (home + 0x1000) 0 0 0
  { v with
    tenure := true
    ctl := { v.ctl with vl := 8 }
    ep := { v.ep with g := ((v.ep.g.set 1 home).set 2 3).set 3 (-3) }
    h := v.h.set 1 0x3F800000 }

/-- The machine with that context in focus and everything else at reset. -/
def demo : State := { State.reset with powered := true, cur := ctx }

/-- `demo` with its context changed. -/
def with_ (f : Vlc → Vlc) : State := { demo with cur := f ctx }

/-- The context in T-mode, the tile array its own, with a shape of 256 × 256 × 128 for bf16. -/
def tiled : State := (with_ fun v => { v with ctl := { v.ctl with tm := true, tvalid := true, tshape := 0x2020100 } }).modCore
  fun c => { c with tileOwner := some at0 }

/-- Whether an instruction begins with no strips and no draws, and the state in which its own effect begins. -/
def begun (i : Instr) (s : State) : State :=
  match gate i s with
  | .error t => t
  | .ok t => match prepare i t with | .error t => t | .ok (_, _, u) => u

def begins (i : Instr) (s : State) : Bool :=
  match gate i s with
  | .error _ => false
  | .ok t => match prepare i t with
    | .error _ => false
    | .ok (st, ds, u) => st.view.isEmpty && st.used.isEmpty && st.psn.isEmpty && st.absent.isEmpty && st.trim.isNone && ds.isEmpty &&
      u.str.wait.isNone && u.upset.isNone && (i.common.isNone || u.limit.isNone) && decide (u.pend = s.pend ∧ u.stream = s.stream)

theorem begins_begun {i : Instr} {s : State} (h : begins i s = true) : Begins i s noStrips [] (begun i s) := by
  unfold begins at h
  have hb : begun i s = match gate i s with
    | .error t => t
    | .ok t => match prepare i t with | .error t => t | .ok (_, _, u) => u := rfl
  cases hg : gate i s with
  | error t => simp [hg] at h
  | ok t =>
    cases hp : prepare i t with
    | error t => simp [hg, hp] at h
    | ok x =>
      obtain ⟨⟨a, b, c, d, e⟩, ds, u⟩ := x
      simp [hg, hp, Option.isNone_iff_eq_none] at h
      obtain ⟨⟨⟨⟨⟨⟨⟨⟨⟨rfl, rfl⟩, rfl⟩, rfl⟩, rfl⟩, rfl⟩, hw⟩, hu⟩, hl⟩, hs⟩ := h
      have hb : begun i s = u := by rw [hb, hg]; simp [hp]
      rw [hb]
      refine ⟨⟨t, hg, hp⟩, ⟨rfl, rfl⟩, hw, hu, fun hc => ?_, hs⟩
      rcases hl with hn | hl
      · simp [hn] at hc
      · exact hl

/-- Whether nothing keeps an instruction from beginning. -/
def isReady (i : Instr) (s : State) : Bool :=
  (decodeTrap i s).isNone && (!needsTenure i || s.cur.tenure) && (!cellIsTile i.cell || s.core.tileOwner == some s.cur.loc) &&
  i.common.all (fun c => (c.wait.isNone || s.str.granted) && c.post.all (fun k => decide ((s.cur.k[k]).toNat < 63) && !s.ownHeld) &&
    s.limit.isNone) &&
  (!accessesMemory i || !s.forkHeld) && s.cur.binds.isEmpty && s.upset.isNone

theorem ready_of {i : Instr} {s : State} (h : isReady i s = true) : Ready i s := by
  simp only [isReady, Bool.and_eq_true, Bool.or_eq_true, Bool.not_eq_true', Option.isNone_iff_eq_none, List.isEmpty_iff,
    beq_iff_eq] at h
  obtain ⟨⟨⟨⟨⟨⟨h1, h2⟩, h3⟩, h4⟩, h5⟩, h6⟩, h7⟩ := h
  refine ⟨h1, fun n => h2.resolve_left (by simp [n]), fun n => h3.resolve_left (by simp [n]), fun c hc => ?_, fun c k hc hk => ?_,
    fun n => h5.resolve_left (by simp [n]), h6, h7, fun n => ?_⟩
  · simp [hc] at h4; exact h4.1.1
  · simp [hc, hk] at h4; exact h4.1.2
  · obtain ⟨c, hc⟩ := Option.isSome_iff_exists.mp n
    simp [hc] at h4; exact h4.2

/-- Whether nothing stands between the stream in focus and memory. -/
def isQuiet (s : State) : Bool :=
  (s.cur.ctl.atp >>> 60) == 0 && s.pend.isEmpty && s.moves.isEmpty && s.frames.isEmpty && s.str.released.isEmpty && s.str.near.isEmpty && s.str.answer.isNone &&
  (s.str.early.isEmpty && s.cur.flights.isEmpty && s.probe.isNone) &&
  s.cores.toList.all (fun c => !c.injb.getLsbD 0) && s.poison.isEmpty && s.upset.isNone

theorem quiet_of {s : State} (h : isQuiet s = true) : Quiet s := by
  simp only [isQuiet, Bool.and_eq_true, Bool.not_eq_true', Option.isNone_iff_eq_none, List.isEmpty_iff, beq_iff_eq,
    List.all_eq_true] at h
  obtain ⟨⟨⟨⟨⟨⟨⟨⟨⟨⟨h1, h2⟩, h3⟩, h4⟩, h5⟩, h0⟩, h6⟩, ⟨he, hf⟩, hp⟩, h7⟩, h8⟩, h9⟩ := h
  exact ⟨h1, ⟨h2, h3, h4⟩, ⟨h5, h0⟩, h6, ⟨he, hf, hp⟩, h7, h8, h9⟩

theorem ok_pair {ε α β : Type} {p : Except ε α × β} {a : α} (h : p.1.toOption = some a) : p = (.ok a, p.2) := by
  obtain ⟨x, y⟩ := p
  cases x with
  | error e => simp [Except.toOption] at h
  | ok b => simp [Except.toOption] at h; simp [h]

theorem error_pair {ε α β : Type} {p : Except ε α × β} (h : p.1.toOption.isNone = true) : ∃ e, p = (.error e, p.2) := by
  obtain ⟨x, y⟩ := p
  cases x with
  | error e => exact ⟨e, rfl⟩
  | ok b => simp [Except.toOption] at h

/-- The state that a step goes on with. -/
def goes (o : Host.Outcome State Fault Refusal) : Option State := match o with | .next t => some t | _ => none

theorem goes_next {o : Host.Outcome State Fault Refusal} (h : (goes o).isSome = true) : ∃ t, o = .next t := by
  cases o <;> simp [goes] at h ⊢

/-- Common fields of an instruction without type, tokens and guard. -/
def bare : Common := ⟨.rne, none, none, false, false, none, none⟩

/-- Common fields with a type. -/
def typed (t : Ty) : Common := { bare with ty := some t }

/-! ## Ill-formed terms, one for each check, which the check refuses (R97, R100, R101, R114 and files 05 to 10) -/

/-- What the first failing check of an instruction is. -/
def refused (i : Instr) : Option Reject := firstReject i.checks

theorem test_illformed_guard : refused (.tmma { bare with guard := some ⟨0, true⟩ } false 0 1 2) = some .guardNotAllowed ∧
    refused (.qcnt { bare with guard := some ⟨0, true⟩ } 4 8) = some .guardNotAllowed ∧
    refused (.vcompress { bare with guard := some ⟨0, true⟩ } 8 4 1) = some .guardNotAllowed ∧
    refused (.vsel { bare with guard := none } 8 4 (.v 2)) = some .guardNotAllowed ∧
    refused (.mld { bare with guard := some ⟨0, true⟩ } 1 1 0) = some .guardNotAllowed ∧
    refused (.fndeg { bare with guard := some ⟨0, true⟩ } 4 1) = some .guardNotAllowed ∧
    refused (.vadd { bare with guard := some ⟨0, true⟩ } 8 4 (.v 2)) = none := by decide +kernel

theorem test_illformed_type : refused (.vcvt bare .f32 8 4) = some .typeNotAllowed ∧ refused (.mand (typed .n8) 1 2 3) = some .typeNotAllowed ∧
    refused (.fnld (typed .f16) 1 1 2) = some .typeNotAllowed ∧ refused (.fnld bare 1 1 2) = some .typeNotAllowed ∧
    refused (.mst (typed .n8) 1 1 0) = some .typeNotAllowed ∧ refused (.vwfmadd (typed .f32) .f64 8 4 2 6) = some .typeNotAllowed ∧
    refused (.vcvt (typed .f32) .f32 8 4) = some .typeNotAllowed ∧ refused (.vcvtx (typed .f32) .s32 8 4) = some .typeNotAllowed ∧
    refused (.vredsum (typed .f32) (some .s8) 8 4 2) = some .typeNotAllowed ∧ refused (.amoadd (typed .f32) .none .die 4 1 2) = some .typeNotAllowed ∧
    refused (.amoswap (typed .s16) .none .die 4 1 2) = some .typeNotAllowed ∧ refused (.amofadd (typed .s32) .none .die 4 1 2) = some .typeNotAllowed ∧
    refused (.amofmin (typed .f16) .none .die 4 1 2) = some .typeNotAllowed := by decide +kernel

theorem test_illformed_rounding : refused (.vredsum { bare with rm := .rsr } none 8 4 2) = some .reservedRounding ∧
    refused (.vredmin { bare with rm := .rsr } 8 4 2) = some .reservedRounding ∧
    refused (.vldr { bare with rm := .rtz } 8 1 5) = some .reservedRounding ∧
    refused (.amofadd { typed .f32 with rm := .rsr } .none .die 4 1 2) = some .reservedRounding ∧
    refused (.vamofadd { bare with rm := .rsr } 0 .n32 .die none 1 2 3) = some .reservedRounding := by decide +kernel

theorem test_illformed_fields : refused (.hint32 0) = some .reservedValue ∧ refused (.cvy 5 0) = some .reservedValue ∧
    refused (.cvy 0 0x40) = some .fieldNotZero ∧ refused (.fcvtFloatFloat .f32 .f32 1 2) = some .undefinedFunction ∧
    refused (.vrsub bare 8 4 (.v 2)) = some .undefinedFunction ∧ refused (.vsgnj bare 8 4 (.i 2)) = some .undefinedFunction ∧
    refused (.vsel { bare with guard := some ⟨0, true⟩ } 8 4 (.i 2)) = some .undefinedFunction ∧
    refused (.vlut bare .n32 0 8 4 2) = some .reservedType ∧ refused (.vlut bare .n8 15 8 4 2) = some .reservedValue ∧
    refused (.tshape bare .n8 4) = some .reservedType ∧ refused (.tgmm bare false 0 0 1 2 24) = some .registerOutsideFile ∧
    refused (.tgmm bare false 7 0 1 9 0) = some .registerOutsideFile ∧ refused (.tbload bare false 14) = some .registerOutsideFile := by
  decide +kernel

/-- Encodings that name no instruction: an unassigned cell of each map, undefined functions, fields that are not zero, registers outside
their file, reserved rounding, a token or guard number without its enable, a reserved type, bit 31. -/
theorem test_reserved_words : ∀ x ∈ [(32, 0x00000000), (32, 0x00000040), (32, 0x03C00002), (32, 0x04020002), (32, 0x000E0004),
    (32, 0x00008028), (32, 0x02000038), (32, 0x00500038), (64, 0x0003E019), (64, 0x5003E003), (64, 0x0103E003),
    (64, 0x0013E003), (64, 0x0003E103), (64, 0x0001C003), (64, 0x8003E003), (64, 0x000080000003E003), (64, 0x001800000003E003),
    (64, 0x000000080003E00F)], decodeTableWord x.1 x.2 = none := by decide +kernel

/-- An encoding cut off after its first parcel is refused by that name. -/
theorem test_truncated : decode [0x0003E003] = .error .truncated ∧ decode [] = .error .truncated := ⟨rfl, rfl⟩

/-! ## Words of the encoding tables -/

/-- R122, IRR: words put together field by field from the encoding tables. -/
theorem test_decode_irr :
    decodeTableWord 32 0x003D1182 = some (.add 3 17 30) ∧
    decodeTableWord 32 0x007D1182 = some (.sub 3 17 30) ∧
    decodeTableWord 32 0x00BD1182 = some (.and 3 17 30) ∧
    decodeTableWord 32 0x00FD1182 = some (.or 3 17 30) ∧
    decodeTableWord 32 0x013D1182 = some (.xor 3 17 30) ∧
    decodeTableWord 32 0x017D1182 = some (.sll 3 17 30) ∧
    decodeTableWord 32 0x01BD1182 = some (.srl 3 17 30) ∧
    decodeTableWord 32 0x01FD1182 = some (.sra 3 17 30) ∧
    decodeTableWord 32 0x023D1182 = some (.slt 3 17 30) ∧
    decodeTableWord 32 0x027D1182 = some (.sltn 3 17 30) ∧
    decodeTableWord 32 0x02BD1182 = some (.min 3 17 30) ∧
    decodeTableWord 32 0x02FD1182 = some (.minn 3 17 30) ∧
    decodeTableWord 32 0x033D1182 = some (.max 3 17 30) ∧
    decodeTableWord 32 0x037D1182 = some (.maxn 3 17 30) ∧
    decodeTableWord 32 0x063D1182 = some (.addw 3 17 30) ∧
    decodeTableWord 32 0x067D1182 = some (.subw 3 17 30) ∧
    decodeTableWord 32 0x04011182 = some (.clz 3 17) ∧
    decodeTableWord 32 0x04411182 = some (.ctz 3 17) ∧
    decodeTableWord 32 0x04811182 = some (.pcnt 3 17) := by
  decide +kernel

/-- R123, IIM, R124 and R96: words put together field by field from the encoding tables. -/
theorem test_decode_iim :
    decodeTableWord 32 0xFFD16484 = some (.addi 9 22 (-3)) ∧
    decodeTableWord 32 0xFFD36484 = some (.andi 9 22 (-3)) ∧
    decodeTableWord 32 0xFFD56484 = some (.ori 9 22 (-3)) ∧
    decodeTableWord 32 0xFFD76484 = some (.xori 9 22 (-3)) ∧
    decodeTableWord 32 0xFFD96484 = some (.slti 9 22 (-3)) ∧
    decodeTableWord 32 0xFFDB6484 = some (.sltni 9 22 (-3)) ∧
    decodeTableWord 32 0x025D6484 = some (.slli 9 22 37) ∧
    decodeTableWord 32 0x065D6484 = some (.srli 9 22 37) ∧
    decodeTableWord 32 0x0A5D6484 = some (.srai 9 22 37) ∧
    decodeTableWord 32 0xABCDE286 = some (.lui 5 0xABCDE) ∧
    decodeTableWord 32 0xABCDE296 = some (.pcui 5 0xABCDE) := by
  decide +kernel

/-- R125, IMD: words put together field by field from the encoding tables. -/
theorem test_decode_imd :
    decodeTableWord 32 0x003D1188 = some (.mul 3 17 30) ∧
    decodeTableWord 32 0x007D1188 = some (.mulh 3 17 30) ∧
    decodeTableWord 32 0x00BD1188 = some (.mulhn 3 17 30) ∧
    decodeTableWord 32 0x00FD1188 = some (.mulhsn 3 17 30) ∧
    decodeTableWord 32 0x013D1188 = some (.div 3 17 30) ∧
    decodeTableWord 32 0x017D1188 = some (.divn 3 17 30) ∧
    decodeTableWord 32 0x01BD1188 = some (.rem 3 17 30) ∧
    decodeTableWord 32 0x01FD1188 = some (.remn 3 17 30) := by
  decide +kernel

/-- R127, SLD and SST: words put together field by field from the encoding tables. -/
theorem test_decode_sld_sst :
    decodeTableWord 32 0xFF80C38A = some (.sld .s8 7 12 (-8)) ∧
    decodeTableWord 32 0xFF82C38A = some (.sld .s16 7 12 (-8)) ∧
    decodeTableWord 32 0xFF84C38A = some (.sld .s32 7 12 (-8)) ∧
    decodeTableWord 32 0xFF86C38A = some (.sld .s64 7 12 (-8)) ∧
    decodeTableWord 32 0xFF88C38A = some (.sld .n8 7 12 (-8)) ∧
    decodeTableWord 32 0xFF8AC38A = some (.sld .n16 7 12 (-8)) ∧
    decodeTableWord 32 0xFF8CC38A = some (.sld .n32 7 12 (-8)) ∧
    decodeTableWord 32 0xFF8EC38A = some (.sld .n64 7 12 (-8)) ∧
    decodeTableWord 32 0x7FF0C38C = some (.sst .n8 7 12 2047) ∧
    decodeTableWord 32 0x7FF2C38C = some (.sst .n16 7 12 2047) ∧
    decodeTableWord 32 0x7FF4C38C = some (.sst .n32 7 12 2047) ∧
    decodeTableWord 32 0x7FF6C38C = some (.sst .n64 7 12 2047) := by
  decide +kernel

/-- R129, FRR: words put together field by field from the encoding tables. -/
theorem test_decode_frr :
    decodeTableWord 32 0x003AE08E = some (.fadd .f64 1 14 29) ∧
    decodeTableWord 32 0x207AE08E = some (.fsub .f32 1 14 29) ∧
    decodeTableWord 32 0x40BAE08E = some (.fmul .f16 1 14 29) ∧
    decodeTableWord 32 0x60FAE08E = some (.fdiv .bf16 1 14 29) ∧
    decodeTableWord 32 0x017AE08E = some (.fmin .f64 1 14 29) ∧
    decodeTableWord 32 0x21BAE08E = some (.fmax .f32 1 14 29) ∧
    decodeTableWord 32 0x41FAE08E = some (.fsgnj .f16 1 14 29) ∧
    decodeTableWord 32 0x623AE08E = some (.fsgnjn .bf16 1 14 29) ∧
    decodeTableWord 32 0x027AE08E = some (.fsgnjx .f64 1 14 29) ∧
    decodeTableWord 32 0x243AE08E = some (.feq .f32 1 14 29) ∧
    decodeTableWord 32 0x447AE08E = some (.flt .f16 1 14 29) ∧
    decodeTableWord 32 0x64BAE08E = some (.fle .bf16 1 14 29) ∧
    decodeTableWord 32 0x6100E08E = some (.fsqrt .bf16 1 14) ∧
    decodeTableWord 32 0x24C0E08E = some (.fclass .f32 1 14) := by
  decide +kernel

/-- R131 and R132: words put together field by field from the encoding tables. -/
theorem test_decode_fma4_fls :
    decodeTableWord 32 0x06E49110 = some (.fmadd .f64 2 9 18 27) ∧
    decodeTableWord 32 0x4EE49110 = some (.fmsub .f32 2 9 18 27) ∧
    decodeTableWord 32 0x96E49110 = some (.fnmadd .f16 2 9 18 27) ∧
    decodeTableWord 32 0xDEE49110 = some (.fnmsub .bf16 2 9 18 27) ∧
    decodeTableWord 32 0x80009112 = some (.fldF64 2 9 (-2048)) ∧
    decodeTableWord 32 0x80029112 = some (.fldF32 2 9 (-2048)) ∧
    decodeTableWord 32 0x80049112 = some (.fldF16 2 9 (-2048)) ∧
    decodeTableWord 32 0x80089112 = some (.fstF64 2 9 (-2048)) ∧
    decodeTableWord 32 0x800A9112 = some (.fstF32 2 9 (-2048)) ∧
    decodeTableWord 32 0x800C9112 = some (.fstF16 2 9 (-2048)) := by
  decide +kernel

/-- R133, FCV: words put together field by field from the encoding tables. -/
theorem test_decode_fcv :
    decodeTableWord 32 0x00015314 = some (.fmvgh 6 21) ∧
    decodeTableWord 32 0x00415314 = some (.fmvhg 6 21) ∧
    decodeTableWord 32 0x11C15314 = some (.fcvtFloatFloat .f32 .bf16 6 21) ∧
    decodeTableWord 32 0x23815314 = some (.fcvtFloatInt .n64 .f16 6 21) ∧
    decodeTableWord 32 0x31815314 = some (.fcvtIntFloat .f32 .s64 6 21) ∧
    decodeTableWord 32 0x41015314 = some (.fcvtz .n32 .f64 6 21) := by
  decide +kernel

/-- R135 to R140: words put together field by field from the encoding tables. -/
theorem test_decode_branches :
    decodeTableWord 32 0xF9C089A0 = some (.beq 8 19 (-100)) ∧
    decodeTableWord 32 0xF9C289A0 = some (.bne 8 19 (-100)) ∧
    decodeTableWord 32 0xF9C489A0 = some (.blt 8 19 (-100)) ∧
    decodeTableWord 32 0xF9C689A0 = some (.bge 8 19 (-100)) ∧
    decodeTableWord 32 0xF9C889A0 = some (.bltn 8 19 (-100)) ∧
    decodeTableWord 32 0xF9CA89A0 = some (.bgen 8 19 (-100)) ∧
    decodeTableWord 32 0x91A2B3A2 = some (.j 0x1234567) ∧
    decodeTableWord 32 0xFFFFFF24 = some (.call (-2)) ∧
    decodeTableWord 32 0xFFC0B026 = some (.jr 11 (-4)) ∧
    decodeTableWord 32 0x0402B026 = some (.callr 11 64) ∧
    decodeTableWord 32 0x00040026 = some (.ret) ∧
    decodeTableWord 32 0x00060026 = some (.exit) ∧
    decodeTableWord 32 0x04D05028 = some (.bany 5 77) ∧
    decodeTableWord 32 0x04D25028 = some (.ball 5 77) ∧
    decodeTableWord 32 0x04D45028 = some (.bnone 5 77) ∧
    decodeTableWord 32 0x04D65028 = some (.bnall 5 77) ∧
    decodeTableWord 32 0xFFF0002A = some (.bq (-1)) ∧
    decodeTableWord 32 0x0052002A = some (.bqn 5) := by
  decide +kernel

/-- R141 to R147: words put together field by field from the encoding tables. -/
theorem test_decode_strip_mode_creg :
    decodeTableWord 32 0x8120D230 = some (.vstrip 4 13 (some ⟨1, 2⟩)) ∧
    decodeTableWord 32 0x0000D230 = some (.vstrip 4 13 none) ∧
    decodeTableWord 32 0xE792D230 = some (.vstripx 4 13 25 (some ⟨3, 9⟩)) ∧
    decodeTableWord 32 0x6402D230 = some (.vstripx 4 13 25 none) ∧
    decodeTableWord 32 0x00040030 = some (.vrel) ∧
    decodeTableWord 32 0x00100032 = some (.mode true) ∧
    decodeTableWord 32 0x00000032 = some (.mode false) ∧
    decodeTableWord 32 0xFF720032 = some (.apfork (-9)) ∧
    decodeTableWord 32 0x00040032 = some (.apjoin) ∧
    decodeTableWord 32 0x0C100534 = some (.cread 10 0x0C1) ∧
    decodeTableWord 32 0x00837034 = some (.cwrite 0x008 23) ∧
    decodeTableWord 32 0x0C457534 = some (.cswap 10 0x0C4 23) := by
  decide +kernel

/-- R273, R295 to R297, R110, R112: words put together field by field from the encoding tables. -/
theorem test_decode_system :
    decodeTableWord 32 0x00400038 = some (.fenceFull .fabric) ∧
    decodeTableWord 32 0x00B00038 = some (.fenceAcq .device) ∧
    decodeTableWord 32 0x01200038 = some (.fenceRel .die) ∧
    decodeTableWord 32 0x01900038 = some (.fenceIfetch .core) ∧
    decodeTableWord 32 0xFED0003A = some (.trap 0xFED) ∧
    decodeTableWord 32 0x0002003A = some (.tret) ∧
    decodeTableWord 32 0x0004003A = some (.adjourn) ∧
    decodeTableWord 32 0x003E183C = some (.pgmove 16 1 31) ∧
    decodeTableWord 32 0x0040183C = some (.pgstat 16 1) ∧
    decodeTableWord 32 0x000B413E = some (.cvy 2 (0#3 ++ 0#3 ++ 1#3 ++ 3#3 ++ 2#3 ++ 0#3)) ∧
    decodeTableWord 32 0x0000007C = some (.nop) ∧
    decodeTableWord 32 0x800000FC = some (.hint32 0x1000001) ∧
    decodeTableWord 64 0x12345678ABCDEFFD = some (.hint64 0x12345678ABCDEF) := by
  decide +kernel

/-- R154 and R155: ARVV, ARVS, ARVI: words put together field by field from the encoding tables. -/
theorem test_decode_arv :
    decodeTableWord 64 0x000070F400005B03 = some (.vadd ⟨.rne, none, none, false, false, some .s32, some ⟨3, true⟩⟩ 20 7 (.v 28)) ∧
    decodeTableWord 64 0x001070F4300A2005 = some (.vsub ⟨.rup, none, none, true, false, some .f32, none⟩ 20 7 (.s 28)) ∧
    decodeTableWord 64 0x002070F40004A005 = some (.vrsub ⟨.rne, none, none, false, true, some .n16, none⟩ 20 7 (.s 28)) ∧
    decodeTableWord 64 0x003070F400005B03 = some (.vmul ⟨.rne, none, none, false, false, some .s32, some ⟨3, true⟩⟩ 20 7 (.v 28)) ∧
    decodeTableWord 64 0x004070F4300A2005 = some (.vmulh ⟨.rup, none, none, true, false, some .f32, none⟩ 20 7 (.s 28)) ∧
    decodeTableWord 64 0x05FECCF40DE3E007 = some (.vdiv ⟨.rne, some 5, some 6, false, false, none, none⟩ 20 7 (.i (-77))) ∧
    decodeTableWord 64 0x006070F400005B03 = some (.vrem ⟨.rne, none, none, false, false, some .s32, some ⟨3, true⟩⟩ 20 7 (.v 28)) ∧
    decodeTableWord 64 0x007070F4300A2005 = some (.vmin ⟨.rup, none, none, true, false, some .f32, none⟩ 20 7 (.s 28)) ∧
    decodeTableWord 64 0x08FECCF40DE3E007 = some (.vmax ⟨.rne, some 5, some 6, false, false, none, none⟩ 20 7 (.i (-77))) ∧
    decodeTableWord 64 0x009070F400005B03 = some (.vand ⟨.rne, none, none, false, false, some .s32, some ⟨3, true⟩⟩ 20 7 (.v 28)) ∧
    decodeTableWord 64 0x00A070F4300A2005 = some (.vor ⟨.rup, none, none, true, false, some .f32, none⟩ 20 7 (.s 28)) ∧
    decodeTableWord 64 0x0BFECCF40DE3E007 = some (.vxor ⟨.rne, some 5, some 6, false, false, none, none⟩ 20 7 (.i (-77))) ∧
    decodeTableWord 64 0x00C070F400005B03 = some (.vsll ⟨.rne, none, none, false, false, some .s32, some ⟨3, true⟩⟩ 20 7 (.v 28)) ∧
    decodeTableWord 64 0x00D070F4300A2005 = some (.vsrl ⟨.rup, none, none, true, false, some .f32, none⟩ 20 7 (.s 28)) ∧
    decodeTableWord 64 0x0EFECCF40DE3E007 = some (.vsra ⟨.rne, some 5, some 6, false, false, none, none⟩ 20 7 (.i (-77))) ∧
    decodeTableWord 64 0x00F070F400005B03 = some (.vsadd ⟨.rne, none, none, false, false, some .s32, some ⟨3, true⟩⟩ 20 7 (.v 28)) ∧
    decodeTableWord 64 0x010070F4300A2005 = some (.vssub ⟨.rup, none, none, true, false, some .f32, none⟩ 20 7 (.s 28)) ∧
    decodeTableWord 64 0x011000F440024003 = some (.vsqrt ⟨.rsr, none, none, false, false, some .bf16, none⟩ 20 7) ∧
    decodeTableWord 64 0x012000F440024003 = some (.vabs ⟨.rsr, none, none, false, false, some .bf16, none⟩ 20 7) ∧
    decodeTableWord 64 0x013000F440024003 = some (.vneg ⟨.rsr, none, none, false, false, some .bf16, none⟩ 20 7) ∧
    decodeTableWord 64 0x014070F420020005 = some (.vsgnj ⟨.rdn, none, none, false, false, some .f64, none⟩ 20 7 (.s 28)) ∧
    decodeTableWord 64 0x015070F410026003 = some (.vsgnjn ⟨.rtz, none, none, false, false, some .f16, none⟩ 20 7 (.v 28)) ∧
    decodeTableWord 64 0x016070F400000F03 = some (.vsel ⟨.rne, none, none, false, false, some .s8, some ⟨7, false⟩⟩ 20 7 (.v 28)) ∧
    decodeTableWord 64 0x017000F40003E003 = some (.vmv ⟨.rne, none, none, false, false, none, none⟩ 20 (.v 7)) ∧
    decodeTableWord 64 0x017070140003E005 = some (.vmv ⟨.rne, none, none, false, false, none, none⟩ 20 (.s 28)) ∧
    decodeTableWord 64 0x177FFC140000E007 = some (.vmv ⟨.rne, none, none, false, false, some .n64, none⟩ 20 (.i 8191)) := by
  decide +kernel

/-- R160 to R162: words put together field by field from the encoding tables. -/
theorem test_decode_vfma_vcvt :
    decodeTableWord 64 0x0004083E00020009 = some (.vfmadd ⟨.rne, none, none, false, false, some .f64, none⟩ 30 1 2 8) ∧
    decodeTableWord 64 0x0014083E00020009 = some (.vfmsub ⟨.rne, none, none, false, false, some .f64, none⟩ 30 1 2 8) ∧
    decodeTableWord 64 0x0024083E00020009 = some (.vfnmadd ⟨.rne, none, none, false, false, some .f64, none⟩ 30 1 2 8) ∧
    decodeTableWord 64 0x0034083E00020009 = some (.vfnmsub ⟨.rne, none, none, false, false, some .f64, none⟩ 30 1 2 8) ∧
    decodeTableWord 64 0x1A84083E00022009 = some (.vwfmadd ⟨.rne, none, none, false, false, some .f32, none⟩ .e2m1s 30 1 2 8) ∧
    decodeTableWord 64 0x1A94083E00022009 = some (.vwfmsub ⟨.rne, none, none, false, false, some .f32, none⟩ .e2m1s 30 1 2 8) ∧
    decodeTableWord 64 0x1AA4083E00022009 = some (.vwfnmadd ⟨.rne, none, none, false, false, some .f32, none⟩ .e2m1s 30 1 2 8) ∧
    decodeTableWord 64 0x1AB4083E00022009 = some (.vwfnmsub ⟨.rne, none, none, false, false, some .f32, none⟩ .e2m1s 30 1 2 8) ∧
    decodeTableWord 64 0x011001640000000B = some (.vcvt ⟨.rne, none, none, false, false, some .s8, none⟩ .f32 4 11) ∧
    decodeTableWord 64 0x022001640000000B = some (.vcvtx ⟨.rne, none, none, false, false, some .s8, none⟩ .s32 4 11) := by
  decide +kernel

/-- R164 and R165: words put together field by field from the encoding tables. -/
theorem test_decode_vcmp_mask :
    decodeTableWord 64 0x000069A60002290D = some (.vcmpeq ⟨.rne, none, none, false, false, some .f32, some ⟨1, false⟩⟩ 6 13 (.v 26)) ∧
    decodeTableWord 64 0x009069A60000200D = some (.vcmpne ⟨.rne, none, none, false, false, some .s16, none⟩ 6 13 (.s 26)) ∧
    decodeTableWord 64 0x002069A60002290D = some (.vcmplt ⟨.rne, none, none, false, false, some .f32, some ⟨1, false⟩⟩ 6 13 (.v 26)) ∧
    decodeTableWord 64 0x00B069A60000200D = some (.vcmple ⟨.rne, none, none, false, false, some .s16, none⟩ 6 13 (.s 26)) ∧
    decodeTableWord 64 0x004069A60002290D = some (.vcmpgt ⟨.rne, none, none, false, false, some .f32, some ⟨1, false⟩⟩ 6 13 (.v 26)) ∧
    decodeTableWord 64 0x00D069A60000200D = some (.vcmpge ⟨.rne, none, none, false, false, some .s16, none⟩ 6 13 (.s 26)) ∧
    decodeTableWord 64 0x000004450003E00F = some (.mand ⟨.rne, none, none, false, false, none, none⟩ 5 2 1) ∧
    decodeTableWord 64 0x001004450003E00F = some (.mor ⟨.rne, none, none, false, false, none, none⟩ 5 2 1) ∧
    decodeTableWord 64 0x002004450003E00F = some (.mxor ⟨.rne, none, none, false, false, none, none⟩ 5 2 1) ∧
    decodeTableWord 64 0x003004450003E00F = some (.mandn ⟨.rne, none, none, false, false, none, none⟩ 5 2 1) ∧
    decodeTableWord 64 0x004000640003FA0F = some (.msbf ⟨.rne, none, none, false, false, none, some ⟨2, true⟩⟩ 4 3) ∧
    decodeTableWord 64 0x005000640003FA0F = some (.msif ⟨.rne, none, none, false, false, none, some ⟨2, true⟩⟩ 4 3) ∧
    decodeTableWord 64 0x006000640003FA0F = some (.msof ⟨.rne, none, none, false, false, none, some ⟨2, true⟩⟩ 4 3) ∧
    decodeTableWord 64 0x007000640003FA0F = some (.mpcnt ⟨.rne, none, none, false, false, none, some ⟨2, true⟩⟩ 4 3) ∧
    decodeTableWord 64 0x008000640003FA0F = some (.mfirst ⟨.rne, none, none, false, false, none, some ⟨2, true⟩⟩ 4 3) := by
  decide +kernel

/-- R167, PERM: words put together field by field from the encoding tables. -/
theorem test_decode_perm :
    decodeTableWord 64 0x000055DD00008011 = some (.vslideup ⟨.rne, none, none, false, false, some .n8, none⟩ 29 14 21) ∧
    decodeTableWord 64 0x001055DD00008011 = some (.vslidedown ⟨.rne, none, none, false, false, some .n8, none⟩ 29 14 21) ∧
    decodeTableWord 64 0x002055DD00008011 = some (.vrgather ⟨.rne, none, none, false, false, some .n8, none⟩ 29 14 21) ∧
    decodeTableWord 64 0x003301DD0002E011 = some (.vcompress ⟨.rne, none, none, false, false, some .e2m1, none⟩ 29 14 6) ∧
    decodeTableWord 64 0x0040001D0000A011 = some (.vid ⟨.rne, none, none, false, false, some .n16, none⟩ 29) ∧
    decodeTableWord 64 0x0050007D0000A011 = some (.viota ⟨.rne, none, none, false, false, some .n16, none⟩ 29 3) ∧
    decodeTableWord 64 0x006001DD00006011 = some (.vgetg ⟨.rne, none, none, false, false, some .s64, none⟩ 29 14) ∧
    decodeTableWord 64 0x007001DD00022011 = some (.vgeth ⟨.rne, none, none, false, false, some .f32, none⟩ 29 14) ∧
    decodeTableWord 64 0x008001DD00006011 = some (.vputg ⟨.rne, none, none, false, false, some .s64, none⟩ 29 14) ∧
    decodeTableWord 64 0x009001DD00022011 = some (.vputh ⟨.rne, none, none, false, false, some .f32, none⟩ 29 14) := by
  decide +kernel

/-- R170, R172 and R175: words put together field by field from the encoding tables. -/
theorem test_decode_vred_conf_xfrm :
    decodeTableWord 64 0x250030D200022013 = some (.vredsum ⟨.rne, none, none, false, false, some .f32, none⟩ (some .bf16) 18 6 12) ∧
    decodeTableWord 64 0x001030D200020013 = some (.vredosum ⟨.rne, none, none, false, false, some .f64, none⟩ none 18 6 12) ∧
    decodeTableWord 64 0x002030D20000C013 = some (.vredmin ⟨.rne, none, none, false, false, some .n32, none⟩ 18 6 12) ∧
    decodeTableWord 64 0x003030D20000C013 = some (.vredmax ⟨.rne, none, none, false, false, some .n32, none⟩ 18 6 12) ∧
    decodeTableWord 64 0x004030D20000C013 = some (.vredand ⟨.rne, none, none, false, false, some .n32, none⟩ 18 6 12) ∧
    decodeTableWord 64 0x005030D20000C013 = some (.vredor ⟨.rne, none, none, false, false, some .n32, none⟩ 18 6 12) ∧
    decodeTableWord 64 0x006030D20000C013 = some (.vredxor ⟨.rne, none, none, false, false, some .n32, none⟩ 18 6 12) ∧
    decodeTableWord 64 0x000000C700012015 = some (.vconf ⟨.rne, none, none, false, false, some .n4, none⟩ 7 6) ∧
    decodeTableWord 64 0x001000D20000A015 = some (.vconfr ⟨.rne, none, none, false, false, some .n16, none⟩ 18 6) ∧
    decodeTableWord 64 0x002030D200026015 = some (.vtopk ⟨.rne, none, none, false, false, some .f16, none⟩ 18 6 12) ∧
    decodeTableWord 64 0x000030D200008017 = some (.vunpk ⟨.rne, none, none, false, false, some .n8, none⟩ 18 6 12) ∧
    decodeTableWord 64 0x4AD030D200024017 = some (.vlut ⟨.rne, none, none, false, false, some .bf16, none⟩ .n6 9 18 6 12) ∧
    decodeTableWord 64 0x002000D200022017 = some (.vexpm ⟨.rne, none, none, false, false, some .f32, none⟩ 18 6) := by
  decide +kernel

/-- R183, R186, R187: VMEM, SUBB, GATH: words put together field by field from the encoding tables. -/
theorem test_decode_vmem :
    decodeTableWord 64 0x008001E200022021 = some (.vld ⟨.rne, none, none, false, false, some .f32, none⟩ 2 15 (-8192)) ∧
    decodeTableWord 64 0x010101E200022021 = some (.vst ⟨.rne, none, none, false, false, some .f32, none⟩ 2 15 64) ∧
    decodeTableWord 64 0x02005DE200008021 = some (.vlds ⟨.rne, none, none, false, false, some .n8, none⟩ 2 15 23) ∧
    decodeTableWord 64 0x03005DE200008021 = some (.vsts ⟨.rne, none, none, false, false, some .n8, none⟩ 2 15 23) ∧
    decodeTableWord 64 0x04FFFDE20003E021 = some (.mld ⟨.rne, none, none, false, false, none, none⟩ 2 15 (-1)) ∧
    decodeTableWord 64 0x050005E20003E021 = some (.mst ⟨.rne, none, none, false, false, none, none⟩ 2 15 1) ∧
    decodeTableWord 64 0x005001E200010025 = some (.vldb ⟨.rne, none, none, false, false, some .n3, none⟩ 2 15 5) ∧
    decodeTableWord 64 0x00F001E200018025 = some (.vstb ⟨.rne, none, none, false, false, some .s6, none⟩ 2 15 7) ∧
    decodeTableWord 64 0xE00025E200022023 = some (.vldx ⟨.rne, none, none, false, false, some .f32, none⟩ 2 15 9 3 .s32) ∧
    decodeTableWord 64 0x701025E200048023 = some (.vstx ⟨.rne, none, none, false, true, some .n8, none⟩ 2 15 9 1 .n64) := by
  decide +kernel

/-- R190, R194, R206, R207: words put together field by field from the encoding tables. -/
theorem test_decode_streams_fabric_sparse :
    decodeTableWord 64 0x000000D80003E027 = some (.sbind ⟨.rne, none, none, false, false, none, none⟩ 24 6) ∧
    decodeTableWord 64 0x001000180003E027 = some (.sfree ⟨.rne, none, none, false, false, none, none⟩ 24) ∧
    decodeTableWord 64 0x002003060003E027 = some (.sdld ⟨.rne, none, none, false, false, none, none⟩ 6 24) ∧
    decodeTableWord 64 0x003003060003E027 = some (.sdst ⟨.rne, none, none, false, false, none, none⟩ 6 24) ∧
    decodeTableWord 64 0x0010254B0000A029 = some (.vstm ⟨.rne, none, none, false, false, some .n16, none⟩ 11 10 9) ∧
    decodeTableWord 64 0x0000254B00022029 = some (.vldr ⟨.rne, none, none, false, false, some .f32, none⟩ 11 10 9) ∧
    decodeTableWord 64 0x0400254B00022029 = some (.vldrmin ⟨.rne, none, none, false, false, some .f32, none⟩ 11 10 9) ∧
    decodeTableWord 64 0x0800254B00022029 = some (.vldrmax ⟨.rne, none, none, false, false, some .f32, none⟩ 11 10 9) ∧
    decodeTableWord 64 0x13FFC0650002202B = some (.psld ⟨.rne, none, none, false, false, some .f32, none⟩ 5 3 19 (-16)) ∧
    decodeTableWord 64 0x330040650002202B = some (.psst ⟨.rne, none, none, false, false, some .f32, none⟩ 5 3 19 16) ∧
    decodeTableWord 64 0x00088C410002202D = some (.psadd ⟨.rne, none, none, false, false, some .f32, none⟩ 1 2 3 17) ∧
    decodeTableWord 64 0x00188C410000402D = some (.psmul ⟨.rne, none, none, false, false, some .s32, none⟩ 1 2 3 17) ∧
    decodeTableWord 64 0x0020485E0002202D = some (.psdense ⟨.rne, none, none, false, false, some .f32, none⟩ 30 2 18) ∧
    decodeTableWord 64 0x0038CBC10002202D = some (.pssparse ⟨.rne, none, none, false, false, some .f32, none⟩ 1 30 18 17) := by
  decide +kernel

/-- R222 to R236: words put together field by field from the encoding tables. -/
theorem test_decode_functions :
    decodeTableWord 64 0x0000548D00020031 = some (.fnld ⟨.rne, none, none, false, false, some .f64, none⟩ 13 4 21) ∧
    decodeTableWord 64 0x0100008D0003E031 = some (.fnst ⟨.rne, none, none, false, false, none, none⟩ 13 4) ∧
    decodeTableWord 64 0x00000C4F0003E033 = some (.fnadd ⟨.rne, none, none, false, false, none, none⟩ 15 2 3) ∧
    decodeTableWord 64 0x00100C4F0003FE33 = some (.fnsub ⟨.rne, none, none, false, false, none, some ⟨6, true⟩⟩ 15 2 3) ∧
    decodeTableWord 64 0x00200C4F0003E033 = some (.fnmul ⟨.rne, none, none, false, false, none, none⟩ .follow 15 2 3) ∧
    decodeTableWord 64 0x00600C4F0003E033 = some (.fnmul ⟨.rne, none, none, false, false, none, none⟩ .dealiased 15 2 3) ∧
    decodeTableWord 64 0x00A00C4F0003E033 = some (.fnmul ⟨.rne, none, none, false, false, none, none⟩ .aliased 15 2 3) ∧
    decodeTableWord 64 0x00307C4F0003E033 = some (.fnscl ⟨.rne, none, none, false, false, none, none⟩ 15 2 (.s 31)) ∧
    decodeTableWord 64 0x00707C4F0003E033 = some (.fnscl ⟨.rne, none, none, false, false, none, none⟩ 15 2 (.v 31)) ∧
    decodeTableWord 64 0x008000AE0003E035 = some (.fndiff ⟨.rne, none, none, false, false, none, none⟩ 2 14 5) ∧
    decodeTableWord 64 0x005000AE0003E035 = some (.fnint ⟨.rne, none, none, false, false, none, none⟩ 1 14 5) ∧
    decodeTableWord 64 0x002064AE00022035 = some (.fnproj ⟨.rne, none, none, false, false, some .f32, none⟩ 14 5 25) ∧
    decodeTableWord 64 0x053000AE0003E035 = some (.fntrace ⟨.rne, none, none, false, false, none, none⟩ 5 14 5) ∧
    decodeTableWord 64 0x000C40E80003E037 = some (.fneval ⟨.rne, none, none, false, false, none, none⟩ 8 7 16 24) ∧
    decodeTableWord 64 0x001000E80003E037 = some (.fnquad ⟨.rne, none, none, false, false, none, none⟩ 8 7) ∧
    decodeTableWord 64 0x002000E80003E037 = some (.fndeg ⟨.rne, none, none, false, false, none, none⟩ 8 7) ∧
    decodeTableWord 64 0x003000080003E037 = some (.fnfree ⟨.rne, none, none, false, false, none, none⟩ 8) := by
  decide +kernel

/-- R249, R254, R265: words put together field by field from the encoding tables. -/
theorem test_decode_tiles :
    decodeTableWord 64 0x00006C090003E041 = some (.tshape ⟨.rne, none, none, false, false, none, none⟩ .mk8s 9) ∧
    decodeTableWord 64 0x010041490003E041 = some (.tshapex ⟨.rne, none, none, false, false, none, none⟩ .f64 9 10) ∧
    decodeTableWord 64 0x02002D490003E041 = some (.tld ⟨.rne, none, none, false, false, none, none⟩ 9 10 11) ∧
    decodeTableWord 64 0x03002D490003E041 = some (.tst ⟨.rne, none, none, false, false, none, none⟩ 9 10 11) ∧
    decodeTableWord 64 0x04002D430003E041 = some (.tlda ⟨.rne, none, none, false, false, none, none⟩ false 3 10 11) ∧
    decodeTableWord 64 0x0C002D430003E041 = some (.tlda ⟨.rne, none, none, false, false, none, none⟩ true 3 10 11) ∧
    decodeTableWord 64 0x05002D430003E041 = some (.tsta ⟨.rne, none, none, false, false, none, none⟩ false 3 10 11) ∧
    decodeTableWord 64 0x0D002D420003E041 = some (.tsta ⟨.rne, none, none, false, false, none, none⟩ true 2 10 11) ∧
    decodeTableWord 64 0x000014830003E043 = some (.tmma ⟨.rne, none, none, false, false, none, none⟩ false 3 4 5) ∧
    decodeTableWord 64 0x011014830003E043 = some (.tmmas ⟨.rne, none, none, false, false, none, none⟩ true 3 4 5) ∧
    decodeTableWord 64 0x092BB4830003E043 = some (.tgmm ⟨.rne, none, none, false, false, none, none⟩ true 2 3 4 13 23) ∧
    decodeTableWord 64 0x023314830003E043 = some (.tspmm ⟨.rne, none, none, false, false, none, none⟩ false true 3 4 5 6) ∧
    decodeTableWord 64 0x0040004C0003E043 = some (.tcvt ⟨.rne, none, none, false, false, none, none⟩ 12 2) ∧
    decodeTableWord 64 0x004001A00003E045 = some (.tbload ⟨.rne, none, none, false, false, none, none⟩ true 13) ∧
    decodeTableWord 64 0x001001AC0093E045 = some (.tbeval ⟨.rne, none, some 1, false, false, none, none⟩ 12 13) ∧
    decodeTableWord 64 0xC5A029210003E045 = some (.tleaf ⟨.rne, none, none, false, false, none, none⟩ true 0xC5 1 9 10) := by
  decide +kernel

/-- R275, SAMO: words put together field by field from the encoding tables. -/
theorem test_decode_samo :
    decodeTableWord 64 0x0000596100006051 = some (.amoswap ⟨.rne, none, none, false, false, some .s64, none⟩ .none .context 1 11 22) ∧
    decodeTableWord 64 0x122059610000C051 = some (.amoadd ⟨.rne, none, none, false, false, some .n32, none⟩ .acq .core 1 11 22) ∧
    decodeTableWord 64 0x2340596100004051 = some (.amoand ⟨.rne, none, none, false, false, some .s32, none⟩ .rel .die 1 11 22) ∧
    decodeTableWord 64 0x346059610000E051 = some (.amoor ⟨.rne, none, none, false, false, some .n64, none⟩ .both .device 1 11 22) ∧
    decodeTableWord 64 0x058059610000E051 = some (.amoxor ⟨.rne, none, none, false, false, some .n64, none⟩ .none .fabric 1 11 22) ∧
    decodeTableWord 64 0x1600596100004051 = some (.amomin ⟨.rne, none, none, false, false, some .s32, none⟩ .acq .context 1 11 22) ∧
    decodeTableWord 64 0x272059610000C051 = some (.amomax ⟨.rne, none, none, false, false, some .n32, none⟩ .rel .core 1 11 22) ∧
    decodeTableWord 64 0x3840596100022051 = some (.amofadd ⟨.rne, none, none, false, false, some .f32, none⟩ .both .die 1 11 22) ∧
    decodeTableWord 64 0x0960596100020051 = some (.amofmin ⟨.rne, none, none, false, false, some .f64, none⟩ .none .device 1 11 22) ∧
    decodeTableWord 64 0x1A80596100022051 = some (.amofmax ⟨.rne, none, none, false, false, some .f32, none⟩ .acq .fabric 1 11 22) ∧
    decodeTableWord 64 0x318ED9610000E051 = some (.amocas ⟨.rne, none, none, false, false, some .n64, none⟩ .both .fabric 1 11 22 29) := by
  decide +kernel

/-- R277, VAMO: words put together field by field from the encoding tables. -/
theorem test_decode_vamo :
    decodeTableWord 64 0x0001A08000006057 = some (.vamoswap ⟨.rne, none, none, false, false, some .s64, none⟩ 0 .n32 .context none 4 8 3) ∧
    decodeTableWord 64 0x5321A0810000C057 = some (.vamoadd ⟨.rne, none, none, false, false, some .n32, none⟩ 1 .n16 .core (some 1) 4 8 3) ∧
    decodeTableWord 64 0xA431A08000004057 = some (.vamoand ⟨.rne, none, none, false, false, some .s32, none⟩ 2 .s32 .die none 4 8 3) ∧
    decodeTableWord 64 0xF741A0810000E057 = some (.vamoor ⟨.rne, none, none, false, false, some .n64, none⟩ 3 .n64 .device (some 1) 4 8 3) ∧
    decodeTableWord 64 0x0851A0800000E057 = some (.vamoxor ⟨.rne, none, none, false, false, some .n64, none⟩ 0 .n32 .fabric none 4 8 3) ∧
    decodeTableWord 64 0x5161A08100004057 = some (.vamomin ⟨.rne, none, none, false, false, some .s32, none⟩ 1 .n16 .context (some 1) 4 8 3) ∧
    decodeTableWord 64 0xA271A0800000C057 = some (.vamomax ⟨.rne, none, none, false, false, some .n32, none⟩ 2 .s32 .core none 4 8 3) ∧
    decodeTableWord 64 0xF581A08100022057 = some (.vamofadd ⟨.rne, none, none, false, false, some .f32, none⟩ 3 .n64 .die (some 1) 4 8 3) ∧
    decodeTableWord 64 0x0691A08000020057 = some (.vamofmin ⟨.rne, none, none, false, false, some .f64, none⟩ 0 .n32 .device none 4 8 3) ∧
    decodeTableWord 64 0x59A1A08100022057 = some (.vamofmax ⟨.rne, none, none, false, false, some .f32, none⟩ 1 .n16 .fabric (some 1) 4 8 3) := by
  decide +kernel

/-- R280 and R292: words put together field by field from the encoding tables. -/
theorem test_decode_queues_tasks :
    decodeTableWord 64 0x000000C90003E053 = some (.qput ⟨.rne, none, none, false, false, none, none⟩ 9 6) ∧
    decodeTableWord 64 0x001001860003E053 = some (.qget ⟨.rne, none, none, false, false, none, none⟩ 6 12) ∧
    decodeTableWord 64 0x192DEB270003E053 = some (.qld ⟨.rne, none, none, false, false, none, none⟩ .e4m3s 7 25 26 27) ∧
    decodeTableWord 64 0x053D80F40003E053 = some (.qgetv ⟨.rne, none, none, false, false, none, none⟩ .n16 20 7 27) ∧
    decodeTableWord 64 0x004000D20003E053 = some (.qcmd ⟨.rne, none, none, false, false, none, none⟩ 18 6) ∧
    decodeTableWord 64 0x00501A200003E053 = some (.qres ⟨.rne, none, none, false, false, none, none⟩ 17 6) ∧
    decodeTableWord 64 0x006002860003E053 = some (.qcnt ⟨.rne, none, none, false, false, none, none⟩ 6 20) ∧
    decodeTableWord 64 0x007000000003E053 = some (.ksync ⟨.rne, none, none, false, false, none, none⟩) ∧
    decodeTableWord 64 0x008000A60A03E053 = some (.kcnt ⟨.rne, some 2, none, false, false, none, none⟩ 6 5) ∧
    decodeTableWord 64 0x00001D090003E055 = some (.tspawn ⟨.rne, none, none, false, false, none, none⟩ 9 8 7) ∧
    decodeTableWord 64 0x00101D000003E055 = some (.vpub ⟨.rne, none, none, false, false, none, none⟩ false 8 7) ∧
    decodeTableWord 64 0x00501D000003E055 = some (.vpub ⟨.rne, none, none, false, false, none, none⟩ true 8 7) := by
  decide +kernel

theorem test_begins_with_nothing_to_wait_for : begins (.vadd bare 8 4 (.v 2)) demo = true := by decide +kernel

/-! ## Witnesses: states and operands that meet what each statement supposes -/

theorem witness_DecodeEncode : ∃ (i : Instr), i.WellFormed ∧ i.encodable = true :=
  ⟨.vldx { bare with ty := some .f32, guard := some ⟨7, true⟩ } 31 4 7 3 .n64, by unfold Instr.WellFormed; decide, by decide⟩

theorem witness_StepRunsDecoded : ∃ (s t : State) (ps rest : List Parcel) (i : Instr),
    s.agenda = [] ∧ s.powered = true ∧ s.runnable = true ∧ s.cur.flights = [] ∧ s.fetchAll = (.ok ps, t) ∧ decode ps = .ok (i, rest) :=
  ⟨demo.withFetchWord 32 0x0091D088, _, [0x0091D088], [], .mulhn 1 29 8, by decide +kernel, by decide +kernel, by decide +kernel,
    by decide +kernel, ok_pair (by decide +kernel), rfl⟩

theorem witness_StepRunsEvent : (∃ (s : State) (i : Instr) (rest : List Choice), s.agenda = .event i :: rest) ∧
    (∃ (s : State) (rest : List Choice), s.cur.live = true ∧ s.agenda = .issue s.cur.loc s.stream :: rest) ∧
    (∃ (s : State) (rest : List Choice) (ga : Nat), s.cur.live = true ∧ s.agenda = .bind s.cur.loc s.stream false ga :: rest) ∧
    ∃ (s : State) (x : Early), s.str.early = [x] ∧ x.level = 0 :=
  ⟨⟨{ demo with agenda := [.event .powerLoss] }, .powerLoss, [], rfl⟩, ⟨{ demo with agenda := [.issue at0 .ep] }, [], rfl, rfl⟩,
   ⟨{ demo with agenda := [.bind at0 .ep false 0] }, [], 0, rfl, rfl⟩,
   with_ fun v => { v with ep := { v.ep with early := [⟨0, 0, 7, false, [], []⟩] } }, ⟨0, 0, 7, false, [], []⟩, rfl, rfl⟩

theorem witness_StepKeepsMemoryForm : ∃ s t : State, MemoryKept s ∧ step s = .next t :=
  let s := demo.withFetchWord 32 0x0091D088
  have h : (goes (step s)).isSome = true := by decide +kernel
  (goes_next h).elim fun t ht => ⟨s, t, by unfold MemoryKept; decide +kernel, ht⟩

theorem witness_ResetValues : ∃ (l : Loc) (s : State), s.cur = Vlc.create l 64 1 2 0x100 ∧ l.coreId.ncore = true :=
  ⟨at8, { demo with cur := Vlc.create at8 64 1 2 0x100 }, rfl, by decide⟩

theorem witness_InstructionsBegin : ∃ (i : Instr) (s : State), Ready i s ∧ drawsAtIssue i s = 0 ∧ needsTenure i = true ∧
    (s.cur.k[(3 : Fin 8)]).toNat = 62 :=
  ⟨.vadd { bare with post := some 3 } 8 4 (.v 2), with_ fun v => { v with k := v.k.set 3 62 }, ready_of (by decide +kernel),
    by decide +kernel⟩

theorem witness_InstructionsBegin_tile : ∃ (i : Instr) (s : State), Ready i s ∧ cellIsTile i.cell = true :=
  ⟨.tshape bare .bf16 1, tiled, ready_of (by decide +kernel), by decide +kernel⟩

theorem witness_TokenWait : (∃ (s : State) (k : Fin 8), s.str.granted = false ∧ s.cur.korder[k] = [] ∧ (s.cur.k[k]).toNat = 1) ∧
    (∃ (s : State) (k : Fin 8), s.str.granted = false ∧ s.cur.korder[k] = [.ap] ∧ (s.cur.k[k]).toNat = 1) ∧
    ∃ (s : State) (k : Fin 8), s.str.granted = false ∧ s.cur.korder[k] = [] ∧ (s.cur.k[k]).toNat = 0 :=
  ⟨⟨with_ fun v => { v with k := v.k.set 7 1 }, 7, by decide +kernel⟩,
   ⟨with_ fun v => { v with k := v.k.set 7 1, korder := v.korder.set 7 [.ap] }, 7, by decide +kernel⟩, demo, 7, by decide +kernel⟩

theorem witness_CompletionFrame : clearsVstart (.vadd bare 1 2 (.v 3)) = true ∧ clearsVstart (.vstrip 1 2 none) = false ∧
    (∃ (i : Instr) (c : Common) (k : Fin 8), i.common = some c ∧ c.wait = some k ∧ c.post = some k) ∧
    (∃ i : Instr, i.common = none) ∧ (∃ s : State, s.stream = .ep ∧ s.cur.flights = []) ∧ ∃ s : State, s.stream = .ap ∧ s.vectorWaits = false :=
  ⟨rfl, rfl, ⟨.kcnt { bare with wait := some 7, post := some 7 } 1 7, _, 7, rfl, rfl, rfl⟩, ⟨.nop, rfl⟩, ⟨demo, rfl, rfl⟩,
    { demo with stream := .ap }, by decide +kernel⟩

theorem witness_FlagsMerge : (∃ (s : State) (n : Fin 8), s.cur.ctl.fxvalid.getLsbD n.val = true) ∧
    ∃ (s : State) (r : Raised) (n : Fin 8) (k : Nat), s.cur.ctl.fxvalid.getLsbD n.val = false ∧ lowestRaise r n.val = some k :=
  ⟨⟨with_ fun v => { v with ctl := { v.ctl with fxvalid := 0x80 } }, 7, by decide +kernel⟩,
    demo, [(6, 0x01), (5, 0x80), (9, 0x80)], 7, 5, by decide +kernel⟩

theorem witness_GeneralRegisters : ∃ n m : Fin 32, n ≠ 0 ∧ m ≠ n := ⟨31, 0, by decide⟩

theorem witness_TrapEntry : ∃ (s : State) (q : TrapReq), s.cur.ctl.etvec ≠ 0 ∧ q.code < 64 ∧ q.code ≠ causeMigration :=
  ⟨with_ fun v => { v with ctl := { v.ctl with etvec := 0x100 } }, ⟨63, 0, 0⟩, by decide +kernel⟩

theorem witness_NcoreHasNoTiles : ∃ s : State, s.ncore = true ∧ cellIsTile (Instr.tcvt bare 0 0).cell = true ∧
    (∀ n ∈ [0x031, 0x040, 0x04F], (cregUse (.cread 1 (BitVec.ofNat 12 n))).map (·.1) = some n) :=
  ⟨with_ fun v => { v with loc := at8 }, by decide +kernel⟩

theorem witness_PrivilegeTrap : (∃ s : State, s.cur.ctl.sys = false ∧ s.stream = .ep ∧ s.cur.ctl.tm = false ∧ s.ncore = false) ∧
    (∃ s : State, s.cur.ctl.sys = false ∧ s.stream = .ap) ∧
    ∀ i ∈ [Instr.qcmd bare 21 1, .qcnt bare 4 21], modeOk i demo = true ∧ shapeOk i demo = true :=
  ⟨⟨demo, by decide +kernel⟩, ⟨{ demo with stream := .ap }, by decide +kernel⟩, by decide +kernel⟩

theorem witness_TrapAndReturn : (∃ s : State, decodeTrap (.trap 0xFFF) s = none) ∧ ∃ s : State, s.cur.ctl.sys = true :=
  ⟨⟨demo, by decide +kernel⟩, with_ fun v => { v with ctl := { v.ctl with sys := true } }, by decide +kernel⟩

theorem witness_ScalarAccesses_load : ∃ (s t : State) (a : Fin 32) (imm : BitVec 12) (bs : List Byte), s.stream = .ep ∧
    s.forkHeld = false ∧ s.awake.load (s.gread a + imm.signExtend 64) 8 = (.ok ⟨bs, false, false, false⟩, t) ∧ t.str.wait = none ∧
    ldBytes .n64 = 8 ∧ ldBytes .s64 = 8 ∧ leNat bs = 0x8000000000000000 :=
  ⟨{ demo with mem := writeMem [] (home.toNat - 8) (leBytes 8 0x8000000000000000) }, _, 1, -8, [0, 0, 0, 0, 0, 0, 0, 0x80],
    by decide +kernel, by decide +kernel, ok_pair (by decide +kernel), by decide +kernel⟩

theorem witness_ScalarAccesses_store : ∃ (s t : State) (d a : Fin 32) (imm : BitVec 12), s.stream = .ep ∧
    s.awake.store false (s.gread a + imm.signExtend 64) (leBytes 8 (s.gread d).toNat) = (.ok (), t) ∧ t.str.wait = none ∧
    stBytes .n64 = 8 :=
  ⟨demo, _, 3, 1, 2047, by decide +kernel, ok_pair (by decide +kernel), by decide +kernel⟩

theorem witness_ScalarAccesses_traps : ∃ (s t u : State) (a : Fin 32) (f g : Flt),
    s.awake.load (s.gread a) (ldBytes .n64) = (.error f, t) ∧ t.str.wait = none ∧
    s.awake.store false (s.gread a) (leBytes (stBytes .n16) 0) = (.error g, u) ∧ u.str.wait = none :=
  let s := with_ fun v => { v with ctl := { v.ctl with atp := 0x1000000000000000 } }
  have hl : (s.awake.load (s.gread 1) (ldBytes .n64)).1.toOption.isNone = true := by decide +kernel
  have hs : (s.awake.store false (s.gread 1) (leBytes (stBytes .n16) 0)).1.toOption.isNone = true := by decide +kernel
  (error_pair hl).elim fun f hf => (error_pair hs).elim fun g hg =>
    ⟨s, _, _, 1, f, g, hf, by decide +kernel, hg, by decide +kernel⟩

theorem witness_ScalarAccesses_small : ldBytes .s16 = 2 ∧ ldBytes .n32 = 4 ∧ ldBytes .s8 = 1 ∧ stBytes .n8 = 1 ∧ stBytes .n32 = 4 := by
  decide

theorem witness_FloatArithmetic : ∃ s : State, s.stream = .ep := ⟨demo, rfl⟩
theorem witness_FloatMovesAndCompares : ∃ s : State, s.stream = .ep := ⟨demo, rfl⟩

/-- `demo` with the AP in focus, running. -/
def demoAp : State := { (with_ fun v => { v with ap := { v.ep with run := .running }, ctl := { v.ctl with apon := true } }) with stream := .ap }

theorem witness_Branches : (∃ s : State, s.stream = .ep ∧ s.cur.tenure = true ∧ s.vl = 8) ∧
    (∃ (s : State) (rest : List Bool), s.stream = .ep ∧ s.cur.q.bits = true :: rest) ∧
    ∃ s : State, s.stream = .ep ∧ s.cur.q.bits = [] :=
  ⟨⟨demo, by decide +kernel⟩, ⟨with_ fun v => { v with q := { v.q with bits := [true] } }, [], by decide +kernel⟩, demo, by decide +kernel⟩

theorem witness_Transfers : (∃ s : State, s.str.ras.length = 15) ∧
    (∃ (s : State) (rest : List Word) (x : Word), s.str.ras = rest ++ [x]) ∧ ∃ s : State, s.stream = .ap :=
  ⟨⟨with_ fun v => { v with ep := { v.ep with ras := List.replicate 15 64 } }, by decide +kernel⟩,
   ⟨with_ fun v => { v with ep := { v.ep with ras := [64, 128] } }, [64], 128, by decide +kernel⟩, demoAp, rfl⟩

/-- Work of task 0 from queue 5 of die 0, with `todo` still to come. -/
def work0 (todo : List (List Nat)) : Work :=
  ⟨0, ⟨0, 5⟩, home + 0x1000, home + 0x2000, true, [7], [4], [0], todo, 0, 0, 0, none⟩

/-- `demo` with that work. -/
def worker (todo : List (List Nat)) : State := with_ fun v => { v with work := some (work0 todo) }

theorem witness_ExitEndsCombination :
    (∃ (s : State) (w : Work) (idx : List Nat) (rest : List (List Nat)), s.stream = .ep ∧ s.cur.ctl.apon = false ∧
      s.fillsPending = false ∧ s.cur.work = some w ∧ w.todo = idx :: rest) ∧
    ∃ (s : State) (w : Work), s.stream = .ep ∧ s.cur.ctl.apon = false ∧ s.fillsPending = false ∧ s.cur.work = some w ∧ w.todo = [] :=
  ⟨⟨worker [[1]], work0 [[1]], [1], [], by decide +kernel⟩, worker [], work0 [], by decide +kernel⟩

theorem witness_StripGrants :
    (∃ (s : State) (a : Fin 32), s.stream = .ep ∧ s.cur.ctl.tm = false ∧ s.cur.tenure = true ∧ s.cur.migrate = none ∧
      s.cur.ctl.vill = false ∧ s.gread a = 0) ∧
    (∃ (s : State) (sv : SetV), s.stream = .ep ∧ s.cur.ctl.tm = false ∧ s.cur.tenure = true ∧ s.cur.migrate = none ∧
      (s.awake.setVtype sv.lg sv.wc).cur.ctl.vill = true) ∧
    (∃ (s : State) (a : Fin 32), s.stream = .ep ∧ s.cur.tenure = true ∧ s.gread a ≠ 0 ∧ s.awake.cur.ctl.vill = false ∧ s.cur.work = none) ∧
    ∃ (s : State) (a : Fin 32) (w : Work), s.stream = .ep ∧ s.cur.tenure = true ∧ s.cur.migrate = none ∧ s.gread a ≠ 0 ∧
      s.awake.cur.ctl.vill = false ∧ s.cur.work = some w ∧ w.chain = none ∧ s.core.arb = ⟨[], [], []⟩ :=
  ⟨⟨demo, 0, by decide +kernel⟩, ⟨demo, ⟨3, 15⟩, by decide +kernel⟩, ⟨demo, 2, by decide +kernel⟩, worker [], 2, work0 [],
    by decide +kernel⟩

theorem witness_VrelLeavesNothing : ∃ s : State, s.stream = .ep ∧ s.fillsPending = false := ⟨demo, by decide +kernel⟩

theorem witness_ModesAndStreams :
    (∃ s : State, s.stream = .ep ∧ s.ncore = false ∧ s.cur.ctl.tm = false ∧ s.cur.ctl.apon = false) ∧
    (∃ s : State, s.stream = .ep ∧ s.cur.ctl.tm = true) ∧
    (∃ s : State, s.stream = .ep ∧ s.cur.ctl.apon = true ∧ s.cur.ap.run = .ended) ∧
    ∃ s : State, s.stream = .ep ∧ s.cur.ctl.apon = true ∧ s.cur.ap.run = .running :=
  ⟨⟨demo, by decide +kernel⟩, ⟨tiled, by decide +kernel⟩,
   ⟨with_ fun v => { v with ap := { v.ap with run := .ended }, ctl := { v.ctl with apon := true } }, by decide +kernel⟩,
   { demoAp with stream := .ep }, by decide +kernel⟩

theorem witness_ControlRegisters : ∃ s : State, decodeTrap (.cread 1 0x000) s = none ∧ decodeTrap (.cread 1 0x0A1) s = none ∧
    decodeTrap (.cwrite 0x00A 1) s = none ∧ (cregWrite s.awake 0x00A (s.gread 1)).str.wait = none ∧
    decodeTrap (.cswap 1 0x0C4 1) s = none ∧ (cregWrite s.awake 0x0C4 (s.gread 1)).str.wait = none ∧
    s.tablesBusy 0x080 = false ∧ decodeTrap (.cwrite 0x080 1) s = none ∧ decodeTrap (.cread 1 0x050) s = none :=
  ⟨with_ fun v => { v with ctl := { v.ctl with sys := true } }, by decide +kernel⟩

theorem witness_ControlRegisters_progress : ∃ (s : State) (f : Flying), decodeTrap (.cread 1 0x052) s = none ∧ s.cur.flights = [] ∧
    s.cur.busy = [f] ∧ f.reg.val + 0x50 = 0x052 :=
  ⟨with_ fun v => { v with ctl := { v.ctl with sys := true }, busy := [⟨2, 0, 128, 512⟩] }, ⟨2, 0, 128, 512⟩, by decide +kernel⟩

theorem witness_ControlRegisters_busy : ∃ s : State, decodeTrap (.cwrite 0x081 1) s = none ∧ s.tablesBusy 0x081 = true :=
  ⟨{ (with_ fun v => { v with ctl := { v.ctl with sys := true } }) with
      moves := [⟨7, 0, 9, .automatic, [.entry ⟨4, at0, .ep, [], false, false, false, false, false, 0, 0, []⟩]⟩] }, by decide +kernel⟩

theorem witness_ControlRegisterWrites : wcOk ((3 : Word).extractLsb' 0 4) = true ∧ wcOk ((15 : Word).extractLsb' 0 4) = false ∧
    tyOfNat (bitsAt (2 ^ 18 + 256 * 2 ^ 9 + 128) 18 5) = some .s16 ∧ tyOfNat (bitsAt (0x1F * 2 ^ 18) 18 5) = none := by decide

theorem witness_HintsAndConvoys : ∃ (s u v : State) (cnt : BitVec 3) (slots : BitVec 18) (ps : List Parcel) (q : TrapReq), s.stream = .ep ∧
    s.awake.fetchParcels (s.pc + 4) (2 * (cnt.toNat + 2)) = (.ok ps, u) ∧ u.str.wait = none ∧
    ((List.range (cnt.toNat + 2)).findSome? fun k =>
        memberCheck u (u.pc + 4 + BitVec.ofNat 64 (8 * k)) (cvUnitOf (slots.extractLsb' (3 * k) 3))) = none ∧
    demo.awake.fetchParcels (demo.pc + 4) (2 * (cnt.toNat + 2)) = (.ok (List.replicate 4 0), v) ∧
    ((List.range (cnt.toNat + 2)).findSome? fun k =>
        memberCheck v (v.pc + 4 + BitVec.ofNat 64 (8 * k)) (cvUnitOf (slots.extractLsb' (3 * k) 3))) = some q :=
  let s : State := { demo with mem := writeMem [] (home.toNat + 0x1004) (leBytes 16 0x1000028000220210000002800022021) }
  have h : (match (demo.awake.fetchParcels (demo.pc + 4) 4).2 with
    | v => (List.range 2).findSome? fun k =>
        memberCheck v (v.pc + 4 + BitVec.ofNat 64 (8 * k)) (cvUnitOf ((0x08#18).extractLsb' (3 * k) 3))).isSome = true := by decide +kernel
  (Option.isSome_iff_exists.mp h).elim fun q hq =>
    ⟨s, _, _, 0, 0x08, [0x22021, 0x28, 0x22021, 0x1000028], q, by decide +kernel, ok_pair (by decide +kernel), by decide +kernel, by decide +kernel,
      ok_pair (by decide +kernel), hq⟩

theorem some_getD {α : Type} {o : Option α} (d : α) (h : o.isSome = true) : o = some (o.getD d) := by
  cases o <;> simp at h ⊢

theorem pair_with {α β : Type} {p : α × β} {q : α → β → Bool} (h : q p.1 p.2 = true) : ∃ a b, p = (a, b) ∧ q a b = true :=
  ⟨_, _, rfl, h⟩

/-- `demo` with its AP in focus, an open strip, and a store of it seen there. -/
def sawOpen : State :=
  let s := with_ fun v => { v with ap := { v.ep with seen := [1] }, strip := { v.strip with isOpen := true } }
  { s with stream := .ap, pend := [⟨1, at0, .ep, [], true, false, false, false, false, 1, 0, []⟩] }

theorem witness_Fences : (∃ (s t : State), s.awake.release .fabric = some t ∧ t.str.wait = none) ∧
    ∃ s : State, s.awake.release .core = none :=
  have h : (demo.awake.release .fabric).isSome = true := by decide +kernel
  have n : (sawOpen.awake.release .core).isNone = true := by decide +kernel
  ⟨⟨demo, _, some_getD demo h, by decide +kernel⟩, sawOpen, Option.isNone_iff_eq_none.mp n⟩

/-- A scalar atomic in `demo` on the location of G1, all 64 bits. -/
def word : Common := { bare with ty := some .n64 }

theorem test_atomics_begin : ∀ i ∈ [Instr.amoswap word .both .fabric 4 1 2, .amocas word .acq .die 4 1 2 3, .amoadd word .rel .device 4 1 2,
    .amoand word .none .core 4 1 2, .amoor word .both .context 4 1 2, .amoxor word .both .fabric 4 1 2,
    .amomin word .both .fabric 4 1 2, .amomax word .both .fabric 4 1 2, .amofadd { bare with ty := some .f32 } .both .fabric 4 1 2,
    .amofmin { bare with ty := some .f64 } .both .fabric 4 1 2, .amofmax { bare with ty := some .f32 } .both .fabric 4 1 2],
    begins i demo = true := by decide +kernel

theorem witness_ScalarAtomics : ∃ (s u t v w : State) (c : Common) (sem : Sem) (sc : Scope) (d a b : Fin 32) (st : Strips) (ds : List Nat)
    (gas : List Nat) (old : Nat) (fl : Fl), Begins (.amoadd c sem sc d a b) s st ds u ∧ (s.gread a).toNat % 8 = 0 ∧
    u.gread a = s.gread a ∧ u.xlateN .write (u.gread a) 8 = (.ok gas, t) ∧ t.release sc = some v ∧ releases sem = true ∧
    v.atomicAt gas ⟨.add, .n64, c.rm, (v.gread b).toNat % 2 ^ 64, (v.gread 0).toNat % 2 ^ 64⟩ =
      (some ⟨old, fl, false, false, false⟩, w) ∧ w.str.wait = none ∧ w.upset = none := by
  let i : Instr := .amoadd word .both .fabric 4 1 2
  let u := begun i demo
  let gas := (List.range 8).map (home.toNat + ·)
  let t := (u.xlateN .write (u.gread 1) 8).2
  let v := (t.release .fabric).getD t
  have hb : Begins i demo noStrips [] u := begins_begun (by decide +kernel)
  have hx : u.xlateN .write (u.gread 1) 8 = (.ok gas, t) := ok_pair (by decide +kernel)
  have hr : t.release .fabric = some v := some_getD t (by decide +kernel)
  obtain ⟨x, w, hw, hp⟩ := pair_with (p := v.atomicAt gas ⟨.add, .n64, word.rm, (v.gread 2).toNat % 2 ^ 64, (v.gread 0).toNat % 2 ^ 64⟩)
    (q := fun x w => w.str.wait.isNone && w.upset.isNone && x == some ⟨0, 0, false, false, false⟩) (by decide +kernel)
  simp only [Bool.and_eq_true, Option.isNone_iff_eq_none, beq_iff_eq] at hp
  obtain ⟨⟨h1, h2⟩, rfl⟩ := hp
  exact ⟨demo, u, t, v, w, word, .both, .fabric, 4, 1, 2, noStrips, [], gas, 0, 0, hb, by decide +kernel, by decide +kernel, hx,
    hr, rfl, hw, h1, h2⟩

theorem witness_AtomicAtMemory : ∃ (s : State) (ga n : Nat), 0 < n ∧ s.str.answer = none ∧ s.pend = [] ∧ s.moves = [] ∧
    (∀ g ∈ (List.range n).map (ga + ·), s.reachable s.cur.loc.die g = true ∧ s.mayNotLeave s.cur.loc.die [g] = false) ∧
    (∀ c ∈ s.cores.toList, c.injb.getLsbD 0 = false) ∧ s.upset = none ∧
    (∀ g ∈ (List.range n).map (ga + ·), gaLine g ∉ s.poison) ∧ MemoryKept s :=
  ⟨demo, home.toNat, 8, by unfold MemoryKept; decide +kernel⟩

theorem test_vector_atomics_begin : ∀ i ∈ [Instr.vamoswap bare 0 .n32 .die (some 9) 1 2 3, .vamoadd bare 0 .n32 .die none 1 2 3,
    .vamoand bare 0 .n32 .die none 1 2 3, .vamoor bare 0 .n32 .die none 1 2 3, .vamoxor bare 0 .n32 .die none 1 2 3,
    .vamomin bare 0 .n32 .die none 1 2 3, .vamomax bare 0 .n32 .die none 1 2 3, .vamofadd { bare with ty := some .f32 } 0 .n32 .die none 1 2 3,
    .vamofmin { bare with ty := some .f32 } 0 .n32 .die none 1 2 3, .vamofmax { bare with ty := some .f32 } 0 .n32 .die none 1 2 3],
    begins i demo = true := by decide +kernel

theorem witness_VectorAtomics : ∃ (s u t w : State) (c : Common) (r : Option (Fin 32)) (a b e : Fin 32) (st : Strips) (ds : List Nat)
    (addrs : List (Nat × List Nat)) (run : VamoRun), Begins (.vamoadd c 0 .n32 .die r a b e) s st ds u ∧
    atomAddrs 4 (indexAddr st.view u a b 0 .n32) (u.performed c) u = (addrs, none, t) ∧
    vamoElems .add .s32 c.rm .die (fun k => elem .s32 (st.view.src u e .s32) k) addrs (if t.stream == .ep then t.disarm else t) = (run, w) ∧
    run.stop = none ∧ (w.putVamo r .s32 run).str.wait = none ∧ (w.putVamo r .s32 run).upset = none := by
  let i : Instr := .vamoadd bare 0 .n32 .die (some 9) 1 2 3
  let u := begun i demo
  have hb : Begins i demo noStrips [] u := begins_begun (by decide +kernel)
  let x := atomAddrs 4 (indexAddr noStrips.view u 1 2 0 .n32) (u.performed bare) u
  obtain ⟨run, w, hy, hp⟩ := pair_with (p := vamoElems .add .s32 bare.rm .die (fun k => elem .s32 (noStrips.view.src u 3 .s32) k) x.1
      (if x.2.2.stream == .ep then x.2.2.disarm else x.2.2))
    (q := fun run w => run.stop.isNone && (w.putVamo (some 9) .s32 run).str.wait.isNone && (w.putVamo (some 9) .s32 run).upset.isNone &&
      x.2.1.isNone) (by decide +kernel)
  simp only [Bool.and_eq_true, Option.isNone_iff_eq_none] at hp
  obtain ⟨⟨⟨h1, h2⟩, h3⟩, h4⟩ := hp
  have hx : atomAddrs 4 (indexAddr noStrips.view u 1 2 0 .n32) (u.performed bare) u = x := rfl
  generalize x = x at *
  obtain ⟨addrs, n, t⟩ := x
  subst h4
  exact ⟨demo, u, t, w, bare, some 9, 1, 2, 3, noStrips, [], addrs, run, hb, hx, hy, h1, h2, h3⟩

theorem demo_quiet : Quiet demo := quiet_of (by decide +kernel)

theorem ready_all {l : List Instr} {s : State} (h : l.all (isReady · s) = true) : ∀ i ∈ l, Ready i s := fun i hi =>
  ready_of (List.all_eq_true.mp h i hi)

theorem witness_ScalarAtomics_completes : ∀ i ∈ [Instr.amoswap word .both .fabric 4 1 2, .amocas word .both .fabric 4 1 2 3,
    .amoadd word .rel .die 4 1 2, .amoand word .none .fabric 4 1 2, .amoor word .acq .fabric 4 1 2, .amoxor word .both .fabric 4 1 2,
    .amomin word .both .fabric 4 1 2, .amomax word .both .fabric 4 1 2, .amofadd (typed .f32) .both .fabric 4 1 2,
    .amofmin (typed .f64) .both .fabric 4 1 2, .amofmax (typed .f32) .both .fabric 4 1 2], Ready i demo ∧ Quiet demo ∧ MemoryKept demo ∧
      (demo.gread 1).toNat % 8 = 0 ∧ demo.reaches (bareBytes (demo.gread 1) 8) := fun i hi =>
  ⟨ready_all (by decide +kernel) i hi, demo_quiet, by unfold MemoryKept; decide +kernel, by decide +kernel,
    by unfold State.reaches; decide +kernel⟩

theorem witness_VectorAtomics_completes : ∀ i ∈ [Instr.vamoswap bare 0 .n32 .die (some 9) 1 2 3, .vamoadd bare 0 .n32 .core none 1 2 3,
    .vamoand bare 0 .n32 .die none 1 2 3, .vamoor bare 0 .n32 .die none 1 2 3, .vamoxor bare 0 .n32 .device none 1 2 3,
    .vamomin bare 0 .n32 .die none 1 2 3, .vamomax bare 0 .n32 .fabric none 1 2 3, .vamofadd (typed .f32) 0 .n32 .die none 1 2 3,
    .vamofmin (typed .f32) 0 .n32 .die none 1 2 3, .vamofmax (typed .f32) 0 .n32 .die none 1 2 3], Ready i demo ∧ Quiet demo ∧
      (∀ k ∈ demo.performed bare, (indexAddr [] demo 1 2 0 .n32 k).toNat % 4 = 0 ∧
        demo.reaches (bareBytes (indexAddr [] demo 1 2 0 .n32 k) 4)) ∧ demo.performed bare = List.range 8 := fun i hi =>
  ⟨ready_all (by decide +kernel) i hi, demo_quiet, by unfold State.reaches; decide +kernel, by decide +kernel⟩

/-- `demo` with its queues changed, and a stream in focus. -/
def queued (f : Queues → Queues) (st : Stream) : State :=
  { (with_ fun v => { v with q := f v.q, ap := { v.ep with run := .running } }) with stream := st }

/-- A state in which the instruction begins, of which more is asked where its own effect begins. -/
theorem begins_with {i : Instr} {s : State} {p : State → Bool} (h : (begins i s && p (begun i s)) = true) :
    ∃ (u : State) (st : Strips) (ds : List Nat), Begins i s st ds u ∧ p u = true := by
  rw [Bool.and_eq_true] at h
  exact ⟨_, _, _, begins_begun h.1, h.2⟩

theorem witness_StreamQueues_put :
    (∃ (s u : State) (st : Strips) (ds : List Nat), Begins (.qput bare 12 2) s st ds u ∧ (u.qcount 12 == qdepth 12 - 1) = true) ∧
    (∃ (s u : State) (st : Strips) (ds : List Nat), Begins (.qput bare 11 2) s st ds u ∧ (u.qcount 11 == qdepth 11 - 1) = true) ∧
    ∃ (s u : State) (st : Strips) (ds : List Nat), Begins (.qput bare 8 2) s st ds u ∧ (u.qcount 8 == qdepth 8) = true :=
  ⟨⟨queued (fun x => { x with bits := List.replicate 63 true }) .ap, begins_with (by decide +kernel)⟩,
   ⟨queued (fun x => { x with words := x.words.set 3 (List.replicate 15 0) }) .ep, begins_with (by decide +kernel)⟩,
   queued (fun x => { x with words := x.words.set 0 (List.replicate 16 0) }) .ep, begins_with (by decide +kernel)⟩

theorem witness_StreamQueues_get :
    (∃ (s u : State) (st : Strips) (ds : List Nat), Begins (.qget bare 4 8) s st ds u ∧ (u.cur.q.words[qIdx4 8] == [7]) = true) ∧
    (∃ (s u : State) (st : Strips) (ds : List Nat), Begins (.qget bare 4 12) s st ds u ∧ (u.cur.q.bits == [true]) = true) ∧
    (∃ (s u : State) (st : Strips) (ds : List Nat), Begins (.qget bare 4 11) s st ds u ∧ (u.cur.q.words[qIdx4 11] == []) = true) :=
  ⟨⟨queued (fun x => { x with words := x.words.set 0 [7] }) .ap, begins_with (by decide +kernel)⟩,
   ⟨queued (fun x => { x with bits := [true] }) .ep, begins_with (by decide +kernel)⟩,
   queued id .ap, begins_with (by decide +kernel)⟩

theorem witness_StreamQueues_completes :
    (∃ s : State, Ready (.qput bare 12 2) s ∧ s.qcount 12 < qdepth 12 ∧ s.boundHeld = false) ∧
    (Ready (.qput bare 8 2) demo ∧ demo.qcount 8 < qdepth 8) ∧
    (∃ s : State, Ready (.qget bare 4 8) s ∧ s.cur.q.words[qIdx4 8] ≠ []) ∧ (∃ s : State, Ready (.qget bare 4 12) s ∧ s.cur.q.bits ≠ []) ∧
    ∀ i ∈ [Instr.qcnt bare 4 8, .kcnt bare 4 7, .ksync bare], Ready i demo :=
  ⟨⟨queued id .ap, ready_of (by decide +kernel), by decide +kernel⟩, ⟨ready_of (by decide +kernel), by decide +kernel⟩,
   ⟨queued (fun x => { x with words := x.words.set 0 [7] }) .ap, ready_of (by decide +kernel), by decide +kernel⟩,
   ⟨queued (fun x => { x with bits := [true] }) .ep, ready_of (by decide +kernel), by decide +kernel⟩, ready_all (by decide +kernel)⟩

theorem test_counts_begin : ∀ i ∈ [Instr.qcnt bare 4 8, .kcnt bare 4 7, .ksync bare], begins i demo = true := by decide +kernel

theorem begin_all {l : List Instr} {s : State} (h : (l.all fun i => begins i s) = true) :
    ∀ i ∈ l, ∃ (u : State) (st : Strips) (ds : List Nat), Begins i s st ds u := fun i hi =>
  ⟨_, _, _, begins_begun (List.all_eq_true.mp h i hi)⟩

theorem witness_VectorArithmetic : ∀ i ∈ [Instr.vadd bare 8 4 (.i 5), .vsub bare 8 4 (.v 2), .vrsub bare 8 4 (.s 2), .vmul bare 8 4 (.v 2),
    .vmulh bare 8 4 (.v 2), .vdiv bare 8 4 (.v 2), .vrem bare 8 4 (.v 2), .vmin bare 8 4 (.v 2), .vmax bare 8 4 (.v 2),
    .vand bare 8 4 (.v 2), .vor bare 8 4 (.v 2), .vxor bare 8 4 (.v 2), .vsll bare 8 4 (.v 2), .vsrl bare 8 4 (.v 2),
    .vsra bare 8 4 (.v 2), .vsadd bare 8 4 (.v 2), .vssub bare 8 4 (.v 2), .vsgnj (typed .f32) 8 4 (.v 2),
    .vsgnjn (typed .f32) 8 4 (.s 1), .vmv bare 31 (.i 7), .vid bare 8, .vsqrt (typed .f32) 8 4, .vabs bare 8 4, .vneg bare 8 4,
    .vsel { bare with guard := some ⟨7, true⟩ } 8 4 (.v 2)], ∃ (u : State) (st : Strips) (ds : List Nat), Begins i demo st ds u :=
  begin_all (by decide +kernel)

theorem witness_VectorElementsAndFrame : ∃ (u : State) (d : Fin 32) (rs : List (Nat × Nat)), groupFor u.cur.ctl .s32 ≤ 8 ∧
    d.val % groupFor u.cur.ctl .s32 = 0 ∧ (∀ r ∈ rs, r.1 < vlmax u.ncore .s32 (groupFor u.cur.ctl .s32) ∧ r.2 < 2 ^ Ty.s32.sew) ∧
    (rs.map (·.1)).Nodup :=
  ⟨with_ fun v => { v with ctl := { v.ctl with lg := 3 } }, 24, [(0, 5), (4095, 0xFFFFFFFF)], by decide +kernel⟩

theorem witness_VectorFusedAndConversions : ∀ i ∈ [Instr.vfmadd bare 8 4 2 6, .vfmsub bare 8 4 2 6, .vfnmadd bare 8 4 2 6,
    .vfnmsub bare 8 4 2 6, .vwfmadd (typed .f32) .bf16 8 4 2 6, .vwfmsub (typed .f32) .bf16 8 4 2 6,
    .vwfnmadd (typed .s32) .s8 8 4 2 6, .vwfnmsub (typed .f32) .e2m1s 8 4 2 6, .vcvt (typed .s32) .f32 8 4,
    .vcvt (typed .e4m3s) .f32 8 4, .vcvtx (typed .s8) .s32 8 4, .vcvtx (typed .e4m3s) .f32 8 4],
    ∃ (u : State) (st : Strips) (ds : List Nat), Begins i demo st ds u := begin_all (by decide +kernel)

theorem witness_VectorComparesAndMasks : ∀ i ∈ [Instr.vcmpeq bare 7 4 (.v 2), .vcmpne bare 7 4 (.s 2), .vcmplt (typed .f32) 7 4 (.s 1),
    .vcmple bare 7 4 (.v 2), .vcmpgt bare 7 4 (.v 2), .vcmpge bare 7 4 (.v 2), .mand bare 7 0 1, .mor bare 7 0 1, .mxor bare 7 0 1,
    .mandn bare 7 0 1, .msbf bare 7 0, .msif bare 7 0, .msof bare 7 0, .mpcnt bare 4 7, .mfirst bare 4 7],
    ∃ (u : State) (st : Strips) (ds : List Nat), Begins i demo st ds u := begin_all (by decide +kernel)

theorem witness_VectorPermutes : (∀ i ∈ [Instr.vslideup bare 8 4 2, .vslidedown bare 8 4 2, .vrgather bare 8 4 2, .vcompress bare 8 4 7,
    .viota bare 8 7, .vputg bare 8 2, .vputh (typed .f32) 8 1],
      ∃ (u : State) (st : Strips) (ds : List Nat), Begins i demo st ds u) ∧
    (∀ i ∈ [Instr.vgetg bare 4 8, .vgeth (typed .f32) 4 8], begins i demo = true ∧ (begun i demo).vstart < (begun i demo).vl) ∧
    ∀ i ∈ [Instr.vgetg bare 4 8, .vgeth (typed .f32) 4 8], let s := with_ fun v => { v with ctl := { v.ctl with vstart := 8 } }
      begins i s = true ∧ (begun i s).vl = (begun i s).vstart :=
  ⟨begin_all (by decide +kernel), by decide +kernel, by decide +kernel⟩

theorem witness_OrderedSum : ∃ (s u : State) (st : Strips) (ds : List Nat), Begins (.vredosum (typed .f32) (some .bf16) 8 4 2) s st ds u ∧
    decide (u.vstart < u.vl) = true := ⟨demo, begins_with (by decide +kernel)⟩

theorem witness_Reductions : ∀ i ∈ [Instr.vredsum (typed .f32) (some .bf16) 8 4 2, .vredsum bare none 8 4 2, .vredand bare 8 4 2,
    .vredor bare 8 4 2, .vredxor bare 8 4 2, .vredmin bare 8 4 2, .vredmax bare 8 4 2, .vredmin (typed .f32) 8 4 2,
    .vredmax (typed .f64) 8 4 2], begins i demo = true ∧ (begun i demo).vstart < (begun i demo).vl := by decide +kernel

theorem witness_ConflictsAndTransformations : ∀ i ∈ [Instr.vconf bare 7 4, .vconfr bare 8 4, .vtopk bare 8 4 2, .vunpk bare 8 4 2,
    .vlut (typed .bf16) .n4 1 8 4 2, .vexpm bare 8 4], ∃ (u : State) (st : Strips) (ds : List Nat), Begins i demo st ds u :=
  begin_all (by decide +kernel)

/-! ### Queues, engines and tasks -/

theorem witness_EnginesAndTasks_strips :
    (∃ (s u : State) (st : Strips) (ds : List Nat), Begins (.qld bare .s32 7 1 2 4) s st ds u ∧
      (decide (u.qcount 7 < qdepth 7) &&
        match loadElems (fun j => packedPiece (u.gread 1) (j * 32) 32) (List.range 3) u with
        | (got, none, t) => got.all (!·.2.bad) && t.str.wait.isNone
        | _ => false) = true) ∧
    (∃ (s u : State) (st : Strips) (ds : List Nat), Begins (.qld bare .e4m3s 0 1 2 4) s st ds u ∧
      (decide ((u.gread 1).toNat % 32 = 0) &&
        match loadElems (blockPiece (u.gread 1)) (List.range 1) u with
        | (got, none, t) => got.all (!·.2.bad) && t.str.wait.isNone
        | _ => false) = true) ∧
    (∃ (s u : State) (st : Strips) (ds : List Nat), Begins (.qgetv bare .s32 8 7 4) s st ds u ∧
      (match u.cur.q.strips[qIdx8 7] with
        | x :: _ => x.ty == .s32 && decide (x.count = Machine.vlmax u.ncore .s32 (groupFor u.cur.ctl .s32))
        | [] => false) = true) ∧
    ∃ (s u : State) (st : Strips) (ds : List Nat), Begins (.qgetv bare .n8 8 7 4) s st ds u ∧
      (match u.cur.q.strips[qIdx8 7] with | x :: _ => x.ty != .n8 | [] => false) = true :=
  ⟨⟨queued id .ap, begins_with (by decide +kernel)⟩, ⟨queued id .ap, begins_with (by decide +kernel)⟩,
   ⟨queued (fun q => { q with strips := q.strips.set 7 [⟨512, .s32, 0⟩] }) .ep, begins_with (by decide +kernel)⟩,
   queued (fun q => { q with strips := q.strips.set 7 [⟨512, .s32, 0⟩] }) .ep, begins_with (by decide +kernel)⟩

/-- A record with bytes at offsets. -/
def rec_ (fields : List (Nat × Nat)) : Record := BitVec.ofNat 512 (fields.foldl (fun n f => n + f.2 * 2 ^ (8 * f.1)) 0)

/-- `demo` with a record at G1. -/
def recorded (r : Record) : State := { demo with mem := writeMem [] home.toNat (leBytes 64 r.toNat) }

theorem witness_EnginesAndTasks_commands :
    (∀ q ∈ [(16 : Fin 32), 18, 20], let s := recorded (rec_ [(0, 1), (8, home.toNat), (16, home.toNat + 64), (32, 64)])
      ∃ (u : State) (st : Strips) (ds : List Nat), Begins (.qcmd bare q 1) s st ds u ∧
      (match u.readRecord (u.gread 1) with
        | .ok (r, [], [], t) => match (match pushAddr q r with | none => (Except.ok [], t) | some (va, n) => t.xlateN .write va n) with
          | (.ok _, v) => decide (v.qcount q < qdepth q) &&
            match v.release (pushScope q) with | some w => w.str.wait.isNone | none => false
          | _ => false
        | _ => false) = true) ∧
    ∃ (s u : State) (st : Strips) (ds : List Nat), Begins (.qres bare 19 1) s st ds u ∧
      (decide ((u.gread 1).toNat % 64 = 0) && match u.popRecord 19 with
        | some (r, t) => match t.store false (u.gread 1) (leBytes 64 r.toNat) with
          | (.ok (), v) => v.str.wait.isNone
          | _ => false
        | none => false) = true := by
  refine ⟨fun q hq => ?_, queued (fun q => { q with q19 := [rec_ [(0, 1)]] }) .ep, begins_with (by decide +kernel)⟩
  simp only [List.mem_cons, List.not_mem_nil, or_false] at hq
  rcases hq with rfl | rfl | rfl <;> exact begins_with (by decide +kernel)

theorem witness_EnginesAndTasks_tasks :
    (∃ (s u : State) (st : Strips) (ds : List Nat), Begins (.tspawn bare 4 1 2) s st ds u ∧
      (match u.releaseVlc with
        | some t => match t.readRecord (t.gread 1) with
          | .ok (_, [], [], v) => v.str.wait.isNone && !(v.queueAt ⟨0, 3⟩).en
          | _ => false
        | none => false) = true) ∧
    (∃ (s u : State) (st : Strips) (ds : List Nat), Begins (.tspawn bare 4 1 2) s st ds u ∧
      (match u.releaseVlc with
        | some t => match t.readRecord (t.gread 1) with
          | .ok (r, [], [], v) => v.str.wait.isNone && (v.queueAt ⟨0, 3⟩).en && decide ((v.queueAt ⟨0, 3⟩).fifo.length < 32) &&
            (let x := (v.modQueue ⟨0, 3⟩ fun y => { y with fifo := y.fifo ++ [r] }).admitAll ⟨0, 3⟩ 1
             x.1 != some 0 && x.2.str.wait.isNone)
          | _ => false
        | none => false) = true) ∧
    ∃ (s u : State) (st : Strips) (ds : List Nat), Begins (.vpub bare true 5 2) s st ds u ∧
      (decide ((u.gread 5).toNat % 8 = 0) && match u.xlateN .write (u.gread 5) 8 with
        | (.ok gas, t) => (t.bankOf (gas.headD 0)).isSome && match t.releaseVlc with
          | some v => match v.atomicAt gas ⟨.publish true, .n64, .rne, (v.gread 2).toNat, 0⟩ with
            | (some ⟨_, f, false, false, false⟩, w) => f == 0 && w.str.wait.isNone
            | _ => false
          | none => false
        | _ => false) = true :=
  ⟨⟨recorded (rec_ []), begins_with (by decide +kernel)⟩,
   ⟨(recorded (rec_ [])).modQueue ⟨0, 3⟩ fun q => { q with en := true }, begins_with (by decide +kernel)⟩,
   with_ fun v => { v with ep := { v.ep with g := v.ep.g.set 5 (BitVec.ofNat 64 (State.reset.gaOf 0x10000000000)) } }, begins_with (by decide +kernel)⟩

theorem witness_EnginesAndTasks_completes :
    (∀ tc ∈ [Ty.s32, .e4m3s], let s := queued id .ap
      Ready (.qld bare tc 7 1 2 4) s ∧ Quiet s ∧ s.qcount 7 < qdepth 7 ∧ (s.gread 1).toNat % 32 = 0 ∧
        s.reaches (bareBytes (s.gread 1) 32)) ∧
    (∃ s : State, Ready (.qgetv bare .s32 8 7 4) s ∧ ∃ x, s.cur.q.strips[qIdx8 7] = [x] ∧ x.ty = .s32 ∧ x.count ≤ s.vlmax) ∧
    (∀ q ∈ [(16 : Fin 32), 18, 20], let s := recorded (rec_ [(0, 1), (8, home.toNat), (16, home.toNat + 64), (32, 64)])
      Ready (.qcmd bare q 1) s ∧ Quiet s ∧ (s.gread 1).toNat % 64 = 0 ∧ s.reaches (bareBytes (s.gread 1) 64) ∧ s.qcount q < qdepth q ∧
        ∀ x ∈ (pushAddr q (recordOf ((bareBytes (s.gread 1) 64).map s.mem.read))).toList, s.reaches (bareBytes x.1 x.2)) ∧
    (∃ s : State, Ready (.qres bare 19 1) s ∧ Quiet s ∧ s.reaches (bareBytes (s.gread 1) 64) ∧ s.cur.q.q19 ≠ []) ∧
    (∃ s : State, Ready (.tspawn bare 4 1 2) s ∧ Quiet s ∧ s.reaches (bareBytes (s.gread 1) 64) ∧ (s.queueAt ⟨0, 3⟩).en = false) ∧
    (∃ s : State, Ready (.tspawn bare 4 1 2) s ∧ Quiet s ∧ s.reaches (bareBytes (s.gread 1) 64) ∧ (s.queueAt ⟨0, 3⟩).en = true ∧
      (s.queueAt ⟨0, 3⟩).fifo = [] ∧ ((s.queueAt ⟨0, 3⟩).qatp >>> 60) = 0) ∧
    ∃ s : State, Ready (.vpub bare true 5 2) s ∧ Quiet s ∧ MemoryKept s ∧ s.reaches (bareBytes (s.gread 5) 8) ∧
      (s.bankOf ((s.gread 5).toNat % 2 ^ 63)).isSome = true := by
  refine ⟨fun tc ht => ⟨?_, quiet_of (by decide +kernel), by unfold State.reaches; decide +kernel⟩, ?_, fun q hq => ?_, ?_, ?_, ?_, ?_⟩
  · simp only [List.mem_cons, List.not_mem_nil, or_false] at ht
    rcases ht with rfl | rfl <;> exact ready_of (by decide +kernel)
  · exact ⟨queued (fun q => { q with strips := q.strips.set 7 [⟨512, .s32, 0⟩] }) .ep, ready_of (by decide +kernel), _, rfl, by decide +kernel⟩
  · unfold State.reaches
    simp only [List.mem_cons, List.not_mem_nil, or_false] at hq
    rcases hq with rfl | rfl | rfl <;> exact ⟨ready_of (by decide +kernel), quiet_of (by decide +kernel), by decide +kernel⟩
  · exact ⟨queued (fun q => { q with q19 := [rec_ [(0, 1)]] }) .ep, ready_of (by decide +kernel), quiet_of (by decide +kernel),
      by unfold State.reaches; decide +kernel⟩
  · exact ⟨recorded (rec_ []), ready_of (by decide +kernel), quiet_of (by decide +kernel), by unfold State.reaches; decide +kernel⟩
  · exact ⟨(recorded (rec_ [])).modQueue ⟨0, 3⟩ fun q => { q with en := true }, ready_of (by decide +kernel), quiet_of (by decide +kernel),
      by unfold State.reaches; decide +kernel⟩
  · exact ⟨with_ fun v => { v with ep := { v.ep with g := v.ep.g.set 5 (BitVec.ofNat 64 (State.reset.gaOf 0x10000000000)) } },
      ready_of (by decide +kernel), quiet_of (by decide +kernel), by unfold MemoryKept State.reaches; decide +kernel⟩

/-! ### Memory, streams and sparse registers -/

/-- Whether a load of elements ends with no fault, no bad byte and no wait. -/
def loads (x : List (Nat × Got) × Option (Nat × Flt) × State) : Bool :=
  x.2.1.isNone && x.1.all (!·.2.bad) && x.2.2.str.wait.isNone

/-- `demo` with a translation that maps nothing but what its first walk finds. -/
def unmapped : State := with_ fun v => { v with ctl := { v.ctl with atp := 0x1000000000000000 } }

theorem witness_VectorLoads :
    (∃ (u : State) (st : Strips) (ds : List Nat), Begins (.vld (typed .n3) 8 1 8191) demo st ds u ∧
      loads (loadElems (fun e => packedPiece (u.gread 1 + (8191 : BitVec 14).signExtend 64) (e * 3) 3) (u.performed (typed .n3)) u) = true) ∧
    (∃ (u : State) (st : Strips) (ds : List Nat), Begins (.vlds bare 8 1 3) demo st ds u ∧
      loads (loadElems (fun e => cellPiece .s32 (u.gread 1 + BitVec.ofNat 64 e * u.gread 3)) (u.performed bare) u) = true) ∧
    (∃ (u : State) (st : Strips) (ds : List Nat), Begins (.vldb (typed .s6) 8 1 7) demo st ds u ∧
      loads (loadElems (fun e => packedPiece (u.gread 1) (7 + e * 6) 6) (u.performed (typed .s6)) u) = true) ∧
    (∃ (u : State) (st : Strips) (ds : List Nat), Begins (.vldx bare 8 1 2 3 .n32) demo st ds u ∧
      loads (loadElems (fun e => cellPiece .s32 (u.gread 1 + BitVec.ofInt 64 (intOf .n32 (elem .n32 (noStrips.view.src u 2 .n32) e) * 8)))
        (u.performed bare) u) = true) ∧
    (∃ (u : State) (st : Strips) (ds : List Nat), Begins (.vld (typed .e4m3s) 8 1 0) demo st ds u ∧
      loads (loadElems (blockPiece (u.gread 1)) (blocksOf .e4m3s (u.performed (typed .e4m3s))) u) = true) ∧
    ∃ (u : State) (st : Strips) (ds : List Nat), Begins (.mld bare 7 1 0) demo st ds u ∧
      loads (loadElems (fun e => ⟨u.gread 1 + BitVec.ofNat 64 (e / 8), 1, 0, 8⟩) (u.maskBytes.map (·.1)) u) = true :=
  ⟨begins_with (by decide +kernel), begins_with (by decide +kernel), begins_with (by decide +kernel), begins_with (by decide +kernel),
    begins_with (by decide +kernel), begins_with (by decide +kernel)⟩

/-- G7 is the first address above the DRAM of die 0, and G6 the word below it. -/
def edge : State := with_ fun v => { v with ep := { v.ep with g := (v.ep.g.set 6 (home + 0xFFEFEFFFC)).set 7 (home + 0xFFEFF0000) } }

theorem witness_VectorLoads_faults :
    (∃ (u : State) (st : Strips) (ds : List Nat), Begins (.vld bare 8 7 0) edge st ds u ∧
      (match loadElems (fun e => packedPiece (u.gread 7) (e * 32) 32) (u.performed bare) u with
        | (_, some (0, _), t) => t.str.wait.isNone | _ => false) = true) ∧
    ∃ (u : State) (st : Strips) (ds : List Nat), Begins (.vld bare 8 6 0) edge st ds u ∧
      (match loadElems (fun e => packedPiece (u.gread 6) (e * 32) 32) (u.performed bare) u with
        | (got, some (1, _), t) => got.length == 1 && t.str.wait.isNone | _ => false) = true :=
  ⟨begins_with (by decide +kernel), begins_with (by decide +kernel)⟩

/-- Whether stores of elements end with no fault and no wait. -/
def stored (x : Option (Nat × Flt) × State) : Bool := x.1.isNone && x.2.str.wait.isNone
def storedAll (x : StoreEnd × State) : Bool := (match x.1 with | .all => true | _ => false) && x.2.str.wait.isNone

theorem witness_VectorStores :
    (∃ (u : State) (st : Strips) (ds : List Nat), Begins (.vst (typed .n3) 8 1 0) demo st ds u ∧
      storedAll (storeElems (typed .n3) true (fun v e => v.storePiece (packedPiece (u.gread 1) (e * 3) 3) 0) (u.performed (typed .n3)) u) = true) ∧
    (∃ (u : State) (st : Strips) (ds : List Nat), Begins (.vst (typed .e2m1s) 8 1 0) demo st ds u ∧
      storedAll (storeElems (typed .e2m1s) true (fun v j => v.store true (u.gread 1 + BitVec.ofNat 64 (32 * j)) (leBytes 32 0))
        (blocksOf .e2m1s (u.performed (typed .e2m1s))) u) = true) ∧
    (∃ (u : State) (st : Strips) (ds : List Nat), Begins (.vsts bare 8 1 2) demo st ds u ∧
      storedAll (storeElems bare true (fun v e => v.storePiece (cellPiece .s32 (u.gread 1 + BitVec.ofNat 64 e * u.gread 2)) 0) (u.performed bare) u) =
        true) ∧
    (∃ (u : State) (st : Strips) (ds : List Nat), Begins (.vstb (typed .n3) 8 1 7) demo st ds u ∧
      storedAll (storeElems (typed .n3) true (fun v e => v.storePiece (packedPiece (u.gread 1) (7 + e * 3) 3) 0) (u.performed (typed .n3)) u) = true) ∧
    (∃ (u : State) (st : Strips) (ds : List Nat), Begins (.vstx bare 8 1 2 0 .s32) demo st ds u ∧
      storedAll (storeElems bare true (fun v _ => v.storePiece (cellPiece .s32 (u.gread 1)) 0) (u.performed bare) u) = true) ∧
    (∃ (u : State) (st : Strips) (ds : List Nat), Begins (.mst bare 7 1 0) demo st ds u ∧
      storedAll (storeElems bare true (fun v e => v.storePiece ⟨u.gread 1 + BitVec.ofNat 64 (e / 8), 1, e % 8, 8⟩ 0) (u.maskBytes.map (·.1)) u) = true) ∧
    ∃ (u : State) (st : Strips) (ds : List Nat), Begins (.vst bare 8 6 0) edge st ds u ∧
      (match storeElems bare true (fun v e => v.storePiece (packedPiece (u.gread 6) (e * 32) 32) 0) (u.performed bare) u with
        | (.fault 1 _, t) => t.str.wait.isNone | _ => false) = true :=
  ⟨begins_with (by decide +kernel), begins_with (by decide +kernel), begins_with (by decide +kernel), begins_with (by decide +kernel),
    begins_with (by decide +kernel), begins_with (by decide +kernel), begins_with (by decide +kernel)⟩

/-- With ORD = 1, an element whose predecessor is held at a frozen frame waits. -/
theorem witness_VectorStores_held : let s : State := { demo with moves := [⟨gaFrame home.toNat, demo.fabric.fendp, 9, .automatic, []⟩] }
    ∃ (u : State) (st : Strips) (ds : List Nat), Begins (.vst { bare with ord := true } 8 1 0) s st ds u ∧
      (match storeElems { bare with ord := true } true (fun v e => v.storePiece (packedPiece (u.gread 1) (e * 32) 32) 0)
          (u.performed { bare with ord := true }) u with
        | (.held 1, t) => t.str.wait.isNone | _ => false) = true :=
  begins_with (by decide +kernel)

/-- `demo` with group 2 made of this device alone, G5 = 2; and with no element performed. -/
def grouped : State :=
  { (with_ fun v => { v with ep := { v.ep with g := v.ep.g.set 5 2 } }) with
    fabric := { demo.fabric with fgtbase := 0x20001 }
    mem := writeMem (writeMem [] (State.reset.gaOf 0x20020) (leBytes 16 (2 ^ 63 + 2 ^ 49 + 1 + 0x60000 * 2 ^ 64)))
      (State.reset.gaOf 0x60000) (leBytes 2 State.reset.fabric.fendp.toNat) }
def nothing : State := with_ fun v => { v with ctl := { v.ctl with vl := 0 } }

theorem witness_FabricAccesses :
    (∀ i ∈ [Instr.vstm bare 8 1 5, .vldr bare 8 1 5, .vldrmin bare 8 1 5, .vldrmax bare 8 1 5],
      begins i nothing = true ∧ (begun i nothing).performed bare = []) ∧
    (∀ i ∈ [Instr.vstm bare 8 1 5, .vldr bare 8 1 5, .vldrmin bare 8 1 5, .vldrmax bare 8 1 5],
      begins i demo = true ∧ ((begun i demo).performed bare).head? = some 0 ∧
        ((((begun i demo).readGroupTable 0).group ((begun i demo).gread 5).toNat).isNone = true)) ∧
    (∃ (u : State) (st : Strips) (ds : List Nat), Begins (.vstm bare 8 1 5) grouped st ds u ∧
      (match (u.readGroupTable 2).group (u.gread 5).toNat with
        | some g => storedAll (storeElems bare false (fun w e => w.multicast g (u.gread 1 + BitVec.ofNat 64 (e * 4)) 4 0)
            (u.performed bare) (u.readGroupTable 2))
        | none => false) = true) ∧
    ∃ (u : State) (st : Strips) (ds : List Nat), Begins (.vldr bare 8 1 5) grouped st ds u ∧
      (match (u.readGroupTable 2).group (u.gread 5).toNat with
        | some g => match reduceElems .sum .s32 g (fun e => u.gread 1 + BitVec.ofNat 64 (e * 4)) (u.performed bare)
            (u.readGroupTable 2) with
          | (got, none, t) => got.all (fun x => !x.2.poison && !x.2.absent) && t.str.wait.isNone
          | _ => false
        | none => false) = true :=
  ⟨by decide +kernel, by decide +kernel, begins_with (by decide +kernel), begins_with (by decide +kernel)⟩

theorem witness_FabricAccesses_completes : ∀ i ∈ [Instr.vstm bare 8 1 5, .vldr bare 8 1 5, .vldrmin bare 8 1 5, .vldrmax bare 8 1 5],
    Ready i grouped ∧ Quiet grouped ∧ (grouped.group (grouped.gread 5).toNat).isSome = true ∧
      grouped.groupFull ((grouped.gread 5).toNat % 8192) = false ∧ grouped.fabric.send = [] ∧ grouped.coord.invs = [] ∧
      ∀ e ∈ grouped.performed bare, grouped.reaches (bareBytes (grouped.gread 1 + BitVec.ofNat 64 (e * 4)) 4) := fun i hi =>
  ⟨ready_all (by decide +kernel) i hi, quiet_of (by decide +kernel), by unfold State.reaches; decide +kernel⟩

theorem witness_StoredBytes : (∃ (s s1 t : State) (bs : List Byte) (gas : List Nat), s.xlateN .write (s.gread 1) bs.length = (.ok gas, s1) ∧
      gas.Nodup ∧ s.store true (s.gread 1) bs = (.ok (), t)) ∧
    ∃ (s : State) (ms : List MByte), (ms.map (·.ga)).Nodup ∧ MemoryKept s ∧ ms ≠ [] :=
  ⟨⟨demo, _, _, [1, 2, 3], (List.range 3).map (home.toNat + ·), ok_pair (by decide +kernel), by decide +kernel, ok_pair (by decide +kernel)⟩,
   demo, [⟨0, 5, 0xFF⟩, ⟨home.toNat, 7, 0x0F⟩], by decide +kernel, by unfold MemoryKept; decide +kernel, by decide⟩

theorem witness_StoredBytes_loads : (∀ c ∈ demo.cores.toList, c.injb.getLsbD 0 = false) ∧
    (∃ s1 gas, demo.xlateN .read (demo.gread 1) 3 = (.ok gas, s1)) ∧
    (match demo.load (demo.gread 1) 3 with | (.ok r, _) => r.bytes.length == 3 | _ => false) = true ∧
    (match loadElems (fun e => cellPiece .f32 (home + BitVec.ofNat 64 (4 * e))) [0, 3] demo with
      | (got, none, _) => got.length == 2 && got.all fun g => !g.2.absent | _ => false) = true :=
  ⟨by decide +kernel, ⟨_, (List.range 3).map (home.toNat + ·), ok_pair (by decide +kernel)⟩, by decide +kernel, by decide +kernel⟩

/-- `demo` with S3 a plain descriptor of 4 elements of f32 at G1, V30 bound, P1 = (2 ↦ 1.0), P2 = (2 ↦ 1.0, 5 ↦ 1.0). -/
def sparse : State := with_ fun v => { v with
  s := v.s.set 3 ⟨home, 4, 4, 0x8000000000000011⟩
  binds := [(30, ⟨2, .zero, 0, 0, 0, 0, [], false⟩)]
  vec := { v.vec with p := (v.vec.p.set 1 ⟨.f32, [(2, 0x3F800000)]⟩).set 2 ⟨.f32, [(2, 0x3F800000), (5, 0x3F800000)]⟩ } }

theorem witness_StreamsAndSparse_streams :
    (∃ (u : State) (st : Strips) (ds : List Nat), Begins (.sbind bare 31 3) sparse st ds u ∧
      (decide ((u.cur.s[(3 : Fin 8)]).kind ≠ 1) && decide ((u.cur.s[(3 : Fin 8)]).kind ≠ 2)) = true) ∧
    (∃ (u : State) (st : Strips) (ds : List Nat), Begins (.sfree bare 30) sparse st ds u) ∧
    (∃ (u : State) (st : Strips) (ds : List Nat), Begins (.sdld bare 3 1) demoAp st ds u ∧
      (match u.load (u.gread 1) 32 with | (.ok ⟨_, false, false, false⟩, t) => t.str.wait.isNone | _ => false) = true) ∧
    ∃ (u : State) (st : Strips) (ds : List Nat), Begins (.sdst bare 3 1) sparse st ds u ∧
      (match u.store false (u.gread 1) (u.cur.s[(3 : Fin 8)]).image with | (.ok (), t) => t.str.wait.isNone | _ => false) = true :=
  ⟨begins_with (by decide +kernel), ⟨_, _, _, begins_begun (by decide +kernel)⟩, begins_with (by decide +kernel), begins_with (by decide +kernel)⟩

theorem witness_StreamsAndSparse_sparse :
    (∃ (u : State) (st : Strips) (ds : List Nat), Begins (.psld (typed .f32) 7 1 2 0) sparse st ds u ∧
      loads (loadElems (fun j => ⟨u.gread 1 + BitVec.ofNat 64 (j * 8), 8, 0, 64⟩) (List.range 3) u) = true) ∧
    (∃ (u : State) (st : Strips) (ds : List Nat), Begins (.psst bare 2 1 2 0) sparse st ds u ∧
      (match u.xlateN .write (u.gread 1) 16 with
        | (.ok _, t) => !(t.settleOrd bare false).mustSettle bare false && ((((u.preg 2).pairs.map (recordBytes .f32)).foldl (fun (acc : State × Word) bs =>
            (((acc.1.settleOrd bare false).store false acc.2 bs).2, acc.2 + BitVec.ofNat 64 bs.length))
            (t.settleOrd bare false, u.gread 1)).1).str.wait.isNone
        | _ => false) = true) ∧
    (∀ i ∈ [Instr.psadd bare 7 1 2 4, .psmul (typed .f32) 7 1 2 4, .pssparse bare 7 8 2 4],
      ∃ (u : State) (st : Strips) (ds : List Nat), Begins i sparse st ds u) ∧
    (∃ (u : State) (st : Strips) (ds : List Nat), Begins (.psdense (typed .f32) 8 2 2) sparse st ds u ∧ decide (u.vstart < u.vl) = true) ∧
    ∃ (u : State) (st : Strips) (ds : List Nat), Begins (.psdense (typed .f32) 8 2 2) { sparse with cur := { sparse.cur with ctl := nothing.cur.ctl } } st ds u ∧ decide (u.vl ≤ u.vstart) = true :=
  ⟨begins_with (by decide +kernel), begins_with (by decide +kernel), begin_all (by decide +kernel), begins_with (by decide +kernel),
    begins_with (by decide +kernel)⟩

/-! ### Functions and tiles -/

/-- `demo` with FL = 2 and F1, F2, F3 modal functions of degree 1 in 2 dimensions, one component of f32, batch 2. -/
def fns : State :=
  let f : FnReg := ⟨2, 1, false, 1, false, 2, List.replicate 8 0x3F800000⟩
  with_ fun v => { v with
    ctl := { v.ctl with fl := 2 }
    ep := { v.ep with g := (v.ep.g.set 4 1).set 5 0x21 }
    vec := { v.vec with f := ((v.vec.f.set 1 (some f)).set 2 (some f)).set 3 (some f) } }

/-- The same with FL = 0. -/
def fns0 : State := { fns with cur := { fns.cur with ctl := { fns.cur.ctl with fl := 0 } } }

/-- Function instructions and the results of each on `fns`, without coefficients. -/
def fnCases : List (Instr × FnReg) :=
  let r (d p : Nat) : FnReg := ⟨d, p, false, 1, false, 2, []⟩
  [(.fnadd bare 9 1 2, r 2 1), (.fnsub bare 9 1 2, r 2 1), (.fnmul bare .follow 9 1 2, r 2 2), (.fnmul bare .aliased 9 1 2, r 2 2),
   (.fnscl bare 9 1 (.s 1), r 2 1), (.fnscl bare 9 1 (.v 8), r 2 1), (.fndiff bare 1 9 1, r 2 1), (.fnint bare 1 9 1, r 2 2),
   (.fnproj bare 9 1 2, r 2 3), (.fntrace bare 3 9 1, r 1 1)]

theorem witness_Functions : (∀ x ∈ fnCases, begins x.1 fns = true ∧ (begun x.1 fns).flNum = 2 ∧
      ((begun x.1 fns).fnreg 1).nb = 2 ∧ ((begun x.1 fns).fnreg 2).nb = 2 ∧ ((begun x.1 fns).fnreg 1).d = 2 ∧
      ((begun x.1 fns).fnreg 2).d = 2 ∧ 2 ≤ vlmax (begun x.1 fns).ncore .f32 (groupFor (begun x.1 fns).cur.ctl .f32) ∧
      (begun x.1 fns).allocTrap x.2.granules = none) ∧
    (∀ x ∈ fnCases, begins x.1 fns0 = true ∧ (begun x.1 fns0).flNum = 0) ∧
    (∀ i ∈ [Instr.fnfree bare 1, .fndeg bare 4 1], ∃ (u : State) (st : Strips) (ds : List Nat), Begins i fns st ds u) :=
  ⟨by decide +kernel, by decide +kernel, begin_all (by decide +kernel)⟩

theorem witness_FunctionMemoryAndValues_none : ∀ i ∈ [Instr.fnld (typed .f32) 1 1 5, .fnst bare 1 1, .fneval bare 8 1 12 4, .fnquad bare 8 1],
    begins i fns0 = true ∧ (begun i fns0).flNum = 0 := by decide +kernel

theorem witness_FunctionMemoryAndValues :
    (∃ (u : State) (st : Strips) (ds : List Nat), Begins (.fnld (typed .f32) 9 1 5) fns st ds u ∧
      (decide (u.flNum ≠ 0) && decide (bitsAt (u.gread 5).toNat 4 2 ≠ 0) && decide (bitsAt (u.gread 5).toNat 0 4 ≤ u.degCap) &&
        (u.allocTrap 1).isNone && match checkImages .read (u.gread 1) 16 (u.batch (typed .f32)) u with
          | (none, t) => loads (loadElems (fun q => ⟨u.gread 1 + BitVec.ofNat 64 (q * 4), 4, 0, 32⟩) (List.range 8) t)
          | _ => false) = true) ∧
    (∃ (u : State) (st : Strips) (ds : List Nat), Begins (.fnst bare 1 1) fns st ds u ∧
      (decide (u.flNum ≠ 0) && decide (u.flNum ≤ (u.fnreg 1).nb) && match checkImages .write (u.gread 1) 16 (u.batch bare) u with
          | (none, t) => match storeCoefs bare (u.gread 1) 4 ((List.range 8).map fun q => (q, ((u.fnreg 1).coef.getD q 0).toNat)) t with
            | (none, v) => v.str.wait.isNone
            | _ => false
          | _ => false) = true) ∧
    (∃ (u : State) (st : Strips) (ds : List Nat), Begins (.fnquad bare 8 1) fns st ds u ∧
      (decide (u.flNum ≠ 0) && decide (u.flNum ≤ (u.fnreg 1).nb) && !(u.fnreg 1).nodal && decide ((u.fnreg 1).d % 2 = 0)) = true) ∧
    ∃ (u : State) (st : Strips) (ds : List Nat), Begins (.fneval bare 8 1 12 4) fns st ds u ∧
      (decide (u.flNum ≠ 0) && decide (u.flNum ≤ (u.fnreg 1).nb) &&
        decide ((u.gread 4).toNat * (u.fnreg 1).d ≤ vlmax u.ncore .f32 (groupFor u.cur.ctl .f32))) = true :=
  ⟨begins_with (by decide +kernel), begins_with (by decide +kernel), begins_with (by decide +kernel), begins_with (by decide +kernel)⟩

/-- `tiled` with tile registers of the shapes that follow, a board of bf16, G4 = 64. -/
def tiles : State :=
  let t (ty : Ty) (r c : Nat) : Tile := ⟨some ⟨ty, r, c⟩, .zero, .zero⟩
  { tiled with cur := { tiled.cur with
      ep := { tiled.cur.ep with g := tiled.cur.ep.g.set 4 64 }
      vec := { tiled.cur.vec with v := tiled.cur.vec.v.set 16 1 }
      tile := { tiled.cur.tile with
        board := some ⟨false, .zero, .zero, .zero⟩
        t := #v[t .bf16 2 64, t .bf16 2 128, t .n8 2 16, t .bf16 1 128, t .e4m3s 2 64, t .bf16 2 8, t .n8 2 128, t .f32 128 96,
          t .n8 256 256, t .n8 256 256, t .n8 256 256, t .bf16 4 4, .reset, .reset, .reset, .reset] } } }

/-- Whether rows load with no fault, no bad byte and no wait. -/
def loadsRows (x : List RowGot × Option (Nat × Flt) × State) : Bool :=
  x.2.1.isNone && x.1.all (fun r => r.got.all (!·.2.bad)) && x.2.2.str.wait.isNone

theorem witness_TileMovement_shapes : ∀ i ∈ [Instr.tshape bare .mk8s 4, .tshapex bare .f64 4 1],
    ∃ (u : State) (st : Strips) (ds : List Nat), Begins i tiles st ds u := begin_all (by decide +kernel)

theorem witness_TileMovement_tiles :
    (∃ (u : State) (st : Strips) (ds : List Nat), Begins (.tld bare 11 1 4) tiles st ds u ∧
      loadsRows (loadRows (fun r => u.gread 1 + BitVec.ofNat 64 r * u.gread 4) 8 4 (fun va q => packedPiece va (q * 16) 16)
        (u.rowsFrom 4) u) = true) ∧
    (∃ (u : State) (st : Strips) (ds : List Nat), Begins (.tld bare 4 1 4) tiles st ds u ∧
      (decide ((u.gread 1).toNat % 32 = 0) && decide ((u.gread 4).toNat % 32 = 0) &&
        loadsRows (loadRows (fun r => u.gread 1 + BitVec.ofNat 64 r * u.gread 4) (32 * (u.cfg 4).rowBlocks) (u.cfg 4).rowBlocks
          (fun va j => ⟨va + BitVec.ofNat 64 (32 * j), 32, 0, 256⟩) (u.rowsFrom 2) u)) = true) ∧
    (∃ (u : State) (st : Strips) (ds : List Nat), Begins (.tst bare 11 1 4) tiles st ds u ∧
      stored (storeRows bare (fun r => u.gread 1 + BitVec.ofNat 64 r * u.gread 4) 8 (fun r =>
        cellsOf (u.gread 1 + BitVec.ofNat 64 r * u.gread 4) 2 [0, 0, 0, 0]) (u.rowsFrom 4) u) = true) ∧
    ∃ (u : State) (st : Strips) (ds : List Nat), Begins (.tst bare 4 1 4) tiles st ds u ∧
      (decide ((u.gread 1).toNat % 32 = 0) && decide ((u.gread 4).toNat % 32 = 0) &&
        stored (storeRows bare (fun r => u.gread 1 + BitVec.ofNat 64 r * u.gread 4) (32 * (u.cfg 4).rowBlocks) (fun r =>
          cellsOf (u.gread 1 + BitVec.ofNat 64 r * u.gread 4) 32 [0]) (u.rowsFrom 2) u)) = true :=
  ⟨begins_with (by decide +kernel), begins_with (by decide +kernel), begins_with (by decide +kernel), begins_with (by decide +kernel)⟩

/-- `tiles` with a shape of 2 × 2 × 64. -/
def tiles2 : State := { tiles with cur := { tiles.cur with ctl := { tiles.cur.ctl with tshape := 2 + 2 * 2 ^ 9 + 64 * 2 ^ 18 } } }

theorem witness_TileMovement_accumulators :
    (∃ (u : State) (st : Strips) (ds : List Nat), Begins (.tlda bare true 3 1 4) tiles2 st ds u ∧
      (u.cur.ctl.tvalid && decide (u.shapeM * u.shapeN * 2 ≤ 65536) &&
        loadsRows (loadRows (fun r => u.gread 1 + BitVec.ofNat 64 r * u.gread 4) 16 2
          (fun va q => ⟨va + BitVec.ofNat 64 (q * 8), 8, 0, 64⟩) (u.rowsFrom 2) u)) = true) ∧
    (∃ (u : State) (st : Strips) (ds : List Nat), Begins (.tsta bare false 3 1 4) tiles2 st ds u ∧
      (u.cur.ctl.tvalid && stored (storeRows bare (fun r => u.gread 1 + BitVec.ofNat 64 r * u.gread 4) 8 (fun r =>
        cellsOf (u.gread 1 + BitVec.ofNat 64 r * u.gread 4) 4 [0, 0]) (u.rowsFrom 2) u)) = true) ∧
    ∃ (u : State) (st : Strips) (ds : List Nat), Begins (.tcvt bare 11 3) tiles st ds u ∧
      (u.cur.ctl.tvalid && decide ((u.cfg 11).rows ≤ u.shapeM) && decide ((u.cfg 11).cols ≤ u.shapeN)) = true :=
  ⟨begins_with (by decide +kernel), begins_with (by decide +kernel), begins_with (by decide +kernel)⟩

theorem witness_TileProductsAndBoards_products :
    (∃ (u : State) (st : Strips) (ds : List Nat), Begins (.tmma bare false 0 1 1) tiles st ds u ∧
      (u.shapeFits false && decide ((u.cfg 1).rows ≤ u.shapeM ∧ (u.cfg 1).rows ≤ u.shapeN ∧ (u.cfg 1).cols = u.shapeK)) = true) ∧
    (∃ (u : State) (st : Strips) (ds : List Nat), Begins (.tmmas bare true 0 0 3) tiles st ds u ∧
      (u.shapeFits false && sameClass (u.cfg 0).ty (u.cfg 3).ty && decide ((u.cfg 3).rows = 1 ∧ (u.cfg 0).cols ≤ (u.cfg 3).cols ∧
        (u.cfg 3).cols - (u.cfg 0).cols + 1 ≤ u.shapeN)) = true) ∧
    (∃ (u : State) (st : Strips) (ds : List Nat), Begins (.tspmm bare true false 0 0 1 2) tiles st ds u ∧
      (u.shapeFits false && decide (matClass (u.cfg 0).ty ≤ 2 ∧ (u.cfg 2).ty = .n8 ∧ (u.cfg 1).cols % 128 = 0 ∧
        (u.cfg 0).cols = (u.cfg 1).cols * 64 / 128 ∧ (u.cfg 2).rows = (u.cfg 0).rows ∧ (u.cfg 2).cols = (u.cfg 1).cols / 8 ∧
        (u.cfg 1).cols ≤ u.shapeK)) = true) ∧
    (∃ (u : State) (st : Strips) (ds : List Nat), Begins (.tgmm { bare with post := some 5 } true 0 0 1 1 16) tiles st ds u ∧
      (u.shapeFits false && decide (bitsAt (noStrips.view.read u 16 1) 0 16 = 1 ∧ 1 ≤ (u.cfg 1).rows ∧ (u.cfg 1).rows ≤ u.shapeN ∧
        (u.cur.k[(5 : Fin 8)]).toNat + 1 ≤ 63 ∧ u.cur.owedPosts = 0)) = true) ∧
    ∃ (u : State) (st : Strips) (ds : List Nat), Begins (.tgmm { bare with post := some 5 } true 0 0 1 1 17) tiles st ds u ∧
      (u.shapeFits false && decide (bitsAt (noStrips.view.read u 17 1) 0 16 = 0 ∧ u.vstart = 0)) = true :=
  ⟨begins_with (by decide +kernel), begins_with (by decide +kernel), begins_with (by decide +kernel), begins_with (by decide +kernel),
    begins_with (by decide +kernel)⟩

theorem witness_TileProductsAndBoards_boards :
    (∃ (u : State) (st : Strips) (ds : List Nat), Begins (.tbload bare false 8) tiles st ds u ∧
      ((List.range 3).all fun k => (u.cfg (tileAt 8 k)).bytes == 65536) = true) ∧
    (∃ (u : State) (st : Strips) (ds : List Nat), Begins (.tbeval bare 6 5) tiles st ds u ∧
      ((u.cur.tile.board.any fun x => !x.s16) && decide ((u.cfg 5).ty = .bf16 ∧ (u.cfg 5).rows ≤ 128 ∧
        u.cfg 6 = ⟨.n8, (u.cfg 5).rows, 128⟩)) = true) ∧
    ∃ (u : State) (st : Strips) (ds : List Nat), Begins (.tleaf bare true 255 3 6 7) tiles st ds u ∧
      (u.cur.ctl.tvalid && decide ((u.cfg 6).ty = .n8 ∧ (u.cfg 7).ty = .f32 ∧ (u.cfg 6).cols = 128 ∧ (u.cfg 6).rows ≤ u.shapeM ∧
        255 < u.shapeN ∧ (u.cfg 7).rows = 128 ∧ (u.cfg 7).cols = 96)) = true :=
  ⟨begins_with (by decide +kernel), begins_with (by decide +kernel), begins_with (by decide +kernel)⟩

/-! ### The scheduler, tasks and registers -/

/-- `demo` with the EP waiting. -/
def waiting (w : Wait) (f : Vlc → Vlc) : State := with_ fun v => f { v with ep := { v.ep with wait := some w } }

theorem witness_SchedulerEvents_waits :
    (∃ (s : State) (k : Fin 8), s.cur.live = true ∧ (s.cur.str .ep).wait = some (.token k) ∧ .ep ∈ s.cur.korder[k] ∧
      ((s.cur.korder[k]).takeWhile (· != .ep)).length + 1 = (s.cur.k[k]).toNat) ∧
    (∃ s : State, (s.cur.str .ep).wait = some (.queue 12) ∧ ({ s with stream := .ep } : State).queueReady .ep (Fin.ofNat 32 12) = true) ∧
    ∃ (s : State) (w : Wait), (s.cur.str .ep).wait = some w ∧ ({ s with stream := .ep } : State).runnable = true ∧ s.cur.ctl.sys = false ∧
      s.cur.clock = 1 ∧ s.cur.flights = [] ∧ ({ s with stream := .ep } : State).requestFirst = false :=
  ⟨⟨waiting (.token 7) fun v => { v with k := v.k.set 7 2, korder := v.korder.set 7 [.ap, .ep] }, 7, by decide +kernel⟩,
   ⟨waiting (.queue 12) fun v => { v with q := { v.q with bits := [false] } }, by decide +kernel⟩,
   waiting .grant fun v => { v with clock := 1 }, .grant, by decide +kernel⟩

/-- A worker that stands at `vstrip G2, G2`. -/
def stripping (f : Vlc → Vlc) : State :=
  { demo with cur := f { ctx with work := some (work0 []) }, mem := writeMem [] (home.toNat + 0x1000) (leBytes 4 0x00002130) }

theorem witness_SchedulerEvents_migration : ∃ (s : State) (k : CoreId) (w : Work) (i : Instr), s.cur.live = true ∧ s.cur.migrate = some k ∧
    s.cur.work = some w ∧ ({ s with stream := .ep } : State).stripAt = some i ∧ ({ s with stream := .ep } : State).runnable = true ∧
    w.fold ≠ 0 ∧ s.cur.handler = none ∧ s.cur.tenure = true ∧ s.cur.flights = [] ∧ decodeTrap i { s with stream := .ep } = none :=
  ⟨stripping fun v => { v with migrate := some ⟨0, 8⟩ }, ⟨0, 8⟩, work0 [], .vstrip 2 2 none, by decide +kernel⟩

/-- The record that an adjournment of `demo` makes. -/
def kept : Saved := ⟨5, ctx, 2048, none⟩

/-- `demo` with that record waiting for the tenure that it held. -/
def keeping : State :=
  { (demo.modCore fun c => { c with tenureQueue := [.record 5] }) with
    saved := [kept], cur := { demo.cur with tenure := false } }

theorem witness_SchedulerEvents_resume : ∃ (s : State) (r : Saved) (place : Loc), s.cur.live = true ∧ s.saved[0]? = some r ∧
    s.slotFree place = true ∧ s.fits r place.coreId = true ∧ 8 * r.vlenb = vlen place.coreId.ncore :=
  ⟨keeping, kept, ⟨0, 0, 3⟩, by decide +kernel⟩

/-- `demo` with another context of its core that asks for tenure; both work for a queue. -/
def asked (f : Vlc → Vlc) (p : BitVec 3) : State :=
  let other : Vlc := { Vlc.create ⟨0, 0, 1⟩ home 0 0 0 with work := some { work0 [] with queue := ⟨0, 6⟩ } }
  let s : State := { demo with cur := f { ctx with work := some (work0 []) }, parked := [other] }
  (s.modCore fun c => { c with tenureQueue := [.vlc ⟨0, 0, 1⟩] }).modQueue ⟨0, 6⟩ fun q => { q with prio := p }

theorem witness_SchedulerEvents_adjourn :
    (∃ s : State, s.cur.live = true ∧ s.cur.tenure = true ∧ ({ s with stream := .ep } : State).mayAdjourn = true ∧ s.cur.longWait = true ∧
      ({ s with stream := .ep } : State).requestFirst = false ∧
      s.core.tenureQueue.filterMap (({ s with stream := .ep } : State).waiter s.coreId) ≠ []) ∧
    ∃ s : State, s.cur.live = true ∧ s.cur.tenure = true ∧ ({ s with stream := .ep } : State).mayAdjourn = true ∧
      (∀ v ∈ s.onCore s.coreId, v.tenure = true → s.prioOf s.cur < s.prioOf v ∨
        s.prioOf v = s.prioOf s.cur ∧ s.core.holders.idxOf v.loc ≤ s.core.holders.idxOf s.cur.loc) ∧
      ({ s with stream := .ep } : State).requestFirst = false ∧
      ∃ v ∈ s.core.tenureQueue.filterMap (({ s with stream := .ep } : State).waiter s.coreId), s.prioOf s.cur < s.prioOf v :=
  ⟨⟨asked (fun v => { v with ep := { v.ep with wait := some .grant } }) 0, by decide +kernel⟩, asked id 1, by decide +kernel⟩

/-- A context with tenure that its queue no longer lets stay on W-cores, or on any core but W-core 1. -/
def moving (mask : BitVec 12) : State :=
  ({ demo with cur := { ctx with work := some { work0 [] with wcore := false } } } : State).modQueue ⟨0, 5⟩ fun q => { q with qcmask := mask }

theorem witness_SchedulerEvents_move :
    (∃ (s : State) (w : Work) (place : Loc), s.cur.work = some w ∧ ({ s with stream := .ep } : State).mayAdjourn = true ∧
      (s.queueAt w.queue).qcmask.getLsbD 0 = false ∧ ({ s with stream := .ep } : State).moveTarget s.cur w false = some place ∧
      (s.cur.tenure && place.coreId.ncore && !s.ncore) = true ∧ w.fold ≠ 0) ∧
    ∃ (s : State) (w : Work) (place : Loc), s.cur.work = some w ∧ ({ s with stream := .ep } : State).mayAdjourn = true ∧
      (s.queueAt w.queue).qcmask.getLsbD 0 = false ∧ ({ s with stream := .ep } : State).moveTarget s.cur w false = some place ∧
      (s.cur.tenure && place.coreId.ncore && !s.ncore) = false :=
  ⟨⟨moving 0xF00, { work0 [] with wcore := false }, ⟨0, 8, 0⟩, by decide +kernel⟩,
   moving 0x002, { work0 [] with wcore := false }, ⟨0, 1, 0⟩, by decide +kernel⟩

theorem witness_SchedulerEvents_tenure : ∃ s : State, s.cur.live = true ∧
    s.firstAsker at0.coreId s.cores[at0.coreId.index].tenureQueue = some (.vlc s.cur.loc) ∧ s.tenured at0.coreId < tenureLimit at0.coreId ∧
    s.cur.ep.wait = some .tenure :=
  ⟨(waiting .tenure fun v => { v with tenure := false }).modCore fun c => { c with tenureQueue := [.vlc at0] }, by decide +kernel⟩

theorem witness_SchedulerEvents_array : ∃ s : State, s.cur.live = true ∧ s.ncore = false ∧ s.core.tileOwner ≠ some s.cur.loc ∧
    s.cur.ep.wait = some .unit ∧ s.cur.ctl.tm = true :=
  ⟨waiting .unit fun v => { v with ctl := { v.ctl with tm := true } }, by decide +kernel⟩

theorem witness_SchedulerEvents_grant : ∃ (s : State) (q : QueueId) (r : GrantReq) (i : Instr) (u : State), s.cur.live = true ∧
    s.cores[at0.coreId.index].arb.head (fun y => s.queues[y.index].prio.toNat) = some q ∧
    s.cores[at0.coreId.index].arb.waiting.find? (·.queue == q) = some r ∧ r.loc = s.cur.loc ∧ s.runnable = true ∧ s.stripAt = some i ∧
    exec i s = .next u :=
  let s := (stripping id).modCore fun c => { c with arb := ⟨[(⟨0, 5⟩, 0)], [⟨0, 5⟩], [⟨at0, ⟨0, 5⟩⟩]⟩ }
  have h : (goes (exec (.vstrip 2 2 none) s)).isSome = true := by decide +kernel
  (goes_next h).elim fun u hu => ⟨s, ⟨0, 5⟩, ⟨at0, ⟨0, 5⟩⟩, .vstrip 2 2 none, u, by decide +kernel, by decide +kernel, by decide +kernel,
    by decide +kernel, by decide +kernel, by decide +kernel, hu⟩

theorem witness_SchedulerEvents_asid : ∃ s : State, s.cur.live = true ∧ s.cur.ctl.sys = true ∧ s.tablesBusy 0x080 = false ∧ s.tablesBusy 0x081 = false :=
  ⟨with_ fun v => { v with ctl := { v.ctl with sys := true } }, by decide +kernel⟩

/-- `demo` with task queue 5 of die 0 changed, and the host link up. -/
def hosted (f : TaskQueue → TaskQueue) : State :=
  ({ demo with host := { demo.host with up := true } } : State).modQueue ⟨0, 5⟩ f

theorem witness_TaskAndRegisterEvents_launch :
    (∃ s : State, s.host.up = true ∧ (s.queueAt ⟨0, 5⟩).en = true ∧ (s.queueAt ⟨0, 5⟩).fifo.length = 31 ∧ (List.replicate 64 (0 : Byte)).length = 64) ∧
    (∃ s : State, s.host.up = true ∧ (s.queueAt ⟨0, 5⟩).en = true ∧ (s.queueAt ⟨0, 5⟩).fifo.length = 32) ∧
    ∃ s : State, s.host.up = true ∧ (s.queueAt ⟨0, 5⟩).en = false :=
  ⟨⟨hosted fun q => { q with en := true, fifo := List.replicate 31 0 }, by decide +kernel⟩,
   ⟨hosted fun q => { q with en := true, fifo := List.replicate 32 0 }, by decide +kernel⟩, hosted id, by decide +kernel⟩

/-- A launch record of the kernel descriptor at `home`, which has one level of one iteration on this die; and one that fails. -/
def launchable : State :=
  let desc := rec_ [(0, 1), (8, home.toNat + 0x1000), (0x18, 1), (0x20, 7 * 2 ^ 3 + 2 ^ 32)]
  let r := rec_ [(0, home.toNat)]
  { hosted (fun q => { q with en := true, fifo := [r] }) with mem := writeMem [] home.toNat (leBytes 64 desc.toNat) }

theorem witness_TaskAndRegisterEvents_admission :
    (∃ (s : State) (r : Record) (rest : List Record), (s.queueAt ⟨0, 5⟩).en = true ∧ (s.queueAt ⟨0, 5⟩).fifo = r :: rest ∧
      ((s.modQueue ⟨0, 5⟩ fun x => { x with fifo := rest }).checkLaunch ⟨0, 5⟩ r).1.toOption.isSome = true) ∧
    ∃ (s : State) (r : Record) (rest : List Record), (s.queueAt ⟨0, 5⟩).en = true ∧ (s.queueAt ⟨0, 5⟩).fifo = r :: rest ∧
      (match ((s.modQueue ⟨0, 5⟩ fun x => { x with fifo := rest }).checkLaunch ⟨0, 5⟩ r).1 with | .error n => n != 0 | _ => false) = true :=
  ⟨⟨launchable, rec_ [(0, home.toNat)], [], by decide +kernel⟩, hosted (fun q => { q with en := true, fifo := [7] }), 7, [], by decide +kernel⟩

/-- Task 3 of queue 5 of die 0, with what is still to be created. -/
def tasked (pending : List (CoreId × Work)) (counted : Bool) (note : Word) : State :=
  { hosted id with tasks := [⟨3, ⟨0, 5⟩, pending, 0, note, 0, 0, 0, counted, []⟩] }

theorem witness_TaskAndRegisterEvents_tasks :
    (∃ (s : State) (t : Task) (w : Work) (l : Loc), s.tasks.find? (·.id == 3) = some t ∧
      t.pending.find? (fun p => s.placeFor p.1 p.2 == some l.coreId) = some (l.coreId, w) ∧ w.todo = [[0], [1]] ∧ s.slotFree l = true ∧
      (∀ v ∈ s.onCore l.coreId, ∀ y ∈ v.work, y.task ≠ 3)) ∧
    ∃ (s : State) (t : Task), s.tasks.find? (·.id == 3) = some t ∧ t.pending = [] ∧ t.running = 0 ∧ s.drainAll.settled 3 = true ∧
      t.counted = true ∧ t.note.getLsbD 0 = false :=
  ⟨⟨tasked [(⟨0, 7⟩, { work0 [[0], [1]] with task := 3 })] true 0, ⟨3, ⟨0, 5⟩, [(⟨0, 7⟩, { work0 [[0], [1]] with task := 3 })], 0, 0, 0, 0, 0, true, []⟩, { work0 [[0], [1]] with task := 3 }, ⟨0, 7, 3⟩,
      by decide +kernel⟩, tasked [] true 0, ⟨3, ⟨0, 5⟩, [], 0, 0, 0, 0, 0, true, []⟩, by decide +kernel⟩

theorem witness_TaskAndRegisterEvents_registers :
    (∃ s : State, s.barUp 0 = true ∧ s.sidebandUp 0 = true ∧ s.sidebandUp 2 = true ∧ (s.dies[(3 : Fin 4)]).visitors = [] ∧ s.mgmt.hot.toNat < 90 ∧
      s.powered = true ∧ s.mgmt.err = false ∧ ∀ k : Fin 16, (s.fabric.ports[k]).up = false) ∧
    (∃ s : State, s.mgmt.hot.toNat = 110) ∧ (∃ s : State, s.powered = true ∧ s.mgmt.err = false ∧ (s.fabric.ports[(15 : Fin 16)]).up = true) ∧
    ∃ s : State, s.mgmt.tinvGo = some (1, 0x1000, 0x1000) ∧ (∀ e ∈ s.pend, e.strip = false) ∧ (∀ m ∈ s.moves, m.held = []) ∧ ∀ v ∈ s.cur :: s.parked, v.flights = [] :=
  ⟨⟨hosted id, by decide +kernel⟩, ⟨{ demo with mgmt := { demo.mgmt with hot := 110 } }, by decide +kernel⟩,
   ⟨{ demo with fabric := { demo.fabric with ports := demo.fabric.ports.set 15 { Port.reset with up := true } } }, by decide +kernel⟩,
   { demo with mgmt := { demo.mgmt with tinvGo := some (1, 0x1000, 0x1000) } }, by decide +kernel⟩

/-! ### Engines -/

/-- A command of the context in focus. -/
def cmd (q : Fin 32) (r : Record) : Command := ⟨q, none, home.toNat, at0, none, r, 0, 0, true, false, [], none, false, []⟩

/-- `demo` with commands pending. -/
def commanded (l : List Command) : State := { demo with commands := l }

/-- COPY of 8 bytes, and a command of no kind. -/
def copyCmd : Command := cmd 16 (rec_ [(0, 1), (8, home.toNat), (16, home.toNat + 64), (32, 8)])

theorem witness_EngineEvents_copy :
    (∃ (s : State) (c : Command), s.nextCommand at0 16 = some c ∧ c.record.opc = 1 ∧ c.record.tdst = false ∧
      c.record.zeroOutside [(8, 16), (32, 4)] = true ∧
      (match s.cmdPrefix c .read (BitVec.ofNat 64 (c.record.field 8 8)) 8 with
        | (gs, none, t) => match t.cmdPrefix c .write (BitVec.ofNat 64 (c.record.field 16 8)) 8 with
          | (gd, none, u) => match u.engineRead c.vlc 2 gs with
            | (got, w) => gs.length == 8 && gd.length == 8 && !got.held && (w.badLines ⟨c.vlc, none, 2⟩ gs gd).isEmpty
          | _ => false
        | _ => false) = true) ∧
    ∃ (s : State) (c : Command), s.nextCommand at0 16 = some c ∧ c.record.opc ≠ 1 ∧ c.record.opc ≠ 2 :=
  ⟨⟨commanded [copyCmd], copyCmd, by decide +kernel⟩, commanded [cmd 16 (rec_ [(0, 3)])], cmd 16 (rec_ [(0, 3)]), by decide +kernel⟩

/-- GATHER of 2 rows of 4 bytes. -/
def gatherCmd : Command :=
  cmd 16 (rec_ [(0, 2), (8, home.toNat), (16, home.toNat + 64), (24, home.toNat + 128), (32, 2), (36, 4), (40, 4), (50, 3)])

theorem witness_EngineEvents_gather : ∃ (s : State) (c : Command), s.nextCommand at0 16 = some c ∧ c.record.opc = 2 ∧ c.record.tdst = false ∧
    c.record.zeroOutside [(8, 43)] = true ∧ c.record.field 50 1 = 3 := 
  ⟨commanded [gatherCmd], gatherCmd, by decide +kernel⟩

theorem witness_EngineEvents_delivery :
    (∃ (s : State) (c : Command) (k : Fin 8), c ∈ s.commands ∧ c.vlc = s.cur.loc ∧ c.started = true ∧ c.owed = [.token k] ∧ c.saved = none ∧
      (∀ d ∈ s.commands, d = c) ∧ s.cur.live = true ∧ s.cur.ep.run ≠ .ended ∧ s.cur.k[k] = 62) ∧
    ∃ (s : State) (c : Command) (x : Record), c ∈ s.commands ∧ c.vlc = s.cur.loc ∧ c.queue = 16 ∧ c.started = true ∧ c.owed = [.record x] ∧
      c.saved = none ∧ (∀ d ∈ s.commands, d = c) ∧ s.cur.live = true ∧ s.cur.ep.run ≠ .ended ∧ s.cur.q.q17.length = 7 :=
  ⟨⟨{ (with_ fun v => { v with k := v.k.set 7 62 }) with commands := [{ copyCmd with started := true, owed := [.token 7] }] },
      { copyCmd with started := true, owed := [.token 7] }, 7, by decide +kernel⟩,
   { (with_ fun v => { v with q := { v.q with q17 := List.replicate 7 0 } }) with commands := [{ copyCmd with started := true, owed := [.record 1] }] },
      { copyCmd with started := true, owed := [.record 1] }, 1, by decide +kernel⟩

/-- ALLGATHER of one block of 64 bytes in group 2, and REDSCATTER likewise. -/
def collCmd (opc : Nat) : Command :=
  cmd 18 (rec_ [(0, opc), (8, home.toNat), (16, home.toNat + 64), (24, 64), (32, 2), (34, if opc == 0x11 then 2 else 0)])

/-- The entry of a group whose one member is this device. -/
def alone : GroupEntry := ⟨2, 0, true, [State.reset.here]⟩

theorem witness_EngineEvents_collectives :
    (∀ opc ∈ [0x10, 0x11], let c := { collCmd opc with group := some alone }
      ({ grouped with commands := [c] } : State).nextCommand at0 18 = some c ∧ ({ grouped with commands := [c] } : State).collectives < 64 ∧
        c.record.collOk = true ∧ c.record.opc = opc ∧ alone.member = true) ∧
    (({ grouped with commands := [{ collCmd 0x10 with group := some alone }] } : State).sendBlock
      { collCmd 0x10 with group := some alone } alone).1.toOption.isSome = true ∧
    (commanded [collCmd 0x10]).nextCommand at0 18 = some (collCmd 0x10) ∧ (collCmd 0x10).group = none ∧
    (let c := { collCmd 0x10 with group := some alone, started := true }
     let s := commanded [c]
     s.commands.find? (fun d => d.vlc == at0 && d.queue == 18 && d.started && d.owed.isEmpty) = some c ∧ s.collNext 2 = some c ∧
      s.blockHeld 2 = false ∧ s.blocksAnswered 2 = true ∧ ∀ m ∈ alone.list, m = s.here) := by decide +kernel

/-- Endpoint 9 has told of an ALLGATHER of this device's group 2 and sent its block. -/
theorem witness_EngineEvents_members :
    let g : GroupEntry := ⟨2, 0, true, [State.reset.here, 9]⟩
    let c := { collCmd 0x10 with group := some g, started := true, dst := 0, got := [(9, 64)] }
    let s : State := { commanded [c] with fabric := { demo.fabric with
      collIn := [{ demo.collPacket 2 0 c.record with src := 9 }] } }
    s.collNext 2 = some c ∧ s.blockHeld 2 = false ∧ s.blocksAnswered 2 = true ∧
      (∀ m ∈ g.list, m ≠ s.here → (s.headerOf c (BitVec.ofNat 13 m)).any (fun h => h.collKey == c.record.collKey &&
        decide (blockBytes h ≤ c.gotOf (BitVec.ofNat 13 m))) = true) := by decide +kernel

/-- A stream-unit command for V31. -/
def unitCmd (opc : Nat) : Command := cmd 20 (rec_ [(0, opc), (16, 31)])

def statusCmd : Command := cmd 20 (rec_ [(0, 0x20), (8, home.toNat), (16, 31)])

theorem witness_EngineEvents_unit :
    (∃ (s : State) (c : Command), s.nextCommand at0 20 = some c ∧ c.record.unitOk = true ∧ c.record.opc = 0x20) ∧
    (∃ (s : State) (c : Command), s.nextCommand at0 20 = some c ∧ c.record.unitOk = false) ∧
    (∃ (s : State) (c : Command), s.nextCommand at0 20 = some c ∧ c.record.unitOk = true ∧ c.record.opc = 0x21) ∧
    ∃ (s : State) (b : Binding), s.cur.live = true ∧ s.cur.binds = [(30, b)] :=
  ⟨⟨commanded [statusCmd], statusCmd, by decide +kernel⟩,
   ⟨commanded [unitCmd 0x7F], unitCmd 0x7F, by decide +kernel⟩, ⟨commanded [unitCmd 0x21], unitCmd 0x21, by decide +kernel⟩,
   sparse, ⟨2, .zero, 0, 0, 0, 0, [], false⟩, by decide +kernel⟩

/-! ### Moves, memory health, packets, links and the module -/

/-- `demo` at system level, with endpoint 9 answering, G5 = `x`. -/
def system (x : Word) : State :=
  { (with_ fun v => { v with ctl := { v.ctl with sys := true }, ep := { v.ep with g := v.ep.g.set 5 x } }) with
    fabric := { demo.fabric with answering := [9] } }

/-- The frame of `home`. -/
def frame0 : Nat := gaFrame home.toNat

theorem witness_MovesAndMemoryHealth_pgmove :
    let own (s : State) := s.awake.takeMove (frameNamed (s.gread 1)) (bitsAt (s.gread 5).toNat 0 13) (.pgmove s.cur.loc .ep 4)
    let ask (s : State) := (own s).requestMove (frameNamed (s.gread 1)) (bitsAt (s.gread 5).toNat 0 13) (.pgmove s.cur.loc .ep 4)
    let new (s : State) := s.stream = .ep ∧ s.cur.ctl.sys = true ∧ (own s).moves.any (·.asker == .pgmove s.cur.loc .ep 4) = false ∧
      (own s).coord.waiting.any (·.asker == .pgmove s.cur.loc .ep 4) = false
    (∃ (s t : State) (k : Nat), new s ∧ ask s = .refused k t ∧ t.str.wait = none) ∧ (∃ s t : State, new s ∧ ask s = .begun t) ∧
    ∃ s t : State, new s ∧ ask s = .waits t := by
  intro own ask new
  refine ⟨?_, ?_, ?_⟩
  · let s := system (BitVec.ofNat 64 State.reset.here)
    have h : (match ask s with | .refused 3 t => t.str.wait.isNone | _ => false) = true := by decide +kernel
    split at h
    · next t ht => exact ⟨s, t, 3, by decide +kernel, ht, by simpa using h⟩
    · simp at h
  · let s := system 9
    have h : (match ask s with | .begun _ => true | _ => false) = true := by decide +kernel
    split at h
    · next t ht => exact ⟨s, t, by decide +kernel, ht⟩
    · simp at h
  · let s : State := { system 9 with moves := [⟨frame0, 0, 9, .automatic, []⟩] }
    have h : (match ask s with | .waits _ => true | _ => false) = true := by decide +kernel
    split at h
    · next t ht => exact ⟨s, t, by decide +kernel, ht⟩
    · simp at h

theorem witness_MovesAndMemoryHealth_context : (∃ s : State, s.stream = .ep ∧ s.cur.ctl.sys = true ∧
      s.answers (frameNamed (s.gread 1) / 2 ^ 34) = true) ∧ (∃ s : State, s.mayAdjourn = true) ∧
    ∃ (s : State) (m : MoveRec), s.moves.find? (·.frame == frame0) = some m ∧ m.held = [] ∧ s.coord.due = [] ∧ s.coord.waiting = [] ∧
      s.coord.invs = [] ∧ (∀ x ∈ s.cores.toList, x.injb.getLsbD 0 = false) ∧ m.asker = .pgmove s.cur.loc .ep 31 ∧ s.cur.live = true ∧ (s.cur.str .ep).wait = some .unit :=
  ⟨⟨system 9, by decide +kernel⟩, ⟨demo, by decide +kernel⟩,
   { (system 9).waitFor .unit with moves := [⟨frame0, 0, 9, .pgmove at0 .ep 31, []⟩] }, ⟨frame0, 0, 9, .pgmove at0 .ep 31, []⟩,
     by decide +kernel⟩

/-- Coordinator commands. -/
def coordCmd (opc val : Nat) : Command := cmd 21 (rec_ [(0, opc), (8, val), (16, if opc == 0x30 then 9 else 0), (24, home.toNat)])

theorem witness_MovesAndMemoryHealth_commands :
    (∀ x ∈ [(0x30, home.toNat), (0x31, 0x10000), (0x32, 1), (0x33, 7), (0x34, 1)],
      (commanded [coordCmd x.1 x.2]).nextCommand at0 21 = some (coordCmd x.1 x.2) ∧ (coordCmd x.1 x.2).record.migrationOk = true ∧
        (coordCmd x.1 x.2).record.opc = x.1) ∧
    (commanded [coordCmd 0x35 0]).nextCommand at0 21 = some (coordCmd 0x35 0) ∧ (coordCmd 0x35 0).record.migrationOk = false ∧
    (match demo.requestMove frame0 9 (.record home.toNat) with | .refused 4 _ => true | _ => false) = true ∧
    (match (system 9).requestMove frame0 9 (.record home.toNat) with | .begun _ => true | _ => false) = true ∧
    regionOf (1 * 2 ^ 16) = .dram 0 ∧ demo.moving 1 = false ∧ demo.flash.badFrames = [] := by decide +kernel

/-- `demo` with a live stub of die 0 here for a frame, and what has come of it. -/
def stubbed (reclaiming : Bool) : State :=
  { demo with frames := [⟨frame0, 9, [⟨State.reset.fabric.fendp, 0, 9, reclaiming, [], false, []⟩]⟩] }

theorem witness_MovesAndMemoryHealth_stubs :
    (∃ (s : State) (x : Stub), s.stubOf 0 frame0 = some x ∧ x.reclaiming = false) ∧
    (∃ (s : State) (x : Stub), s.stubOf 0 frame0 = some x ∧ x.reclaiming = true ∧ ∀ e ∈ x.sharers, e ∈ x.replies) ∧
    (∃ s : State, s.coord.auto = true) ∧ (∃ s : State, s.coord.auto = false) ∧
    localDie (home.toNat % 2 ^ 50 / 64 * 64) = some (0, true) ∧ localDie (0x10010000000 / 64 * 64) = some (1, false) ∧
    demo.moving (0x10010000000 / 2 ^ 16) = false :=
  ⟨⟨stubbed false, ⟨State.reset.fabric.fendp, 0, 9, false, [], false, []⟩, by decide +kernel⟩,
   ⟨stubbed true, ⟨State.reset.fabric.fendp, 0, 9, true, [], false, []⟩, by decide +kernel⟩,
   ⟨{ demo with coord := { demo.coord with auto := true } }, rfl⟩, ⟨demo, by decide +kernel⟩, by decide +kernel⟩

/-- A request of endpoint 9 for 8 bytes at `home`. -/
def packet (kind : BitVec 8) (data : List Byte) : Packet :=
  { kind := kind, home := State.reset.fabric.fendp, dst := State.reset.fabric.fendp, grp := false, rly := false, pv := false, src := 9, orig := 9,
    len := 8, seq := 0, rprev := 0, addr := BitVec.ofNat 50 0x10000, op := 0, ty := 7, route := 0, oseq := 0, mbz := 0, data := data, poison := false }

/-- `demo` with port 15 up, and a move of the frame of `home` or none. -/
def linked (m : List MoveRec) : State :=
  { demo with moves := m, fabric := { demo.fabric with answering := [9], ports := demo.fabric.ports.set 15 { Port.reset with up := true } } }

/-- Whether a packet arrives at port 15 in order and for the first time. -/
def firstTime (s : State) (p : Packet) : Bool :=
  s.powered && (s.fabric.ports[(15 : Fin 16)]).up && p.mbz == 0 && s.addressed p &&
    !((s.fabric.recv.find? (·.of p)).getD (.fresh p)).duplicate p.seq && ((s.fabric.recv.find? (·.of p)).getD (.fresh p)).inOrder p

theorem witness_PacketAndLinkEvents_blocks : ∀ p ∈ [packet 0x09 [], { packet 0x08 (List.replicate 8 1) with op := 1 }],
    firstTime (linked []) p = true ∧ (linked []).holdRoom p = true ∧ (linked []).fabric.blocks = [] := by decide +kernel

theorem witness_PacketAndLinkEvents_invalidates :
    (∀ s ∈ [linked []], s.sentTo (packetFrame (packet 0x21 [])) 9 = false) ∧
    ∀ s ∈ [({ linked [⟨frame0, 9, 0, .automatic, [.entry ⟨4, at0, .ep, [], false, false, false, true, false, 0, 0, []⟩]⟩] with
        frames := [⟨frame0, 9, []⟩] } : State)],
      (({ s with dies := s.dies.set 0 { (s.dies[(0 : Fin 4)]) with owners := [(frame0, 9)] } } : State)).sentTo frame0 9 = true := by
  decide +kernel

theorem witness_PacketAndLinkEvents_requests :
    (∀ p ∈ [packet 0x01 [], packet 0x02 (List.replicate 8 1), packet 0x03 (List.replicate 8 1), packet 0x04 [], packet 0x08 (List.replicate 8 1),
        packet 0x09 [], packet 0x21 (List.replicate 8 0), packet 0x30 (List.replicate 8 0)],
      firstTime (linked []) p = true ∧ (linked []).holdsPacket p = false ∧ (linked []).holdRoom p = true) ∧
    (∀ p ∈ [packet 0x02 (List.replicate 8 1)], let s := linked [⟨frame0, 0, 9, .automatic, []⟩]
      firstTime s p = true ∧ s.holdsPacket p = true ∧ s.holdRoom p = true) ∧
    (∀ p ∈ [packet 0x02 (List.replicate 8 1)],
      let s : State := { linked [] with fabric := { (linked []).fabric with recv := [(RecvPair.fresh p).accept p.seq] } }
      s.powered = true ∧ (s.fabric.ports[(15 : Fin 16)]).up = true ∧ s.addressed p = true ∧
        ((s.fabric.recv.find? (·.of p)).getD (.fresh p)).duplicate p.seq = true) ∧
    firstTime (linked []) { packet 0x20 (List.replicate 8 0) with op := 1 } = true ∧
    (∀ p ∈ [{ packet 0x02 (List.replicate 8 1) with pv := true, rprev := 7 }],
      let s := linked []
      s.powered = true ∧ (s.fabric.ports[(15 : Fin 16)]).up = true ∧ s.addressed p = true ∧ s.fabric.waiting = [] ∧
        ((s.fabric.recv.find? (·.of p)).getD (.fresh p)).duplicate p.seq = false ∧
        ((s.fabric.recv.find? (·.of p)).getD (.fresh p)).inOrder p = false) ∧
    (let s := linked [⟨frame0, 0, 9, .automatic, List.replicate 4096 (.packet (packet 0x02 []))⟩]
     firstTime s (packet 0x02 (List.replicate 8 1)) = true ∧ s.holdRoom (packet 0x02 (List.replicate 8 1)) = false) := by decide +kernel

theorem witness_PacketAndLinkEvents_memory : ∃ (s : State) (p : Packet), MemoryKept s ∧ s.gaFaults (s.packetGa p) = false ∧
    gaFrame (s.packetGa p) ∉ s.unreachable ∧ regionOf (gaLocal (s.packetGa p)) = .dram 0 ∧ s.ownerOf (gaFrame (s.packetGa p)) = s.here ∧
    (∀ c : Fin 48, (s.cores[c]).injb.getLsbD 0 = false) ∧ p.kind = 0x02 ∧ p.data.length = p.len.toNat :=
  ⟨linked [], packet 0x02 (List.replicate 8 1), by unfold MemoryKept; decide +kernel⟩

/-- A request to endpoint 9 not yet answered, resent `n` times. -/
def asking (n : Nat) : State :=
  { linked [] with fabric := { (linked []).fabric with send := [⟨9, false, 1, [⟨packet 0x01 [], 0, n, []⟩], [], []⟩] } }

theorem witness_PacketAndLinkEvents_links :
    (∃ s : State, s.powered = true ∧ (s.fabric.ports[(15 : Fin 16)]).up = true ∧ s.addressed (packet 0x10 (List.replicate 8 0)) = true) ∧
    (∃ s : State, s.powered = true ∧ (s.fabric.ports[(0 : Fin 16)]).train = true ∧ s.mgmt.stage = 7 ∧
      ∀ k : Fin 16, k ≠ 0 → (s.fabric.ports[k]).up = true) ∧
    (∃ s : State, s.powered = true ∧ (s.fabric.ports[(0 : Fin 16)]).train = true ∧ s.mgmt.stage = 7 ∧ (s.fabric.ports[(1 : Fin 16)]).up = false) ∧
    (∃ (s : State) (x : SendPair) (u : Unanswered), s.fabric.send = [x] ∧ x.dst = 9 ∧ x.unanswered.find? (·.packet.seq == 0) = some u ∧
      x.inTurn u = true ∧ u.resends + 1 = s.fabric.limit.toNat) ∧
    (∃ (s : State) (x : SendPair) (u : Unanswered), s.fabric.send = [x] ∧ x.dst = 9 ∧ x.unanswered.find? (·.packet.seq == 0) = some u ∧
      x.inTurn u = true ∧ s.fabric.limit.toNat = u.resends ∧ u.packet.kind ≠ 0x21) :=
  let p : Vector Port 16 := .replicate 16 { Port.reset with up := true }
  let t : Port := { Port.reset with train := true }
  let s : State := { demo with mgmt := { demo.mgmt with stage := 7 } }
  ⟨⟨linked [], by decide +kernel⟩, ⟨{ s with fabric := { s.fabric with ports := p.set 0 t } }, by decide +kernel⟩,
   ⟨{ s with fabric := { s.fabric with ports := .replicate 16 t } }, by decide +kernel⟩,
   ⟨asking (State.reset.fabric.limit.toNat - 1), _, _, rfl, rfl, rfl, by decide +kernel⟩,
   asking State.reset.fabric.limit.toNat, _, _, rfl, rfl, rfl, by decide +kernel⟩

/-- A store entry at a level. -/
def entry (n : Nat) : Entry := ⟨n, at0, .ep, [⟨home.toNat, 1, 0xFF⟩], false, false, false, false, false, n, 0, []⟩

theorem witness_PacketAndLinkEvents_stores : ∀ n ∈ [0, 3, 4], ∃ (s : State) (e : Entry), s.pend[0]? = some e ∧ e.strip = false ∧
    e.sent = false ∧ e.level = n ∧ s.pend.take 0 = [] ∧ s.moves = [] ∧ s.mayNotLeave e.loc.die ((e.bytes.take 1).map (·.ga)) = false :=
  fun n _ => ⟨{ demo with pend := [entry n] }, entry n, rfl, rfl, rfl, rfl, rfl, rfl, rfl⟩

/-- `demo` with 1 MiB of device memory shown to the host. -/
def shown : State := { demo with host := { demo.host with up := true, hdm := some (0x1000000000, 0x100000) } }

theorem witness_ModuleEvents_host :
    (∃ s : State, s.hdmHolds 0xFFFF8 8 = true ∧ s.hole 0xFFFF8 8 = false ∧ (∀ g ∈ (List.range 8).map fun k => s.gaOf (0xFFFF8 + k), s.reachable hubDie g = true) ∧
      s.holdFull ((List.range 8).map fun k => s.gaOf (0xFFFF8 + k)) = false ∧
      (∀ c : Fin 48, (s.cores[c]).injb.getLsbD 0 = false) ∧ s.moves = [] ∧ MemoryKept s) ∧
    (∃ s : State, s.hdmHolds 0 8 = true ∧ s.hole 0 8 = true ∧ s.holdFull ((List.range 8).map fun k => s.gaOf k) = false) ∧
    (∃ s : State, s.powered = true ∧ s.host.up = true ∧ s.mgmt.memUp = true) ∧
    (∃ s : State, s.powered = true ∧ s.host.up = true ∧ s.mgmt.memUp = false) ∧
    (∃ s : State, s.powered = true ∧ s.host.up = false ∧ s.mgmt.stage = 6) ∧
    (∃ s : State, s.powered = true ∧ s.host.up = false ∧ s.mgmt.stage = 8) ∧
    (∃ s : State, s.powered = false) ∧ ∃ s : State, s.powered = true ∧ s.mgmt.trip = 110 ∧ s.mgmt.stage = 1 :=
  ⟨⟨shown, by unfold MemoryKept; decide +kernel⟩, ⟨{ shown with reserved := [(0, 8)] }, by decide +kernel⟩,
   ⟨{ shown with mgmt := { demo.mgmt with memUp := true } }, by decide +kernel⟩, ⟨shown, by decide +kernel⟩,
   ⟨{ demo with mgmt := { demo.mgmt with stage := 6 } }, by decide +kernel⟩, ⟨{ demo with mgmt := { demo.mgmt with stage := 8 } }, by decide +kernel⟩,
   ⟨{ demo with powered := false }, rfl⟩, demo, by decide +kernel⟩

theorem witness_ModuleEvents_module :
    (∃ s : State, s.powered = true ∧ s.flash.runsB = true) ∧ (∃ s : State, s.powered = true ∧ s.flash.runsB = false) ∧
    (∃ s : State, s.sidebandUp 2 = true) ∧ (∃ s : State, s.mgmt.attGo = some ⟨0, 4, 0x10000, 0⟩ ∧ MemoryKept s) ∧
    ∃ s : State, s.mgmt.attGo = some ⟨1, 4, 0x10000, 0⟩ ∧ (∀ c : Fin 48, (s.cores[c]).injb.getLsbD 0 = false) ∧
      gaLine (s.gaOf 0x10000) ∉ s.poison :=
  ⟨⟨{ demo with flash := { demo.flash with runsB := true } }, by decide +kernel⟩, ⟨demo, by decide +kernel⟩, ⟨demo, by decide +kernel⟩,
   ⟨{ demo with mgmt := { demo.mgmt with attGo := some ⟨0, 4, 0x10000, 0⟩ } }, by unfold MemoryKept; decide +kernel⟩,
   { demo with mgmt := { demo.mgmt with attGo := some ⟨1, 4, 0x10000, 0⟩ } }, by decide +kernel⟩

/-! ## Worked examples of the spec, and corners of its rules -/

/-- A field of the state that one instruction leaves. -/
def after {α : Type} (i : Instr) (s : State) (f : State → α) : Option α := (goes (exec i s)).map f

/-- A register with these elements of `w` bits. -/
def lanes (w : Nat) (xs : List Nat) : VReg := BitVec.ofNat 16384 (xs.foldr (fun x n => x + n * 2 ^ w) 0)

/-- `demo` with V registers set, VL `n`. -/
def vecs (n : Nat) (vs : List (Fin 32 × VReg)) : State := with_ fun v => { v with
  ctl := { v.ctl with vl := BitVec.ofNat 15 n }
  vec := { v.vec with v := vs.foldl (fun r x => r.set x.1 x.2) v.vec.v } }

/-- R122, R41: sums wrap, and G0 discards them. -/
theorem test_add : after (.add 4 3 3) demo (·.gread 4) = some (-6) ∧ after (.add 0 3 3) demo (·.gread 0) = some 0 := by decide +kernel
theorem test_slt : after (.slt 4 3 2) demo (·.gread 4) = some 1 ∧ after (.sltn 4 3 2) demo (·.gread 4) = some 0 := by decide +kernel
theorem test_sra : after (.srai 4 3 1) demo (·.gread 4) = some (-2) ∧ after (.srli 4 3 63) demo (·.gread 4) = some 1 := by decide +kernel
theorem test_counts : after (.clz 4 2) demo (·.gread 4) = some 62 ∧ after (.ctz 4 0) demo (·.gread 4) = some 64 ∧
    after (.pcnt 4 3) demo (·.gread 4) = some 63 := by decide +kernel
theorem test_addw : after (.addw 4 3 2) demo (·.gread 4) = some 0 ∧ after (.subw 4 0 2) demo (·.gread 4) = some (-3) := by decide +kernel
/-- R96: IMM20 is the upper part of a 32-bit value, sign-extended. -/
theorem test_lui : after (.lui 4 0x80000) demo (·.gread 4) = some 0xFFFFFFFF80000000 := by decide +kernel
theorem test_pcui : after (.pcui 4 1) demo (·.gread 4) = some (home + 0x2000) := by decide +kernel
/-- R125: the quotient truncates toward zero, the remainder has the dividend's sign; a zero divisor raises DZ (R44). -/
theorem test_div : after (.div 4 3 2) demo (·.gread 4) = some (-1) ∧ after (.rem 4 3 2) demo (·.gread 4) = some 0 ∧
    after (.div 4 3 0) demo (fun t => (t.gread 4, t.cur.ctl.fstat)) = some (-1, 0x02) ∧ after (.rem 4 3 0) demo (·.gread 4) = some (-3) := by
  decide +kernel
theorem test_mulh : after (.mulh 4 3 2) demo (·.gread 4) = some (-1) ∧ after (.mulhn 4 3 2) demo (·.gread 4) = some 2 ∧
    after (.mulhsn 4 2 3) demo (·.gread 4) = some 2 := by decide +kernel
/-- R135: offsets count parcels. -/
theorem test_beq : after (.beq 2 2 (-13)) demo (·.pc) = some (home + 0x1000 - 52) ∧ after (.beq 2 3 (-13)) demo (·.pc) = some (home + 0x1004) := by
  decide +kernel
theorem test_blt : after (.blt 3 2 4) demo (·.pc) = some (home + 0x1010) ∧ after (.bltn 3 2 4) demo (·.pc) = some (home + 0x1004) := by
  decide +kernel
theorem test_call : after (.call 4) demo (fun t => (t.pc, t.str.ras)) = some (home + 0x1010, [home + 0x1004]) := by decide +kernel
theorem test_jr : after (.jr 2 4) demo (·.pc) = some 4 := by decide +kernel

/-- R127: bytes lie little-endian, and signed loads extend. -/
theorem test_sld : after (.sld .s16 4 1 0) { demo with mem := writeMem [] home.toNat [0x01, 0x80] } (·.gread 4) = some 0xFFFFFFFFFFFF8001 ∧
    after (.sld .n8 4 1 1) { demo with mem := writeMem [] home.toNat [0x01, 0x80] } (·.gread 4) = some 0x80 := by decide +kernel
theorem test_sst : after (.sst .n16 3 1 0) demo (fun t => (List.range 3).map fun k => t.byteOn t.path (home.toNat + k)) =
    some [0xFD, 0xFF, 0] := by decide +kernel
/-- R119, R414: a load where no memory stands is an access fault, with the address in EVAL. -/
theorem test_sld_hole : after (.sld .n64 4 7 0) { edge with cur := { edge.cur with ctl := { edge.cur.ctl with etvec := 0x100 } } } (fun t => (t.cur.ctl.ecause.toNat % 64, t.cur.ctl.eval)) =
    some (7, home + 0xFFEFF0000) := by decide +kernel
/-- R295, R413: a software trap saves the next pc. -/
theorem test_trap : after (.trap 0xABC) (with_ fun v => { v with ctl := { v.ctl with etvec := 0x100 } })
    (fun t => (t.pc, t.cur.ctl.epc, t.cur.ctl.eval, t.cur.ctl.ecause.toNat % 64)) = some (0x100 + 4 * 9, home + 0x1004, 0xABC, 9) := by
  decide +kernel

/-- R143: 300 units of a cap, less 44 of the group, are 256; under `vstrip` the grant is 512. -/
theorem test_vstripx : after (.vstripx 4 5 6 none) (with_ fun v => { v with
    ep := { v.ep with g := (v.ep.g.set 5 1000).set 6 (300 + 2 ^ 17) } }) (fun t => (t.gread 4, t.vl)) = some (256, 256) := by decide +kernel
theorem test_vstrip : after (.vstrip 4 5 none) (with_ fun v => { v with ep := { v.ep with g := v.ep.g.set 5 1000 } })
    (fun t => (t.gread 4, t.vl)) = some (512, 512) := by decide +kernel

/-- R166: the example of the cross-element mask forms. -/
def masks : State := with_ fun v => { v with vec := { v.vec with m := (v.vec.m.set 3 0x4A).set 2 0xFD } }
def guarded : Common := { bare with guard := some ⟨2, true⟩ }
theorem test_mask_forms : after (.msbf guarded 4 3) masks (·.mread 4) = some 0x05 ∧ after (.msif guarded 4 3) masks (·.mread 4) = some 0x0D ∧
    after (.msof guarded 4 3) masks (·.mread 4) = some 0x08 ∧ after (.mfirst guarded 4 3) masks (·.gread 4) = some 3 := by decide +kernel

/-- R174: the order of `vtopk`. -/
theorem test_vtopk : after (.vtopk (typed .f32) 8 4 5)
    { vecs 6 [(4, lanes 32 [0x40000000, 0x7FC00000, 0x40A00000, 0x80000000, 0x40A00000, 0])] with
      cur := { (vecs 6 [(4, lanes 32 [0x40000000, 0x7FC00000, 0x40A00000, 0x80000000, 0x40A00000, 0])]).cur with
        ep := { ctx.ep with g := ctx.ep.g.set 5 4 } } } (fun t => (t.cur.vec.v[(8 : Fin 32)]).toNat) =
    some (2 + 4 * 2 ^ 16 + 0 * 2 ^ 32 + 3 * 2 ^ 48) := by decide +kernel

/-- R57: the block of 1,000 and 3.0 in e4m3s is 0x81, 0x78, 0x34, and raises NX. -/
theorem test_quantise : after (.vcvt (typed .e4m3s) .f32 8 4) (vecs 2 [(4, lanes 32 [0x447A0000, 0x40400000])])
    (fun t => ((t.cur.vec.v[(8 : Fin 32)]).toNat % 2 ^ 32, t.cur.ctl.fstat)) = some (0x00347881, 0x10) := by decide +kernel

/-- R58: the packed image of 5, 3 and 6 from bit 2. -/
theorem test_vstb : after (.vstb (typed .n3) 4 1 2) (vecs 3 [(4, 5 + 3 * 8 + 6 * 64)])
    (fun t => (List.range 2).map fun k => t.byteOn t.path (home.toNat + k)) = some [0x74, 0x06] := by decide +kernel

/-- R153 to R157: sums wrap and saturate element by element; a compare writes the bits of the elements performed. -/
theorem test_vadd : after (.vadd (typed .n8) 8 4 (.v 5)) (vecs 2 [(4, lanes 8 [0xFF, 1]), (5, lanes 8 [2, 3])])
    (fun t => (t.cur.vec.v[(8 : Fin 32)]).toNat) = some 0x0401 ∧
    after (.vsadd (typed .n8) 8 4 (.v 5)) (vecs 2 [(4, lanes 8 [0xFF, 1]), (5, lanes 8 [2, 3])])
      (fun t => (t.cur.vec.v[(8 : Fin 32)]).toNat) = some 0x04FF := by decide +kernel
theorem test_vcmplt : after (.vcmplt (typed .s8) 1 4 (.v 5)) (vecs 2 [(4, lanes 8 [0xFF, 1]), (5, lanes 8 [0, 1])]) (·.mread 1) = some 1 := by
  decide +kernel

/-- R250: the worked shape. -/
theorem test_tshapex : after (.tshapex bare .bf16 5 4)
    { tiled with cur := { tiled.cur with ep := { tiled.cur.ep with g := tiled.cur.ep.g.set 4 (100 + 200 * 2 ^ 9 + 300 * 2 ^ 18) } } }
    (·.gread 5) = some 0x800000000249C080 := by decide +kernel

/-- R279: the first gather-atomic misses the bin of die 2. -/
theorem test_vamoadd : let bins := BitVec.ofNat 64 (State.reset.gaOf 0x10000000000)
    after (.vamoadd (typed .n32) 2 .n32 .die none 4 2 3)
      { vecs 4 [(3, lanes 32 [1, 1, 1, 1]), (2, lanes 32 [5, 5, 9, 0x8000000])] with
        cur := { (vecs 4 [(3, lanes 32 [1, 1, 1, 1]), (2, lanes 32 [5, 5, 9, 0x8000000])]).cur with
          ep := { ctx.ep with g := ctx.ep.g.set 4 bins } } }
      (fun t => (t.mem.read (bins.toNat + 20), t.mem.read (bins.toNat + 36), t.mem.read (bins.toNat + 0x20000000), t.mread 7, t.cur.ctl.smissAny)) =
    some (2, 1, 0, 8, true) := by decide +kernel

/-- R208: the worked sum of two sparse registers. -/
theorem test_psadd : after (.psadd (typed .f32) 3 1 2 6) (with_ fun v => { v with vec := { v.vec with
      p := (v.vec.p.set 1 ⟨.f32, [(2, 0x3FC00000), (5, 0x40000000), (9, 0xBF800000)]⟩).set 2
        ⟨.f32, [(5, 0x3F000000), (7, 0x40800000), (9, 0x3F800000)]⟩ } })
    (fun t => (t.gread 6, (t.preg 3).pairs)) = some (4, [(2, 0x3FC00000), (5, 0x40200000), (7, 0x40800000), (9, 0)]) := by decide +kernel

/-- R388: the header beat of the worked atomic of endpoint 17, laid out and read back; with its operand it is one flit. -/
theorem test_header : let p : Packet := { packet 0x03 (leBytes 8 1) with
      home := 73, dst := 73, src := 17, orig := 17, seq := 0x105, addr := 0x10400230A8, op := 2, ty := 7, route := 0x4002, oseq := 0x105 }
    headerOf p = BitVec.ofNat 256 (0x0020022011004903 + 0x105 * 2 ^ 64 + 0x07080010400230A8 * 2 ^ 128 + 0x01054002 * 2 ^ 192) ∧
    packetOf (headerOf p) 73 (leBytes 8 1) false = p ∧ flitsOf p = 1 := by decide +kernel

/-- A word placed where the reset machine fetches next runs as the next step. -/
theorem test_first_step : (goes (step (State.reset.withFetchWord 32 0xABCDE286))).map (fun t => (t.gread 5, t.pc - State.reset.launchPc)) =
    some (0xFFFFFFFFABCDE000, 4) := by decide +kernel

/-- SHAKE256 of the empty message (FIPS 202). -/
theorem test_shake : shake [] 8 = [0x46, 0xB9, 0xDD, 0x2B, 0x0B, 0xA8, 0x8D, 0x13] := by decide +kernel

/-! ## Orders of two instructions of a stream (R362) -/

/-- `demo` with instructions at its pc, and an agenda. -/
noncomputable def prog (is : List Instr) (agenda : List Choice) : State :=
  { demo with
    agenda := agenda
    mem := writeMem [] (home.toNat + 0x1000) ((is.flatMap encode).flatMap fun p => leBytes 4 p.toNat) }

noncomputable def steps : Nat → State → Option State
  | 0, s => some s
  | n + 1, s => (goes (step s)).bind (steps n)

/-- A store goes ahead of a load of other bytes, which then binds what another agent has written in between. -/
theorem test_load_binds_late :
    ((steps 2 (prog [.sld .n64 5 1 0, .sst .n64 2 1 8] [.issue at0 .ep, .run at0 .ep, .perform at0 0 none])).bind fun t =>
      (goes (step { t with mem := writeMem t.mem home.toNat [77] })).map fun u => (t.gread 5, t.pend.length, u.gread 5, u.pc - home)) =
    some (0, 1, 77, 0x1008) := by decide +kernel

/-- A load of the same byte, and an instruction that reads the result, do not go ahead: the older one is the next again. -/
theorem test_order_kept : ∀ i ∈ [Instr.sld .n64 6 1 0, .sst .n8 2 1 7, .sld .n64 6 5 0],
    (steps 2 (prog [.sld .n64 5 1 0, i] [.issue at0 .ep, .run at0 .ep])).map (fun t => (t.cur.flights, t.pc - home)) = some ([], 0x1000) := by
  intro i h
  simp only [List.mem_cons, List.not_mem_nil, or_false] at h
  obtain rfl | rfl | rfl := h <;> decide +kernel

/-- A byte bound ahead is the one that the next load of it takes. -/
theorem test_byte_bound_ahead :
    ((steps 1 (prog [.sld .n64 5 1 0] [.bind at0 .ep false home.toNat])).bind fun t =>
      (goes (step { t with mem := writeMem t.mem home.toNat [5, 6] })).map (·.gread 5)) = some 0x0600 := by decide +kernel

end Sys2Proof.Tests
end

/-! PROOFS. Numbers and their formats in what instructions compute: integer products and quotients (R125), fused multiply-add and
conversions of vector elements (R160 to R163), and reductions (R59, R60, R170, R171). -/

namespace Sys2Proof.NumberFormats
open Sys2Proof Sys2Proof.Machine

/-! ## The instructions of cell IMD (R107, R125) -/

/-- The instructions of cell IMD (R107, R125) on given registers. -/
def imdForms (d a b : Fin 32) : List Instr :=
  [.mul d a b, .mulh d a b, .mulhn d a b, .mulhsn d a b, .div d a b, .divn d a b, .rem d a b, .remn d a b]

theorem forall_imdForms {p : Instr → Prop} {d a b : Fin 32} : (∀ i ∈ imdForms d a b, p i) ↔
    p (.mul d a b) ∧ p (.mulh d a b) ∧ p (.mulhn d a b) ∧ p (.mulhsn d a b) ∧ p (.div d a b) ∧ p (.divn d a b) ∧ p (.rem d a b) ∧
      p (.remn d a b) := by
  simp only [imdForms, List.forall_mem_cons, List.not_mem_nil, false_implies, implies_true, and_true]

/-- Steps 3 to 6 of R118 find nothing in an instruction that no mode, shape, level or handle concerns. Step 3 still asks for the stream and
the kind of core, and step 6 for the bound registers, but any answer will do: the hypotheses are what these checks reduce to. -/
theorem decodeTrap_none {i : Instr} {s : State}
    (mode : modeOk i s =
      ((s.stream == .ep || true) && true && (!(s.stream == .ep) || true) && (!s.ncore || true) && true && true && true))
    (shape : shapeOk i s = true) (level : needsSys i = false)
    (handles : handlesOk i s = (true && true && true && (s.cur.binds.isEmpty || true))) : decodeTrap i s = none := by
  unfold decodeTrap
  simp only [mode, shape, level, handles, Bool.or_true, Bool.and_true, Bool.not_true, Bool.false_and, Bool.false_eq_true, if_false,
    ite_self]

theorem gate_imd (s : State) (d a b : Fin 32) : ∀ i ∈ imdForms d a b, gate i s = .ok s := by
  have traps : ∀ i ∈ imdForms d a b, decodeTrap i s = none := by
    rw [forall_imdForms]
    refine ⟨?_, ?_, ?_, ?_, ?_, ?_, ?_, ?_⟩ <;> exact decodeTrap_none rfl rfl rfl rfl
  have waits : ∀ i ∈ imdForms d a b, waits i s = .ok s := forall_imdForms.2 ⟨rfl, rfl, rfl, rfl, rfl, rfl, rfl, rfl⟩
  intro i hi
  unfold gate
  rw [traps i hi, waits i hi]

theorem common_imd (d a b : Fin 32) : ∀ i ∈ imdForms d a b, i.common = none :=
  forall_imdForms.2 ⟨rfl, rfl, rfl, rfl, rfl, rfl, rfl, rfl⟩

/-! ## Instructions without the common fields -/

/-- An instruction without the common fields draws nothing and takes no strip: its body begins in the state that waits no more. -/
theorem prepare_plain {i : Instr} (h : i.common = none) (s : State) : prepare i s = .ok (noStrips, [], s.awake) := by
  have draws : drawn i s = ([], s.awake) := by
    unfold drawn drawsAtIssue
    rw [h]
    rfl
  have strips : fetchStrips i s.awake = .ok (⟨[], [], [], [], none⟩, s.awake) := by
    unfold fetchStrips
    rw [h]
  unfold prepare
  rw [draws]
  simp only [strips, ite_self]
  rfl

/-- An instruction without the common fields that the gate lets through as it stands: its body's result and flags, then completion. -/
theorem runPlain_done {i : Instr} {s w : State} {r : Raised} {body : State → Eff} (hc : i.common = none) (hg : gate i s = .ok s)
    (hb : body s.awake = .done w r [] none) (hw : w.str.wait = none) :
    runPlain i s body = .next (w.complete i r (w.nextPc i)) := by
  have hheld : Eff.held (.done w r [] none) = none := hw
  have once : attemptTo i s (fun _ _ t => body t) false s.limit none = (.inl (w.complete i r (w.nextPc i)), none) := by
    unfold attemptTo
    rw [prepare_plain hc]
    dsimp only
    rw [hb, Eff.upTo_none _ (by rw [hc]; exact nofun)]
    change (conclude i s noStrips false (.done (w.markedBy i s.awake) r [] none), (w.markedBy i s.awake).str.wait) = _
    rw [State.markedBy_plain _ _ hc, hw]
    unfold conclude
    rw [hheld]
    rfl
  refine runInstr_first hg ?_
  unfold attempt
  rw [once]

/-! ## A stream that is awake -/

theorem awake_gread (s : State) (n : Fin 32) : s.awake.gread n = s.gread n := by
  unfold State.gread State.awake
  rw [setStr_str]

theorem awake_wait (s : State) : s.awake.str.wait = none := by
  unfold State.awake; rw [setStr_str]

theorem gwrite_wait (s : State) (d : Fin 32) (x : Word) : (s.gwrite d x).str.wait = s.str.wait := by
  unfold State.gwrite
  split
  · rfl
  · rw [setStr_str]

/-! ## Words as integers (R43, R44) -/

theorem intOf_s64 (x : Word) : intOf .s64 x.toNat = x.toInt := by
  have hx : x.toNat % 2 ^ Ty.s64.sew = x.toNat := Nat.mod_eq_of_lt x.isLt
  unfold intOf
  rw [hx, BitVec.toInt_eq_toNat_cond]
  have hs : Ty.s64.isSigned = true := rfl
  have hw : Ty.s64.sew = 64 := rfl
  simp only [hs, hw, Bool.true_and, decide_eq_true_eq]
  split <;> split <;> omega

theorem intOf_n64 (x : Word) : intOf .n64 x.toNat = x.toNat := by
  have hx : x.toNat % 2 ^ Ty.n64.sew = x.toNat := Nat.mod_eq_of_lt x.isLt
  unfold intOf
  rw [hx]
  rfl

theorem wrapInt_word {t : Ty} (h : t.sew = 64) (z : Int) : wrapInt t z = (BitVec.ofInt 64 z).toNat := by
  unfold wrapInt
  rw [h, BitVec.toNat_ofInt]

/-! ## Quotients and remainders of words (R44, R125) -/

theorem word_mod_eq_zero {t : Ty} (h : t.sew = 64) (y : Word) : (y.toNat % 2 ^ t.sew == 0) = decide (y = 0) := by
  rw [h, Nat.mod_eq_of_lt y.isLt, Bool.eq_iff_iff, beq_iff_eq, decide_eq_true_eq, ← BitVec.toNat_inj]
  rfl

/-- By zero, all ones with DZ; else the quotient truncated toward zero, wrapped. -/
theorem intDiv_word {t : Ty} (h : t.sew = 64) (x y : Word) : intDiv t x.toNat y.toNat =
    if y = 0 then ((BitVec.allOnes 64).toNat, flDZ)
    else ((BitVec.ofInt 64 ((intOf t x.toNat).tdiv (intOf t y.toNat))).toNat, 0) := by
  unfold intDiv
  rw [word_mod_eq_zero h, wrapInt_word h, h, BitVec.toNat_allOnes]
  simp only [decide_eq_true_eq]

/-- By zero, the dividend with DZ; else the remainder with the dividend's sign. -/
theorem intRem_word {t : Ty} (h : t.sew = 64) (x y : Word) : intRem t x.toNat y.toNat =
    if y = 0 then (x.toNat, flDZ) else ((BitVec.ofInt 64 ((intOf t x.toNat).tmod (intOf t y.toNat))).toNat, 0) := by
  unfold intRem
  rw [word_mod_eq_zero h, wrapInt_word h, h, Nat.mod_eq_of_lt x.isLt]
  simp only [decide_eq_true_eq]

theorem intDiv_s64 (x y : Word) : intDiv .s64 x.toNat y.toNat =
    if y = 0 then ((BitVec.allOnes 64).toNat, flDZ) else ((x.sdiv y).toNat, 0) := by
  have quotient : BitVec.ofInt 64 (x.toInt.tdiv y.toInt) = x.sdiv y :=
    BitVec.eq_of_toInt_eq (by rw [BitVec.toInt_ofInt, BitVec.toInt_sdiv])
  rw [intDiv_word rfl, intOf_s64, intOf_s64, quotient]

theorem intDiv_n64 (x y : Word) : intDiv .n64 x.toNat y.toNat =
    if y = 0 then ((BitVec.allOnes 64).toNat, flDZ) else ((x / y).toNat, 0) := by
  rw [intDiv_word rfl, intOf_n64, intOf_n64, ← Int.ofNat_tdiv, BitVec.ofInt_natCast, ← BitVec.udiv_def]

theorem intRem_s64 (x y : Word) : intRem .s64 x.toNat y.toNat = if y = 0 then (x.toNat, flDZ) else ((x.srem y).toNat, 0) := by
  rw [intRem_word rfl, intOf_s64, intOf_s64, ← BitVec.toInt_srem, BitVec.ofInt_toInt]

theorem intRem_n64 (x y : Word) : intRem .n64 x.toNat y.toNat = if y = 0 then (x.toNat, flDZ) else ((x % y).toNat, 0) := by
  rw [intRem_word rfl, intOf_n64, intOf_n64, ← Int.ofNat_tmod, BitVec.ofInt_natCast, ← BitVec.umod_def]

/-! ## The IMD instructions complete (R125) -/

section
variable {i : Instr} {d a b : Fin 32}

/-- An instruction that writes what `f` makes of its operands. -/
theorem gResult_completes (hi : i ∈ imdForms d a b) {s : State} {f : Word → Word → Word}
    (he : exec i s = gResult i d (fun t => f (t.gread a) (t.gread b)) s) :
    Completes i s (s.awake.gwrite d (f (s.gread a) (s.gread b))) [] := by
  rw [Completes, he, ← awake_gread s a, ← awake_gread s b]
  exact runPlain_done (common_imd d a b i hi) (gate_imd s d a b i hi) rfl (by rw [gwrite_wait, awake_wait])

/-- A division by what `f` makes of a zero divisor, with DZ, and of any other. -/
theorem gDivide_completes (hi : i ∈ imdForms d a b) {s : State} {f : Nat → Nat → Nat × Fl} {z q : Word}
    (he : exec i s = gDivide i d a b f s)
    (hf : f (s.gread a).toNat (s.gread b).toNat = if s.gread b = 0 then (z.toNat, flDZ) else (q.toNat, 0)) :
    Completes i s (s.awake.gwrite d (if s.gread b = 0 then z else q)) (if s.gread b = 0 then [(0, flDZ)] else []) := by
  rw [Completes, he]
  refine runPlain_done (common_imd d a b i hi) (gate_imd s d a b i hi) ?_ (by rw [gwrite_wait, awake_wait])
  rw [awake_gread, awake_gread, hf]
  by_cases h : s.gread b = 0
  · simp only [h, if_true, BitVec.ofNat_toNat, BitVec.setWidth_eq]
    rfl
  · simp only [h, if_false, BitVec.ofNat_toNat, BitVec.setWidth_eq]
    rfl

end

/-! ## What `exec` makes of each IMD instruction -/

theorem exec_mul (d a b : Fin 32) (s : State) : exec (.mul d a b) s = execMul d a b s := rfl
theorem exec_mulh (d a b : Fin 32) (s : State) : exec (.mulh d a b) s = execMulh d a b s := rfl
theorem exec_mulhn (d a b : Fin 32) (s : State) : exec (.mulhn d a b) s = execMulhn d a b s := rfl
theorem exec_mulhsn (d a b : Fin 32) (s : State) : exec (.mulhsn d a b) s = execMulhsn d a b s := rfl
theorem exec_div (d a b : Fin 32) (s : State) : exec (.div d a b) s = execDiv d a b s := rfl
theorem exec_divn (d a b : Fin 32) (s : State) : exec (.divn d a b) s = execDivn d a b s := rfl
theorem exec_rem (d a b : Fin 32) (s : State) : exec (.rem d a b) s = execRem d a b s := rfl
theorem exec_remn (d a b : Fin 32) (s : State) : exec (.remn d a b) s = execRemn d a b s := rfl

/-- Settles O19: every IMD instruction passes its gate in every state, so that its body's word is what it completes with; the quotients
and remainders of the types s64 and n64 are those of machine words. -/
theorem integerProductsAndQuotients : Obligations.IntegerProductsAndQuotients := by
  intro s d a b x y high dz
  obtain ⟨hmul, hmulh, hmulhn, hmulhsn, hdiv, hdivn, hrem, hremn⟩ := forall_imdForms.1 fun i (hi : i ∈ imdForms d a b) => hi
  refine ⟨?_, ?_, ?_, ?_, ?_, ?_, ?_, ?_⟩
  · exact gResult_completes hmul (f := (· * ·)) (exec_mul d a b s)
  · exact gResult_completes hmulh (f := fun x y => highWord (x.toInt * y.toInt)) (exec_mulh d a b s)
  · exact gResult_completes hmulhn (f := fun x y => highWord (x.toNat * y.toNat : Nat)) (exec_mulhn d a b s)
  · exact gResult_completes hmulhsn (f := fun x y => highWord (x.toInt * y.toNat)) (exec_mulhsn d a b s)
  · exact gDivide_completes hdiv (exec_div d a b s) (intDiv_s64 x y)
  · exact gDivide_completes hdivn (exec_divn d a b s) (intDiv_n64 x y)
  · exact gDivide_completes hrem (exec_rem d a b s) (intRem_s64 x y)
  · exact gDivide_completes hremn (exec_remn d a b s) (intRem_n64 x y)

/-! ## Vector instructions that write a register group -/

section
variable {i : Instr} {s u : State} {st : Strips} {ds : List Nat} {c : Common} {w : Option Ty} {d a b e : Fin 32}

/-- A check draws for its item and leaves the upsets that stand in store. -/
theorem spot_upset (v : State) (chk : Option Check) : (v.spot chk).upset = v.upset := by
  cases chk with
  | none => rfl
  | some ck =>
    unfold State.spot State.pickItem
    dsimp only
    split
    · rfl
    · split <;> rfl

theorem writeGroup_upset (v : State) (n : Fin 32) (g x : Nat) : (v.writeGroup n g x).upset = v.upset := rfl

theorem writeGroup_wait (v : State) (n : Fin 32) (g x : Nat) : (v.writeGroup n g x).str.wait = v.str.wait := by
  simp only [State.writeGroup, State.modVec_eq, State.str_eq, State.modVlc_cur, State.modVlc_stream]
  cases v.stream <;> rfl

/-- An instruction whose body only writes a register group, from where it begins, ends with that group written. -/
theorem runInstr_writesGroup {body : View → List Nat → State → Eff} {g x : Nat} {r : Raised} {chk : Option Check}
    (h : Begins i s st ds u) (he : exec i s = runInstr i s body)
    (hb : body st.view ds u = .done (u.writeGroup d g x) r [] chk) : Ends i s st (u.writeGroup d g x) r chk :=
  he.trans (runInstr_done h hb ((writeGroup_wait u d g x).trans h.free)
    (by rw [spot_upset, writeGroup_upset]; exact h.sound))

theorem runInstr_putsElems {body : View → List Nat → State → Eff} {ty : Ty} {rs : List (Nat × Nat)} {r : Raised}
    {chk : Option Check}
    (h : Begins i s st ds u) (he : exec i s = runInstr i s body)
    (hb : body st.view ds u = .done (u.putElems d ty rs) r [] chk) : Ends i s st (u.putElems d ty rs) r chk :=
  runInstr_writesGroup h he hb

/-- An element-wise instruction (R41, R153): each performed element gets its result, and its flags are raised at its index. -/
theorem elementwise_ends {f : View → State → Ty → Nat → Nat → Nat × Fl} (h : Begins i s st ds u)
    (he : exec i s = elementwise i c d f s) :
    let ty := effTy u.cur.ctl c.ty
    let is := u.performed c
    let r (k : Nat) : Nat × Fl := f st.view u ty k (drawAt ds k)
    Ends i s st (u.putElems d ty (is.map fun k => (k, (r k).1))) (raises (is.map fun k => (k, (r k).2)))
      (some (vecCheck u d ty is)) := by
  unfold elementwise at he
  refine runInstr_putsElems h he ?_
  simp only [List.map_map]
  rfl

/-! ## Fused multiply-add and conversions (R160 to R163) -/

theorem fmaForm_ends {np nc : Bool} (h : Begins i s st ds u) (he : exec i s = fmaForm i c w np nc d a b e s) :
    let ty := effTy u.cur.ctl c.ty
    let ts := w.getD ty
    let is := u.performed c
    let r (k : Nat) : Nat × Fl :=
      fmaElem ty ts c.rm np nc (st.view.src u a ts) (st.view.src u b ts) k (elem ty (st.view.src u e ty) k) (drawAt ds k)
    Ends i s st (u.putElems d ty (is.map fun k => (k, (r k).1))) (raises (is.map fun k => (k, (r k).2)))
      (some (vecCheck u d ty is)) := by
  unfold fmaForm at he
  have ends := elementwise_ends h he
  exact ends

/-- A conversion to an unscaled type, element by element. -/
theorem convForm_ends {ts : Ty} {x : Bool} (h : Begins i s st ds u) (he : exec i s = convForm i c ts x d a s)
    (hs : (effTy u.cur.ctl c.ty).isScaled = false) :
    let td := effTy u.cur.ctl c.ty
    let is := u.performed c
    let r (k : Nat) : Nat × Fl := convElem td ts c.rm x (st.view.src u a ts) k (drawAt ds k)
    Ends i s st (u.putElems d td (is.map fun k => (k, (r k).1))) (raises (is.map fun k => (k, (r k).2)))
      (some (vecCheck u d td is)) := by
  unfold convForm at he
  refine runInstr_putsElems h he ?_
  simp only [hs, Bool.false_eq_true, if_false, List.map_map]
  rfl

/-- A conversion to a scaled type, block by block (R57). -/
theorem convForm_ends_scaled {ts : Ty} {x : Bool} (h : Begins i s st ds u) (he : exec i s = convForm i c ts x d a s)
    (hs : (effTy u.cur.ctl c.ty).isScaled = true) :
    let td := effTy u.cur.ctl c.ty
    let g := groupFor u.cur.ctl td
    let is := u.performed c
    let q := quantGroup td c.rm (!x) (u.readGroup d g) is (fun k => elemVal ts (st.view.src u a ts) k) (drawAt ds)
    Ends i s st (u.writeGroup d g q.1) (raises q.2) (some (vecCheck u d td is)) := by
  unfold convForm at he
  refine runInstr_writesGroup h he ?_
  simp only [hs, if_true]

/-! ## Reductions (R59, R60, R170, R171) -/

/-- A reduction where VSTART < VL: element 0 gets the seed where nothing is present, else what `f` folds into it. -/
theorem reduceForm_ends {items : List Nat → Nat → List Nat} {f : Ty → Ty → Nat → Nat → List Nat → Nat → Nat × Raised}
    (h : Begins i s st ds u) (hv : u.vstart < u.vl) (he : exec i s = reduceForm i c w d a b items f s) :
    let td := effTy u.cur.ctl c.ty
    let ts := w.getD td
    let here := u.presentAll c
    let seed := elem td (st.view.src u b td) 0
    let r := f td ts (st.view.src u a ts) seed here u.vl
    Ends i s st (u.putElems d td [(0, if here.isEmpty then seed else r.1)]) (if here.isEmpty then [] else r.2)
      (some (oneCheck (items here u.vl) (elemLane u.ncore ts) fun t => t.putErrors d td [0])) := by
  unfold reduceForm at he
  refine runInstr_putsElems h he ?_
  simp only [Nat.not_le.2 hv, if_false]
  split <;> rfl

/-- A fold that raises no flag is the fold of its results. -/
theorem foldPresent_flagless (ts : Ty) (x seed : Nat) (is : List Nat) (f : Nat → Nat → Nat) :
    foldPresent ts x seed is (fun p q => (f p q, 0)) = (is.foldl (fun acc k => f acc (elem ts x k)) seed, []) :=
  List.foldl_hom (fun acc => (acc, ([] : Raised))) fun _ _ => rfl

theorem opMinMax_int_min {t : Ty} (h : t.isInt = true) {rm : Rm} {k : Nat} (x y : Nat) :
    opMinMax false t rm x y k = (if intOf t y < intOf t x then y else x, 0) := by
  unfold opMinMax
  rw [if_pos h]
  by_cases hlt : intOf t y < intOf t x
  · rw [decide_eq_true hlt, if_pos hlt]; rfl
  · rw [decide_eq_false hlt, if_neg hlt]; rfl

theorem opMinMax_int_max {t : Ty} (h : t.isInt = true) {rm : Rm} {k : Nat} (x y : Nat) :
    opMinMax true t rm x y k = (if intOf t y < intOf t x then x else y, 0) := by
  unfold opMinMax
  rw [if_pos h]
  by_cases hlt : intOf t y < intOf t x
  · rw [decide_eq_true hlt, if_pos hlt]; rfl
  · rw [decide_eq_false hlt, if_neg hlt]; rfl

theorem opMinMax_float {t : Ty} (h : t.isInt = false) {wantMax : Bool} {rm : Rm} {x y k : Nat} :
    opMinMax wantMax t rm x y k = fMinMax t wantMax x y := by
  simp only [opMinMax, h, Bool.false_eq_true, if_false]

/-- The value of the ordered sum: one rounding for each element, in ascending order (R60). -/
theorem sumOrdered_value (rm : Rm) (td ts : Ty) (x seed : Nat) (is : List Nat) : (sumOrdered rm td ts x seed is).1 =
    is.foldl (fun acc k => (rounded td rm (fAdd rm (readTy td acc) (elemVal ts x k)) 0).1) seed :=
  (List.foldl_hom Prod.fst fun _ _ => rfl).symm

end

/-! ## What `exec` makes of each vector instruction -/

theorem exec_vfmadd (c : Common) (d a b e : Fin 32) (s : State) :
    exec (.vfmadd c d a b e) s = fmaForm (.vfmadd c d a b e) c none false false d a b e s := rfl
theorem exec_vfmsub (c : Common) (d a b e : Fin 32) (s : State) :
    exec (.vfmsub c d a b e) s = fmaForm (.vfmsub c d a b e) c none false true d a b e s := rfl
theorem exec_vfnmadd (c : Common) (d a b e : Fin 32) (s : State) :
    exec (.vfnmadd c d a b e) s = fmaForm (.vfnmadd c d a b e) c none true true d a b e s := rfl
theorem exec_vfnmsub (c : Common) (d a b e : Fin 32) (s : State) :
    exec (.vfnmsub c d a b e) s = fmaForm (.vfnmsub c d a b e) c none true false d a b e s := rfl
theorem exec_vwfmadd (c : Common) (ts : Ty) (d a b e : Fin 32) (s : State) :
    exec (.vwfmadd c ts d a b e) s = fmaForm (.vwfmadd c ts d a b e) c (some ts) false false d a b e s := rfl
theorem exec_vwfmsub (c : Common) (ts : Ty) (d a b e : Fin 32) (s : State) :
    exec (.vwfmsub c ts d a b e) s = fmaForm (.vwfmsub c ts d a b e) c (some ts) false true d a b e s := rfl
theorem exec_vwfnmadd (c : Common) (ts : Ty) (d a b e : Fin 32) (s : State) :
    exec (.vwfnmadd c ts d a b e) s = fmaForm (.vwfnmadd c ts d a b e) c (some ts) true true d a b e s := rfl
theorem exec_vwfnmsub (c : Common) (ts : Ty) (d a b e : Fin 32) (s : State) :
    exec (.vwfnmsub c ts d a b e) s = fmaForm (.vwfnmsub c ts d a b e) c (some ts) true false d a b e s := rfl
theorem exec_vcvt (c : Common) (ts : Ty) (d a : Fin 32) (s : State) :
    exec (.vcvt c ts d a) s = convForm (.vcvt c ts d a) c ts false d a s := rfl
theorem exec_vcvtx (c : Common) (ts : Ty) (d a : Fin 32) (s : State) :
    exec (.vcvtx c ts d a) s = convForm (.vcvtx c ts d a) c ts true d a s := rfl
theorem exec_vredsum (c : Common) (w : Option Ty) (d a b : Fin 32) (s : State) : exec (.vredsum c w d a b) s =
    reduceForm (.vredsum c w d a b) c w d a b treeItems (fun td ts x seed is vl => sumTree c.rm td ts x seed is vl) s := rfl
theorem exec_vredosum (c : Common) (w : Option Ty) (d a b : Fin 32) (s : State) : exec (.vredosum c w d a b) s =
    reduceForm (.vredosum c w d a b) c w d a b (fun is _ => is) (fun td ts x seed is _ => sumOrdered c.rm td ts x seed is) s := rfl
theorem exec_vredmin (c : Common) (d a b : Fin 32) (s : State) :
    exec (.vredmin c d a b) s = reduceOp (.vredmin c d a b) c d a b (opMinMax false) s := rfl
theorem exec_vredmax (c : Common) (d a b : Fin 32) (s : State) :
    exec (.vredmax c d a b) s = reduceOp (.vredmax c d a b) c d a b (opMinMax true) s := rfl
theorem exec_vredand (c : Common) (d a b : Fin 32) (s : State) :
    exec (.vredand c d a b) s = reduceOp (.vredand c d a b) c d a b (fun _ _ x y _ => (x &&& y, 0)) s := rfl
theorem exec_vredor (c : Common) (d a b : Fin 32) (s : State) :
    exec (.vredor c d a b) s = reduceOp (.vredor c d a b) c d a b (fun _ _ x y _ => (x ||| y, 0)) s := rfl
theorem exec_vredxor (c : Common) (d a b : Fin 32) (s : State) :
    exec (.vredxor c d a b) s = reduceOp (.vredxor c d a b) c d a b (fun _ _ x y _ => (x ^^^ y, 0)) s := rfl

/-- Settles O42: `reduceForm_ends` for the ordered sum, whose fold over no present element is the seed. -/
theorem orderedSum : Obligations.OrderedSum := by
  intro s u c w d a b st ds td ts x seed add h hv
  have ends := reduceForm_ends h hv (exec_vredosum c w d a b s)
  have value : (if (u.presentAll c).isEmpty then seed else (sumOrdered c.rm td ts x seed (u.presentAll c)).1) =
      (u.presentAll c).foldl add seed := by
    rw [sumOrdered_value]
    cases u.presentAll c <;> rfl
  rw [← value]
  exact ⟨_, ends⟩

/-- Settles O39: each fused form is `fmaForm`, on the type of its destination or on Ts, each conversion `convForm`. -/
theorem vectorFusedAndConversions : Obligations.VectorFusedAndConversions := by
  intro s u c ts d a b e st ds ty is chk done fma
  have fused (w : Option Ty) (np nc : Bool) {i : Instr} (he : exec i s = fmaForm i c w np nc d a b e s) :
      fma i (w.getD ty) np nc := by
    intro h
    have ends := fmaForm_ends h he
    exact ends
  have converted (x : Bool) {i : Instr} (he : exec i s = convForm i c ts x d a s) (hs : ty.isScaled = false) :
      done i fun k => convElem ty ts c.rm x (st.view.src u a ts) k (drawAt ds k) := by
    intro h
    have ends := convForm_ends h he hs
    exact ends
  refine ⟨fused none _ _ (exec_vfmadd c d a b e s), fused none _ _ (exec_vfmsub c d a b e s), fused none _ _ (exec_vfnmadd c d a b e s),
    fused none _ _ (exec_vfnmsub c d a b e s), fused (some ts) _ _ (exec_vwfmadd c ts d a b e s),
    fused (some ts) _ _ (exec_vwfmsub c ts d a b e s), fused (some ts) _ _ (exec_vwfnmadd c ts d a b e s),
    fused (some ts) _ _ (exec_vwfnmsub c ts d a b e s), ?_⟩
  intro x
  cases x with
  | false => exact ⟨converted false (exec_vcvt c ts d a s), fun hs h => convForm_ends_scaled h (exec_vcvt c ts d a s) hs⟩
  | true => exact ⟨converted true (exec_vcvtx c ts d a s), fun hs h => convForm_ends_scaled h (exec_vcvtx c ts d a s) hs⟩

/-- Settles O43: each reduction is `reduceForm`; the integer operations raise nothing, so that their fold is that of their results. -/
theorem reductions : Obligations.Reductions := by
  intro s u c w d a b st ds td here seed checkedBy done each hv
  have folds {i : Instr} {op : Op2} (he : exec i s = reduceOp i c d a b op s) :
      done i td (foldPresent td (st.view.src u a td) seed here fun x y => op td c.rm x y 0) := by
    intro h
    unfold reduceOp at he
    have ends := reduceForm_ends h hv he
    exact ends
  have folds_flagless (f : Nat → Nat → Nat) {i : Instr} {op : Op2} (he : exec i s = reduceOp i c d a b op s)
      (hf : ∀ x y, op td c.rm x y 0 = (f x y, 0)) : done i td (each f) := by
    have h := folds he
    simp only [hf, foldPresent_flagless] at h
    exact h
  refine ⟨?_, folds_flagless _ (exec_vredand c d a b s) fun _ _ => rfl, folds_flagless _ (exec_vredor c d a b s) fun _ _ => rfl,
    folds_flagless _ (exec_vredxor c d a b s) fun _ _ => rfl, ?_, ?_⟩
  · intro h
    have ends := reduceForm_ends h hv (exec_vredsum c w d a b s)
    exact ends
  · intro hint
    exact ⟨folds_flagless (fun x y => if intOf td y < intOf td x then y else x) (exec_vredmin c d a b s) (opMinMax_int_min hint),
      folds_flagless (fun x y => if intOf td y < intOf td x then x else y) (exec_vredmax c d a b s) (opMinMax_int_max hint)⟩
  · intro hfloat
    have chosen (wantMax : Bool) : (fun x y => opMinMax wantMax td c.rm x y 0) = fMinMax td wantMax := by
      funext x y
      exact opMinMax_float hfloat
    rw [← chosen false, ← chosen true]
    exact ⟨folds (exec_vredmin c d a b s), folds (exec_vredmax c d a b s)⟩

end Sys2Proof.NumberFormats

/-! PROOFS. The scalar and control instructions: floating arithmetic, moves and compares (R129 to R134), loads and stores (R127, R128,
R132), branches (R135, R138, R140), transfers and the ends of the streams (R136, R137, R146, R308), and a load of a byte that its stream
has bound ahead (R360, R362). -/

namespace Sys2Proof.ScalarControl
open Sys2Proof Sys2Proof.Machine Sys2Proof.NumberFormats

/-! ## Instructions that no check and no wait concerns -/

/-- What steps 3 to 6 of R118 come to for an instruction without the common fields that no mode, shape, level or handle concerns: they
look at no more than the stream. -/
structure Unchecked (i : Instr) : Prop where
  common : i.common = none
  mode : ∀ s, modeOk i s = ((s.stream == .ep || (cellInAp i.cell && true)) && true && (!(s.stream == .ep) || true) &&
    (!s.ncore || true) && true && true && true)
  shape : ∀ s, shapeOk i s = true
  level : needsSys i = false
  handles : ∀ s, handlesOk i s = (true && true && true && (s.cur.binds.isEmpty || true))
  tile : cellIsTile i.cell = false

/-- An instruction without the common fields that gets to its body in a state as it stands. -/
structure Passes (i : Instr) (s : State) : Prop where
  common : i.common = none
  gate : gate i s = .ok s

theorem Unchecked.decodeTrap {i : Instr} (h : Unchecked i) {s : State} (stream : s.stream = .ep ∨ cellInAp i.cell = true) :
    decodeTrap i s = none := by
  have mode : modeOk i s = true := by
    rw [h.mode]
    rcases stream with hs | hs <;> simp [hs]
  have handles : handlesOk i s = true := by rw [h.handles]; simp
  unfold Machine.decodeTrap
  simp only [mode, h.shape, h.level, handles, Bool.not_true, Bool.false_and, Bool.false_eq_true, if_false, ite_self]

/-- The waits (R105, R310, R366) let through an instruction whose context holds the tenure it needs, and which no held write keeps from
memory. -/
theorem Unchecked.passes {i : Instr} (h : Unchecked i) {s : State} (stream : s.stream = .ep ∨ cellInAp i.cell = true)
    (tenure : needsTenure i = true → s.cur.tenure = true) (memory : accessesMemory i = true → s.forkHeld = false) : Passes i s := by
  have hold : (if needsTenure i = true then s.needTenure else .ok s) = .ok s := by
    split
    · unfold State.needTenure; rw [if_pos (tenure ‹_›)]
    · rfl
  have fork : ¬ (accessesMemory i && s.forkHeld) = true := by
    simp only [Bool.and_eq_true, not_and, Bool.not_eq_true]
    exact memory
  have wait : waits i s = .ok s := by
    unfold waits
    rw [h.common, hold, h.tile]
    exact if_neg fork
  refine ⟨h.common, ?_⟩
  unfold Machine.gate
  rw [h.decodeTrap stream, wait]

/-- An instruction that needs no tenure and does not access memory either. -/
structure Free (i : Instr) : Prop extends Unchecked i where
  tenure : needsTenure i = false
  memory : accessesMemory i = false

theorem Free.passes {i : Instr} (h : Free i) {s : State} (stream : s.stream = .ep ∨ cellInAp i.cell = true) : Passes i s :=
  h.toUnchecked.passes stream (fun ht => absurd ht (by rw [h.tenure]; exact nofun)) (fun hm => absurd hm (by rw [h.memory]; exact nofun))

/-! ## How such an instruction ends -/

section
variable {i : Instr} {s w : State} {body : State → Eff}

/-- Without OVT nothing is marked (R103). -/
theorem Eff.map_markedBy (e : Eff) (hc : i.common = none) : e.map (·.markedBy i s) = e := by
  cases e <;> simp only [Eff.map, State.markedBy_plain _ _ hc]

/-- What the body answers decides. -/
theorem runPlain_concludes (h : Passes i s) (hheld : (body s.awake).held = none)
    (he : conclude i s noStrips false (body s.awake) = .inl w) : runPlain i s body = .next w := by
  have once : attemptTo i s (fun _ _ t => body t) false s.limit none = (.inl w, none) := by
    unfold attemptTo
    rw [prepare_plain h.common]
    dsimp only
    rw [Eff.map_markedBy _ h.common, Eff.upTo_none _ (by rw [h.common]; exact nofun), he, hheld]
  refine runInstr_first h.gate ?_
  unfold attempt
  rw [once]

theorem completes_of_body {r : Raised} (h : Passes i s) (he : exec i s = runPlain i s body) (hb : body s.awake = .done w r [] none)
    (hw : w.str.wait = none) : Completes i s w r := by
  rw [Completes, he]
  exact runPlain_done h.common h.gate hb hw

theorem goesTo_of_body {pc : Word} (h : Passes i s) (he : exec i s = runPlain i s body) (hb : body s.awake = .jump w pc)
    (hw : w.str.wait = none) : GoesTo i s w pc := by
  rw [GoesTo, he]
  refine runPlain_concludes h (by rw [hb]; exact hw) ?_
  rw [hb]
  unfold conclude
  rw [show (Eff.jump w pc).held = none from hw]
  rfl

theorem runPlain_trap {q : TrapReq} (h : Passes i s) (hb : body s.awake = .trap w q) (hw : w.str.wait = none) :
    runPlain i s body = .next (takeTrap w w.pc q) := by
  refine runPlain_concludes h (by rw [hb]; exact hw) ?_
  rw [hb]
  unfold conclude
  rw [show (Eff.trap w q).held = none from hw]

theorem runPlain_wait {x : Wait} (h : Passes i s) (hb : body s.awake = .wait w x) : runPlain i s body = .next (w.waitIn i x) :=
  runPlain_concludes h (by rw [hb]; rfl) (by rw [hb]; rfl)

theorem runPlain_stop (h : Passes i s) (hb : body s.awake = .stop w) : runPlain i s body = .next w :=
  runPlain_concludes h (by rw [hb]; rfl) (by rw [hb]; rfl)

end

/-! ## A stream that is awake -/

theorem awake_stream (s : State) : s.awake.stream = s.stream := rfl

theorem awake_cur (s : State) : s.awake.cur = s.cur.setStr s.stream { s.str with wait := none } := rfl

theorem awake_str (s : State) : s.awake.str = { s.str with wait := none } := by
  unfold State.awake; rw [setStr_str]

theorem awake_pc (s : State) : s.awake.pc = s.pc := by
  unfold State.pc; rw [awake_str]

theorem awake_hread (s : State) (n : Fin 32) : s.awake.hread n = s.hread n := by
  unfold State.hread; rw [awake_cur, Vlc.setStr_h]

theorem awake_hraw (s : State) (t : Ty) (n : Fin 32) : s.awake.hraw t n = s.hraw t n := by
  unfold State.hraw; rw [awake_hread]

theorem awake_hval (s : State) (t : Ty) (n : Fin 32) : s.awake.hval t n = s.hval t n := by
  unfold State.hval; rw [awake_hraw]

theorem hwrite_wait (s : State) (d : Fin 32) (x : Word) : (s.hwrite d x).str.wait = s.str.wait := by
  unfold State.str
  cases h : s.stream <;> simp [h, Vlc.str]

/-! ## Scalar floating arithmetic (R129, R131, R134) -/

theorem floatArithmetic_free (f : FFmt) (d a b c : Fin 32) :
    Free (.fadd f d a b) ∧ Free (.fsub f d a b) ∧ Free (.fmul f d a b) ∧ Free (.fdiv f d a b) ∧ Free (.fsqrt f d a) ∧
    Free (.fmadd f d a b c) ∧ Free (.fmsub f d a b c) ∧ Free (.fnmadd f d a b c) ∧ Free (.fnmsub f d a b c) := by
  refine ⟨?_, ?_, ?_, ?_, ?_, ?_, ?_, ?_, ?_⟩ <;> exact ⟨⟨rfl, fun _ => rfl, fun _ => rfl, rfl, fun _ => rfl, rfl⟩, rfl, rfl⟩

/-- An instruction that rounds what `F` makes of its operands. -/
theorem hRound_completes {i : Instr} {f : FFmt} {d a b c : Fin 32} {s : State} (h : Passes i s) (F : FVal → FVal → FVal → Exact × Fl)
    (he : exec i s = hRound i f d (fun t => F (t.hval (ffTy f) a) (t.hval (ffTy f) b) (t.hval (ffTy f) c)) s) :
    let x := F (s.hval (ffTy f) a) (s.hval (ffTy f) b) (s.hval (ffTy f) c)
    let r := writeFloat (ffTy f) .rne false x.1 0
    Completes i s (s.awake.hwrite d (BitVec.ofNat 64 r.1)) (raiseIf [] 0 (x.2 ||| r.2)) := by
  intro x r
  refine completes_of_body h he ?_ (by rw [hwrite_wait, awake_wait])
  simp only [awake_hval]
  rfl

/-- Settles O21: each form is `hRound`, which rounds its exact result once. -/
theorem floatArithmetic : Obligations.FloatArithmetic := by
  intro s f d a b c hs v done
  have rounds {i : Instr} (hi : Free i) (F : FVal → FVal → FVal → Exact × Fl)
      (he : exec i s = hRound i f d (fun t => F (t.hval (ffTy f) a) (t.hval (ffTy f) b) (t.hval (ffTy f) c)) s) :
      done i (F (v a) (v b) (v c)) :=
    hRound_completes (hi.passes (.inl hs)) F he
  obtain ⟨add, sub, mul, div, sqrt, madd, msub, nmadd, nmsub⟩ := floatArithmetic_free f d a b c
  exact ⟨rounds add (fun x y _ => fAdd .rne x y) rfl, rounds sub (fun x y _ => fAdd .rne x y.neg) rfl,
    rounds mul (fun x y _ => fMul x y) rfl, rounds div (fun x y _ => fDiv x y) rfl, rounds sqrt (fun x _ _ => fSqrt x) rfl,
    rounds madd (fFma .rne false false) rfl, rounds msub (fFma .rne false true) rfl, rounds nmadd (fFma .rne true true) rfl,
    rounds nmsub (fFma .rne true false) rfl⟩

/-! ## Scalar floating minima, signs, compares, classes, moves and conversions (R129, R130, R133) -/

theorem floatMoves_free (f g : FFmt) (it : IFmt) (d a b : Fin 32) :
    Free (.fmin f d a b) ∧ Free (.fmax f d a b) ∧ Free (.fsgnj f d a b) ∧ Free (.fsgnjn f d a b) ∧ Free (.fsgnjx f d a b) ∧
    Free (.feq f d a b) ∧ Free (.flt f d a b) ∧ Free (.fle f d a b) ∧ Free (.fclass f d a) ∧ Free (.fmvgh d a) ∧ Free (.fmvhg d a) ∧
    Free (.fcvtFloatFloat g f d a) ∧ Free (.fcvtFloatInt it f d a) ∧ Free (.fcvtz it f d a) ∧ Free (.fcvtIntFloat f it d a) := by
  refine ⟨?_, ?_, ?_, ?_, ?_, ?_, ?_, ?_, ?_, ?_, ?_, ?_, ?_, ?_, ?_⟩ <;>
    exact ⟨⟨rfl, fun _ => rfl, fun _ => rfl, rfl, fun _ => rfl, rfl⟩, rfl, rfl⟩

section
variable {i : Instr} {s : State} {d : Fin 32} (h : Passes i s)
include h

/-- An instruction that writes a raw value of a format, and its flags. -/
theorem hRaw_completes {op : State → Nat × Fl} {x : Nat × Fl} (he : exec i s = hRaw i d op s) (hx : op s.awake = x) :
    Completes i s (s.awake.hwrite d (BitVec.ofNat 64 x.1)) (raiseIf [] 0 x.2) := by
  subst hx
  exact completes_of_body h he rfl (by rw [hwrite_wait, awake_wait])

/-- An instruction that writes a truth, and its flags. -/
theorem gTest_completes {op : State → Bool × Fl} {x : Bool × Fl} (he : exec i s = gTest i d op s) (hx : op s.awake = x) :
    Completes i s (s.awake.gwrite d (b2w x.1)) (raiseIf [] 0 x.2) := by
  subst hx
  exact completes_of_body h he rfl (by rw [gwrite_wait, awake_wait])

/-- An instruction that writes a word and raises nothing. -/
theorem gWord_completes {op : State → Word} {x : Word} (he : exec i s = gResult i d op s) (hx : op s.awake = x) :
    Completes i s (s.awake.gwrite d x) [] := by
  subst hx
  exact completes_of_body h he rfl (by rw [gwrite_wait, awake_wait])

/-- A conversion to an integer. -/
theorem floatToInt_completes {it : IFmt} {f : FFmt} {rm : Rm} {a : Fin 32} (he : exec i s = floatToInt i it f rm d a s) :
    let x := writeInt (ifTy it) rm (s.hval (ffTy f) a) 0
    Completes i s (s.awake.gwrite d (gExtend it x.1)) (raiseIf [] 0 x.2) := by
  intro x
  refine completes_of_body h he ?_ (by rw [gwrite_wait, awake_wait])
  simp only [awake_hval]
  rfl

end

/-- Settles O22: what each form writes, by whether it is a raw value of a format, a truth, a word or a rounded integer. -/
theorem floatMovesAndCompares : Obligations.FloatMovesAndCompares := by
  intro s f g it d a b hs t r v toH toG truth
  have raw {i : Instr} (hi : Free i) (F : Nat → Nat → Nat × Fl)
      (he : exec i s = hRaw i d (fun t => F (t.hraw (ffTy f) a) (t.hraw (ffTy f) b)) s) : toH i (F (r a) (r b)) :=
    hRaw_completes (hi.passes (.inl hs)) he (by simp only [awake_hraw]; rfl)
  have ofWord {i : Instr} (hi : Free i) (F : Word → Nat × Fl) (he : exec i s = hRaw i d (fun t => F (t.gread a)) s) :
      toH i (F (s.gread a)) :=
    hRaw_completes (hi.passes (.inl hs)) he (by simp only [awake_gread])
  have test {i : Instr} (hi : Free i) (F : FVal → FVal → Bool × Fl)
      (he : exec i s = gTest i d (fun t => F (t.hval (ffTy f) a) (t.hval (ffTy f) b)) s) : toG i (truth (F (v a) (v b))) :=
    gTest_completes (hi.passes (.inl hs)) he (by simp only [awake_hval]; rfl)
  obtain ⟨min, max, sgnj, sgnjn, sgnjx, eq, lt, le, cls, mvgh, mvhg, ff, fi, fz, intf⟩ := floatMoves_free f g it d a b
  refine ⟨raw min (fMinMax t false) rfl, raw max (fMinMax t true) rfl, raw sgnj (fun x y => (withSign t x (signBit t y), 0)) rfl,
    raw sgnjn (fun x y => (withSign t x (!signBit t y), 0)) rfl,
    raw sgnjx (fun x y => (withSign t x (signBit t x != signBit t y), 0)) rfl,
    test eq (fTest true (· == .eq) false) rfl, test lt (fTest false (· == .lt) false) rfl, test le (fTest false (· != .gt) false) rfl,
    ?_, ?_, ofWord mvhg (fun x => (x.toNat, 0)) rfl, raw ff (fun x _ => convert (ffTy g) t .rne false x 0) rfl,
    floatToInt_completes (fi.passes (.inl hs)) rfl, floatToInt_completes (fz.passes (.inl hs)) rfl,
    ofWord intf (fun x => convert t (ifTy it) .rne false (x.toNat % 2 ^ (ifTy it).sew) 0) rfl⟩
  · exact gWord_completes (cls.passes (.inl hs)) rfl (by simp only [awake_hraw]; rfl)
  · exact gWord_completes (mvgh.passes (.inl hs)) rfl (awake_hread s a)

/-! ## Scalar loads and stores (R127, R128, R132) -/

theorem sld_unchecked (k : LdKind) (d a : Fin 32) (imm : BitVec 12) : Unchecked (.sld k d a imm) :=
  ⟨rfl, fun _ => rfl, fun _ => rfl, rfl, fun _ => rfl, rfl⟩

theorem sst_unchecked (k : StKind) (d a : Fin 32) (imm : BitVec 12) : Unchecked (.sst k d a imm) :=
  ⟨rfl, fun _ => rfl, fun _ => rfl, rfl, fun _ => rfl, rfl⟩

theorem floatAccess_free (d a : Fin 32) (imm : BitVec 12) :
    Free (.fldF64 d a imm) ∧ Free (.fldF32 d a imm) ∧ Free (.fldF16 d a imm) ∧
    Free (.fstF64 d a imm) ∧ Free (.fstF32 d a imm) ∧ Free (.fstF16 d a imm) := by
  refine ⟨?_, ?_, ?_, ?_, ?_, ?_⟩ <;> exact ⟨⟨rfl, fun _ => rfl, fun _ => rfl, rfl, fun _ => rfl, rfl⟩, rfl, rfl⟩

section
variable {i : Instr} {s t : State} {a : Fin 32} {imm : BitVec 12} {n : Nat} (h : Passes i s)

section
variable {put : State → Nat → State} {err : State → State}
  (he : exec i s = runPlain i s fun t => scalarLoad (t.gread a + sext12 imm) n put err t)
include h he

/-- A load completes with the bytes that it brings (R127). -/
theorem load_completes {bs : List Byte} (hl : s.awake.load (s.gread a + sext12 imm) n = (.ok ⟨bs, false, false, false⟩, t))
    (hw : (put t (leNat bs)).str.wait = none) : Completes i s (put t (leNat bs)) [] := by
  refine completes_of_body h he ?_ hw
  unfold scalarLoad
  rw [awake_gread, hl]
  rfl

/-- A load that cannot be translated traps (R414). -/
theorem load_traps {f : Flt} (hl : s.awake.load (s.gread a + sext12 imm) n = (.error f, t)) (hw : t.str.wait = none) :
    exec i s = .next (takeTrap t t.pc (f.trap .read)) := by
  rw [he]
  refine runPlain_trap h ?_ hw
  unfold scalarLoad
  rw [awake_gread, hl]

end

section
variable {x : State → Word} (he : exec i s = runPlain i s fun t => scalarStore (t.gread a + sext12 imm) (leBytes n (x t).toNat) t)
  (hx : x s.awake = x s)
include h he hx

/-- A store completes when its bytes have entered their path (R128). -/
theorem store_completes (hst : s.awake.store false (s.gread a + sext12 imm) (leBytes n (x s).toNat) = (.ok (), t))
    (hw : t.str.wait = none) : Completes i s t [] := by
  refine completes_of_body h he ?_ hw
  unfold scalarStore
  rw [awake_gread, hx, hst]
  rfl

/-- A store that cannot be translated traps (R414). -/
theorem store_traps {f : Flt} (hst : s.awake.store false (s.gread a + sext12 imm) (leBytes n (x s).toNat) = (.error f, t))
    (hw : t.str.wait = none) : exec i s = .next (takeTrap t t.pc (f.trap .write)) := by
  rw [he]
  refine runPlain_trap h ?_ hw
  unfold scalarStore
  rw [awake_gread, hx, hst]

end

end

/-- Settles O20: a load or store ends as its access does, whichever register it names. -/
theorem scalarAccesses : Obligations.ScalarAccesses := by
  intro s t d a imm x n bs hf hw va
  have sld (k : LdKind) : Passes (.sld k d a imm) s := (sld_unchecked k d a imm).passes (.inr rfl) nofun fun _ => hf
  have sst (k : StKind) : Passes (.sst k d a imm) s := (sst_unchecked k d a imm).passes (.inr rfl) nofun fun _ => hf
  obtain ⟨ld64, ld32, ld16, st64, st32, st16⟩ := floatAccess_free d a imm
  have floatLoad {i : Instr} {err : Word} (hi : Free i) (hs : s.stream = .ep) (he : exec i s = floatLoad i d a imm n err s)
      (hl : s.awake.load va n = (.ok ⟨bs, false, false, false⟩, t)) : Completes i s (t.hwrite d (BitVec.ofNat 64 (leNat bs))) [] :=
    load_completes (hi.passes (.inl hs)) (put := fun t x => t.hwrite d (BitVec.ofNat 64 x)) he hl (by rw [hwrite_wait, hw])
  have floatStore {i : Instr} (hi : Free i) (hs : s.stream = .ep) (he : exec i s = floatStore i d a imm n s)
      (hst : s.awake.store false va (leBytes n (s.hread d).toNat) = (.ok (), t)) : Completes i s t [] :=
    store_completes (hi.passes (.inl hs)) (x := (·.hread d)) he (awake_hread s d) hst hw
  refine ⟨fun hl hx => ⟨?_, fun hs => ⟨?_, ?_, ?_⟩⟩, ?_, fun hs hst => ⟨?_, ?_, ?_⟩, fun f k hl => ?_, fun f k hst => ?_⟩
  · rintro k rfl
    exact hx ▸ load_completes (sld k) (put := fun t x => t.gwrite d (ldExtend k x)) rfl hl (by rw [gwrite_wait, hw])
  · rintro rfl
    exact hx ▸ floatLoad ld64 hs rfl hl
  · rintro rfl
    exact hx ▸ floatLoad ld32 hs rfl hl
  · rintro rfl
    exact hx ▸ floatLoad ld16 hs rfl hl
  · rintro hst k rfl
    exact store_completes (sst k) (x := (·.gread d)) rfl (awake_gread s d) hst hw
  · rintro rfl
    exact floatStore st64 hs rfl hst
  · rintro rfl
    exact floatStore st32 hs rfl hst
  · rintro rfl
    exact floatStore st16 hs rfl hst
  · exact load_traps (sld k) rfl hl hw
  · exact store_traps (sst k) (x := (·.gread d)) rfl (awake_gread s d) hst hw

/-! ## Branches (R135, R138, R140) -/

theorem branches_free (a b : Fin 32) (off : BitVec 12) :
    Free (.beq a b off) ∧ Free (.bne a b off) ∧ Free (.blt a b off) ∧ Free (.bge a b off) ∧ Free (.bltn a b off) ∧
    Free (.bgen a b off) ∧ Free (.bq off) ∧ Free (.bqn off) := by
  refine ⟨?_, ?_, ?_, ?_, ?_, ?_, ?_, ?_⟩ <;> exact ⟨⟨rfl, fun _ => rfl, fun _ => rfl, rfl, fun _ => rfl, rfl⟩, rfl, rfl⟩

theorem maskBranches_unchecked (m : Fin 8) (off : BitVec 12) :
    Unchecked (.bany m off) ∧ Unchecked (.ball m off) ∧ Unchecked (.bnone m off) ∧ Unchecked (.bnall m off) := by
  refine ⟨?_, ?_, ?_, ?_⟩ <;> exact ⟨rfl, fun _ => rfl, fun _ => rfl, rfl, fun _ => rfl, rfl⟩

/-- A branch goes where its condition says. -/
theorem branchIf_goes {i : Instr} {s : State} {off : BitVec 12} {p : State → Bool} {c : Prop} [Decidable c] (h : Passes i s)
    (he : exec i s = branchIf i off p s) (size : i.size = 4) (hp : p s.awake = decide c) :
    GoesTo i s s.awake (if c then s.pc + off.signExtend 64 * 4 else s.pc + 4) := by
  by_cases hc : c
  · rw [if_pos hc, ← awake_pc]
    refine goesTo_of_body h he ?_ (awake_wait s)
    rw [hp, if_pos (decide_eq_true hc)]
    rfl
  · rw [if_neg hc]
    have next : s.pc + 4 = s.awake.nextPc i := by unfold State.nextPc; rw [size, awake_pc]; rfl
    rw [next]
    refine completes_of_body h he ?_ (awake_wait s)
    rw [hp, if_neg (by rw [decide_eq_false hc]; exact Bool.false_ne_true)]
    rfl

/-- Which bits of a mask register below VL are `v`. -/
theorem mem_mbits {s : State} {m : Fin 8} {v : Bool} {k : Nat} : k ∈ s.mbits m v ↔ k < s.vl ∧ (s.cur.vec.m[m]).getLsbD k = v := by
  simp only [State.mbits, List.mem_filter, List.mem_range, State.mread, BitVec.testBit_toNat, beq_iff_eq]

/-- No bit below VL is `v` when each of them is not. -/
theorem mbits_isEmpty {s : State} {m : Fin 8} {v : Bool} :
    (s.mbits m v).isEmpty = decide (∀ k < s.vl, (s.cur.vec.m[m]).getLsbD k = !v) := by
  rw [Bool.eq_iff_iff, List.isEmpty_iff, List.eq_nil_iff_forall_not_mem, decide_eq_true_eq]
  simp only [mem_mbits, not_and, ← Bool.eq_not]

theorem mbits_nonempty {s : State} {m : Fin 8} {v : Bool} :
    (!(s.mbits m v).isEmpty) = decide (∃ k < s.vl, (s.cur.vec.m[m]).getLsbD k = v) := by
  rw [mbits_isEmpty, ← decide_not, decide_eq_decide]
  simp only [Classical.not_forall, Bool.eq_not, ne_eq, Classical.not_not, exists_prop]

theorem awake_mbits (s : State) (m : Fin 8) (v : Bool) : s.awake.mbits m v = s.mbits m v := by
  unfold State.mbits State.vl State.mread
  rw [awake_cur, Vlc.setStr_ctl, Vlc.setStr_vec]

/-- A pop acquires what its push released (R283), which neither holds its stream up nor moves its pc. -/
theorem takePosted_goesOn (s : State) (line : Nat) : (s.takePosted line).str.wait = s.str.wait ∧ (s.takePosted line).pc = s.pc := by
  have forget : s.forget.str.wait = s.str.wait ∧ s.forget.pc = s.pc := by
    unfold State.forget State.pc
    split
    · exact ⟨rfl, rfl⟩
    · rw [setStr_str]; exact ⟨rfl, rfl⟩
  have observe (t : State) (ids : List Nat) : (t.observe ids).str.wait = t.str.wait ∧ (t.observe ids).pc = t.pc := by
    unfold State.observe State.pc
    split
    · exact ⟨rfl, rfl⟩
    · rw [setStr_str]; exact ⟨rfl, rfl⟩
  have shift (t : State) : (t.shiftPosted line).str = t.str := by
    unfold State.shiftPosted State.str
    split
    · rfl
    · cases h : t.stream <;> simp [h, Vlc.str]
  unfold State.takePosted State.pc
  rw [shift]
  exact ⟨(observe _ _).1.trans forget.1, (observe _ _).2.trans forget.2⟩

theorem modQ_str (s : State) (f : Queues → Queues) : (s.modQ f).str = s.str := by
  unfold State.str State.modQ
  cases h : s.stream <;> simp [Vlc.str]

/-- The stream that has taken an outcome bit from Q12 waits for nothing, and has not moved. -/
theorem popBit_goesOn (s : State) (rest : List Bool) :
    ((s.awake.modQ fun q => { q with bits := rest }).takePosted 12).str.wait = none ∧
    ((s.awake.modQ fun q => { q with bits := rest }).takePosted 12).pc = s.pc := by
  obtain ⟨wait, pc⟩ := takePosted_goesOn (s.awake.modQ fun q => { q with bits := rest }) 12
  rw [wait, pc, modQ_str, awake_wait, State.pc, modQ_str]
  exact ⟨rfl, awake_pc s⟩

section
variable {i : Instr} {s : State} {off : BitVec 12} {want : Bool} (h : Passes i s) (he : exec i s = branchPop i off want s)
include h he

/-- A branch on an outcome bit takes it from Q12. -/
theorem branchPop_goes (size : i.size = 4) {b : Bool} {rest : List Bool} (hq : s.cur.q.bits = b :: rest) :
    GoesTo i s ((s.awake.modQ fun q => { q with bits := rest }).takePosted 12)
      (if b = want then s.pc + off.signExtend 64 * 4 else s.pc + 4) := by
  have hq' : s.awake.cur.q.bits = b :: rest := by rw [awake_cur, Vlc.setStr_q, hq]
  obtain ⟨wait, pc⟩ := popBit_goesOn s rest
  by_cases hb : b = want
  · rw [if_pos hb]
    refine goesTo_of_body h he ?_ wait
    simp only [hq', hb, BEq.rfl, if_true, State.target]
    rw [pc]
  · rw [if_neg hb]
    have next : s.pc + 4 = ((s.awake.modQ fun q => { q with bits := rest }).takePosted 12).nextPc i := by
      unfold State.nextPc; rw [size, pc]; rfl
    rw [next]
    refine completes_of_body h he ?_ wait
    simp only [hq', beq_eq_false_iff_ne.2 hb, Bool.false_eq_true, if_false]
    rfl

/-- With Q12 empty it waits. -/
theorem branchPop_waits (hq : s.cur.q.bits = []) : exec i s = .next (s.awake.waitIn i (.queue 12)) := by
  have hq' : s.awake.cur.q.bits = [] := by rw [awake_cur, Vlc.setStr_q, hq]
  rw [he]
  refine runPlain_wait h ?_
  simp only [hq']

end

/-- Settles O23: the branches on registers and on mask registers are `branchIf`, those on outcome bits `branchPop`. -/
theorem branches : Obligations.Branches := by
  intro s a b m off x y on bit
  obtain ⟨eq, ne, lt, ge, ltn, gen, q, qn⟩ := branches_free a b off
  obtain ⟨any, all, none_, nall⟩ := maskBranches_unchecked m off
  have compare {i : Instr} (hi : Free i) (hc : cellInAp i.cell = true) (size : i.size = 4) (F : Word → Word → Bool)
      {c : Prop} [Decidable c] (he : exec i s = branchIf i off (fun t => F (t.gread a) (t.gread b)) s) (hF : F x y = decide c) :
      GoesTo i s s.awake (on c) :=
    branchIf_goes (hi.passes (.inr hc)) he size (by simp only [awake_gread]; exact hF)
  refine ⟨compare eq rfl rfl (· == ·) rfl ?_, compare ne rfl rfl (· != ·) rfl ?_, compare lt rfl rfl BitVec.slt rfl ?_,
    compare ge rfl rfl (fun x y => !x.slt y) rfl ?_, compare ltn rfl rfl BitVec.ult rfl ?_,
    compare gen rfl rfl (fun x y => !x.ult y) rfl ?_, fun hs ht => ?_, fun hs t rest hq => ?_, fun hs hq => ?_⟩
  · rfl
  · exact (decide_not (p := x = y)).symm
  · rfl
  · rw [BitVec.slt, ← decide_not, decide_eq_decide]; exact Int.not_lt
  · rfl
  · rw [BitVec.ult, ← decide_not, decide_eq_decide]; exact Nat.not_lt
  · have masked {i : Instr} (hi : Unchecked i) (size : i.size = 4) (hm : accessesMemory i = false) {p : State → Bool}
        {c : Prop} [Decidable c] (he : exec i s = branchIf i off p s) (hp : p s.awake = decide c) : GoesTo i s s.awake (on c) :=
      branchIf_goes (hi.passes (.inl hs) (fun _ => ht) fun h => absurd h (by rw [hm]; exact nofun)) he size hp
    refine ⟨masked any rfl rfl rfl ?_, masked all rfl rfl rfl ?_, masked none_ rfl rfl rfl ?_, masked nall rfl rfl rfl ?_⟩
    · rw [awake_mbits]; exact mbits_nonempty
    · rw [awake_mbits]; exact mbits_isEmpty
    · rw [awake_mbits]; exact mbits_isEmpty
    · rw [awake_mbits]; exact mbits_nonempty
  · exact ⟨branchPop_goes (q.passes (.inl hs)) rfl rfl hq, branchPop_goes (qn.passes (.inl hs)) rfl rfl hq⟩
  · exact ⟨branchPop_waits (q.passes (.inl hs)) rfl hq, branchPop_waits (qn.passes (.inl hs)) rfl hq⟩

/-! ## Transfers (R136, R137) -/

theorem transfers_free (off : BitVec 25) (a : Fin 32) (imm : BitVec 12) :
    Free (.j off) ∧ Free (.jr a imm) ∧ Free (.call off) ∧ Free (.callr a imm) ∧ Free .ret := by
  refine ⟨?_, ?_, ?_, ?_, ?_⟩ <;> exact ⟨⟨rfl, fun _ => rfl, fun _ => rfl, rfl, fun _ => rfl, rfl⟩, rfl, rfl⟩

theorem awake_target {n : Nat} (s : State) (off : BitVec n) : s.awake.target off = s.target off := by
  unfold State.target; rw [awake_pc]

theorem awake_regTarget (s : State) (a : Fin 32) (imm : BitVec 12) : s.awake.regTarget a imm = s.regTarget a imm := by
  unfold State.regTarget; rw [awake_gread]

/-- A return-address stack with room takes one more entry. -/
theorem pushRas_room {s : State} (h : s.str.ras.length < 16) (i : Instr) (x : Word) :
    s.pushRas i x = .ok (s.setStr { s.str with ras := s.str.ras ++ [x] }) := by
  unfold State.pushRas; rw [if_pos h]

/-- A call whose stack has room pushes its return address and goes to its target. -/
theorem callTo_goes {i : Instr} {s : State} {dest : State → Word} {pc : Word} (h : Passes i s) (he : exec i s = callTo i dest s)
    (hd : dest s.awake = pc) (room : s.str.ras.length < 16) :
    GoesTo i s (s.awake.setStr { s.awake.str with ras := s.str.ras ++ [s.pc + 4] }) pc := by
  have ras : s.awake.str.ras = s.str.ras := by rw [awake_str]
  refine goesTo_of_body h he ?_ (by rw [setStr_str, ← awake_wait s])
  dsimp only
  rw [hd, pushRas_room (by rw [ras]; exact room), awake_pc, ras]

/-- A return from a stack that is not empty pops its youngest entry. -/
theorem retBody_pops {s : State} {rest : List Word} {x : Word} (h : s.str.ras = rest ++ [x]) :
    retBody s = .jump (s.setStr { s.str with ras := rest }) x := by
  unfold retBody
  rw [h, List.getLast?_concat, List.dropLast_concat]

/-! ## The end of the access stream (R146) -/

/-- A drain below the ownership point leaves the context in focus. -/
theorem drain_cur (s : State) (p : Path) {n : Nat} (h : n < 5) : (s.drain p n).cur = s.cur := by
  unfold State.drain
  simp only [ge_iff_le, Nat.not_le.2 h, if_false]

/-- After a drain to level 1 the stores of the path's stream stand there or beyond, save those of an open strip (R359). -/
theorem drain_level (s : State) (p : Path) (st : Stream) (hp : p = ⟨s.cur.loc, some st, 0⟩) :
    ∀ e ∈ (s.drain p 1).pend, e.loc = s.cur.loc → e.stream = st → e.strip = true ∨ 1 ≤ e.level := by
  intro e he hl hs
  unfold State.drain at he
  simp only [show ¬ (1 ≥ 5) by decide, if_false, List.mem_append, List.mem_filter, List.mem_map] at he
  rcases he with ⟨-, stays⟩ | ⟨x, -, rfl⟩
  · rcases Nat.eq_zero_or_pos e.level with low | out
    · have sees : p.sees e = true := by
        simp only [Path.sees, hp, low, hl, hs, BEq.rfl, Nat.le_refl, decide_true, Bool.and_self]
      cases strip : e.strip with
      | true => exact .inl rfl
      | false =>
        rw [sees, strip, low] at stays
        exact absurd stays (by decide)
    · exact .inr out
  · exact .inr (Nat.le_refl 1)

theorem exit_free : Free .exit := ⟨⟨rfl, fun _ => rfl, fun _ => rfl, rfl, fun _ => rfl, rfl⟩, rfl, rfl⟩

/-- `exit` in the AP: the stream has ended, its stores drained to the level of the context. -/
theorem exitBody_ap {s : State} (h : s.stream = .ap) : ∃ t, exitBody s = .stop t ∧ t.str.run = .ended ∧ t.str.g = s.str.g ∧
    t.mem = s.mem ∧ t.pend = (s.drain s.path 1).pend := by
  have stream : (s.drain s.path 1).stream = .ap := h
  have g : (s.drain s.path 1).str.g = s.str.g := rfl
  have mem : (s.drain s.path 1).mem = s.mem := drain_mem s s.path (by decide)
  unfold exitBody
  rw [h]
  refine ⟨_, rfl, ?_⟩
  generalize s.drain s.path 1 = u at *
  rw [← g, ← mem]
  unfold State.modVlc State.setStr State.str
  rw [stream]
  exact ⟨rfl, rfl, rfl, rfl⟩

/-- Settles O24: each transfer is a jump of the stream that is awake; the end of the access stream is `exitBody_ap`. -/
theorem transfers : Obligations.Transfers := by
  intro s off a imm near far pushed
  obtain ⟨j, jr, call, callr, ret⟩ := transfers_free off a imm
  refine ⟨?_, ?_, fun room => ⟨?_, ?_⟩, fun rest x hr => ?_, fun hs => ?_⟩
  · exact goesTo_of_body (j.passes (.inr rfl)) rfl (congrArg _ (awake_target s off)) (awake_wait s)
  · exact goesTo_of_body (jr.passes (.inr rfl)) rfl (congrArg _ (awake_regTarget s a imm)) (awake_wait s)
  · exact callTo_goes (call.passes (.inr rfl)) rfl (awake_target s off) room
  · exact callTo_goes (callr.passes (.inr rfl)) rfl (awake_regTarget s a imm) room
  · refine goesTo_of_body (ret.passes (.inr rfl)) rfl (retBody_pops ?_) ?_
    · rw [awake_str, hr]
    · rw [setStr_str, awake_wait]
  · obtain ⟨t, body, run, g, mem, pend⟩ := exitBody_ap (s := s.awake) hs
    have loc : s.awake.cur.loc = s.cur.loc := by rw [awake_cur, Vlc.setStr_loc]
    refine ⟨t, runPlain_stop (exit_free.passes (.inr rfl)) body, run, ?_, mem, ?_⟩
    · rw [g, awake_str]
    · rw [pend, ← loc]
      exact drain_level s.awake s.awake.path .ap (by unfold State.path; rw [awake_stream, hs])

/-! ## The end of a combination (R146, R308) -/

/-- The state from which the execute stream goes on to the next combination or ends its context: its stores drained, its strip closed,
its vector state gone. -/
def combinationOver (s : State) : State := (s.drain s.path 1).closeStrip.killVector

theorem combinationOver_work (s : State) : (combinationOver s).cur.work = s.cur.work := by
  change (s.drain s.path 1).cur.work = _
  rw [drain_cur s s.path (by decide)]

theorem combinationOver_mem (s : State) : (combinationOver s).mem = s.mem := drain_mem s s.path (by decide)

theorem combinationOver_tasks (s : State) : (combinationOver s).tasks = s.tasks := rfl

/-- `exit` in the EP ends the combination when nothing keeps it from that. -/
theorem exitBody_ep {s : State} (h : s.stream = .ep) (hap : s.cur.ctl.apon = false) (hf : s.fillsPending = false) :
    exitBody s = .stop s.endCombination := by
  have runs : s.apRuns = false := by unfold State.apRuns; rw [hap]; rfl
  have join : s.joinAp = s := by unfold State.joinAp; rw [hap]; rfl
  unfold exitBody
  rw [h]
  simp only [runs, join, hf, Bool.false_eq_true, if_false]

theorem endCombination_next {s : State} {w : Work} {idx : List Nat} {rest : List (List Nat)} (hw : s.cur.work = some w)
    (ht : w.todo = idx :: rest) : s.endCombination = (combinationOver s).modVlc fun v => v.startCombination w idx rest := by
  unfold State.endCombination
  change (match (combinationOver s).cur.work with | some w => _ | none => _) = _
  rw [combinationOver_work, hw]
  dsimp only
  rw [ht]
  rfl

theorem endCombination_last {s : State} {w : Work} (hw : s.cur.work = some w) (ht : w.todo = []) :
    s.endCombination = (combinationOver s).endContext true := by
  unfold State.endCombination
  change (match (combinationOver s).cur.work with | some w => _ | none => _) = _
  rw [combinationOver_work, hw]
  dsimp only
  rw [ht]
  rfl

/-- A context that ends leaves its task counting one fewer. -/
theorem endContext_tasks {s : State} {w : Work} (hw : s.cur.work = some w) {x : Task} (hx : x ∈ s.tasks) (hid : x.id = w.task) :
    { x with running := x.running - 1 } ∈ (s.endContext true).tasks := by
  unfold State.endContext
  rw [hw]
  refine List.mem_map.2 ⟨x, hx, ?_⟩
  rw [if_pos (beq_iff_eq.2 hid), Bool.and_true]

/-- Settles O25: `exit` comes to `endCombination`, which goes on with the work still to do or ends the context. -/
theorem exitEndsCombination : Obligations.ExitEndsCombination := by
  intro s w hs hap hf hw
  have ctl : s.awake.cur.ctl = s.cur.ctl := by rw [awake_cur, Vlc.setStr_ctl]
  have work : s.awake.cur.work = some w := by rw [awake_cur, Vlc.setStr_work, hw]
  have fills : s.awake.fillsPending = false := by
    rw [← hf]
    unfold State.fillsPending
    rw [awake_cur, Vlc.setStr_loc]
    rfl
  have ends : exec .exit s = .next s.awake.endCombination :=
    runPlain_stop (exit_free.passes (.inl hs)) (exitBody_ep hs (by rw [ctl, hap]) fills)
  refine ⟨fun idx rest ht => ⟨_, ends, ?_⟩, fun ht => ⟨_, ends, ?_⟩⟩
  · rw [endCombination_next work ht]
    exact ⟨rfl, rfl, rfl, rfl, rfl, combinationOver_mem _, rfl⟩
  · rw [endCombination_last work ht]
    refine ⟨rfl, rfl, combinationOver_mem _, fun x hx hid => endContext_tasks (by rw [combinationOver_work, work]) ?_ hid⟩
    rw [combinationOver_tasks]
    exact hx

/-! ## A byte bound ahead of its load (R360, R362) -/

/-- A context that runs with bare addresses (log 8), nothing on its way. -/
def bareContext : State := { State.reset with cur := Vlc.create ⟨0, 0, 0⟩ 0 0 0 0 }

/-- Its stream has bound the byte at 0x10000 ahead of a load to come (R362); then a store of 7 to that byte has been performed. -/
def boundThenStored : State := (bareContext.bindAhead false 0x10000).performBytes [⟨0x10000, 7, 0xFF⟩] false

/-- The load takes the byte that was bound. -/
theorem boundThenStored_load :
    ∃ r t, boundThenStored.load 0x10000 1 = (.ok r, t) ∧ r.bytes = [0] ∧ r.held = false :=
  ⟨_, _, rfl, rfl, rfl⟩

/-- On the path of the stream the byte reads as it was stored. -/
theorem boundThenStored_byteOn : ∃ t, boundThenStored.xlateN .read 0x10000 1 = (.ok [0x10000], t) ∧
    (∀ c ∈ t.cores.toList, c.injb.getLsbD 0 = false) ∧ t.byteOn boundThenStored.path 0x10000 = 7 :=
  ⟨_, rfl, by decide, rfl⟩

/-- Refutes O49: a load takes a byte that its stream has bound ahead (R362) as it was bound, however it reads on the stream's path by then;
the statement of what loads bring does not exclude such bytes. -/
theorem not_storedBytes : ¬ Obligations.StoredBytes := by
  intro h
  obtain ⟨r, t, load, bytes, held⟩ := boundThenStored_load
  obtain ⟨u, xlate, calm, now⟩ := boundThenStored_byteOn
  obtain ⟨-, brings, -⟩ := h boundThenStored u t false 0x10000 1 [] [0x10000] [] false
  have same := brings r xlate load calm held
  rw [bytes, List.map_singleton, now] at same
  exact absurd same (by decide)

end Sys2Proof.ScalarControl

/-! PROOFS. The vector instructions that work on elements, masks and whole units: arithmetic (R153 to R159), compares and mask logic
(R164 to R166), permutes (R167 to R169), conflicts, selection and transformations (R172 to R176). -/

namespace Sys2Proof.VectorInstructions
open Sys2Proof Sys2Proof.Machine Sys2Proof.NumberFormats Sys2Proof.ScalarControl

/-! ## Updates that neither make the stream wait nor find an error -/

theorem mwrite_wait (s : State) (m : Fin 8) (x : Nat) : (s.mwrite m x).str.wait = s.str.wait := by
  simp only [State.mwrite, State.modVec_eq, State.str_eq, State.modVlc_cur, State.modVlc_stream]
  cases s.stream <;> rfl

theorem gwrite_upset (s : State) (n : Fin 32) (x : Word) : (s.gwrite n x).upset = s.upset := by
  unfold State.gwrite State.upset State.coreId
  split
  · rfl
  · simp only [State.setStr_eq, State.modVlc_upsets, State.modVlc_cur, Vlc.setStr_loc]

section
variable {i : Instr} {s u w : State} {st : Strips} {ds : List Nat} {c : Common} {d a : Fin 32} {b : Src}

/-- An instruction whose body completes in a state that waits for nothing new and holds no new error ends with what it answers. -/
theorem runInstr_ends {body : View → List Nat → State → Eff} {r : Raised} {chk : Option Check}
    (h : Begins i s st ds u) (he : exec i s = runInstr i s body) (hb : body st.view ds u = .done w r [] chk)
    (hw : w.str.wait = u.str.wait) (hu : w.upset = u.upset) : Ends i s st w r chk :=
  he.trans (runInstr_done h hb (hw.trans h.free) (by rw [spot_upset, hu]; exact h.sound))

theorem runInstr_putsMask {body : View → List Nat → State → Eff} {d : Fin 8} {rs : List (Nat × Bool)} {r : Raised}
    {chk : Option Check} (h : Begins i s st ds u) (he : exec i s = runInstr i s body)
    (hb : body st.view ds u = .done (u.putMask d rs) r [] chk) : Ends i s st (u.putMask d rs) r chk :=
  runInstr_ends h he hb (mwrite_wait u d _) rfl

/-! ## Element-wise arithmetic (R153 to R159) -/

/-- An operation on two operands: its result and flags for each performed element. -/
theorem arith2_ends {op : Op2} (h : Begins i s st ds u) (he : exec i s = arith2 i c d a b op s) :
    let ty := effTy u.cur.ctl c.ty
    let is := u.performed c
    let r (e : Nat) : Nat × Fl := op ty c.rm (elem ty (st.view.src u a ty) e) (srcVal st.view u b ty e) (drawAt ds e)
    Ends i s st (u.putElems d ty (is.map fun e => (e, (r e).1))) (raises (is.map fun e => (e, (r e).2)))
      (some (vecCheck u d ty is)) := by
  unfold arith2 at he
  have ends := elementwise_ends h he
  exact ends

/-- An operation on one operand: its result and flags for each performed element. -/
theorem arith1_ends {op : Ty → Rm → Nat → Nat → Nat × Fl} (h : Begins i s st ds u) (he : exec i s = arith1 i c d a op s) :
    let ty := effTy u.cur.ctl c.ty
    let is := u.performed c
    let r (e : Nat) : Nat × Fl := op ty c.rm (elem ty (st.view.src u a ty) e) (drawAt ds e)
    Ends i s st (u.putElems d ty (is.map fun e => (e, (r e).1))) (raises (is.map fun e => (e, (r e).2)))
      (some (vecCheck u d ty is)) := by
  unfold arith1 at he
  have ends := elementwise_ends h he
  exact ends

theorem opMinMax_min (t : Ty) (rm : Rm) (x y k : Nat) : opMinMax false t rm x y k =
    if t.isInt then (if intOf t y < intOf t x then y else x, 0) else fMinMax t false x y := by
  split
  · exact opMinMax_int_min ‹_› x y
  · exact opMinMax_float (Bool.eq_false_iff.2 ‹_›)

theorem opMinMax_max (t : Ty) (rm : Rm) (x y k : Nat) : opMinMax true t rm x y k =
    if t.isInt then (if intOf t y < intOf t x then x else y, 0) else fMinMax t true x y := by
  split
  · exact opMinMax_int_max ‹_› x y
  · exact opMinMax_float (Bool.eq_false_iff.2 ‹_›)

/-- An instruction that is not interrupted performs all its elements (R40). -/
theorem below_of_uncut (h : u.limit = none) (e : Nat) : u.below e = true := by
  unfold State.below
  rw [h]
  rfl

/-- `vsel` writes every element from VSTART on, the inactive ones from b (R159). -/
theorem vsel_ends (h : Begins (.vsel c d a b) s st ds u) :
    let ty := effTy u.cur.ctl c.ty
    let all := (List.range u.vl).filter fun e => decide (u.vstart ≤ e)
    Ends (.vsel c d a b) s st (u.putElems d ty (all.map fun e =>
        (e, if u.active c e then elem ty (st.view.src u a ty) e else srcVal st.view u b ty e))) []
      (some (vecCheck u d ty all)) := by
  have he : exec (.vsel c d a b) s = execVsel c d a b s := rfl
  have all : ((List.range u.vl).filter fun e => decide (u.vstart ≤ e) && u.below e) =
      (List.range u.vl).filter fun e => decide (u.vstart ≤ e) := by
    simp only [below_of_uncut (h.uncut rfl), Bool.and_true]
  unfold execVsel at he
  refine runInstr_putsElems h he ?_
  simp only [all]

end

/-- Settles O37: each operation on two operands is `arith2`, each on one `arith1`; the operations of the model are those of the statement,
minima and maxima once their choice is read as a comparison. -/
theorem vectorArithmetic : Obligations.VectorArithmetic := by
  intro s u c d a b st ds ty is x y I J done both
  have binary (op : Op2) {i : Instr} (he : exec i s = arith2 i c d a b op s) :
      done i fun e => op ty c.rm (x e) (y e) (drawAt ds e) := by
    intro h
    have ends := arith2_ends h he
    exact ends
  have unary (op : Ty → Rm → Nat → Nat → Nat × Fl) {i : Instr} (he : exec i s = arith1 i c d a op s) :
      done i fun e => op ty c.rm (x e) (drawAt ds e) := by
    intro h
    have ends := arith1_ends h he
    exact ends
  have least := binary (opMinMax false) (i := .vmin c d a b) rfl
  have greatest := binary (opMinMax true) (i := .vmax c d a b) rfl
  simp only [opMinMax_min] at least
  simp only [opMinMax_max] at greatest
  refine ⟨binary opAdd rfl, binary opSub rfl, binary (fun t rm x y k => opSub t rm y x k) rfl, binary opMul rfl, binary opMulh rfl,
    binary opDiv rfl, binary (fun t _ x y _ => intRem t x y) rfl, least, greatest, binary (fun _ _ x y _ => (x &&& y, 0)) rfl,
    binary (fun _ _ x y _ => (x ||| y, 0)) rfl, binary (fun _ _ x y _ => (x ^^^ y, 0)) rfl, binary opSll rfl, binary opSrl rfl,
    binary opSra rfl, binary (fun t _ x y _ => satInt t (intOf t x + intOf t y)) rfl,
    binary (fun t _ x y _ => satInt t (intOf t x - intOf t y)) rfl,
    binary (fun t _ x y _ => (withSign t x (signBit t y), 0)) rfl,
    binary (fun t _ x y _ => (withSign t x (!signBit t y), 0)) rfl, ?_, ?_,
    unary (fun t rm x k => rounded t rm (fSqrt (readTy t x)) k) rfl,
    unary (fun t _ x _ => if t.isInt then (wrapInt t (intOf t x).natAbs, 0) else (withSign t x false, 0)) rfl,
    unary (fun t _ x _ => if t.isInt then (wrapInt t (-(intOf t x)), 0) else (withSign t x (!signBit t x), 0)) rfl, vsel_ends⟩
  · intro h
    have he : exec (.vmv c d b) s = execVmv c d b s := rfl
    have ends := elementwise_ends h he
    exact ends
  · intro h
    have he : exec (.vid c d) s = execVid c d s := rfl
    have ends := elementwise_ends h he
    exact ends

/-! ## Compares and masks (R164 to R166) -/

section
variable {i : Instr} {s u : State} {st : Strips} {ds : List Nat} {c : Common} {d m n : Fin 8} {a g : Fin 32} {b : Src2}

/-- A compare: the truth and the flags of each performed element. -/
theorem compareForm_ends {p : Ordering → Bool} {nan quiet : Bool} (h : Begins i s st ds u)
    (he : exec i s = compareForm i c d a b p nan quiet s) :
    let ty := effTy u.cur.ctl c.ty
    let is := u.performed c
    let x (e : Nat) : Nat := elem ty (st.view.src u a ty) e
    let y := src2Val st.view u b ty
    let r (e : Nat) : Bool × Fl := if ty.isInt then (p (compare (intOf ty (x e)) (intOf ty (y e))), 0)
      else fTest quiet p nan (readTy ty (x e)) (readTy ty (y e))
    Ends i s st (u.putMask d (is.map fun e => (e, (r e).1))) (raises (is.map fun e => (e, (r e).2)))
      (some (maskCheck (elemLane u.ncore ty) d is)) := by
  unfold compareForm at he
  refine runInstr_putsMask h he ?_
  simp only [List.map_map]
  rfl

theorem maskLogic_ends {f : Bool → Bool → Bool} (h : Begins i s st ds u) (he : exec i s = maskLogic i c d m n f s) :
    Ends i s st (u.putMask d ((u.performed c).map fun e => (e, f ((u.mread m).testBit e) ((u.mread n).testBit e)))) []
      (some (maskCheck (bitLane u.ncore) d (u.performed c))) := by
  unfold maskLogic at he
  exact runInstr_putsMask h he rfl

theorem maskFirst_ends {f : Option Nat → Nat → Bool} (h : Begins i s st ds u) (he : exec i s = maskFirst i c d m f s) :
    Ends i s st (u.putMask d ((u.presentAll c).map fun e => (e, f (firstSet u c m) e))) []
      (some (maskCheck (bitLane u.ncore) d (u.presentAll c))) := by
  unfold maskFirst at he
  exact runInstr_putsMask h he rfl

theorem maskToG_ends {f : State → Word} (h : Begins i s st ds u) (he : exec i s = maskToG i c g f s) :
    Ends i s st (u.gwrite g (f u)) []
      (some (oneCheck (if (u.presentAll c).isEmpty then [] else [0]) (fun _ => 0) fun t => t.gwrite g 0)) := by
  unfold maskToG at he
  exact runInstr_ends h he rfl (gwrite_wait u g _) (gwrite_upset u g _)

/-- A test against the first set bit that every element passes where there is none. -/
theorem firstTest_eq_all (p : Nat → Nat → Bool) :
    (fun (f : Option Nat) e => match f with | none => true | some k => p e k) = fun f e => f.all (p e) := by
  funext f e
  cases f <;> rfl

theorem exec_msbf (c : Common) (d m : Fin 8) (s : State) :
    exec (.msbf c d m) s = maskFirst (.msbf c d m) c d m (fun f e => f.all fun k => decide (e < k)) s := by
  rw [← firstTest_eq_all fun e k => decide (e < k)]
  rfl

theorem exec_msif (c : Common) (d m : Fin 8) (s : State) :
    exec (.msif c d m) s = maskFirst (.msif c d m) c d m (fun f e => f.all fun k => decide (e ≤ k)) s := by
  rw [← firstTest_eq_all fun e k => decide (e ≤ k)]
  rfl

theorem exec_mpcnt (c : Common) (g : Fin 32) (m : Fin 8) (s : State) : exec (.mpcnt c g m) s =
    maskToG (.mpcnt c g m) c g (fun t => BitVec.ofNat 64 ((t.presentAll c).countP fun e => (t.mread m).testBit e)) s := by
  simp only [List.countP_eq_length_filter]
  rfl

theorem exec_mfirst (c : Common) (g : Fin 32) (m : Fin 8) (s : State) : exec (.mfirst c g m) s =
    maskToG (.mfirst c g m) c g (fun t => match firstSet t c m with | none => BitVec.allOnes 64 | some k => BitVec.ofNat 64 k) s := rfl

end

/-- Settles O40: the compares are `compareForm`, the mask instructions `maskLogic`, `maskFirst` and `maskToG`; where no present bit is set,
`msbf` and `msif` hold of every element. -/
theorem vectorComparesAndMasks : Obligations.VectorComparesAndMasks := by
  intro s u c d m n a g b st ds ty is here x y cmp bits p q first toG
  have compares (o : Ordering → Bool) (nan quiet : Bool) {i : Instr} (he : exec i s = compareForm i c d a b o nan quiet s) :
      cmp i o nan quiet := by
    intro h
    have ends := compareForm_ends h he
    exact ends
  have logic (f : Bool → Bool → Bool) {i : Instr} (he : exec i s = maskLogic i c d m n f s) : bits i is fun e => f (p e) (q e) :=
    fun h => maskLogic_ends h he
  have marks (f : Option Nat → Nat → Bool) {i : Instr} (he : exec i s = maskFirst i c d m f s) : bits i here (f first) :=
    fun h => maskFirst_ends h he
  have scalar (f : State → Word) {i : Instr} (he : exec i s = maskToG i c g f s) : toG i (f u) := fun h => maskToG_ends h he
  have before := marks _ (exec_msbf c d m s)
  have upTo := marks _ (exec_msif c d m s)
  have count := scalar _ (exec_mpcnt c g m s)
  have index := scalar _ (exec_mfirst c g m s)
  exact ⟨compares _ _ _ rfl, compares _ _ _ rfl, compares _ _ _ rfl, compares _ _ _ rfl, compares _ _ _ rfl, compares _ _ _ rfl,
    logic (· && ·) rfl, logic (· || ·) rfl, logic (· != ·) rfl, logic (fun x y => x && !y) rfl, before, upTo,
    marks (fun f e => f == some e) rfl, count, index⟩

/-! ## Counts below an element of an ascending list -/

/-- Nothing after the head of an ascending list lies below it. -/
theorem countP_below_head {p : Nat → Bool} {a : Nat} {l : List Nat} (h : ∀ e ∈ l, a < e) :
    (a :: l).countP (fun k => decide (k < a) && p k) = 0 := by
  refine List.countP_eq_zero.2 fun k hk => ?_
  have later : ¬k < a := by
    rcases List.mem_cons.1 hk with rfl | hk
    · exact Nat.lt_irrefl k
    · exact Nat.lt_asymm (h k hk)
  simp only [later, decide_false, Bool.false_and, Bool.false_eq_true, not_false_eq_true]

theorem countP_below_later {p : Nat → Bool} {a e : Nat} {l : List Nat} (h : a < e) :
    (a :: l).countP (fun k => decide (k < e) && p k) = l.countP (fun k => decide (k < e) && p k) + if p a then 1 else 0 := by
  rw [List.countP_cons]
  simp only [h, decide_true, Bool.true_and]

/-- One element of `viota`: its index with the count so far, which its own bit raises for those that follow. -/
def iotaStep (p : Nat → Bool) (m : Nat) (acc : List (Nat × Nat) × Nat) (e : Nat) : List (Nat × Nat) × Nat :=
  (acc.1 ++ [(e, acc.2 % m)], if p e then acc.2 + 1 else acc.2)

theorem foldl_iotaStep (p : Nat → Bool) (m : Nat) (l : List Nat) (h : l.Pairwise (· < ·)) (rs : List (Nat × Nat)) (n : Nat) :
    (l.foldl (iotaStep p m) (rs, n)).1 = rs ++ l.map fun e => (e, (n + l.countP fun k => decide (k < e) && p k) % m) := by
  induction l generalizing rs n with
  | nil => rw [List.foldl_nil, List.map_nil, List.append_nil]
  | cons a l ih =>
    obtain ⟨later, rest⟩ := List.pairwise_cons.1 h
    rw [List.foldl_cons, iotaStep, ih rest, List.map_cons, countP_below_head later, Nat.add_zero, List.append_assoc, List.singleton_append]
    congr 2
    refine List.map_congr_left fun e he => ?_
    rw [countP_below_later (later e he)]
    split <;> simp only [Nat.add_assoc, Nat.add_comm, Nat.zero_add]

/-- The place of an element in an ascending list is the count of those below it. -/
theorem zipIdx_eq_map_countP (l : List Nat) (h : l.Pairwise (· < ·)) (n : Nat) :
    l.zipIdx n = l.map fun e => (e, n + l.countP fun k => decide (k < e)) := by
  induction l generalizing n with
  | nil => rfl
  | cons a l ih =>
    obtain ⟨later, rest⟩ := List.pairwise_cons.1 h
    have head := countP_below_head (p := fun _ => true) later
    simp only [Bool.and_true] at head
    rw [List.zipIdx_cons, ih rest, List.map_cons, head, Nat.add_zero]
    congr 1
    refine List.map_congr_left fun e he => ?_
    have tail := countP_below_later (p := fun _ => true) (l := l) (later e he)
    simp only [Bool.and_true, if_true] at tail
    rw [tail, Nat.add_assoc, Nat.add_comm 1]

theorem presentAll_ascending (u : State) (c : Common) : (u.presentAll c).Pairwise (· < ·) := by
  unfold State.presentAll
  split
  · exact List.Pairwise.nil
  · exact List.pairwise_lt_range.filter _

/-! ## Permutes (R167 to R169) -/

section
variable {i : Instr} {s u : State} {st : Strips} {ds : List Nat} {c : Common} {d a : Fin 32}

/-- A permute writes what `f` gives of whole units. -/
theorem permForm_ends {f : View → State → Ty → Units → List (Nat × Nat)} (h : Begins i s st ds u) (he : exec i s = permForm i c d f s) :
    let ty := effTy u.cur.ctl c.ty
    let g := groupFor u.cur.ctl ty
    let rs := f st.view u ty (u.units ty)
    Ends i s st (u.writeGroup d g ((u.units ty).set (u.readGroup d g) rs)) []
      (some (vecCheck u d ty (rs.map fun r => r.1 * (u.units ty).per))) := by
  unfold permForm at he
  exact runInstr_writesGroup h he rfl

theorem scalarToElem_ends {f : State → Word} (h : Begins i s st ds u) (he : exec i s = scalarToElem i c d f s) :
    let ty := effTy u.cur.ctl c.ty
    let zero := (u.performed c).filter (· == 0)
    Ends i s st (u.putElems d ty (zero.map fun e => (e, (f u).toNat % 2 ^ ty.sew))) [] (some (vecCheck u d ty zero)) := by
  unfold scalarToElem at he
  exact runInstr_putsElems h he rfl

/-- Where VSTART reaches VL, a move of element 0 only completes (R23, R168). -/
theorem elemToScalar_ends_empty {put : State → Ty → Nat → State} (h : Begins i s st ds u) (he : exec i s = elemToScalar i c a put s)
    (hv : u.vl ≤ u.vstart) : Ends i s st u [] none := by
  unfold elemToScalar at he
  exact runInstr_ends h he (if_pos hv) rfl rfl

theorem elemToScalar_ends {put : State → Ty → Nat → State} (h : Begins i s st ds u) (he : exec i s = elemToScalar i c a put s)
    (hv : u.vstart < u.vl) (wait : ∀ ty x, (put u ty x).str.wait = u.str.wait) (upset : ∀ ty x, (put u ty x).upset = u.upset) :
    let ty := effTy u.cur.ctl c.ty
    Ends i s st (put u ty (elem ty (st.view.src u a ty) 0)) []
      (some (oneCheck [0] (fun _ => 0) fun t => put t ty (errorValue ty))) := by
  unfold elemToScalar at he
  exact runInstr_ends h he (if_neg (Nat.not_le.2 hv)) (wait _ _) (upset _ _)

theorem exec_vgetg (c : Common) (d a : Fin 32) (s : State) : exec (.vgetg c d a) s =
    elemToScalar (.vgetg c d a) c a (fun t ty x => t.gwrite d (BitVec.ofInt 64 (intOf ty x))) s := rfl
theorem exec_vgeth (c : Common) (d a : Fin 32) (s : State) : exec (.vgeth c d a) s =
    elemToScalar (.vgeth c d a) c a (fun t _ x => t.hwrite d (BitVec.ofNat 64 x)) s := rfl

/-- `viota` gives each present element the count of the present set bits below it (R168). -/
theorem exec_viota (c : Common) (d : Fin 32) (m : Fin 8) (s : State) : exec (.viota c d m) s =
    permForm (.viota c d m) c d (fun _ t ty _ => (t.presentAll c).map fun e =>
      (e, ((t.presentAll c).countP fun k => decide (k < e) && (t.mread m).testBit k) % 2 ^ ty.sew)) s := by
  have counts (t : State) (ty : Ty) := foldl_iotaStep (t.mread m).testBit (2 ^ ty.sew) _ (presentAll_ascending t c) [] 0
  simp only [Nat.zero_add, List.nil_append] at counts
  simp only [← counts]
  rfl

end

/-- Settles O41: slides, gathers, compression and `viota` are `permForm`, the moves of element 0 `scalarToElem` and `elemToScalar`. -/
theorem vectorPermutes : Obligations.VectorPermutes := by
  intro s w c d a b m st ds ty u g x off on moves zero put
  have permutes {i : Instr} (f : View → State → Ty → Units → List (Nat × Nat)) (he : exec i s = permForm i c d f s) :
      moves i (f st.view w ty u) := fun h => permForm_ends h he
  have puts {i : Instr} (f : State → Word) (he : exec i s = scalarToElem i c d f s) : put i (f w) := fun h => scalarToElem_ends h he
  have up := permutes _ (show exec (.vslideup c d a b) s = execVslideup c d a b s from rfl)
  have down := permutes _ (show exec (.vslidedown c d a b) s = execVslidedown c d a b s from rfl)
  have gathers := permutes _ (show exec (.vrgather c d a b) s = execVrgather c d a b s from rfl)
  have packs := permutes _ (show exec (.vcompress c d a m) s = execVcompress c d a m s from rfl)
  refine ⟨up, down, gathers, packs, ?_, puts (·.gread a) rfl, puts (·.hread a) rfl, ?_, ?_⟩
  · intro h
    have ends := permForm_ends h (exec_viota c d m s)
    refine ⟨_, ?_, ?_, ends⟩
    · simp only [List.map_map, Function.comp_def, List.map_id']
    · intro r hr
      obtain ⟨e, -, rfl⟩ := List.mem_map.1 hr
      rfl
  · intro hv
    exact ⟨fun h => elemToScalar_ends_empty h (exec_vgetg c d a s) hv, fun h => elemToScalar_ends_empty h (exec_vgeth c d a s) hv⟩
  · intro hv
    refine ⟨fun h => ?_, fun h => ?_⟩
    · have ends := elemToScalar_ends h (exec_vgetg c d a s) hv (fun _ _ => gwrite_wait w d _) fun _ _ => gwrite_upset w d _
      exact ends
    · have ends := elemToScalar_ends h (exec_vgeth c d a s) hv (fun _ _ => hwrite_wait w d _) fun _ _ => rfl
      exact ends

/-! ## Conflicts, selection and transformations (R172 to R176) -/

section
variable {s u : State} {st : Strips} {ds : List Nat} {c : Common} {d a b : Fin 32}

/-- The rank of a present element is the count of the equal ones before it (R173). -/
theorem ranks_eq_map_countP (u : State) (c : Common) (ty : Ty) (x : Nat) : ranks u c ty x = (u.presentAll c).map fun e =>
    (e, (u.presentAll c).countP fun k => decide (k < e) && elem ty x k == elem ty x e) := by
  unfold ranks
  simp only [List.map_map, List.filter_map, List.length_map, List.countP_eq_length_filter]
  rfl

theorem ranks_indices (u : State) (c : Common) (ty : Ty) (x : Nat) : (ranks u c ty x).map (fun r => r.1) = u.presentAll c := by
  rw [ranks_eq_map_countP, List.map_map]
  exact List.map_id _

theorem vconf_ends {m : Fin 8} (h : Begins (.vconf c m a) s st ds u) :
    let ty := effTy u.cur.ctl c.ty
    let rs := ranks u c ty (st.view.src u a ty)
    Ends (.vconf c m a) s st (u.putMask m (rs.map fun r => (r.1, r.2 == 0))) []
      (some (maskCheck (elemLane u.ncore ty) m (u.presentAll c))) := by
  have he : exec (.vconf c m a) s = execVconf c m a s := rfl
  unfold execVconf at he
  refine runInstr_putsMask h he ?_
  simp only [ranks_indices]

theorem vconfr_ends (h : Begins (.vconfr c d a) s st ds u) :
    let ty := effTy u.cur.ctl c.ty
    Ends (.vconfr c d a) s st (u.putElems d .n16 (ranks u c ty (st.view.src u a ty))) []
      (some (vecCheck u d .n16 (u.presentAll c))) := by
  have he : exec (.vconfr c d a) s = execVconfr c d a s := rfl
  unfold execVconfr at he
  refine runInstr_putsElems h he ?_
  simp only [ranks_indices]

theorem vtopk_ends (h : Begins (.vtopk c d a b) s st ds u) :
    let ty := effTy u.cur.ctl c.ty
    let order := (u.presentAll c).foldl (fun l e => insertRank (e, elemVal ty (st.view.src u a ty) e) l) []
    let top := (order.map fun r => r.1).take (u.gread b).toNat
    ∃ chk, Ends (.vtopk c d a b) s st (u.putElems d .n16 (top.zipIdx.map fun r => (r.2, r.1))) [] chk := by
  have he : exec (.vtopk c d a b) s = execVtopk c d a b s := rfl
  unfold execVtopk at he
  exact ⟨_, runInstr_putsElems h he rfl⟩

/-- Without a bound operand `vunpk` reads its fields from one register, at the offset that G[b] gives (R176). -/
theorem vunpk_ends (h : Begins (.vunpk c d a b) s st ds u) (hv : st.view = []) :
    let ty := effTy u.cur.ctl c.ty
    let gb := (u.gread b).toNat
    let f (e : Nat) : Nat :=
      fieldElem ty (gb % 32 + 1) (bitsAt (u.readGroup a 1) (gb / 256 % 64 + e * (gb % 32 + 1)) (gb % 32 + 1))
    Ends (.vunpk c d a b) s st (u.putElems d ty ((u.presentAll c).map fun e => (e, f e))) []
      (some (vecCheck u d ty (u.presentAll c))) := by
  have he : exec (.vunpk c d a b) s = execVunpk c d a b s := rfl
  have width : bitsAt (u.gread b).toNat 0 5 = (u.gread b).toNat % 32 := rfl
  have offset : bitsAt (u.gread b).toNat 8 6 = (u.gread b).toNat / 256 % 64 :=
    congrArg (· % 2 ^ 6) (Nat.shiftRight_eq_div_pow _ 8)
  unfold execVunpk at he
  refine runInstr_putsElems h he ?_
  simp only [hv, List.find?_nil, width, offset]

theorem raises_flagless (is : List Nat) : raises (is.map fun e => (e, (0 : Fl))) = [] := by
  induction is with
  | nil => rfl
  | cons e is ih => exact ih

/-- `vlut` looks up what lies below VLMAX, and gives 0 above it (R176). -/
theorem vlut_ends {ix : Ty} {lb : BitVec 4} (h : Begins (.vlut c ix lb d a b) s st ds u) :
    let ty := effTy u.cur.ctl c.ty
    let j (e : Nat) : Nat := lutIndex lb.toNat ix.sew ix (st.view.src u a ix) e
    let r (e : Nat) : Nat := if j e < vlmax u.ncore ty (groupFor u.cur.ctl ty) then elem ty (st.view.src u b ty) (j e) else 0
    Ends (.vlut c ix lb d a b) s st (u.putElems d ty ((u.performed c).map fun e => (e, r e))) []
      (some (vecCheck u d ty (u.performed c))) := by
  have he : exec (.vlut c ix lb d a b) s = execVlut c ix lb d a b s := rfl
  have ends := elementwise_ends h he
  rw [← raises_flagless (u.performed c)]
  exact ends

/-- `vexpm` takes for each present place the packed element of its number (R176). -/
theorem vexpm_ends (h : Begins (.vexpm c d a) s st ds u) :
    let ty := effTy u.cur.ctl c.ty
    let here := u.presentAll c
    Ends (.vexpm c d a) s st
      (u.putElems d ty (here.map fun e => (e, elem ty (st.view.src u a ty) (here.countP fun k => decide (k < e))))) []
      (some (vecCheck u d ty here)) := by
  have he : exec (.vexpm c d a) s = execVexpm c d a s := rfl
  unfold execVexpm at he
  refine runInstr_putsElems h he ?_
  simp only [zipIdx_eq_map_countP _ (presentAll_ascending u c), List.map_map, Nat.zero_add]
  rfl

end

/-- Settles O44: each instruction by its lemma; the ranks of R173 are counts of equal elements before. -/
theorem conflictsAndTransformations : Obligations.ConflictsAndTransformations := by
  intro s u c ix lb d a b m st ds ty here x earlier writes
  refine ⟨fun h => ?_, fun h => ?_, fun h => vtopk_ends h, fun hv h => vunpk_ends h hv, fun h => vlut_ends h, fun h => vexpm_ends h⟩
  · have ends := vconf_ends h
    simp only [ranks_eq_map_countP, List.map_map] at ends
    exact ends
  · have ends := vconfr_ends h
    simp only [ranks_eq_map_countP] at ends
    exact ends

end Sys2Proof.VectorInstructions

/-! PROOFS. Function registers: their images in memory (R212, R222 to R224), evaluation and quadrature (R236 to R239). -/

namespace Sys2Proof.FunctionInstructions
open Sys2Proof Sys2Proof.Machine Sys2Proof.NumberFormats Sys2Proof.VectorInstructions

/-! ## What an access and a draw leave alone -/

/-- Two states whose contexts in focus stand at one place and hold the same control, vector and function registers. -/
structure SameRegs (s t : State) : Prop where
  loc : t.cur.loc = s.cur.loc
  ctl : t.cur.ctl = s.cur.ctl
  vec : t.cur.vec = s.cur.vec

namespace SameRegs
variable {s t u : State}

theorem refl (s : State) : SameRegs s s := ⟨rfl, rfl, rfl⟩

theorem trans (h : SameRegs s t) (k : SameRegs t u) : SameRegs s u :=
  ⟨k.loc.trans h.loc, k.ctl.trans h.ctl, k.vec.trans h.vec⟩

theorem of_device (h : OnlyDevice s t) : SameRegs s t := by
  constructor <;> rw [h.cur]

theorem setStr (s : State) (x : StreamState) : SameRegs s (s.setStr x) :=
  ⟨Vlc.setStr_loc .., Vlc.setStr_ctl .., Vlc.setStr_vec ..⟩

theorem active (h : SameRegs s t) (c : Common) : t.active c = s.active c := by
  unfold State.active State.mread
  rw [h.vec]

theorem degCap (h : SameRegs s t) : t.degCap = s.degCap := by
  unfold State.degCap
  rw [h.ctl]

theorem batch (h : SameRegs s t) (c : Common) : t.batch c = s.batch c := by
  unfold State.batch State.flNum
  rw [h.active, h.ctl]

theorem vl (h : SameRegs s t) : t.vl = s.vl := by
  unfold State.vl
  rw [h.ctl]

theorem vstart (h : SameRegs s t) : t.vstart = s.vstart := by
  unfold State.vstart
  rw [h.ctl]

theorem fnreg (h : SameRegs s t) (f : Fin 16) : t.fnreg f = s.fnreg f := by
  unfold State.fnreg
  rw [h.vec]

theorem ncore (h : SameRegs s t) : t.ncore = s.ncore := by
  unfold State.ncore State.coreId
  rw [h.loc]

theorem src (h : SameRegs s t) (w : View) (v : Fin 32) (ty : Ty) : w.src t v ty = w.src s v ty := by
  unfold View.src View.read State.readGroup
  rw [h.ncore, h.ctl, h.vec]

end SameRegs

theorem observe_regs (s : State) (ids : List Nat) : SameRegs s (s.observe ids) := by
  unfold State.observe
  split
  · exact .refl s
  · exact .setStr s _

theorem noteTold_regs (s : State) (x : List Nat × List (Loc × List Nat)) : SameRegs s (s.noteTold x) := by
  unfold State.noteTold
  dsimp only
  split
  · exact observe_regs s _
  · exact (observe_regs s _).trans (.setStr _ _)

theorem touch_regs (s : State) (gas : List Nat) : SameRegs s (s.touch gas) := by
  unfold State.touch
  split <;> exact ⟨rfl, rfl, rfl⟩

theorem readOwn_regs (s : State) (a : Ask) (p : Path) (gas : List Nat) : SameRegs s (s.readOwn a p gas).2 := by
  have reads (rest : List Nat) : SameRegs s ((s.touch gas).readAs a p rest).2 :=
    (touch_regs s gas).trans (.of_device (readAs_device _ a p rest))
  unfold State.readOwn
  dsimp only
  split
  · dsimp only
    split
    · exact reads gas
    · exact (reads gas).trans (noteTold_regs _ _)
  · split
    · exact (touch_regs s gas).trans (.trans (noteTold_regs _ _) (.trans (noteTold_regs _ _) (.setStr _ _)))
    · split
      · exact reads _
      · exact (reads _).trans (.trans (noteTold_regs _ _) (.trans (noteTold_regs _ _) (.setStr _ _)))

/-- A load that is not refused leaves the registers alone. -/
theorem load_ok_regs {s t : State} {va : Word} {n : Nat} {r : ReadRes} (h : s.load va n = (.ok r, t)) : SameRegs s t := by
  unfold State.load at h
  split at h
  · exact absurd (Prod.mk.inj h).1 nofun
  · rename_i gas u translated
    have read : SameRegs s (u.readOwn .load u.path gas).2 := (SameRegs.of_device (xlateN_ok_device translated)).trans (readOwn_regs ..)
    dsimp only at h
    rw [← (Prod.mk.inj h).2]
    split
    · exact read.trans (.setStr _ _)
    · exact read

theorem loadElems_regs {piece : Nat → Piece} {is : List Nat} {s t : State} {got : List (Nat × Got)}
    (h : loadElems piece is s = (got, none, t)) : SameRegs s t := by
  induction is generalizing s got with
  | nil => cases h; exact .refl _
  | cons i is ih =>
    unfold loadElems State.readPiece at h
    cases first : s.load (piece i).va (piece i).n with
    | mk r u =>
      cases r with
      | error f => simp [first] at h
      | ok r =>
        simp only [first, Prod.mk.injEq] at h
        exact (load_ok_regs first).trans (ih (Prod.ext rfl (Prod.ext h.2.1 h.2.2)))

theorem xlateRow_ok_device {s t : State} {acc : Acc} {va : Word} {n : Nat} {gas : List Nat}
    (h : s.xlateRow acc va n = (.ok gas, t)) : OnlyDevice s t :=
  xlateBytes_ok_device (fun _ _ _ _ => xlate_ok_device) n va none s t gas h

/-- Images whose bytes are all there are checked without a trace in the registers (R223). -/
theorem checkImages_regs {acc : Acc} {base : Word} {n : Nat} {es : List Nat} {s t : State}
    (h : checkImages acc base n es s = (none, t)) : SameRegs s t := by
  induction es generalizing s with
  | nil => cases h; exact .refl _
  | cons e es ih =>
    unfold checkImages at h
    split at h
    · exact absurd (Prod.mk.inj h).1 nofun
    · exact (SameRegs.of_device (xlateRow_ok_device ‹_›)).trans (ih h)

/-! ## Draws (R52) -/

section
variable (s : State) (n : Nat)

/-- Draws move the generator of the core and the reservation of the stream. -/
theorem takeDraws_state : (s.takeDraws n).2 = s ∨
    ∃ x seed, (s.takeDraws n).2 = (s.modCore fun c => { c with srseed := x }).setStr { s.str with reserve := some seed } := by
  unfold State.takeDraws
  split
  · exact .inl rfl
  · split
    · exact .inl rfl
    · exact .inr ⟨_, _, rfl⟩

theorem takeDraws_regs : SameRegs s (s.takeDraws n).2 := by
  obtain h | ⟨x, seed, h⟩ := takeDraws_state s n <;> rw [h]
  · exact .refl s
  · exact ⟨Vlc.setStr_loc .., Vlc.setStr_ctl .., Vlc.setStr_vec ..⟩

theorem takeDraws_str : ∃ r, (s.takeDraws n).2.str = { s.str with reserve := r } := by
  obtain h | ⟨x, seed, h⟩ := takeDraws_state s n <;> rw [h]
  · exact ⟨s.str.reserve, rfl⟩
  · exact ⟨some seed, setStr_str _ _⟩

theorem takeDraws_gread (a : Fin 32) : (s.takeDraws n).2.gread a = s.gread a := by
  obtain ⟨r, h⟩ := takeDraws_str s n
  unfold State.gread
  rw [h]

theorem takeDraws_wait : (s.takeDraws n).2.str.wait = s.str.wait := by
  obtain ⟨r, h⟩ := takeDraws_str s n
  rw [h]

theorem takeDraws_upset : (s.takeDraws n).2.upset = s.upset := by
  have upsets : (s.takeDraws n).2.upsets = s.upsets := by
    obtain h | ⟨x, seed, h⟩ := takeDraws_state s n
    · rw [h]
    · rw [h]; rfl
  unfold State.upset State.coreId
  rw [upsets, (takeDraws_regs s n).loc]

theorem takeDraws_none : s.takeDraws 0 = ([], s) := rfl

end

/-! ## How a function instruction ends -/

section
variable {i : Instr} {s u v w : State} {st : Strips} {ds : List Nat} {c : Common} {d : Fin 16} {a b e : Fin 32}
  {body : View → List Nat → State → Eff}

/-- An instruction that no check concerns ends with what its body answers. -/
theorem runInstr_ends_unchecked {r : Raised} (h : Begins i s st ds u) (he : exec i s = runInstr i s body)
    (hb : body st.view ds u = .done w r [] none) (hw : w.str.wait = none) : Ends i s st w r none := by
  obtain ⟨poison, absent⟩ := h.whole
  have held : Eff.held (.done (w.markedBy i s) r [] none) = none := by
    show (w.markedBy i s).str.wait = none
    rw [State.markedBy_str, hw]
  refine he.trans (runInstr_begins h (by rw [hb]; exact held) fun t => ?_)
  rw [hb]
  unfold conclude
  simp only [Eff.map, held]
  unfold judged
  rw [poison, absent]
  rfl

/-! ## Loads (R223) -/

theorem capped_of_le {f : FnReg} {cap : Nat} (h : f.p ≤ cap) : f.capped cap = f.coef := by
  have all : ∀ x ∈ f.coef.zipIdx, ((List.range f.d).all fun ax => decide (x.2 / (f.p + 1) ^ ax % (f.p + 1) ≤ cap)) = true := by
    intro x _
    simp only [List.all_eq_true, decide_eq_true_eq]
    intro ax _
    exact Nat.le_trans (Nat.le_of_lt_succ (Nat.mod_lt _ (Nat.succ_pos f.p))) h
  unfold FnReg.capped
  rw [List.filter_eq_self.2 all, List.zipIdx_map_fst]

theorem sameShape (o r : FnReg) :
    (o.d == r.d && o.p == r.p && o.nodal == r.nodal && o.c == r.c && o.f64 == r.f64 && o.nb == r.nb) =
      decide ({ o with coef := [] } = { r with coef := [] }) := by
  rw [Bool.eq_iff_iff]
  simp only [Bool.and_eq_true, beq_iff_eq, decide_eq_true_eq, FnReg.mk.injEq, and_true, and_assoc]

theorem badOf_eq_nil {got : List (Nat × Got)} (h : ∀ g ∈ got, g.2.bad = false) : badOf got = [] := by
  unfold badOf
  rw [List.filter_eq_nil_iff.2 fun g hg => by rw [h g hg]; exact nofun]
  rfl

theorem poisonedOf_eq_nil {got : List (Nat × Got)} (h : ∀ g ∈ got, g.2.bad = false) : poisonedOf got = [] := by
  have sound : ∀ g ∈ got, ¬ g.2.poison = true := fun g hg hp => by
    have := h g hg
    unfold Got.bad at this
    rw [hp] at this
    exact absurd this nofun
  unfold poisonedOf
  rw [List.filter_eq_nil_iff.2 sound]
  rfl

theorem filter_none {α : Type} (l : List α) : (l.filter fun _ => false) = [] :=
  List.filter_eq_nil_iff.2 fun _ _ => Bool.false_ne_true

theorem getD_map_range {α : Type} (f : Nat → α) {n q : Nat} (h : q < n) (x : α) : ((List.range n).map f).getD q x = f q := by
  simp [List.getD_eq_getElem?_getD, h]

/-- The coefficient that a load has brought to place q, 0 where it has brought none (R220). -/
def loadedCoef (got : List (Nat × Got)) (q : Nat) : Word :=
  match got.find? (·.1 == q) with
  | some g => BitVec.ofNat 64 (leNat g.2.bytes)
  | none => 0

/-- Where all that came is usable, the value of `fnld` is what the bytes say. -/
theorem loadedCoef_of_sound {got : List (Nat × Got)} (h : ∀ g ∈ got, g.2.bad = false) (err q : Nat) :
    (match got.find? (·.1 == q) with
      | some (_, g) => BitVec.ofNat 64 (if g.bad then err else leNat g.bytes)
      | none => 0) = loadedCoef got q := by
  unfold loadedCoef
  cases found : got.find? (·.1 == q) with
  | none => rfl
  | some g => simp only [h g (List.mem_of_find?_eq_some found), Bool.false_eq_true, if_false]

/-- The coefficients that inactive elements keep: those of an old register with the descriptor and batch length of the result (R220). -/
def keptCoef (old : Option FnReg) (r : FnReg) : List Word :=
  match old with
  | some o => if { o with coef := [] } = { r with coef := [] } then o.coef else []
  | none => []

theorem keptCoef_of_match (old : Option FnReg) (r default : FnReg) :
    (if (match old with
      | some o => o.d == r.d && o.p == r.p && o.nodal == r.nodal && o.c == r.c && o.f64 == r.f64 && o.nb == r.nb
      | none => false) then (old.getD default).coef else []) = keptCoef old r := by
  cases old with
  | none => rfl
  | some o => simp only [sameShape, decide_eq_true_eq, Option.getD_some, keptCoef]

theorem putFn_wait (s : State) (f : Fin 16) (x : Option FnReg) : (s.putFn f x).str.wait = s.str.wait := by
  simp only [State.putFn, State.modVec_eq, State.str_eq, State.modVlc_cur, State.modVlc_stream]
  cases s.stream <;> rfl

/-- A load whose images can be read puts their coefficients in the active elements, and the others keep theirs or get zeros (R220, R223). -/
theorem fnld_ends {t : State} {got : List (Nat × Got)} (h : Begins (.fnld c d a b) s st ds u) :
    let w := (u.gread b).toNat
    let r : FnReg := ⟨bitsAt w 4 2, bitsAt w 0 4, w.testBit 6, bitsAt w 7 2 + 1, c.ty == some .f64, u.flNum, []⟩
    let n := r.c * r.per
    let co : List Word := (List.range (u.flNum * n)).map fun q =>
      if u.active c (q / n) then loadedCoef got q else (keptCoef u.cur.vec.f[d] r).getD q 0
    u.flNum ≠ 0 → r.d ≠ 0 → r.p ≤ u.degCap → u.allocTrap r.granules = none →
    checkImages .read (u.gread a) (n * r.bytes) (u.batch c) u = (none, t) →
    loadElems (fun q => ⟨u.gread a + BitVec.ofNat 64 (q * r.bytes), r.bytes, 0, 8 * r.bytes⟩)
      ((u.batch c).flatMap fun k => (List.range n).map fun q => k * n + q) t = (got, none, v) →
    (∀ g ∈ got, g.2.bad = false) → v.str.wait = none →
    Ends (.fnld c d a b) s st (v.putFn d (some { r with coef := co })) [] none := by
  intro w r n co hfl hd hp alloc checks loads sound free
  have he : exec (.fnld c d a b) s = execFnld c d a b s := rfl
  have regs : SameRegs u v := (checkImages_regs checks).trans (loadElems_regs loads)
  have nonempty : (u.flNum == 0) = false := beq_false_of_ne hfl
  have dim : (bitsAt (u.gread b).toNat 4 2 == 0) = false := beq_false_of_ne hd
  have degree : min (bitsAt (u.gread b).toNat 0 4) u.degCap = bitsAt (u.gread b).toNat 0 4 := Nat.min_eq_left hp
  have uncapped : ¬ (bitsAt (u.gread b).toNat 0 4 > u.degCap) := Nat.not_lt.2 hp
  unfold execFnld runPlain at he
  refine runInstr_ends_unchecked h he ?_ ((putFn_wait v d _).trans free)
  dsimp only [r, n, w] at hp alloc checks loads
  simp only [nonempty, dim, Bool.false_eq_true, if_false, degree, alloc, checks, loads, regs.degCap, hp, decide_true,
    Bool.true_or, if_true, badOf_eq_nil sound, poisonedOf_eq_nil sound, List.map_nil, regs.active c, uncapped, decide_false,
    Bool.false_and, filter_none, List.append_nil]
  refine congrArg (fun l => Eff.done (v.putFn d (some { r with coef := l })) [] [] none) (List.map_congr_left fun q hq => ?_)
  refine ite_congr rfl (fun _ => ?_) fun _ => congrArg (fun l => List.getD l q 0) ?_
  · refine (congrArg (fun l => List.getD l q 0) (capped_of_le hp)).trans ?_
    exact (getD_map_range _ (List.mem_range.1 hq) 0).trans (loadedCoef_of_sound sound _ q)
  · exact (keptCoef_of_match _ r _).trans (congrArg (fun x => keptCoef x.f[d] r) regs.vec)

/-! ## Stores (R224) -/

theorem moveOut_wait (s : State) : s.moveOut.str.wait = s.str.wait := rfl

theorem outToPost_wait (s : State) (c : Common) : (s.outToPost c).str.wait = s.str.wait := by
  unfold State.outToPost
  split
  · exact moveOut_wait s
  · rfl

/-- What `fnst` stores of coefficient q, and the flags of its conversion where TY names the other precision (R224). -/
def storedCoef (f : FnReg) (ty : Ty) (rm : Rm) (draws : List Nat) (q : Nat) : Nat × Fl :=
  let x := (f.coef.getD q 0).toNat
  if ty == f.ty then (x, 0) else convert ty f.ty rm false x (drawAt draws q)

/-- A store whose images can be written stores their coefficients in order of address. -/
theorem fnst_ends {t : State} (h : Begins (.fnst c d a) s st ds u) :
    let f := u.fnreg d
    let ty := c.ty.getD f.ty
    let n := f.c * f.per
    let draws := u.takeDraws (if c.rm == .rsr then u.flNum * n else 0)
    let idx : List Nat := (u.batch c).flatMap fun k => (List.range n).map fun q => k * n + q
    let x (q : Nat) : Nat × Fl := storedCoef f ty c.rm draws.1 q
    u.flNum ≠ 0 → u.flNum ≤ f.nb → checkImages .write (u.gread a) (n * (ty.sew / 8)) (u.batch c) draws.2 = (none, t) →
    storeCoefs c (u.gread a) (ty.sew / 8) (idx.map fun q => (q, (x q).1)) t = (none, v) → v.str.wait = none →
    Ends (.fnst c d a) s st (v.outToPost c) (raises (idx.map fun q => (q / n, (x q).2))) none := by
  intro f ty n draws idx x hfl hnb checks stores free
  have he : exec (.fnst c d a) s = execFnst c d a s := rfl
  have regs : SameRegs u draws.2 := takeDraws_regs u _
  have nonempty : (u.flNum == 0) = false := beq_false_of_ne hfl
  have long : ¬ (u.fnreg d).nb < u.flNum := Nat.not_lt.2 hnb
  unfold execFnst runPlain at he
  refine runInstr_ends_unchecked h he ?_ ((outToPost_wait v c).trans free)
  dsimp only [f, ty, n, draws, idx, x, storedCoef] at checks stores regs
  simp only [nonempty, Bool.false_eq_true, if_false, long, takeDraws_gread, regs.batch, checks, List.map_map, Function.comp_def,
    stores]
  rfl

/-! ## Evaluation and quadrature (R236 to R239) -/

/-- A vector result of a function instruction: each element gets its formula's value, rounded once (R213). -/
theorem fnVector_ends {n : Nat} {ty : Ty} {is draws : List Nat} {batchOf : Nat → Nat} {val : Nat → Term × Fl}
    (h : Begins i s st ds u) (he : exec i s = runInstr i s body)
    (hb : body st.view ds u = fnVector c a ty is draws batchOf val (u.takeDraws n).2) :
    ∃ w chk, Ends i s st ((u.takeDraws n).2.putElems a ty (is.map fun j => (j, ((val j).1.round ty c.rm (drawAt draws j)).1))) w
      chk := by
  unfold fnVector at hb
  simp only [List.map_map] at hb
  exact ⟨_, _, runInstr_ends h he hb ((writeGroup_wait _ a _ _).trans (takeDraws_wait u n))
    ((writeGroup_upset _ a _ _).trans (takeDraws_upset u n))⟩

theorem map_fst_keyed {β : Type} (f : Nat → β) (is : List Nat) : (is.map fun j => (j, f j)).map (·.1) = is := by
  simp only [List.map_map, Function.comp_def, List.map_id']

theorem fnVector_congr {ty : Ty} {is draws : List Nat} {batchOf : Nat → Nat} {val val' : Nat → Term × Fl}
    (h : ∀ j ∈ is, val j = val' j) (t : State) : fnVector c a ty is draws batchOf val t = fnVector c a ty is draws batchOf val' t := by
  unfold fnVector
  rw [List.map_congr_left fun j hj => by rw [h j hj]]

/-- By what a modal function's constant coefficient is multiplied: 2^(d/2), exact where d is even (R238). -/
def quadMass (d : Nat) : FVal :=
  if d % 2 == 0 then .num false 1 (d / 2 : Nat)
  else match constOf (fixSqrt 2 1) with
    | .num n m e => .num n m (e + (d / 2 : Nat))
    | v => v

/-- The formula of element j of `fnquad`: weights at the nodes, or the constant coefficient times its mass (R238). -/
def quadTerm (x : FnReg) (j : Nat) : Term :=
  let f := x.field (j / x.c) (j % x.c)
  if x.nodal then (f.applyAll (.replicate x.d [[(lobattoNodes x.p).map fun z => constOf (lobattoWeight x.p z)]])).co.getD 0 .empty
  else (f.co.getD 0 .empty).scale (quadMass x.d)

theorem quadTerm_modal_even {x : FnReg} (modal : x.nodal = false) (even : x.d % 2 = 0) (j : Nat) :
    quadTerm x j = ((x.field (j / x.c) (j % x.c)).co.getD 0 .empty).scale (.num false 1 (x.d / 2 : Nat)) := by
  unfold quadTerm quadMass
  simp only [modal, even, Bool.false_eq_true, if_false, BEq.rfl, if_true]

/-- `fnquad` gives each component of each active batch element, below VL and from VSTART on, its formula's value. -/
theorem fnquad_ends (h : Begins (.fnquad c a d) s st ds u) :
    let x := u.fnreg d
    let is := (List.range (min u.vl (u.flNum * x.c))).filter fun j => decide (u.vstart ≤ j) && u.active c (j / x.c)
    let draws := u.takeDraws (if c.rm == .rsr then u.flNum * x.c else 0)
    u.flNum ≠ 0 → u.flNum ≤ x.nb → ∃ w chk, Ends (.fnquad c a d) s st
      (draws.2.putElems a x.ty (is.map fun j => (j, ((quadTerm x j).round x.ty c.rm (drawAt draws.1 j)).1))) w chk := by
  intro x is draws hfl hnb
  have he : exec (.fnquad c a d) s = execFnquad c a d s := rfl
  have regs : SameRegs u draws.2 := takeDraws_regs u _
  have nonempty : (u.flNum == 0) = false := beq_false_of_ne hfl
  have long : ¬ (u.fnreg d).nb < u.flNum := Nat.not_lt.2 hnb
  unfold execFnquad runPlain at he
  refine fnVector_ends (draws := draws.1) (batchOf := (· / x.c)) (val := fun j => (quadTerm x j, 0)) h he ?_
  dsimp only [x, draws] at regs
  simp only [nonempty, Bool.false_eq_true, if_false, long, regs.vl, regs.vstart, regs.active c]
  refine fnVector_congr (fun j _ => ?_) _
  unfold quadTerm quadMass
  generalize constOf (fixSqrt 2 1) = root
  rfl

/-- The first of some keyed entries with a key that is among theirs. -/
theorem find?_keyed {β : Type} (f : Nat → Nat × β) (hf : ∀ j, (f j).1 = j) {l : List Nat} {k : Nat} (h : k ∈ l) :
    (l.map f).find? (·.1 == k) = some (f k) := by
  rw [List.find?_map]
  cases found : l.find? ((·.1 == k) ∘ f) with
  | none => exact absurd (List.find?_eq_none.1 found k h) (by simp [hf])
  | some j =>
    have : j = k := by simpa [hf] using List.find?_some found
    rw [this]
    rfl

/-- The coordinates of point k of `fneval` (R237). -/
def pointAt (x : FnReg) (xb k : Nat) : List FVal := (List.range x.d).map fun ax => readTy x.ty (elem x.ty xb (k * x.d + ax))

/-- What element j of `fneval` gets for `fl` batch elements: the function's value at the point, a NaN where a coordinate is not finite, with
NV for a signalling NaN (R237). -/
def evalTerm (x : FnReg) (xb fl j : Nat) : Term × Fl :=
  let zs := pointAt x xb (j / (fl * x.c))
  if zs.any fun z => z.isNan || z.isInf then (⟨⟨0, 0⟩, 2⟩, flIf (zs.any FVal.isSnan) flNV)
  else (((x.field (j / x.c % fl) (j % x.c)).applyAll (zs.map fun z => [[basisNear x.nodal x.p z]])).co.getD 0 .empty, 0)

theorem evalTerm_finite {x : FnReg} {xb fl j : Nat} (h : ∀ k < x.d,
      (readTy x.ty (elem x.ty xb (j / (fl * x.c) * x.d + k))).isNan = false ∧
      (readTy x.ty (elem x.ty xb (j / (fl * x.c) * x.d + k))).isInf = false) :
    (evalTerm x xb fl j).1 = ((x.field (j / x.c % fl) (j % x.c)).applyAll ((List.range x.d).map fun k =>
      [[basisNear x.nodal x.p (readTy x.ty (elem x.ty xb (j / (fl * x.c) * x.d + k)))]])).co.getD 0 .empty := by
  have finite : ((pointAt x xb (j / (fl * x.c))).any fun z => z.isNan || z.isInf) = false := by
    simp only [pointAt, List.any_map, List.any_eq_false, List.mem_range, Function.comp_apply, Bool.or_eq_true, not_or,
      Bool.not_eq_true]
    exact h
  unfold evalTerm
  simp only [finite, Bool.false_eq_true, if_false]
  simp only [pointAt, List.map_map, Function.comp_def]

/-- What `fneval` makes once of point k: whether a coordinate is not finite, the flags of that, and the values of the basis on each axis. -/
def pointEntry (x : FnReg) (xb k : Nat) : Nat × Bool × Fl × List (List FMat) :=
  let zs := pointAt x xb k
  let bad := zs.any fun z => z.isNan || z.isInf
  (k, bad, flIf (zs.any FVal.isSnan) flNV, if bad then [] else zs.map fun z => [[basisNear x.nodal x.p z]])

theorem evalTerm_of_entry (x : FnReg) (xb fl j : Nat) :
    (match some (pointEntry x xb (j / (fl * x.c))) with
      | some (_, false, _, m) => (((x.field (j / x.c % fl) (j % x.c)).applyAll m).co.getD 0 .empty, 0)
      | some (_, true, f, _) => (⟨⟨0, 0⟩, 2⟩, f)
      | none => (.empty, 0)) = evalTerm x xb fl j := by
  unfold pointEntry evalTerm
  dsimp only
  cases (pointAt x xb (j / (fl * x.c))).any fun z => z.isNan || z.isInf <;> rfl

/-- `fneval` gives each component of each active batch element at each point, below VL and from VSTART on, its value. -/
theorem fneval_ends (h : Begins (.fneval c a d b e) s st ds u) :
    let x := u.fnreg d
    let np := (u.gread e).toNat
    let is := (List.range (min u.vl (np * u.flNum * x.c))).filter fun j =>
      decide (u.vstart ≤ j) && u.active c (j / x.c % u.flNum)
    let draws := u.takeDraws (if c.rm == .rsr then np * u.flNum * x.c else 0)
    u.flNum ≠ 0 → u.flNum ≤ x.nb → np * x.d ≤ vlmax u.ncore x.ty (groupFor u.cur.ctl x.ty) →
    ∃ w chk, Ends (.fneval c a d b e) s st (draws.2.putElems a x.ty (is.map fun j =>
      (j, ((evalTerm x (st.view.src u b x.ty) u.flNum j).1.round x.ty c.rm (drawAt draws.1 j)).1))) w chk := by
  intro x np is draws hfl hnb fits
  have he : exec (.fneval c a d b e) s = execFneval c a d b e s := rfl
  have regs : SameRegs u draws.2 := takeDraws_regs u _
  have nonempty : (u.flNum == 0) = false := beq_false_of_ne hfl
  have hfits : draws.2.evalFits d e = true := by
    unfold State.evalFits State.flNum
    rw [regs.fnreg, regs.ctl, regs.ncore, takeDraws_gread]
    exact Bool.and_eq_true_iff.2 ⟨decide_eq_true hnb, decide_eq_true fits⟩
  unfold execFneval at he
  refine fnVector_ends (draws := draws.1) (batchOf := fun j => j / x.c % u.flNum)
    (val := evalTerm x (st.view.src u b x.ty) u.flNum) h he ?_
  dsimp only [x, np, draws] at regs hfits
  simp only [nonempty, Bool.false_eq_true, if_false, hfits, Bool.not_true, regs.vl, regs.vstart, regs.active c, regs.src]
  refine fnVector_congr (fun j hj => ?_) _
  have among : j / (u.flNum * x.c) ∈ (is.map fun j => j / (u.flNum * x.c)).eraseDups :=
    List.mem_eraseDups.2 (List.mem_map.2 ⟨j, hj, rfl⟩)
  rw [find?_keyed _ (fun _ => rfl) among]
  exact evalTerm_of_entry (u.fnreg d) (st.view.src u b x.ty) u.flNum j

/-! ## No batch (R210) -/

/-- With FL = 0 these instructions come to nothing, not even a draw. -/
theorem no_batch_ends {i : Instr} (hi : i ∈ [Instr.fnld c d a b, .fnst c d a, .fneval c a d b e, .fnquad c a d])
    (h : Begins i s st ds u) (none_active : u.flNum = 0) : Ends i s st u [] none := by
  have ends {body : View → List Nat → State → Eff} (he : exec i s = runInstr i s body) (hb : body st.view ds u = .ok u) :
      Ends i s st u [] none := runInstr_ends_unchecked h he hb h.free
  simp only [List.mem_cons, List.not_mem_nil, or_false] at hi
  obtain rfl | rfl | rfl | rfl := hi
  · exact ends (show _ = execFnld c d a b s from rfl) (by simp only [none_active, BEq.rfl, if_true])
  · exact ends (show _ = execFnst c d a s from rfl)
      (by simp only [none_active, Nat.zero_mul, ite_self, takeDraws_none, BEq.rfl, if_true])
  · exact ends (show _ = execFneval c a d b e s from rfl)
      (by simp only [none_active, Nat.mul_zero, Nat.zero_mul, ite_self, takeDraws_none, BEq.rfl, if_true])
  · exact ends (show _ = execFnquad c a d s from rfl)
      (by simp only [none_active, Nat.zero_mul, ite_self, takeDraws_none, BEq.rfl, if_true])

end

/-- Settles O52: each instruction by its lemma; the value of an element of `fneval` or `fnquad` is that of its formula. -/
theorem functionMemoryAndValues : Obligations.FunctionMemoryAndValues := by
  intro s u t v c d a b e st ds got fl x es w r idx
  refine ⟨fun i hi h none_active => no_batch_ends hi h none_active, ?_, ?_, ?_, ?_⟩
  · intro h hfl hd hp alloc n checks loads sound free kept co
    exact fnld_ends h hfl hd hp alloc checks loads sound free
  · intro h hfl hnb ty n draws f checks stores free
    exact fnst_ends h hfl hnb checks stores free
  · intro h hfl hnb is
    obtain ⟨flags, chk, ends⟩ := fnquad_ends h hfl hnb
    refine ⟨_, flags, chk, ?_, fun modal even q hq => ?_, ends⟩
    · exact map_fst_keyed _ is
    · obtain ⟨j, -, rfl⟩ := List.mem_map.1 hq
      rw [quadTerm_modal_even modal even]
  · intro h hfl hnb np fits is draws at_
    obtain ⟨flags, chk, ends⟩ := fneval_ends h hfl hnb fits
    refine ⟨_, flags, chk, ?_, fun q hq finite => ?_, ends⟩
    · exact map_fst_keyed _ is
    · obtain ⟨j, -, rfl⟩ := List.mem_map.1 hq
      rw [evalTerm_finite finite]

end Sys2Proof.FunctionInstructions

/-! PROOFS. Tasks from their launch to their end (R300 to R309), and writes of the registers of queues, the management block, the fabric
and the cores' counters (R301, R334, R340, R404, R405, R440, R453, R454). -/

namespace Sys2Proof.TasksAndRegisters
open Sys2Proof Sys2Proof.Machine

/-! ## Task queues -/

@[simp] theorem queueAt_modQueue (s : State) (q : QueueId) (f : TaskQueue → TaskQueue) :
    (s.modQueue q f).queueAt q = f (s.queueAt q) := by
  simp [State.queueAt, State.modQueue]

@[simp] theorem modQueue_tasks (s : State) (q : QueueId) (f : TaskQueue → TaskQueue) : (s.modQueue q f).tasks = s.tasks := rfl

/-- A queue is found by its registers alone. -/
theorem queueAt_congr {s t : State} (h : t.queues = s.queues) (q : QueueId) : t.queueAt q = s.queueAt q := by
  unfold State.queueAt
  rw [h]

/-! ## What leaves tasks and queues alone -/

/-- Two states with the same tasks and the same task queues. -/
structure SameTasks (s t : State) : Prop where
  tasks : t.tasks = s.tasks
  queues : t.queues = s.queues

namespace SameTasks

theorem refl (s : State) : SameTasks s s := ⟨rfl, rfl⟩

theorem trans {s t u : State} (h : SameTasks s t) (k : SameTasks t u) : SameTasks s u :=
  ⟨k.tasks.trans h.tasks, k.queues.trans h.queues⟩

theorem of_device {s t : State} (h : OnlyDevice s t) : SameTasks s t := by
  rw [h]
  exact ⟨rfl, rfl⟩

theorem foldl {α : Type} {f : State → α → State} (hf : ∀ s x, SameTasks s (f s x)) :
    ∀ (l : List α) (s : State), SameTasks s (l.foldl f s)
  | [], s => refl s
  | x :: l, s => (hf s x).trans (foldl hf l (f s x))

end SameTasks

theorem traced_sameTasks (s : State) (gas : List Nat) (l : Loc) (ids : List Nat) : SameTasks s (s.traced gas l ids) := by
  unfold State.traced
  split <;> exact ⟨rfl, rfl⟩

/-- A store at the end of its path is held, performed or lost (R342, R359, R395), and no task's affair. -/
theorem performEntry_sameTasks (s : State) (e : Entry) : SameTasks s (s.performEntry e) := by
  unfold State.performEntry
  split
  next => exact .refl s
  next b _ =>
    dsimp only
    split
    next m _ =>
      split
      next => exact ⟨rfl, rfl⟩
      next => split <;> exact ⟨rfl, rfl⟩
    next =>
      split
      next => exact ⟨rfl, rfl⟩
      next =>
        split
        next =>
          have bytes : SameTasks s (s.performBytes e.bytes e.poison) := ⟨rfl, rfl⟩
          exact (bytes.trans (traced_sameTasks ..)).trans (.of_device (noteAccess_device ..))
        next => exact .of_device (requestFailed_device ..)

theorem drainAll_sameTasks (s : State) : SameTasks s s.drainAll := by
  have waiting : SameTasks s { s with pend := s.pend.filter (·.strip) } := ⟨rfl, rfl⟩
  exact waiting.trans (.foldl performEntry_sameTasks _ _)

/-! ## Launches (R303, R410) -/

theorem launch_accepted {s : State} {q : QueueId} {data : List Byte} (up : s.host.up = true) (len : data.length = 64)
    (en : (s.queueAt q).en = true) (room : (s.queueAt q).fifo.length < 32) :
    exec (.launch q 0 data) s = .next (s.modQueue q fun x => { x with fifo := x.fifo ++ [recordOf data] }) := by
  change execLaunch q 0 data s = _
  simp [execLaunch, State.launchWrite, up, len, en, room]

theorem launch_dropped {s : State} {q : QueueId} {off : Nat} {data : List Byte} (up : s.host.up = true) (hoff : off < 64)
    (bad : off ≠ 0 ∨ data.length ≠ 64 ∨ (s.queueAt q).en = false ∨ 32 ≤ (s.queueAt q).fifo.length) :
    exec (.launch q off data) s = .next (s.modQueue q fun x => { x with dropped := x.dropped + 1 }) := by
  have refused : (off == 0 && data.length == 64 && (s.queueAt q).en && decide ((s.queueAt q).fifo.length < 32)) = false := by
    obtain h | h | h | h := bad
    · simp [h]
    · simp [h]
    · simp [h]
    · simp [Nat.not_lt.2 h]
  change execLaunch q off data s = _
  simp [execLaunch, State.launchWrite, up, hoff, refused]

/-! ## Admission (R304, R305) -/

section
variable {s u : State} {q : QueueId} {r : Record} {rest : List Record}

theorem admission_next (en : (s.queueAt q).en = true) : exec (.admission q) s = .next (s.admitTask q).2 := by
  change execAdmission q s = _
  simp [execAdmission, en]

/-- The task that a record which meets every check of R305 becomes. -/
def admitted (u : State) (q : QueueId) (r : Record) (k : Kernel) (chain : Option Nat) : Task :=
  ⟨u.nextTask, q, u.deal q u.nextTask r k chain, 0, BitVec.ofNat 64 (r.field 56 8), (u.queueAt q).qatp, (u.queueAt q).qasid, 0, true, []⟩

variable (fifo : (s.queueAt q).fifo = r :: rest)
include fifo

theorem admitTask_ok {k : Kernel} {chain : Option Nat}
    (h : (s.modQueue q fun x => { x with fifo := rest }).checkLaunch q r = (.ok (k, chain), u)) :
    (s.admitTask q).2 = { u with tasks := u.tasks ++ [admitted u q r k chain], nextTask := u.nextTask + 1 } := by
  simp only [State.admitTask, fifo, h]
  rfl

theorem admitTask_wait (h : (s.modQueue q fun x => { x with fifo := rest }).checkLaunch q r = (.error 0, u)) :
    (s.admitTask q).2 = s := by
  simp only [State.admitTask, fifo, h]

/-- A record that fails a check is counted, and logged (R305): the log is no task's affair. -/
theorem admitTask_refused {n : Nat} (hn : n ≠ 0)
    (h : (s.modQueue q fun x => { x with fifo := rest }).checkLaunch q r = (.error n, u)) :
    SameTasks (u.modQueue q fun x => { x with refusedCnt := x.refusedCnt + 1 }) (s.admitTask q).2 := by
  obtain ⟨n, rfl⟩ := Nat.exists_eq_succ_of_ne_zero hn
  simp only [State.admitTask, fifo, h]
  exact .of_device (logEvent_device ..)

end

/-! ## Creation (R301, R306, R308) -/

theorem mem_addVlc (s : State) (v : Vlc) : v ∈ (s.addVlc v).cur :: (s.addVlc v).parked := by
  unfold State.addVlc
  split <;> simp

theorem runsTask_eq_false {s : State} {c : CoreId} {task : Nat}
    (h : ∀ v ∈ s.onCore c, ∀ y, v.work = some y → y.task ≠ task) : s.runsTask c task = false := by
  unfold State.runsTask
  rw [List.any_eq_false]
  intro v hv
  cases hw : v.work with
  | none => simp
  | some y => simpa using h v hv y hw

/-- Where a task has a context to place on a core with a free slot, the context at the start of its first combination comes in. -/
theorem vlcCreate_adds {s : State} {task : Nat} {l : Loc} {t : Task} {k : CoreId} {w : Work} {x : List Nat} {rest : List (List Nat)}
    (ht : s.tasks.find? (·.id == task) = some t)
    (hp : t.pending.find? (fun p => s.placeFor p.1 p.2 == some l.coreId) = some (k, w)) (hw : w.todo = x :: rest)
    (free : s.slotFree l = true) (none_of : s.runsTask l.coreId task = false) :
    ∃ u : State, exec (.vlcCreate task l) s = .next (u.addVlc (((Vlc.none l).startCombination w x rest).acquiring t.seen)) := by
  change ∃ u : State, execVlcCreate task l s = _
  simp only [execVlcCreate, ht, hp, hw, free, none_of, Bool.not_false, Bool.and_self, if_true]
  exact ⟨_, rfl⟩

/-! ## The end of a task (R309; log 38) -/

theorem taskComplete_counts {s : State} {task : Nat} {t : Task} (ht : s.tasks.find? (·.id == task) = some t) (pending : t.pending = [])
    (running : t.running = 0) (settled : s.drainAll.settled task = true) (counted : t.counted = true)
    (silent : t.note.getLsbD 0 = false) :
    exec (.taskComplete task) s = .next (({ s.drainAll with tasks := s.drainAll.tasks.filter (·.id != task) } : State).modQueue t.queue
      fun q => { q with done := q.done + 1 }) := by
  change execTaskComplete task s = _
  simp only [execTaskComplete, ht, pending, running, settled, counted, silent, List.isEmpty_nil, BEq.rfl, Bool.and_self, Bool.not_true,
    Bool.not_false, Bool.false_eq_true, if_true, if_false]

/-! ## The registers of a queue (R301, R316) -/

section
variable {s : State} (q : QueueId) (val : Word) (up : s.sidebandUp 2 = true)
include up

theorem qctlWrite_next : exec (.qctlWrite q val) s = .next (s.writeQctl q val) := by
  change execQctlWrite q val s = _
  simp [execQctlWrite, up]

theorem qcmaskWrite_next : exec (.qcmaskWrite q val) s = .next (s.writeQcmask q val) := by
  change execQcmaskWrite q val s = _
  simp [execQcmaskWrite, up]

end

theorem clearDeficits_sameTasks (s : State) (q : QueueId) : SameTasks s (s.clearDeficits q) := ⟨rfl, rfl⟩

theorem queueAt_writeQctl (s : State) (q : QueueId) (val : Word) : (s.writeQctl q val).queueAt q = { s.queueAt q with
    en := val.getLsbD 16, prio := val.extractLsb' 0 3,
    weight := if val.extractLsb' 8 8 = 0#8 then 1 else val.extractLsb' 8 8 } := by
  unfold State.writeQctl
  rw [queueAt_congr (clearDeficits_sameTasks _ q).queues, queueAt_modQueue]
  rfl

theorem writeQctl_tasks (s : State) (q : QueueId) (val : Word) : (s.writeQctl q val).tasks = s.tasks := rfl

/-! ## The registers of the management block and the fabric (R404, R453; log 44) -/

theorem registerWrite_next {s : State} {bar : Nat} (off : Nat) (val : Word) (up : s.barUp bar = true) :
    exec (.registerWrite bar off val) s = .next (s.writeReg bar off val) := by
  change execRegisterWrite bar off val s = _
  simp [execRegisterWrite, up]

/-- TRIP as a write leaves it: from 90 to 110. -/
def tripOf (val : Word) : Nat := min 110 (max 90 (val.toNat / 256 % 256))

theorem toNat_tripOf (val : Word) : (BitVec.ofNat 8 (tripOf val)).toNat = tripOf val := by
  rw [BitVec.toNat_ofNat, Nat.mod_eq_of_lt]
  unfold tripOf
  omega

theorem writeReg_trip (s : State) (val : Word) : s.writeReg 0 0x028 val =
    ({ s with mgmt := { s.mgmt with trip := BitVec.ofNat 8 (tripOf val) } } : State).checkTrip := by
  have field : bitsAt val.toNat 8 8 = val.toNat / 256 % 256 := by simp [bitsAt, Nat.shiftRight_eq_div_pow]
  unfold tripOf
  rw [← field]
  rfl

theorem checkTrip_below {s : State} (h : s.mgmt.hot.toNat < s.mgmt.trip.toNat) : s.checkTrip = s :=
  if_neg (by rw [BitVec.le_def]; omega)

theorem checkTrip_reached {s : State} (h : s.mgmt.trip.toNat ≤ s.mgmt.hot.toNat) : s.checkTrip.powered = false := by
  unfold State.checkTrip
  rw [if_pos (BitVec.le_def.2 h)]

theorem writeReg_evstat (s : State) (val : Word) :
    (s.writeReg 0 0x030 val).mgmt.evstat = s.mgmt.evstat &&& ~~~(val.setWidth 7) := rfl

theorem writeReg_pwrcap (s : State) (val : Word) :
    (s.writeReg 0 0x018 val).mgmt.pwrcap.toNat = min 3200 (max 800 (val.toNat % 65536)) := by
  change (BitVec.ofNat 16 (min 3200 (max 800 (bitsAt val.toNat 0 16)))).toNat = _
  rw [BitVec.toNat_ofNat, Nat.mod_eq_of_lt (by omega)]
  rfl

theorem writeReg_fgtbase (s : State) (val : Word) : (s.writeReg 4 0x008 val).fabric.fgtbase = val &&& 0x3FFFFFFFE0001 := rfl

/-! ## Visitor pools and translation invalidation (R334, R340, R454) -/

section
variable {s : State} (val : Word) (up : s.sidebandUp 0 = true)
include up

theorem vpoolWrite_next (die : Fin 4) : exec (.vpoolWrite die val) s = .next (s.writeVpool die val) := by
  change execVpoolWrite die val s = _
  simp [execVpoolWrite, up]

theorem tlbInvalidate_next : exec (.tlbInvalidate val) s = .next { s with mgmt := { s.mgmt with
    tinvAsid := val.setWidth 16
    tinvGo := if s.mgmt.tinvGo = none ∧ val.getLsbD 16 = true then some (val.setWidth 16, s.mgmt.tinvva, s.mgmt.tinvlen)
      else s.mgmt.tinvGo } } := by
  change execTlbInvalidate val s = _
  simp only [execTlbInvalidate, up, if_true, State.writeTinv, Bool.and_eq_true, Option.isNone_iff_eq_none]

end

theorem writeVpool_empty {s : State} {die : Fin 4} (val : Word) (h : s.dies[die].visitors = []) :
    s.writeVpool die val = s.modDie die fun x => { x with poolCount := val.extractLsb' 48 16, poolBase := val.setWidth 34 } := by
  unfold State.writeVpool
  rw [h]
  rfl

theorem dropTlb_cores {s : State} {p : TlbEntry → Bool} {k : Fin 48} {e : TlbEntry} (h : e ∈ ((s.dropTlb p).cores[k]).tlb) :
    p e = false := by
  have kept : e ∈ (s.cores[k]).tlb ∧ p e = false := by simpa [State.dropTlb] using h
  exact kept.2

theorem dropTlb_dies {s : State} {p : TlbEntry → Bool} {d : Fin 4} {e : TlbEntry} (h : e ∈ ((s.dropTlb p).dies[d]).tlb) :
    p e = false := by
  have kept : e ∈ (s.dies[d]).tlb ∧ p e = false := by simpa [State.dropTlb] using h
  exact kept.2

/-- With no store in an open strip, nothing in flight and no write held, an invalidation that has begun completes (R334). -/
theorem tlbInvalidateDone_next {s : State} {asid : BitVec 16} {va len : Word} (go : s.mgmt.tinvGo = some (asid, va, len))
    (strips : ∀ e ∈ s.pend, e.strip = false) (held : ∀ m ∈ s.moves, m.held = []) (flights : ∀ v ∈ s.cur :: s.parked, v.flights = []) :
    exec .tlbInvalidateDone s = .next { s.dropTlb (invalidates asid va len) with
      pend := (byLevel s.pend).map fun e => { e with level := 4 }
      mgmt := { s.mgmt with tinvGo := none } } := by
  have noStrip : s.pend.any (·.strip) = false := List.any_eq_false.2 fun e he => by simp [strips e he]
  have noFlight : (s.cur :: s.parked).any (!·.flights.isEmpty) = false := List.any_eq_false.2 fun v hv => by simp [flights v hv]
  have noHeld : s.moves.any (!·.held.isEmpty) = false := List.any_eq_false.2 fun m hm => by simp [held m hm]
  change execTlbInvalidateDone s = _
  simp only [execTlbInvalidateDone, go, noStrip, noFlight, noHeld, Bool.or_self, Bool.false_eq_true, if_false]
  rfl

/-! ## Lane counters (R440) -/

theorem lmclr_next (s : State) (c : CoreId) :
    exec (.lmclr c) s = .next (s.modCoreAt c fun x => { x with cnt := { x.cnt with lquar := 0, lmis := .replicate 64 0 } }) := rfl

/-! ## FENDP (R405, R448; log 43) -/

theorem setEndpoint_fabric (s : State) (e : BitVec 13) : (s.setEndpoint e).fabric = { s.fabric with fendp := e } := by
  unfold State.setEndpoint
  dsimp only
  split
  next same =>
    have : s.fabric.fendp = e := BitVec.eq_of_toNat_eq (by simpa [State.here] using same)
    rw [← this]
  next => rfl

theorem setEndpoint_mgmt (s : State) (e : BitVec 13) : (s.setEndpoint e).mgmt = s.mgmt := by
  unfold State.setEndpoint
  dsimp only
  split <;> rfl

theorem ports_any_up (s : State) : s.fabric.ports.toList.any (·.up) = true ↔ ∃ k : Fin 16, (s.fabric.ports[k]).up = true := by
  rw [List.any_eq_true]
  constructor
  · rintro ⟨p, hp, up⟩
    obtain ⟨k, hk, rfl⟩ := List.mem_iff_getElem.1 hp
    exact ⟨⟨k, by simpa using hk⟩, by simpa using up⟩
  · rintro ⟨k, up⟩
    exact ⟨s.fabric.ports[k], by simp, up⟩

theorem fendpWrite_next {s : State} (val : Word) (powered : s.powered = true) (good : s.mgmt.err = false) :
    exec (.fendpWrite val) s = .next (s.writeFendp val) := by
  change execFendpWrite val s = _
  simp [execFendpWrite, powered, good]

theorem writeFendp_up {s : State} (val : Word) (h : ∃ k : Fin 16, (s.fabric.ports[k]).up = true) : s.writeFendp val = s :=
  if_pos ((ports_any_up s).2 h)

theorem writeFendp_fabric {s : State} (val : Word) (h : ∀ k : Fin 16, (s.fabric.ports[k]).up = false) :
    (s.writeFendp val).fabric = { s.fabric with
      fendp := val.setWidth 13
      ports := if s.mgmt.stage = 7 then s.fabric.ports.map fun p => { p with train := true } else s.fabric.ports } := by
  have down : ¬ s.fabric.ports.toList.any (·.up) = true := by
    rw [ports_any_up]
    rintro ⟨k, up⟩
    exact Bool.false_ne_true ((h k).symm.trans up)
  unfold State.writeFendp
  rw [if_neg down]
  dsimp only
  rw [setEndpoint_mgmt]
  by_cases stage : s.mgmt.stage = 7
  · simp only [stage, BEq.rfl, if_true, setEndpoint_fabric]
  · simp only [beq_eq_false_iff_ne.2 stage, stage, Bool.false_eq_true, if_false, setEndpoint_fabric]

/-- Settles O56: each event by its lemma, each register by what its write leaves there. -/
theorem taskAndRegisterEvents : Obligations.TaskAndRegisterEvents := by
  intro s u q task c die data val tq
  refine ⟨launch_accepted, fun up off hoff bad => launch_dropped up hoff bad, ?_, ?_, ?_, ?_, qcmaskWrite_next q val,
    fun bar off up => registerWrite_next off val up, ?_, writeReg_evstat s val, writeReg_pwrcap s val, writeReg_fgtbase s val, ?_,
    tlbInvalidate_next val, ?_, ?_, ?_⟩
  · intro r rest en fifo t
    rw [admission_next en]
    refine ⟨fun k chain h => ?_, fun h => ?_, fun n hn h => ?_⟩
    · rw [admitTask_ok fifo h]
      exact ⟨_, admitted u q r k chain, rfl, rfl, rfl, rfl, rfl, rfl, rfl, rfl⟩
    · rw [admitTask_wait fifo h]
    · have same := admitTask_refused fifo hn h
      exact ⟨_, rfl, same.tasks, (queueAt_congr same.queues q).trans (queueAt_modQueue ..)⟩
  · intro t l k w x rest ht hp hw free alone
    obtain ⟨u, adds⟩ := vlcCreate_adds ht hp hw free (runsTask_eq_false alone)
    exact ⟨_, _, adds, mem_addVlc u _, rfl, rfl, rfl, rfl, rfl, rfl⟩
  · intro t ht pending running settled counted silent
    have same := drainAll_sameTasks s
    refine ⟨_, taskComplete_counts ht pending running settled counted silent, ?_, ?_, rfl⟩
    · rw [modQueue_tasks, same.tasks]
    · rw [queueAt_modQueue]
      exact congrArg (fun x : TaskQueue => x.done + 1) (queueAt_congr same.queues t.queue)
  · intro up
    exact ⟨_, qctlWrite_next q val up, queueAt_writeQctl s q val, writeQctl_tasks s q val⟩
  · change (_ < tripOf val → _) ∧ (tripOf val ≤ _ → _)
    rw [writeReg_trip]
    exact ⟨fun below => checkTrip_below (by rwa [toNat_tripOf]), fun reached => checkTrip_reached (by rwa [toNat_tripOf])⟩
  · intro up empty
    rw [vpoolWrite_next val up, writeVpool_empty val empty]
    exact ⟨_, rfl, by simp, by simp⟩
  · intro asid va len go strips held flights
    refine ⟨_, tlbInvalidateDone_next go strips held flights, rfl, ?_, fun k e => dropTlb_cores, fun d e => dropTlb_dies, rfl⟩
    intro e he
    obtain ⟨x, -, rfl⟩ := List.mem_map.1 he
    rfl
  · exact ⟨_, lmclr_next s c, by simp⟩
  · intro powered good
    rw [fendpWrite_next val powered good]
    exact ⟨fun down => ⟨_, rfl, writeFendp_fabric val down⟩, fun up => by rw [writeFendp_up val up]⟩

end Sys2Proof.TasksAndRegisters
